-- ==== Sys2Proof/Word.lean ====
section
/-! DEFINITION. The widths of HUFF-CORE (00_scope.md R5, R6): every value is unsigned. -/

namespace Sys2Proof

/-- A symbol or a byte of the data space (R3, R5: SYM_BITS = 8). -/
abbrev Byte := BitVec 8

/-- A host-visible register, a command word, a frequency counter (R5: REG_BITS, FREQ_BITS = 32). -/
abbrev Word := BitVec 32

/-- A node weight or the payload bit-count (R5: WEIGHT_BITS, BITCNT_BITS = 64). -/
abbrev Dword := BitVec 64

end Sys2Proof
end

