-- ==== Sys2Proof/Config.lean ====
section
/-! DEFINITION. What is fixed for HUFF-CORE, the parameters a model takes (00_scope.md R5), and the
values the spec leaves open. -/

namespace Sys2Proof.Config

/-- The identification word of the ID register (10_state.md R22). -/
def idWord : Word := 0x48554631#32

/-- The data address space has this many byte addresses (20_memory.md R70). -/
abbrev addrSpace : Nat := 4294967296

/-- The register window has this many bytes (20_memory.md R70, 10_state.md section 2). -/
abbrev windowBytes : Nat := 0x5000

/-- The number of nodes the node store holds (00_scope.md R4, R5: MAX_NODES). -/
abbrev maxNodes : Nat := 511

/-- What a data address that nothing has written reads as. DESIGN CHOICE, unsafe (log 4): the spec
says "any value" (70_reset_and_hazards.md R320); 0x00 is what 95_test_vectors.md section 0 assumes. -/
def unwrittenByte : Byte := 0#8

/-- The values a host read while BUSY returns where R35 calls it unspecified. No body: nothing can
be proved of it. Applied to the counter `State.freeCount` (log 5). -/
opaque freeWord : Nat → Word

/-- The bytes of DST and TMP after a command aborted by a reset (R322: unspecified), by the counter
`State.freeCount` and the address (log 6). -/
opaque freeByte : Nat → Nat → Byte

/-- The addresses `lo` to `hi`, both included. -/
structure AddrRange where
  lo : Nat
  hi : Nat
deriving DecidableEq, Repr

/-- Does the address lie in one of the ranges? -/
def covers (rs : List AddrRange) (a : Nat) : Bool :=
  rs.any fun r => decide (r.lo ≤ a) && decide (a ≤ r.hi)

end Sys2Proof.Config

namespace Sys2Proof

/-- The rows of 00_scope.md R5 marked `parameter`, and the platform memory R78 excludes. They are
plain data that no step changes (log 3), so a statement about every state holds for every value of
them. A predicate on addresses is the list of the ranges where it is true. -/
structure Params where
  /-- HUFF_BASE: the host address of the register window (R5; OPEN; log 13). -/
  huffBase : Nat
  /-- BW_CAP less one, so that BW_CAP is 1 to 65535. -/
  bwCapPred : Fin 65535
  /-- BR_BLOCK less one, so that BR_BLOCK is 1 to 65535. -/
  brBlockPred : Fin 65535
  /-- Where BusErrRd is true (R73). -/
  busErrRd : List Config.AddrRange
  /-- Where BusErrWr is true (R73). -/
  busErrWr : List Config.AddrRange
  /-- Where the platform has memory with read side effects, or memory whose bytes change without a
  write (R78; log 9). -/
  sideEffects : List Config.AddrRange
deriving DecidableEq, Repr

/-- The output buffer's size in bytes (R5). -/
def Params.bwCap (p : Params) : Nat := p.bwCapPred.val + 1

/-- The block buffer's size in bytes (R5). -/
def Params.brBlock (p : Params) : Nat := p.brBlockPred.val + 1

/-- R5's values for "this spec's reference build": 16 and 16, and the default of BusErrRd and
BusErrWr, "false everywhere"; all memory is ordinary memory. R5 gives HUFF_BASE no value: 0 here is a
DESIGN CHOICE (log 13), and nothing but the host's addresses depends on it. -/
def Params.reference : Params where
  huffBase := 0
  bwCapPred := 15
  brBlockPred := 15
  busErrRd := []
  busErrWr := []
  sideEffects := []

end Sys2Proof
end

