-- ==== Sys2Proof/Syntax.lean ====
section
/-! DEFINITION. The commands (30_encoding.md R90, R91), the fields of a command word, the registers
of the window (10_state.md section 2) and the host's operations (30_encoding.md R120, R121). -/

namespace Sys2Proof

/-- The commands of R91, one constructor for each row of spec/opcode_table.json. They carry no
operands (R94); `pre` is the one modifier, of ENCODE. -/
inductive Instr where
  | nop
  | pack
  | unpack
  | ftClear
  | ftCount
  | treeBuild
  | treeSer
  | treeDeser
  | encRaw
  | decRaw
  | encode (pre : Bool)
  | decode
deriving DecidableEq, Repr

/-- The fields of a command word (R90): OPC is bits 7:0, PRE bit 8, RSVD bits 31:9. -/
structure CmdFields where
  opc : BitVec 8
  pre : Bool
  rsvd : BitVec 23
deriving DecidableEq, Repr

/-- What stands at an offset of the register window (10_state.md section 2). -/
inductive WinReg where
  | id | ctrl | status | cmd
  | srcBase | srcLen | dstBase | dstCap | tmpBase | tmpCap
  | outLen | srcPos | bitcntLo | bitcntHi | total | errInfo
  | treeNodes | treeLeaves | treeRoot | param
  | freq (s : Byte)
  | codeLen (s : Byte)
  | codeBits (s : Byte) (w : Fin 8)
  | node (i : Nat) (k : Fin 4)
  | reserved
deriving DecidableEq, Repr

/-- What the host, or the platform's reset input, does to the engine. `size` is the access width in
bytes and `off` the offset in the window: R120's `(write, offset, v)` and `(read, offset)`. -/
inductive HostOp where
  /-- `WR`: a write to the window. -/
  | write (size off : Nat) (v : Word)
  /-- `RD`: a read of the window. -/
  | read (size off : Nat)
  /-- `WAIT` (R121): repeat `RD STATUS` until bit 0 of the value read is 0. -/
  | wait
  /-- A write of a byte of the data space (20_memory.md R82, R84). -/
  | memWrite (a : Nat) (v : Byte)
  /-- A read of a byte of the data space (20_memory.md R83, R84). -/
  | memRead (a : Nat)
  /-- The platform asserts the reset input (70_reset_and_hazards.md R320). -/
  | hwReset
deriving DecidableEq, Repr

/-- The pseudo-operations of R121 (`ENCODE.PRE` is `cmd (.encode true)`). -/
inductive Pseudo where
  | cmd (i : Instr)
  | wait
  | run (i : Instr)
  | clr
  | srst
  | setSrc (base len : Word)
  | setDst (base cap : Word)
  | setTmp (base cap : Word)
  | setBc (n : Dword)
deriving DecidableEq, Repr

/-- The OPC of each command: the table of R91. -/
def Instr.opc : Instr → BitVec 8
  | .nop       => 0x00#8
  | .pack      => 0x10#8
  | .unpack    => 0x11#8
  | .ftClear   => 0x20#8
  | .ftCount   => 0x21#8
  | .treeBuild => 0x22#8
  | .treeSer   => 0x30#8
  | .treeDeser => 0x31#8
  | .encRaw    => 0x40#8
  | .decRaw    => 0x41#8
  | .encode _  => 0x50#8
  | .decode    => 0x51#8

/-- The PRE column of R91: 0 for every command but ENCODE. -/
def Instr.pre : Instr → Bool
  | .encode pre => pre
  | .nop | .pack | .unpack | .ftClear | .ftCount | .treeBuild | .treeSer | .treeDeser
  | .encRaw | .decRaw | .decode => false

/-- The fields of a command's word: RSVD is 0 (R90). -/
def Instr.fields (i : Instr) : CmdFields := ⟨i.opc, i.pre, 0⟩

end Sys2Proof
end

