-- ==== Sys2Proof/WellFormed.lean ====
section
/-! DEFINITION. Which command words select a command (30_encoding.md R91, R92) and which accesses
to the window lie inside the interface (10_state.md R47). -/

namespace Sys2Proof

/-- The OPC column of R91. -/
def knownOpcodes : List (BitVec 8) :=
  [0x00#8, 0x10#8, 0x11#8, 0x20#8, 0x21#8, 0x22#8, 0x30#8, 0x31#8, 0x40#8, 0x41#8, 0x50#8, 0x51#8]

/-- R92: no bit of RSVD is set. -/
def CmdFields.rsvdZero (f : CmdFields) : Bool := f.rsvd == 0

/-- R92: the OPC is in the table of R91. -/
def CmdFields.opcKnown (f : CmdFields) : Bool := knownOpcodes.contains f.opc

/-- R90, R92: PRE is legal only with OPC = 0x50. -/
def CmdFields.preLegal (f : CmdFields) : Bool := !f.pre || f.opc == 0x50#8

/-- The word selects a command (R91). -/
def CmdFields.wf (f : CmdFields) : Bool := f.rsvdZero && f.opcKnown && f.preLegal

/-- The command's word selects a command. -/
def Instr.wf (i : Instr) : Bool := i.fields.wf

/-- R47: a naturally aligned 32-bit access at an offset 0x000 to 0x4FFC. -/
def windowAccessOk (size off : Nat) : Bool :=
  size == 4 && off % 4 == 0 && decide (off < Config.windowBytes)

/-- The operation lies inside the interface: R47 for the window, R70 for the data space. -/
def HostOp.wf : HostOp → Bool
  | .write size off _ => windowAccessOk size off
  | .read size off => windowAccessOk size off
  | .memWrite a _ => decide (a < Config.addrSpace)
  | .memRead a => decide (a < Config.addrSpace)
  | .wait => true
  | .hwReset => true

end Sys2Proof
end

