-- ==== Sys2Proof/Decode.lean ====
section
/-! DEFINITION. Decoding and encoding of command words (30_encoding.md R90 to R93). -/

namespace Sys2Proof

/-- Why a word selects no command (R92). -/
inductive Reject where
  /-- A bit of RSVD (31:9) is set. -/
  | reservedBits
  /-- The OPC is not in the table of R91. -/
  | unknownOpcode
  /-- PRE is set with an OPC other than 0x50. -/
  | preNotLegal
deriving DecidableEq, Repr

/-- The fields of a word (R90). -/
def fieldsOfWord (w : Word) : CmdFields :=
  ⟨w.extractLsb' 0 8, w.getLsbD 8, w.extractLsb' 9 23⟩

/-- The word made of the fields (R90). -/
def wordOfFields (f : CmdFields) : Word :=
  f.rsvd ++ (BitVec.ofBool f.pre ++ f.opc)

/-- The row of R91 with this OPC; `pre` is the PRE bit of the word. -/
def rowOfOpcode (opc : BitVec 8) (pre : Bool) : Option Instr :=
  match opc.toNat with
  | 0x00 => some .nop
  | 0x10 => some .pack
  | 0x11 => some .unpack
  | 0x20 => some .ftClear
  | 0x21 => some .ftCount
  | 0x22 => some .treeBuild
  | 0x30 => some .treeSer
  | 0x31 => some .treeDeser
  | 0x40 => some .encRaw
  | 0x41 => some .decRaw
  | 0x50 => some (.encode pre)
  | 0x51 => some .decode
  | _ => none

/-- R91, R92: a word selects a command when RSVD = 0, its OPC is in the table, and PRE = 0 unless
the OPC is 0x50. -/
def decodeFields (f : CmdFields) : Except Reject Instr :=
  if f.rsvd ≠ 0 then .error .reservedBits
  else
    match rowOfOpcode f.opc f.pre with
    | none => .error .unknownOpcode
    | some i => if f.pre = true ∧ f.opc ≠ 0x50#8 then .error .preNotLegal else .ok i

/-- The command a 32-bit word selects, or why it selects none (R91 to R93). -/
def decode (w : Word) : Except Reject Instr := decodeFields (fieldsOfWord w)

/-- The command word of a command (R90, R91). -/
def encode (i : Instr) : Word := wordOfFields i.fields

/-- `decode` on an instruction numbered as spec/opcode_table.json numbers it: the low `nbits` bits
of `w`, the bits above them 0. A command is one 32-bit word written to CMD whole (R90, R93), so no
byte order enters (20_memory.md R79; log 14). -/
def decodeTableWord (nbits w : Nat) : Option Instr :=
  if w % 2 ^ nbits < 2 ^ 32 then
    match decode (BitVec.ofNat 32 (w % 2 ^ nbits)) with
    | .ok i => some i
    | .error _ => none
  else none

end Sys2Proof
end

