-- ==== Sys2Proof/Machine/State.lean ====
section
/-! DEFINITION. The state of HUFF-CORE (10_state.md; 70_reset_and_hazards.md R320), how a step can
stop, and the state after reset. -/

namespace Sys2Proof.Machine

/-- The sequencer's two states (10_state.md R20). -/
inductive Sequencer where
  | idle
  | busy
deriving DecidableEq, Repr

/-- The errors of 60_exceptions.md R290; code 0, NONE, is the absence of one. -/
inductive ErrKind where
  | io
  | corrupt
  | internal
  | illegal
  | seq
  | overflow
  | region
deriving DecidableEq, Repr

/-- `raise E_X(info)` (00_scope.md R7): which error, and the value ERR_INFO records. -/
structure Raise where
  kind : ErrKind
  info : Word
deriving DecidableEq, Repr

/-- The nodes of the node store (10_state.md R40), each with its index in the store: "each node
exclusively owns its two children; the tree is acyclic and finite". A child index of R40 is the
index its child carries (log 10). -/
inductive Tree where
  | leaf (idx : Nat) (sym : Byte) (weight : Dword)
  | node (idx : Nat) (zero one : Tree) (weight : Dword)
deriving DecidableEq, Repr

/-- The data address space (20_memory.md R70): addresses strictly rising, no entry equal to what an
unlisted address reads as (`Memory.wf`). -/
abbrev Memory := List Host.Cell

/-- FREQ[0..255] (10_state.md R36). -/
abbrev FreqTable := Vector Word 256

/-- CODE[0..255] (10_state.md R38, R39): the code of each symbol, first bit first; empty when the
symbol has none. CODE_LEN is the length. -/
abbrev CodeTable := Vector (List Bool) 256

/-- Every CODE_LEN 0 and every CODE_BITS 0. -/
def CodeTable.empty : CodeTable := Vector.replicate 256 []

/-- Why the machine stops with a fault. No command ever does: an error of the engine is a next state
(60_exceptions.md R291, R296). -/
inductive Fault where
  /-- Raised by a host access to a data address at or above 2^32, which does not exist
  (20_memory.md R70). Safe: the machine stops. -/
  | noSuchAddress
deriving DecidableEq, Repr

/-- Why the model gives the situation no meaning. -/
inductive Refusal where
  /-- Raised by an arm of `exec` whose command has no meaning yet. Safe: the machine stops. -/
  | notModelled (mnemonic : String)
  /-- Raised by a host access to the window that is not a naturally aligned 32-bit access at an
  offset below 0x5000 (10_state.md R47: "a model refuses it"). Safe. -/
  | windowAccess
  /-- Raised by a command whose regions overlap (20_memory.md R85: "a model refuses it"). Safe. -/
  | regionsOverlap
  /-- Raised by a command with a region on memory with read side effects (20_memory.md R78: "a
  model refuses it"). Safe. -/
  | regionSideEffects
  /-- Raised by a host access, while BUSY, to memory the running command uses (20_memory.md R84: "a
  model refuses it"). Safe. -/
  | memoryInUse
deriving DecidableEq, Repr

/-- Everything the spec gives the machine. The last five fields are the model's own. -/
structure State where
  /-- The parameters of 00_scope.md R5; no step changes them. -/
  params : Params
  /-- STATUS.BUSY (R20, R24). -/
  seq : Sequencer
  /-- CTRL.IRQ_EN (R23). -/
  irqEn : Bool
  /-- STATUS.DONE (R24). -/
  done : Bool
  /-- STATUS.ERR (R24). -/
  err : Bool
  /-- STATUS.OVR (R24). -/
  ovr : Bool
  /-- STATUS.ERR_CODE (R24, R290); `none` is code 0. -/
  errCode : Option ErrKind
  /-- CMD (R25). -/
  cmd : Word
  /-- SRC_BASE (R26). -/
  srcBase : Word
  /-- SRC_LEN (R26). -/
  srcLen : Word
  /-- DST_BASE (R26). -/
  dstBase : Word
  /-- DST_CAP (R26). -/
  dstCap : Word
  /-- TMP_BASE (R26). -/
  tmpBase : Word
  /-- TMP_CAP (R26). -/
  tmpCap : Word
  /-- OUT_LEN (R27). -/
  outLen : Word
  /-- SRC_POS (R28). -/
  srcPos : Word
  /-- BITCNT, both halves (R29). -/
  bitcnt : Dword
  /-- TOTAL (R30). -/
  total : Word
  /-- ERR_INFO (R31). -/
  errInfo : Word
  /-- FREQ (R36). -/
  freq : FreqTable
  /-- The node store and TREE_VALID (R40, R42): `none` when TREE_VALID = 0. -/
  tree : Option Tree
  /-- The code table (R38, R39, R44). -/
  codes : CodeTable
  /-- The data address space (20_memory.md R70). -/
  mem : Memory
  /-- The host accesses still to come, oldest first (log 2). -/
  host : List HostOp
  /-- What the last host read returned (log 2). -/
  rdata : Word
  /-- How many more host accesses are served before the running command executes (R337; log 1). -/
  lag : Nat
  /-- The `lag` of the commands still to be issued, in order (R337; log 1). -/
  lags : List Nat
  /-- The counter the free values are applied to (log 5). -/
  freeCount : Nat
deriving DecidableEq, Repr

/-- The state after reset (70_reset_and_hazards.md R320): every register and table at the value of
its table, memory with nothing listed (log 4), the reference build's parameters (log 3), and no host
access waiting (log 2). -/
def State.reset : State where
  params := Params.reference
  seq := .idle
  irqEn := false
  done := false
  err := false
  ovr := false
  errCode := none
  cmd := 0
  srcBase := 0
  srcLen := 0
  dstBase := 0
  dstCap := 0
  tmpBase := 0
  tmpCap := 0
  outLen := 0
  srcPos := 0
  bitcnt := 0
  total := 0
  errInfo := 0
  freq := Vector.replicate 256 0
  tree := none
  codes := CodeTable.empty
  mem := []
  host := []
  rdata := 0
  lag := 0
  lags := []
  freeCount := 0

end Sys2Proof.Machine
end

