-- ==== Sys2Proof/Machine/Operands.lean ====
section
/-! DEFINITION. Operands: the regions a command uses (20_memory.md R71 to R74), the tables' entries,
the node store's windows, and what stands at each offset of the register window (10_state.md). -/

namespace Sys2Proof.Machine

/-! ### Regions -/

/-- The three regions of R71. -/
inductive Region where
  | src
  | dst
  | tmp
deriving DecidableEq, Repr

/-- A region's first address (R71). -/
def State.regionBase (s : State) : Region → Nat
  | .src => s.srcBase.toNat
  | .dst => s.dstBase.toNat
  | .tmp => s.tmpBase.toNat

/-- A region's size in bytes (R71). -/
def State.regionSize (s : State) : Region → Nat
  | .src => s.srcLen.toNat
  | .dst => s.dstCap.toNat
  | .tmp => s.tmpCap.toNat

/-- The window offset of a region's base register, which E_REGION records (40_command.md R133). -/
def Region.baseOffset : Region → Word
  | .src => 0x010
  | .dst => 0x018
  | .tmp => 0x020

/-- The regions a command reads: the table of R74. -/
def readRegions : Instr → List Region
  | .nop | .ftClear | .treeBuild | .treeSer => []
  | .pack | .unpack | .encRaw | .decRaw | .ftCount | .treeDeser | .decode => [.src]
  | .encode _ => [.src, .tmp]

/-- The regions a command writes: the table of R74. -/
def writeRegions : Instr → List Region
  | .nop | .ftClear | .treeBuild | .ftCount | .treeDeser => []
  | .pack | .unpack | .encRaw | .decRaw | .treeSer | .decode => [.dst]
  | .encode _ => [.tmp, .dst]

/-- Does the command use the region (R74)? ENCODE uses TMP also when it would not touch it
(40_command.md R133). -/
def usesRegion (i : Instr) (r : Region) : Bool :=
  (readRegions i).contains r || (writeRegions i).contains r

/-- The regions a command uses, in the order SRC, DST, TMP of R133. -/
def usedRegions (i : Instr) : List Region := [.src, .dst, .tmp].filter (usesRegion i)

/-- R72: `base + size <= 2^32`, without wrap-around. -/
def State.regionValid (s : State) (r : Region) : Bool :=
  decide (s.regionBase r + s.regionSize r ≤ Config.addrSpace)

/-- The address lies in the region (R71). -/
def State.inRegion (s : State) (r : Region) (a : Nat) : Bool :=
  decide (s.regionBase r ≤ a) && decide (a < s.regionBase r + s.regionSize r)

/-- R85: no address is in both; a region of size 0 is disjoint from every region. -/
def State.disjoint (s : State) (r q : Region) : Bool :=
  decide (s.regionSize r = 0) || decide (s.regionSize q = 0) ||
    decide (s.regionBase r + s.regionSize r ≤ s.regionBase q) ||
    decide (s.regionBase q + s.regionSize q ≤ s.regionBase r)

/-- R85: the regions the command uses are pairwise disjoint. -/
def State.regionsDisjoint (s : State) (i : Instr) : Bool :=
  let both r q := usesRegion i r && usesRegion i q
  (!both .src .dst || s.disjoint .src .dst) && (!both .src .tmp || s.disjoint .src .tmp) &&
    (!both .dst .tmp || s.disjoint .dst .tmp)

/-- R78: a region on memory with read side effects (log 9). -/
def State.regionHasSideEffects (s : State) (r : Region) : Bool :=
  s.params.sideEffects.any fun q =>
    decide (0 < s.regionSize r) && decide (q.lo ≤ q.hi) && decide (q.lo < s.regionBase r + s.regionSize r) &&
      decide (s.regionBase r ≤ q.hi)

/-! ### Tables -/

/-- An entry of a table with one entry for each symbol (R36, R38). -/
def lookup {α : Type} (t : Vector α 256) (s : Byte) : α := t[s.toNat]'s.isLt

/-- A table with one entry changed. -/
def update {α : Type} (t : Vector α 256) (s : Byte) (v : α) : Vector α 256 := t.set s.toNat v s.isLt

/-- At most `n` bits, most significant first, as an `n`-bit number whose missing low bits are 0: a
packed byte (30_encoding.md R95) with `n = 8`, a CODE_BITS word (R39) with `n = 32`. -/
def msbFirst : Nat → List Bool → Nat
  | 0, _ => 0
  | _, [] => 0
  | n + 1, b :: bs => (if b then 2 ^ n else 0) + msbFirst n bs

/-- CODE_BITS[s][w]: bit j of the code is bit `31 - (j mod 32)` of word `j div 32` (R39). -/
def codeWord (code : List Bool) (w : Nat) : Word := BitVec.ofNat 32 (msbFirst 32 (code.drop (32 * w)))

/-- The 64-bit BITCNT_HI ++ BITCNT_LO (R29). -/
def bitcntOf (hi lo : Word) : Dword := hi ++ lo

/-! ### The node store (R32, R40, R41) -/

namespace Tree

/-- The node's index in the store. -/
def idx : Tree → Nat
  | .leaf i _ _ => i
  | .node i _ _ _ => i

/-- The node's weight. -/
def weight : Tree → Dword
  | .leaf _ _ w => w
  | .node _ _ _ w => w

/-- The number of nodes (TREE_NODES, R32). -/
def size : Tree → Nat
  | .leaf _ _ _ => 1
  | .node _ z o _ => 1 + z.size + o.size

/-- The number of leaves (TREE_LEAVES, R32). -/
def leaves : Tree → Nat
  | .leaf _ _ _ => 1
  | .node _ z o _ => z.leaves + o.leaves

/-- NODE[i]: the node with index `i`, if the store holds one. -/
def find (i : Nat) : Tree → Option Tree
  | .leaf j s w => if j = i then some (.leaf j s w) else none
  | .node j z o w => if j = i then some (.node j z o w) else (z.find i).or (o.find i)

/-- Word `k` of NODE[i] (R41). -/
def word (t : Tree) (k : Nat) : Word :=
  match t, k with
  | .leaf _ sym _, 0 => 1#1 ++ (0#23 ++ sym)
  | .node _ _ _ _, 0 => 0
  | .leaf _ _ _, 1 => 0
  | .node _ z o _, 1 => 0#7 ++ (BitVec.ofNat 9 o.idx ++ (0#7 ++ BitVec.ofNat 9 z.idx))
  | t, 2 => t.weight.extractLsb' 0 32
  | t, _ => t.weight.extractLsb' 32 32

end Tree

/-! ### The register window -/

/-- What stands at an offset below 0x5000 that is a multiple of 4 (the table of 10_state.md
section 2, R34, R37 to R41). -/
def winRegAt (off : Nat) : WinReg :=
  if off < 0x050 then
    match off / 4 with
    | 0 => .id | 1 => .ctrl | 2 => .status | 3 => .cmd
    | 4 => .srcBase | 5 => .srcLen | 6 => .dstBase | 7 => .dstCap | 8 => .tmpBase | 9 => .tmpCap
    | 10 => .outLen | 11 => .srcPos | 12 => .bitcntLo | 13 => .bitcntHi | 14 => .total | 15 => .errInfo
    | 16 => .treeNodes | 17 => .treeLeaves | 18 => .treeRoot | _ => .param
  else if off < 0x400 then .reserved
  else if off < 0x800 then .freq (BitVec.ofNat 8 ((off - 0x400) / 4))
  else if off < 0xC00 then .codeLen (BitVec.ofNat 8 ((off - 0x800) / 4))
  else if off < 0x1000 then .reserved
  else if off < 0x3000 then
    .codeBits (BitVec.ofNat 8 ((off - 0x1000) / 32)) (Fin.ofNat 8 ((off - 0x1000) / 4))
  else if off < 0x4FF0 then .node ((off - 0x3000) / 16) (Fin.ofNat 4 ((off - 0x3000) / 4))
  else .reserved

/-- The offset of a register (the same table); a reserved offset has no name of its own and gives
the first of them. -/
def offsetOf : WinReg → Nat
  | .id => 0x000 | .ctrl => 0x004 | .status => 0x008 | .cmd => 0x00C
  | .srcBase => 0x010 | .srcLen => 0x014 | .dstBase => 0x018 | .dstCap => 0x01C
  | .tmpBase => 0x020 | .tmpCap => 0x024 | .outLen => 0x028 | .srcPos => 0x02C
  | .bitcntLo => 0x030 | .bitcntHi => 0x034 | .total => 0x038 | .errInfo => 0x03C
  | .treeNodes => 0x040 | .treeLeaves => 0x044 | .treeRoot => 0x048 | .param => 0x04C
  | .freq s => 0x400 + 4 * s.toNat
  | .codeLen s => 0x800 + 4 * s.toNat
  | .codeBits s w => 0x1000 + 32 * s.toNat + 4 * w.val
  | .node i k => 0x3000 + 16 * i + 4 * k.val
  | .reserved => 0x050

end Sys2Proof.Machine
end

