-- ==== Sys2Proof/Machine/Flags.lean ====
section
/-! DEFINITION. STATUS, CTRL and the interrupt output (10_state.md R23, R24; 60_exceptions.md R290,
R300). -/

namespace Sys2Proof.Machine

/-- The number of an error (60_exceptions.md R290). -/
def ErrKind.code : ErrKind → BitVec 4
  | .io => 1
  | .corrupt => 2
  | .internal => 3
  | .illegal => 4
  | .seq => 5
  | .overflow => 6
  | .region => 7

/-- STATUS.ERR_CODE: 0 while no error is recorded (R290). -/
def errCodeBits : Option ErrKind → BitVec 4
  | none => 0
  | some k => k.code

/-- STATUS.BUSY (R20, R24). -/
def State.busy (s : State) : Bool := s.seq == .busy

/-- STATUS.TREE_VALID (R42). -/
def State.treeValid (s : State) : Bool := s.tree.isSome

/-- The word a read of STATUS returns: BUSY 0, DONE 1, ERR 2, OVR 3, TREE_VALID 4, ERR_CODE 11:8,
every other bit 0 (R24). -/
def State.statusWord (s : State) : Word :=
  0#20 ++ (errCodeBits s.errCode ++ (0#3 ++ (BitVec.ofBool s.treeValid ++
    (BitVec.ofBool s.ovr ++ (BitVec.ofBool s.err ++ (BitVec.ofBool s.done ++ BitVec.ofBool s.busy))))))

/-- The word a read of CTRL returns: IRQ_EN is bit 1, SRST reads 0 (R23). -/
def State.ctrlWord (s : State) : Word := 0#30 ++ (BitVec.ofBool s.irqEn ++ 0#1)

/-- The interrupt output: `IRQ_EN and (DONE or ERR)` (60_exceptions.md R300). -/
def State.irq (s : State) : Bool := s.irqEn && (s.done || s.err)

/-- A host write to STATUS: writing 1 clears DONE (bit 1), ERR with ERR_CODE and ERR_INFO (bit 2)
and OVR (bit 3); no other bit has an effect (R24, R31). -/
def State.writeStatus (v : Word) (s : State) : State :=
  { s with
    done := s.done && !v.getLsbD 1
    err := s.err && !v.getLsbD 2
    errCode := if v.getLsbD 2 then none else s.errCode
    errInfo := if v.getLsbD 2 then 0 else s.errInfo
    ovr := s.ovr && !v.getLsbD 3 }

end Sys2Proof.Machine
end

