-- ==== Sys2Proof/Machine/Ops.lean ====
section
/-! DEFINITION. The named operations: the data space (20_memory.md R73), issue, completion and error
entry (40_command.md R130 to R137), the return from an error (60_exceptions.md R297), and reset
(70_reset_and_hazards.md R320 to R322). -/

namespace Sys2Proof.Machine

/-! ### The data address space -/

namespace Memory

/-- The byte at an address; what an unlisted address reads as is `Config.unwrittenByte` (log 4). -/
def read : Memory → Nat → Byte
  | [], _ => Config.unwrittenByte
  | (x, b) :: m, a => if x = a then b else read m a

/-- The memory with the byte at an address replaced, in the same canonical form. -/
def write : Memory → Nat → Byte → Memory
  | [], a, v => if v = Config.unwrittenByte then [] else [(a, v)]
  | (x, b) :: m, a, v =>
    if x < a then (x, b) :: write m a v
    else if x = a then (if v = Config.unwrittenByte then m else (a, v) :: m)
    else if v = Config.unwrittenByte then (x, b) :: m
    else (a, v) :: (x, b) :: m

/-- The canonical form: addresses strictly rising and inside the data space (R70), no entry equal to
what an unlisted address reads as. -/
def wf : Memory → Bool
  | [] => true
  | (a, v) :: m =>
    decide (v ≠ Config.unwrittenByte) && decide (a < Config.addrSpace) && m.all (fun c => decide (a < c.1)) && wf m

/-- The `n` bytes from an address on, lowest address first. -/
def bytes (m : Memory) (a : Nat) : Nat → List Byte
  | 0 => []
  | n + 1 => m.read a :: bytes m (a + 1) n

/-- The memory with a sequence of bytes written from an address on, lowest address first. -/
def writeBytes (m : Memory) (a : Nat) : List Byte → Memory
  | [] => m
  | v :: vs => writeBytes (m.write a v) (a + 1) vs

/-- The memory with the `n` bytes from `base` on replaced by free bytes (R322; log 6). -/
def havoc (count : Nat) (m : Memory) (base : Nat) : Nat → Memory
  | 0 => m
  | n + 1 => (havoc count m base n).write (base + n) (Config.freeByte count (base + n))

end Memory

/-- BusErrRd(a) (00_scope.md R5, 20_memory.md R73). -/
def busErrRd (p : Params) (a : Nat) : Bool := Config.covers p.busErrRd a

/-- BusErrWr(a) (00_scope.md R5, 20_memory.md R73). -/
def busErrWr (p : Params) (a : Nat) : Bool := Config.covers p.busErrWr a

/-- `raise E_X(info)` for a natural number `info`, of which ERR_INFO keeps the low 32 bits
(40_command.md R136). -/
def raise (k : ErrKind) (info : Nat) : Raise := ⟨k, BitVec.ofNat 32 info⟩

/-- `MemRead(a, 1)` (R73). -/
def memRead (p : Params) (m : Memory) (a : Nat) : Except Raise Byte :=
  if busErrRd p a then .error (raise .io a) else .ok (m.read a)

/-- `MemWrite(a, 1, v)` (R73): "A failed write does not change the byte". -/
def memWrite (p : Params) (m : Memory) (a : Nat) (v : Byte) : Except Raise Memory :=
  if busErrWr p a then .error (raise .io a) else .ok (m.write a v)

/-! ### The result of a part of a procedure -/

/-- A part of a command's procedure ends with a value or with a `raise`; `μ` is what it may change,
and what it changed before the raise stays changed (00_scope.md R8, 40_command.md R137). -/
inductive Res (μ α : Type) where
  | ok (m : μ) (a : α)
  | raised (m : μ) (r : Raise)
deriving DecidableEq, Repr

/-- Go on with the rest of the procedure, or end it at the raise (R8). -/
def Res.bind {μ α β : Type} (x : Res μ α) (f : μ → α → Res μ β) : Res μ β :=
  match x with
  | .ok m a => f m a
  | .raised m r => .raised m r

/-! ### The life cycle of a command (40_command.md) -/

/-- Successful completion (R135): the result registers are already written. -/
def State.complete (s : State) : State := { s with seq := .idle, done := true }

/-- Completion with an error: R136, the whole of an error's entry (60_exceptions.md R296). -/
def State.raiseErr (r : Raise) (s : State) : State :=
  { s with seq := .idle, err := true, errCode := some r.kind, errInfo := r.info }

/-- The host's return from an error by a write of 1 to STATUS.ERR (60_exceptions.md R297). -/
def State.clearErr (s : State) : State := s.writeStatus 0x4

/-- Issue of the word `w` (R130). `lag` is the number of host accesses served before the command
executes (R337; log 1). -/
def State.issue (w : Word) (s : State) : State :=
  { s with
    cmd := w
    done := false
    err := false
    errCode := none
    errInfo := 0
    seq := .busy
    lag := s.lags.headD 0
    lags := s.lags.tail }

/-- The precondition of R133: a tree for TREE_SER, ENC_RAW and DEC_RAW, a symbol with a non-zero
count for TREE_BUILD, none for the others. -/
def precondition (i : Instr) (s : State) : Bool :=
  match i with
  | .treeSer | .encRaw | .decRaw => s.treeValid
  | .treeBuild => s.freq.toList.any (· != 0)
  | .nop | .pack | .unpack | .ftClear | .ftCount | .treeDeser | .encode _ | .decode => true

/-- The checks of `Start` (R133) after the word has been found to select the command `i`: the
regions it uses in the order SRC, DST, TMP, then the precondition. -/
def startCheck (i : Instr) (s : State) : Option Raise :=
  match (usedRegions i).find? fun r => !s.regionValid r with
  | some r => some ⟨.region, r.baseOffset⟩
  | none => if precondition i s then none else some ⟨.seq, 0⟩

/-- How a command starts. -/
inductive Start where
  | run
  | raise (r : Raise)
  | refuse (r : Refusal)
deriving DecidableEq, Repr

/-- The start of a command: the checks of R133, and then the two conditions of 20_memory.md that the
engine does not check and a model refuses to do without, R85 and R78 (log 7). -/
def startResult (i : Instr) (s : State) : Start :=
  match startCheck i s with
  | some r => .raise r
  | none =>
    if !s.regionsDisjoint i then .refuse .regionsOverlap
    else if (usedRegions i).any s.regionHasSideEffects then .refuse .regionSideEffects
    else .run

/-- A command: its start, then its procedure `body` (R133, R134). -/
def runCommand (i : Instr) (s : State) (body : State → State) : Host.Outcome State Fault Refusal :=
  match startResult i s with
  | .raise r => .next (s.raiseErr r)
  | .refuse r => .refused r
  | .run => .next (body s)

/-- The command the word in CMD selects (30_encoding.md R91, 10_state.md R25). -/
def State.fetch (s : State) : Except Reject Instr := decode s.cmd

/-- A word that selects no command: E_ILLEGAL with ERR_INFO = the word, and no other effect (R133,
30_encoding.md R92). -/
def State.illegalCommand (s : State) : State := s.raiseErr ⟨.illegal, s.cmd⟩

/-! ### Reset (70_reset_and_hazards.md) -/

/-- Every register and table of the engine at its value of R320. The data space, the parameters and
the model's own fields `host`, `rdata`, `lags` and `freeCount` are not the engine's. -/
def State.engineReset (s : State) : State :=
  { State.reset with
    params := s.params
    mem := s.mem
    host := s.host
    rdata := s.rdata
    lags := s.lags
    freeCount := s.freeCount }

/-- The regions whose bytes a command aborted now might have written (R322): none when its start
checks fail, or when the word selects none. DESIGN CHOICE (log 22): a command that a model refuses at its
execution (R85, R78) is aborted like any other, and might have written the regions it writes. -/
def State.abortedRegions (s : State) : List Region :=
  match s.fetch with
  | .error _ => []
  | .ok i => if (startCheck i s).isSome then [] else writeRegions i

/-- The free bytes an aborted command leaves in the regions it might have written (R322; log 6). -/
def State.havocRegions (s : State) (rs : List Region) : Memory :=
  rs.foldl (fun m r => m.havoc s.freeCount (s.regionBase r) (s.regionSize r)) s.mem

/-- A reset, by the reset input (R320) or by CTRL.SRST (R321), in IDLE or BUSY. While BUSY it aborts
the running command (R322), which leaves every byte it might have written unspecified. DESIGN CHOICE
(log 22): so is a command whose regions overlap or lie on memory with read side effects, which a model
refuses (R85, R78) and this one refuses where it executes: a reset before that ends it. -/
def State.applyReset (s : State) : State :=
  match s.seq with
  | .idle => s.engineReset
  | .busy => { s.engineReset with mem := s.havocRegions s.abortedRegions, freeCount := s.freeCount + 1 }

end Sys2Proof.Machine
end

