-- ==== Sys2Proof/Machine/Channels.lean ====
section
/-! DEFINITION. The source channel and the output channel of the bit-stream accumulator
(41_bitstream.md R150 to R162). A channel lives inside one command, so it is a value the procedure
passes on, not a field of State (R150; log 12). -/

namespace Sys2Proof.Machine

/-! ### Source channel -/

/-- R151: `off` is the offset of the next byte not yet fetched, `buf` the block buffer, `pos` the
number of bytes consumed, `cur` and `nb` the byte being split into bits and its bits left. -/
structure SrcCh where
  base : Nat
  len : Nat
  off : Nat
  buf : List Byte
  pos : Nat
  cur : Byte
  nb : Nat
deriving DecidableEq, Repr

/-- `SrcOpen(base, len)` (R151). -/
def srcOpen (base len : Nat) : SrcCh := ⟨base, len, 0, [], 0, 0, 0⟩

/-- The `k` bytes from `a` on, fetched in increasing address order (R152); the first bus error ends
it. -/
def fetchBlock (p : Params) (m : Memory) (a : Nat) : Nat → Except Raise (List Byte)
  | 0 => .ok []
  | k + 1 =>
    match memRead p m a with
    | .error r => .error r
    | .ok v =>
      match fetchBlock p m (a + 1) k with
      | .error r => .error r
      | .ok vs => .ok (v :: vs)

/-- `Refill(ch)` (R152): "A refill that raises delivers none of its bytes". -/
def refill (p : Params) (m : Memory) (ch : SrcCh) : Except Raise SrcCh :=
  let k := min p.brBlock (ch.len - ch.off)
  match fetchBlock p m (ch.base + ch.off) k with
  | .error r => .error r
  | .ok t => .ok { ch with buf := t, off := ch.off + k }

/-- `SrcByte(ch)` (R153); `none` is END. -/
def srcByte (p : Params) (m : Memory) (ch : SrcCh) : Except Raise (Option Byte × SrcCh) :=
  match ch.buf with
  | v :: vs => .ok (some v, { ch with buf := vs, pos := ch.pos + 1 })
  | [] =>
    match refill p m ch with
    | .error r => .error r
    | .ok ch =>
      match ch.buf with
      | [] => .ok (none, ch)
      | v :: vs => .ok (some v, { ch with buf := vs, pos := ch.pos + 1 })

/-- The next bit of the byte being split: bit 7, most significant first (R154). -/
def takeBit (ch : SrcCh) : Bool × SrcCh :=
  (ch.cur.getLsbD 7, { ch with cur := ch.cur <<< 1, nb := ch.nb - 1 })

/-- `SrcBit(ch)` (R154); `none` is END. -/
def srcBit (p : Params) (m : Memory) (ch : SrcCh) : Except Raise (Option Bool × SrcCh) :=
  if ch.nb = 0 then
    match srcByte p m ch with
    | .error r => .error r
    | .ok (none, ch) => .ok (none, ch)
    | .ok (some v, ch) =>
      let (b, ch) := takeBit { ch with cur := v, nb := 8 }
      .ok (some b, ch)
  else
    let (b, ch) := takeBit ch
    .ok (some b, ch)

/-! ### Output channel -/

/-- R156: `n` is the number of bytes written to memory, `buf` the completed bytes not yet written,
`acc` and `k` the partial byte and its number of bits, `bits` the bits pushed (at most
255 · (2^32 − 1), 00_scope.md R9). -/
structure OutCh where
  base : Nat
  cap : Nat
  n : Nat
  buf : List Byte
  acc : Byte
  k : Nat
  bits : Nat
deriving DecidableEq, Repr

/-- `OutOpen(base, cap)` (R156). -/
def outOpen (base cap : Nat) : OutCh := ⟨base, cap, 0, [], 0, 0, 0⟩

/-- The loop of `Drain` (R159): byte `n` of the region next, the capacity check before the write. The
result is the number of bytes written so far. -/
def drainBytes (p : Params) (base cap : Nat) (m : Memory) (n : Nat) : List Byte → Res Memory Nat
  | [] => .ok m n
  | v :: vs =>
    let a := (base + n) % Config.addrSpace
    if cap ≤ n then .raised m (raise .io a)
    else
      match memWrite p m a v with
      | .error r => .raised m r
      | .ok m => drainBytes p base cap m (n + 1) vs

/-- `Drain(ch)` (R159). -/
def drain (p : Params) (m : Memory) (ch : OutCh) : Res Memory OutCh :=
  (drainBytes p ch.base ch.cap m ch.n ch.buf).bind fun m n => .ok m { ch with n := n, buf := [] }

/-- `OutByte(ch, v)` (R157). -/
def outByte (p : Params) (m : Memory) (ch : OutCh) (v : Byte) : Res Memory OutCh :=
  let ch := { ch with buf := ch.buf ++ [v] }
  if ch.buf.length = p.bwCap then drain p m ch else .ok m ch

/-- `OutBit(ch, b)` (R158). -/
def outBit (p : Params) (m : Memory) (ch : OutCh) (b : Bool) : Res Memory OutCh :=
  let acc := (ch.acc <<< 1) ||| (BitVec.ofBool b).setWidth 8
  let ch := { ch with acc := acc, k := ch.k + 1, bits := ch.bits + 1 }
  if ch.k = 8 then outByte p m { ch with acc := 0, k := 0 } acc else .ok m ch

/-- `OutFlush(ch)` (R160). -/
def outFlush (p : Params) (m : Memory) (ch : OutCh) : Res Memory OutCh :=
  if 0 < ch.k then
    (outByte p m { ch with acc := 0, k := 0 } (ch.acc <<< (8 - ch.k))).bind fun m ch => drain p m ch
  else drain p m ch

/-- `OutByte` for each byte of a sequence, in order. -/
def outBytes (p : Params) (m : Memory) (ch : OutCh) : List Byte → Res Memory OutCh
  | [] => .ok m ch
  | v :: vs => (outByte p m ch v).bind fun m ch => outBytes p m ch vs

/-- `OutBit` for each bit of a sequence, in order. -/
def outBits (p : Params) (m : Memory) (ch : OutCh) : List Bool → Res Memory OutCh
  | [] => .ok m ch
  | b :: bs => (outBit p m ch b).bind fun m ch => outBits p m ch bs

/-! ### Packed sequences (30_encoding.md R95) -/

/-- The packed form of a bit sequence: eight bits a byte, most significant first, the last byte
padded with zeros (R95). -/
def packBits : List Bool → List Byte
  | [] => []
  | b0 :: b1 :: b2 :: b3 :: b4 :: b5 :: b6 :: b7 :: bs =>
    BitVec.ofNat 8 (msbFirst 8 [b0, b1, b2, b3, b4, b5, b6, b7]) :: packBits bs
  | bs => [BitVec.ofNat 8 (msbFirst 8 bs)]

/-- The bits of a byte sequence in the order SrcBit yields them (R154, R75). -/
def bitsOfBytes (vs : List Byte) : List Bool :=
  vs.flatMap fun v => (List.range 8).map fun j => v.getLsbD (7 - j)

end Sys2Proof.Machine
end

