-- ==== Sys2Proof/Machine/Accumulator.lean ====
section
/-! DEFINITION. The bit-stream accumulator's commands: PACK and UNPACK (41_bitstream.md section 3). -/

namespace Sys2Proof.Machine

/-- The loop of PACK (R165) with `n` bytes to go, byte `i` next: a byte of the unpacked form
(30_encoding.md R96) is 0x00 or 0x01. SrcByte "never" answers END here; the loop would end (log 11). -/
def packLoop (p : Params) : Nat → Nat → SrcCh → Memory → OutCh → Res Memory OutCh
  | 0, _, _, m, out => .ok m out
  | n + 1, i, src, m, out =>
    match srcByte p m src with
    | .error r => .raised m r
    | .ok (none, _) => .ok m out
    | .ok (some v, src) =>
      if 1 < v.toNat then .raised m (raise .illegal i)
      else (outBit p m out (v.getLsbD 0)).bind fun m out => packLoop p n (i + 1) src m out

/-- PACK's procedure (R165). -/
def packBody (s : State) : State :=
  let src := srcOpen s.srcBase.toNat s.srcLen.toNat
  let out := outOpen s.dstBase.toNat s.dstCap.toNat
  match (packLoop s.params s.srcLen.toNat 0 src s.mem out).bind fun m out => outFlush s.params m out with
  | .raised m r => { s with mem := m }.raiseErr r
  | .ok m out =>
    { s with mem := m, bitcnt := s.srcLen.setWidth 64, outLen := BitVec.ofNat 32 out.n }.complete

/-- PACK (R165): the bits of SRC, one a byte, packed into DST. -/
def execPack (s : State) : Host.Outcome State Fault Refusal := runCommand .pack s packBody

/-- The loop of UNPACK (R166) with `n` bits to go. A source shorter than the declared count raises
E_CORRUPT(SRC_LEN). -/
def unpackLoop (p : Params) : Nat → SrcCh → Memory → OutCh → Res Memory OutCh
  | 0, _, m, out => .ok m out
  | n + 1, src, m, out =>
    match srcBit p m src with
    | .error r => .raised m r
    | .ok (none, src) => .raised m (raise .corrupt src.len)
    | .ok (some b, src) =>
      (outByte p m out ((BitVec.ofBool b).setWidth 8)).bind fun m out => unpackLoop p n src m out

/-- UNPACK's procedure (R166). -/
def unpackBody (s : State) : State :=
  let src := srcOpen s.srcBase.toNat s.srcLen.toNat
  let out := outOpen s.dstBase.toNat s.dstCap.toNat
  match (unpackLoop s.params s.bitcnt.toNat src s.mem out).bind fun m out => outFlush s.params m out with
  | .raised m r => { s with mem := m }.raiseErr r
  | .ok m out => { s with mem := m, outLen := BitVec.ofNat 32 out.n }.complete

/-- UNPACK (R166): BITCNT bits of SRC, one a byte, into DST. -/
def execUnpack (s : State) : Host.Outcome State Fault Refusal := runCommand .unpack s unpackBody

end Sys2Proof.Machine
end

