-- ==== Sys2Proof/Machine/Trees.lean ====
section
/-! DEFINITION. The frequency counters, the tree builder and the code table (42_tree.md R180 to
R190). -/

namespace Sys2Proof.Machine

/-! ### Counting -/

/-- FREQ and TOTAL, which Clear and Count change (R181, R182). -/
structure Counters where
  freq : FreqTable
  total : Word
deriving DecidableEq, Repr

/-- `Clear()` (R181). -/
def Counters.clear : Counters := ⟨Vector.replicate 256 0, 0⟩

/-- One byte tallied (R182): FREQ[b] and TOTAL each go up by 1. -/
def Counters.tally (c : Counters) (b : Byte) : Counters :=
  ⟨update c.freq b (lookup c.freq b + 1), c.total + 1⟩

/-- A counter of the byte is at its limit (R182): the tally would carry it past 2^32 - 1. -/
def Counters.full (c : Counters) (b : Byte) : Bool :=
  decide (lookup c.freq b = 0xFFFFFFFF#32) || decide (c.total = 0xFFFFFFFF#32)

/-- The loop of Count (R182) with `n` bytes to go, byte `i` next. The counters are updated byte by
byte in place (R183). SrcByte "never" answers END here; the loop would end (log 11). -/
def countLoop (p : Params) (m : Memory) : Nat → Nat → SrcCh → Counters → Res Counters Unit
  | 0, _, _, c => .ok c ()
  | n + 1, i, src, c =>
    match srcByte p m src with
    | .error r => .raised c r
    | .ok (none, _) => .ok c ()
    | .ok (some b, src) =>
      if c.full b then .raised c (raise .overflow i)
      else countLoop p m n (i + 1) src (c.tally b)

/-- `Count()` (R182): one pass over SRC. -/
def count (s : State) (c : Counters) : Res Counters Unit :=
  countLoop s.params s.mem s.srcLen.toNat 0 (srcOpen s.srcBase.toNat s.srcLen.toNat) c

/-! ### The tree builder -/

/-- The builder's input (R185): the symbols with a non-zero count, in increasing symbol order. -/
def presentSyms (freq : FreqTable) : List (Byte × Word) :=
  (freq.toList.zipIdx.map fun q => (BitVec.ofNat 8 q.2, q.1)).filter fun q => q.2 != 0

/-- The leaves (R186): indices 0 to n-1 in increasing symbol order, weights `zext_64(FREQ)`. -/
def builderLeaves (freq : FreqTable) : List Tree :=
  (presentSyms freq).zipIdx.map fun q => .leaf q.2 q.1.1 (q.1.2.setWidth 64)

/-- The key order of the priority structure (R186): lexicographic, weight first, then the index. -/
def keyBelow (t u : Tree) : Bool :=
  decide (t.weight.toNat < u.weight.toNat) ||
    (decide (t.weight = u.weight) && decide (t.idx < u.idx))

/-- The priority structure as a list in key order, with one more tree. -/
def queueInsert (t : Tree) : List Tree → List Tree
  | [] => [t]
  | u :: q => if keyBelow u t then u :: queueInsert t q else t :: u :: q

/-- The merge loop (R186): the least element and then the next least become the zero and the one
child of the node with index `next`. The first argument bounds the merges by the queue's length. -/
def mergeLoop : Nat → Nat → List Tree → Option Tree
  | n + 1, next, a :: b :: q =>
    mergeLoop n (next + 1) (queueInsert (.node next a b (a.weight + b.weight)) q)
  | _, _, q => q.head?

/-- `Build()` (R186, R187): the tree of the symbols with a non-zero count, none if there are none. A
single symbol gives two leaves that both hold it. -/
def buildTree (freq : FreqTable) : Option Tree :=
  match builderLeaves freq with
  | [.leaf _ s w] => some (.node 2 (.leaf 0 s w) (.leaf 1 s w) (w + w))
  | ls => mergeLoop ls.length ls.length (ls.foldr queueInsert [])

/-! ### The code table -/

/-- `Visit(i, p)` (R190): the first leaf reached for a symbol wins. -/
def visit : Tree → List Bool → CodeTable → CodeTable
  | .leaf _ s _, path, t => if (lookup t s).length = 0 then update t s path else t
  | .node _ z o _, path, t => visit o (path ++ [true]) (visit z (path ++ [false]) t)

/-- `DeriveCodes()` (R190): a depth-first walk from the root, zero-branch before one-branch. -/
def deriveCodes (t : Tree) : CodeTable := visit t [] CodeTable.empty

/-- `Install` (R188): the tree becomes the current tree, with its codes; TREE_VALID = 1. -/
def State.install (t : Tree) (s : State) : State := { s with tree := some t, codes := deriveCodes t }

/-- What a tree parse that raises leaves (43_framer.md R221): no tree, no codes, TREE_VALID = 0. -/
def State.uninstall (s : State) : State := { s with tree := none, codes := CodeTable.empty }

end Sys2Proof.Machine
end

