-- ==== Sys2Proof/Machine/CodeDispatch.lean ====
section
/-! DEFINITION. The variable-length code dispatcher: EncodeSyms, Walk, ENC_RAW and DEC_RAW
(44_dispatch.md). -/

namespace Sys2Proof.Machine

/-! ### Encode direction -/

/-- `EncodeSyms(src, out, n)` (R241) with `n` symbols to go, symbol `i` next; the inner step is
EmitCode (R240), first bit first. SrcByte "never" answers END here; the loop would end (log 11). -/
def encodeSyms (p : Params) (codes : CodeTable) : Nat → Nat → SrcCh → Memory → OutCh → Res Memory OutCh
  | 0, _, _, m, out => .ok m out
  | n + 1, i, src, m, out =>
    match srcByte p m src with
    | .error r => .raised m r
    | .ok (none, _) => .ok m out
    | .ok (some b, src) =>
      let code := lookup codes b
      if code.length = 0 then .raised m (raise .internal i)
      else (outBits p m out code).bind fun m out => encodeSyms p codes n (i + 1) src m out

/-! ### Decode direction -/

/-- The child a bit selects (R245): 0 the zero-branch, 1 the one-branch. A leaf has none and stays
where it is; the walk never takes a bit there, since every root is internal (log 11). -/
def Tree.child (t : Tree) (b : Bool) : Tree :=
  match t with
  | .node _ z o _ => if b then o else z
  | .leaf i s w => .leaf i s w

/-- The walk state between two bits (R245); AtLeaf(s) emits and is AtRoot at once. -/
inductive WalkState where
  | atRoot
  | atNode (t : Tree)
deriving DecidableEq, Repr

/-- `Walk(src, out, bc, p0)` (R246) with `left = bc - c` bits to go. AtRoot goes to the root without
a bit; at bc bits the walk ends between symbols and raises E_CORRUPT inside one. -/
def walkLoop (p : Params) (root : Tree) (bc p0 : Nat) : Nat → WalkState → SrcCh → Memory → OutCh → Res Memory OutCh
  | 0, .atRoot, _, m, out => .ok m out
  | 0, .atNode _, _, m, _ => .raised m (raise .corrupt (p0 + bc / 8))
  | left + 1, w, src, m, out =>
    match srcBit p m src with
    | .error r => .raised m r
    | .ok (none, src) => .raised m (raise .corrupt src.len)
    | .ok (some b, src) =>
      let here := match w with | .atRoot => root | .atNode t => t
      match here.child b with
      | .leaf _ s _ => (outByte p m out s).bind fun m out => walkLoop p root bc p0 left .atRoot src m out
      | .node i z o w => walkLoop p root bc p0 left (.atNode (.node i z o w)) src m out

/-- `Walk(src, out, bc, p0)` (R246) from its start. -/
def walk (p : Params) (root : Tree) (bc p0 : Nat) (src : SrcCh) (m : Memory) (out : OutCh) : Res Memory OutCh :=
  walkLoop p root bc p0 bc .atRoot src m out

/-! ### Commands of the family -/

/-- ENC_RAW's procedure (R250). -/
def encRawBody (s : State) : State :=
  let src := srcOpen s.srcBase.toNat s.srcLen.toNat
  let out := outOpen s.dstBase.toNat s.dstCap.toNat
  match (encodeSyms s.params s.codes s.srcLen.toNat 0 src s.mem out).bind
      fun m out => outFlush s.params m out with
  | .raised m r => { s with mem := m }.raiseErr r
  | .ok m out =>
    { s with mem := m, bitcnt := BitVec.ofNat 64 out.bits, outLen := BitVec.ofNat 32 out.n }.complete

/-- ENC_RAW (R250): SRC encoded with the current code table, no header. -/
def execEncRaw (s : State) : Host.Outcome State Fault Refusal := runCommand .encRaw s encRawBody

/-- DEC_RAW's procedure (R251). Its precondition is TREE_VALID = 1, so there is a tree. -/
def decRawBody (s : State) : State :=
  match s.tree with
  | none => s.raiseErr ⟨.seq, 0⟩
  | some t =>
    let src := srcOpen s.srcBase.toNat s.srcLen.toNat
    let out := outOpen s.dstBase.toNat s.dstCap.toNat
    match (walk s.params t s.bitcnt.toNat 0 src s.mem out).bind fun m out => outFlush s.params m out with
    | .raised m r => { s with mem := m }.raiseErr r
    | .ok m out => { s with mem := m, outLen := BitVec.ofNat 32 out.n }.complete

/-- DEC_RAW (R251): BITCNT payload bits of SRC decoded with the current tree. -/
def execDecRaw (s : State) : Host.Outcome State Fault Refusal := runCommand .decRaw s decRawBody

end Sys2Proof.Machine
end

