-- ==== Sys2Proof/Machine/Control.lean ====
section
/-! DEFINITION. The control family: NOP (40_command.md section 3). -/

namespace Sys2Proof.Machine

/-- NOP (R140): no effect; it completes by R135. -/
def execNop (s : State) : Host.Outcome State Fault Refusal :=
  runCommand .nop s fun s => s.complete

end Sys2Proof.Machine
end

