-- ==== Sys2Proof/Machine/Framer.lean ====
section
/-! DEFINITION. The tree serialization framer: the tree's records, the bit-count line, TREE_SER and
TREE_DESER (43_framer.md, 30_encoding.md sections 6 and 7). -/

namespace Sys2Proof.Machine

/-! ### Writing -/

/-- The tag of a Leaf record (30_encoding.md R101). -/
def leafTag : Byte := 0x4C#8

/-- The tag of an Internal-node record (30_encoding.md R102). -/
def nodeTag : Byte := 0x4E#8

/-- The delimiter, "newline" (30_encoding.md R111). -/
def newline : Byte := 0x0A#8

/-- The 8 bytes of a weight, most significant byte first (30_encoding.md R106). -/
def weightBytes (w : Dword) : List Byte :=
  [7, 6, 5, 4, 3, 2, 1, 0].map fun j => w.extractLsb' (8 * j) 8

/-- The bytes SerNode writes, in order (R210; the records of 30_encoding.md R100 to R102). -/
def serTree : Tree → List Byte
  | .leaf _ sym w => leafTag :: sym :: weightBytes w
  | .node _ z o w => nodeTag :: (weightBytes w ++ (serTree z ++ serTree o))

/-- The digit bytes of `n` (30_encoding.md R112), most significant first; `k` bounds their number. -/
def decDigits : Nat → Nat → List Byte
  | 0, _ => []
  | k + 1, n =>
    if n < 10 then [BitVec.ofNat 8 (0x30 + n)]
    else decDigits k (n / 10) ++ [BitVec.ofNat 8 (0x30 + n % 10)]

/-- Dec(n) of a 64-bit number (30_encoding.md R112), which has at most 20 digits. -/
def dec (n : Nat) : List Byte := decDigits 20 n

/-- The bytes EmitHeader writes, in order (R211; 30_encoding.md R111). -/
def headerBytes (t : Tree) (bc : Nat) : List Byte := serTree t ++ newline :: (dec bc ++ [newline])

/-! ### Reading -/

/-- `ReadByte(src)` (R215). -/
def readByte (p : Params) (m : Memory) (src : SrcCh) : Except Raise (Byte × SrcCh) :=
  match srcByte p m src with
  | .error r => .error r
  | .ok (none, _) => .error (raise .corrupt src.len)
  | .ok (some v, src) => .ok (v, src)

/-- The loop of `ReadU64(src)` (R215) with `n` bytes to go, most significant byte first. -/
def readBigEndian (p : Params) (m : Memory) : Nat → Dword → SrcCh → Except Raise (Dword × SrcCh)
  | 0, w, src => .ok (w, src)
  | n + 1, w, src =>
    match readByte p m src with
    | .error r => .error r
    | .ok (v, src) => readBigEndian p m n ((w <<< 8) ||| v.setWidth 64) src

/-- `ReadU64(src)` (R215). -/
def readU64 (p : Params) (m : Memory) (src : SrcCh) : Except Raise (Dword × SrcCh) :=
  readBigEndian p m 8 0 src

/-- An internal node whose children are not yet complete (R216): its index, its weight, and its
zero-branch once that is parsed. -/
structure Pending where
  idx : Nat
  weight : Dword
  zero : Option Tree
deriving DecidableEq, Repr

/-- What a complete subtree makes of the parse stack: the whole tree, or a stack whose top entry now
waits for its one-branch. -/
def closeSubtree (t : Tree) : List Pending → Tree ⊕ List Pending
  | [] => .inl t
  | ⟨i, w, none⟩ :: st => .inr (⟨i, w, some t⟩ :: st)
  | ⟨i, w, some z⟩ :: st => closeSubtree (.node i z t w) st

/-- `ParseNode(src)` (R215) with the parse stack of R216 written out: one record a turn, the checks
in R215's order. `room` is how many nodes the store still takes, so `cnt` is `511 - room`: the tag
of a 512th node raises E_CORRUPT at its offset (R218). -/
def parseLoop (p : Params) (m : Memory) : Nat → List Pending → SrcCh → Except Raise (Tree × SrcCh)
  | room, st, src =>
    let at' := src.pos
    match srcByte p m src with
    | .error r => .error r
    | .ok (none, _) => .error (raise .corrupt src.len)
    | .ok (some tag, src) =>
      if tag ≠ leafTag ∧ tag ≠ nodeTag then .error (raise .corrupt at')
      else if st = [] ∧ tag = leafTag then .error (raise .corrupt at')
      else
        match room with
        | 0 => .error (raise .corrupt at')
        | room + 1 =>
          let i := Config.maxNodes - (room + 1)
          if tag = leafTag then
            match readByte p m src with
            | .error r => .error r
            | .ok (s, src) =>
              match readU64 p m src with
              | .error r => .error r
              | .ok (w, src) =>
                match closeSubtree (.leaf i s w) st with
                | .inl t => .ok (t, src)
                | .inr st => parseLoop p m room st src
          else
            match readU64 p m src with
            | .error r => .error r
            | .ok (w, src) => parseLoop p m room (⟨i, w, none⟩ :: st) src

/-- `ParseTree(src)` (R215) up to its Install: the root gets index 0. -/
def parseTree (p : Params) (m : Memory) (src : SrcCh) : Except Raise (Tree × SrcCh) :=
  parseLoop p m Config.maxNodes [] src

/-- The digit loop of ParseCount (R230): `n` is the value and `d` the number of digits so far. The
first argument is the number of source bytes left, so at 0 the next SrcByte answers END. -/
def countDigits (p : Params) (m : Memory) : Nat → Nat → Nat → SrcCh → Except Raise (Nat × SrcCh)
  | 0, _, _, src => .error (raise .corrupt src.len)
  | left + 1, n, d, src =>
    let at' := src.pos
    match srcByte p m src with
    | .error r => .error r
    | .ok (none, _) => .error (raise .corrupt src.len)
    | .ok (some v, src) =>
      if v = newline ∧ 0 < d then .ok (n, src)
      else if v.toNat < 0x30 ∨ 0x39 < v.toNat then .error (raise .corrupt at')
      else
        let n := 10 * n + (v.toNat - 0x30)
        if 2 ^ 64 - 1 < n then .error (raise .corrupt at') else countDigits p m left n (d + 1) src

/-- `ParseCount(src)` (R230): the delimiter after the tree, the digits, the delimiter after them. -/
def parseCount (p : Params) (m : Memory) (src : SrcCh) : Except Raise (Nat × SrcCh) :=
  let at' := src.pos
  match srcByte p m src with
  | .error r => .error r
  | .ok (none, _) => .error (raise .corrupt src.len)
  | .ok (some v, src) =>
    if v ≠ newline then .error (raise .corrupt at')
    else countDigits p m (src.len - src.pos) 0 0 src

/-! ### Commands of the family -/

/-- TREE_SER's procedure (R225). Its precondition is TREE_VALID = 1, so there is a tree. -/
def treeSerBody (s : State) : State :=
  match s.tree with
  | none => s.raiseErr ⟨.seq, 0⟩
  | some t =>
    let out := outOpen s.dstBase.toNat s.dstCap.toNat
    match (outBytes s.params s.mem out (serTree t)).bind fun m out => outFlush s.params m out with
    | .raised m r => { s with mem := m }.raiseErr r
    | .ok m out => { s with mem := m, outLen := BitVec.ofNat 32 out.n }.complete

/-- TREE_SER (R225): the serialized current tree to DST. -/
def execTreeSer (s : State) : Host.Outcome State Fault Refusal := runCommand .treeSer s treeSerBody

/-- TREE_DESER's procedure (R226). A parse that raises leaves no tree (R221). -/
def treeDeserBody (s : State) : State :=
  match parseTree s.params s.mem (srcOpen s.srcBase.toNat s.srcLen.toNat) with
  | .error r => s.uninstall.raiseErr r
  | .ok (t, src) => { s.install t with srcPos := BitVec.ofNat 32 src.pos }.complete

/-- TREE_DESER (R226): the serialized tree at the start of SRC becomes the current tree. -/
def execTreeDeser (s : State) : Host.Outcome State Fault Refusal := runCommand .treeDeser s treeDeserBody

end Sys2Proof.Machine
end

