-- ==== Sys2Proof/Machine/FreqTree.lean ====
section
/-! DEFINITION. The frequency table and tree family: FT_CLEAR, FT_COUNT, TREE_BUILD (42_tree.md
section 4). -/

namespace Sys2Proof.Machine

/-- FT_CLEAR (R195): `Clear()`. -/
def execFtClear (s : State) : Host.Outcome State Fault Refusal :=
  runCommand .ftClear s fun s =>
    { s with freq := Counters.clear.freq, total := Counters.clear.total }.complete

/-- FT_COUNT's procedure (R196): `Count()`, without clearing first. -/
def ftCountBody (s : State) : State :=
  match count s ⟨s.freq, s.total⟩ with
  | .raised c r => { s with freq := c.freq, total := c.total }.raiseErr r
  | .ok c () => { s with freq := c.freq, total := c.total }.complete

/-- FT_COUNT (R196): the byte counts of SRC added to the frequency table. -/
def execFtCount (s : State) : Host.Outcome State Fault Refusal := runCommand .ftCount s ftCountBody

/-- TREE_BUILD's procedure (R197): `Build()`. Its precondition is that some count is non-zero, so
there is a tree. -/
def treeBuildBody (s : State) : State :=
  match buildTree s.freq with
  | some t => (s.install t).complete
  | none => s.raiseErr ⟨.seq, 0⟩

/-- TREE_BUILD (R197): the tree of FREQ and its codes. -/
def execTreeBuild (s : State) : Host.Outcome State Fault Refusal := runCommand .treeBuild s treeBuildBody

end Sys2Proof.Machine
end

