-- ==== Sys2Proof/Machine/Pipeline.lean ====
section
/-! DEFINITION. The encode and decode pipeline: ENCODE, ENCODE.PRE and DECODE (45_pipeline.md). -/

namespace Sys2Proof.Machine

/-- The copy of the temporary store to the output (R265, the last loop) with `n` bytes to go.
SrcByte "never" answers END here; the loop would end (log 11). -/
def copyLoop (p : Params) : Nat → SrcCh → Memory → OutCh → Res Memory OutCh
  | 0, _, m, out => .ok m out
  | n + 1, src, m, out =>
    match srcByte p m src with
    | .error r => .raised m r
    | .ok (none, _) => .ok m out
    | .ok (some v, src) => (outByte p m out v).bind fun m out => copyLoop p n src m out

/-- Pass 2 of ENCODE (R265): the codes of SRC into TMP, flushed. -/
def encodePass2 (s : State) (codes : CodeTable) : Res Memory OutCh :=
  (encodeSyms s.params codes s.srcLen.toNat 0 (srcOpen s.srcBase.toNat s.srcLen.toNat) s.mem
    (outOpen s.tmpBase.toNat s.tmpCap.toNat)).bind fun m tmp => outFlush s.params m tmp

/-- The output stage of ENCODE (R265): the header, then the `plen` payload bytes read back from
TMP. -/
def encodeOutput (s : State) (t : Tree) (bc plen : Nat) (m : Memory) : Res Memory OutCh :=
  (outBytes s.params m (outOpen s.dstBase.toNat s.dstCap.toNat) (headerBytes t bc)).bind fun m out =>
    (copyLoop s.params plen (srcOpen s.tmpBase.toNat plen) m out).bind fun m out => outFlush s.params m out

/-- ENCODE after pass 1 (R265), on the counters pass 1 or the host left. -/
def encodeRest (s : State) : State :=
  if s.srcLen = 0 then { s with bitcnt := 0, outLen := 0 }.complete
  else
    match buildTree s.freq with
    | none => s.raiseErr (raise .internal 0)
    | some t =>
      let s := s.install t
      match (encodePass2 s s.codes).bind fun m tmp =>
          (encodeOutput s t tmp.bits tmp.n m).bind fun m out => .ok m (tmp.bits, out.n) with
      | .raised m r => { s with mem := m }.raiseErr r
      | .ok m (bc, n) =>
        { s with mem := m, bitcnt := BitVec.ofNat 64 bc, outLen := BitVec.ofNat 32 n }.complete

/-- ENCODE's procedure (R265): without PRE, pass 1 is `Clear(); Count()` (R261). -/
def encodeBody (pre : Bool) (s : State) : State :=
  if pre then encodeRest s
  else
    match count s Counters.clear with
    | .raised c r => { s with freq := c.freq, total := c.total }.raiseErr r
    | .ok c () => encodeRest { s with freq := c.freq, total := c.total }

/-- ENCODE and ENCODE.PRE (R265): SRC compressed into an artifact in DST. -/
def execEncode (pre : Bool) (s : State) : Host.Outcome State Fault Refusal :=
  runCommand (.encode pre) s (encodeBody pre)

/-- DECODE after its tree is installed (R266): the count line, then the walk on the same channel. -/
def decodeRest (s : State) (t : Tree) (src : SrcCh) : State :=
  match parseCount s.params s.mem src with
  | .error r => s.raiseErr r
  | .ok (bc, src) =>
    match (walk s.params t bc src.pos src s.mem (outOpen s.dstBase.toNat s.dstCap.toNat)).bind
        fun m out => outFlush s.params m out with
    | .raised m r => { s with mem := m }.raiseErr r
    | .ok m out =>
      { s with
        mem := m
        outLen := BitVec.ofNat 32 out.n
        bitcnt := BitVec.ofNat 64 bc
        srcPos := BitVec.ofNat 32 src.pos }.complete

/-- DECODE's procedure (R266). -/
def decodeBody (s : State) : State :=
  if s.srcLen = 0 then { s with outLen := 0, bitcnt := 0, srcPos := 0 }.complete
  else
    match parseTree s.params s.mem (srcOpen s.srcBase.toNat s.srcLen.toNat) with
    | .error r => s.uninstall.raiseErr r
    | .ok (t, src) => decodeRest (s.install t) t src

/-- DECODE (R266): the artifact in SRC expanded into DST. -/
def execDecode (s : State) : Host.Outcome State Fault Refusal := runCommand .decode s decodeBody

end Sys2Proof.Machine
end

