-- ==== Sys2Proof/Machine/Dispatch.lean ====
section
/-! DEFINITION. One arm for each command of 30_encoding.md R91: the running command's effect. -/

namespace Sys2Proof.Machine

def exec (i : Instr) (s : State) : Host.Outcome State Fault Refusal :=
  match i with
  -- control
  | .nop => Sys2Proof.Machine.execNop s
  -- bit-stream accumulator
  | .pack => Sys2Proof.Machine.execPack s
  | .unpack => Sys2Proof.Machine.execUnpack s
  -- frequency table and tree
  | .ftClear => Sys2Proof.Machine.execFtClear s
  | .ftCount => Sys2Proof.Machine.execFtCount s
  | .treeBuild => Sys2Proof.Machine.execTreeBuild s
  -- framer
  | .treeSer => Sys2Proof.Machine.execTreeSer s
  | .treeDeser => Sys2Proof.Machine.execTreeDeser s
  -- code dispatcher
  | .encRaw => Sys2Proof.Machine.execEncRaw s
  | .decRaw => Sys2Proof.Machine.execDecRaw s
  -- pipeline
  | .encode pre => Sys2Proof.Machine.execEncode pre s
  | .decode => Sys2Proof.Machine.execDecode s

end Sys2Proof.Machine
end

