-- ==== Sys2Proof/Machine/Window.lean ====
section
/-! DEFINITION. The host's side: reads and writes of the register window (10_state.md R22 to R48,
40_command.md R130, R132), of the data space (20_memory.md R82 to R84), WAIT and the
pseudo-operations (30_encoding.md R121). -/

namespace Sys2Proof.Machine

/-! ### Reading the window -/

/-- The word a register holds for a host read (10_state.md sections 2 and 3). Without a tree,
TREE_NODES, TREE_LEAVES, TREE_ROOT, every NODE word, CODE_LEN and CODE_BITS read 0 (R32, R43). -/
def State.regWord (s : State) : WinReg → Word
  | .id => Config.idWord
  | .ctrl => s.ctrlWord
  | .status => s.statusWord
  | .cmd => s.cmd
  | .srcBase => s.srcBase
  | .srcLen => s.srcLen
  | .dstBase => s.dstBase
  | .dstCap => s.dstCap
  | .tmpBase => s.tmpBase
  | .tmpCap => s.tmpCap
  | .outLen => s.outLen
  | .srcPos => s.srcPos
  | .bitcntLo => s.bitcnt.extractLsb' 0 32
  | .bitcntHi => s.bitcnt.extractLsb' 32 32
  | .total => s.total
  | .errInfo => s.errInfo
  | .treeNodes => match s.tree with | none => 0 | some t => BitVec.ofNat 32 t.size
  | .treeLeaves => match s.tree with | none => 0 | some t => BitVec.ofNat 32 t.leaves
  | .treeRoot => match s.tree with | none => 0 | some t => BitVec.ofNat 32 t.idx
  | .param => BitVec.ofNat 16 s.params.brBlock ++ BitVec.ofNat 16 s.params.bwCap
  | .freq q => lookup s.freq q
  | .codeLen q => if s.treeValid then (BitVec.ofNat 8 (lookup s.codes q).length).setWidth 32 else 0
  | .codeBits q w => if s.treeValid then codeWord (lookup s.codes q) w.val else 0
  | .node i k => match s.tree.bind (Tree.find i) with | none => 0 | some t => t.word k.val
  | .reserved => 0

/-- The registers a host may read while BUSY (R35). DESIGN CHOICE (log 21): a reserved offset is not among
them, so that a host read of it while BUSY is R35's unspecified value, which takes in the 0 that R34 gives. -/
def readableWhileBusy : WinReg → Bool
  | .id | .ctrl | .status | .cmd | .param => true
  | .srcBase | .srcLen | .dstBase | .dstCap | .tmpBase | .tmpCap | .outLen | .srcPos | .bitcntLo
  | .bitcntHi | .total | .errInfo | .treeNodes | .treeLeaves | .treeRoot | .freq _ | .codeLen _
  | .codeBits _ _ | .node _ _ | .reserved => false

/-- A host read: no side effect on any register or table (R48). While BUSY, a register that R35 does
not list returns a free value (log 5). -/
def State.readReg (r : WinReg) (s : State) : State :=
  if s.busy && !readableWhileBusy r then
    { s with rdata := Config.freeWord s.freeCount, freeCount := s.freeCount + 1 }
  else { s with rdata := s.regWord r }

/-! ### Writing the window -/

/-- A host write to CTRL (R23): SRST = 1 resets, and the rest of the value is discarded. -/
def State.writeCtrl (v : Word) (s : State) : State :=
  if v.getLsbD 0 then s.applyReset else { s with irqEn := v.getLsbD 1 }

/-- A host write to CMD: it issues the word while IDLE (40_command.md R130); while BUSY it is dropped
and sets OVR (R132). -/
def State.writeCmd (v : Word) (s : State) : State :=
  match s.seq with
  | .idle => s.issue v
  | .busy => { s with ovr := true }

/-- A host write to any other register while IDLE: R26, R29, R30, R37; a write to an RO register or
to a reserved offset has no effect (R34, R48). -/
def State.writeOther (r : WinReg) (v : Word) (s : State) : State :=
  match r with
  | .srcBase => { s with srcBase := v }
  | .srcLen => { s with srcLen := v }
  | .dstBase => { s with dstBase := v }
  | .dstCap => { s with dstCap := v }
  | .tmpBase => { s with tmpBase := v }
  | .tmpCap => { s with tmpCap := v }
  | .bitcntLo => { s with bitcnt := bitcntOf (s.bitcnt.extractLsb' 32 32) v }
  | .bitcntHi => { s with bitcnt := bitcntOf v (s.bitcnt.extractLsb' 0 32) }
  | .total => { s with total := v }
  | .freq q => { s with freq := update s.freq q v }
  | .id | .ctrl | .status | .cmd | .outLen | .srcPos | .errInfo | .treeNodes | .treeLeaves | .treeRoot
  | .param | .codeLen _ | .codeBits _ _ | .node _ _ | .reserved => s

/-- A host write. While BUSY only CTRL, STATUS and CMD take it (R35). -/
def State.writeReg (r : WinReg) (v : Word) (s : State) : State :=
  match r with
  | .ctrl => s.writeCtrl v
  | .status => s.writeStatus v
  | .cmd => s.writeCmd v
  | r => if s.busy then s else s.writeOther r v

/-! ### Host accesses -/

/-- The offset in the register window of a host address: "Offsets below are from HUFF_BASE" (10_state.md
section 2, 00_scope.md R5); none for an address outside the window. -/
def State.windowOffset (s : State) (addr : Nat) : Option Nat :=
  if s.params.huffBase ≤ addr ∧ addr < s.params.huffBase + Config.windowBytes then
    some (addr - s.params.huffBase)
  else none

/-- The host's load of `size` bytes at a host address, where that reaches the engine (log 13). -/
def State.hostLoad (s : State) (size addr : Nat) : Option HostOp :=
  (s.windowOffset addr).map fun off => .read size off

/-- The host's store of `size` bytes at a host address, where that reaches the engine (log 13). -/
def State.hostStore (s : State) (size addr : Nat) (v : Word) : Option HostOp :=
  (s.windowOffset addr).map fun off => .write size off v

/-- The regions the running command uses, and those it writes (20_memory.md R84); an illegal word
uses none. -/
def State.regionsInUse (s : State) : List Region :=
  match s.fetch with
  | .error _ => []
  | .ok i => usedRegions i

/-- The regions the running command writes. -/
def State.regionsWritten (s : State) : List Region :=
  match s.fetch with
  | .error _ => []
  | .ok i => writeRegions i

/-- R84: while BUSY, the host must not touch an address of these regions. DESIGN CHOICE (log 23): BUSY is
the sequencer's, not what the host has read of it, so that from the command's completion on memory is plain
memory again, also before the host has read STATUS with BUSY = 0 (R83, 70_reset_and_hazards.md R330). -/
def State.memoryBusy (s : State) (rs : List Region) (a : Nat) : Bool :=
  s.busy && rs.any fun r => s.inRegion r a

/-- One operation of the host, or of the platform's reset input. The operation is already out of
`s.host`; WAIT puts itself back while the STATUS it read says BUSY (R121). DESIGN CHOICE (log 23): while IDLE
a data access is served as plain memory, whether or not the host has read that the command before it is
complete. DESIGN CHOICE (log 24): and so it is where the platform has memory with read side effects; R78 speaks
of a command's regions only. DESIGN CHOICE (log 25): and so it is, without an error, where BusErrRd or BusErrWr
is true; R5 and R73 speak of the engine's accesses only. -/
def hostAccess (op : HostOp) (s : State) : Host.Outcome State Fault Refusal :=
  match op with
  | .write size off v =>
    if windowAccessOk size off then .next (s.writeReg (winRegAt off) v) else .refused .windowAccess
  | .read size off =>
    if windowAccessOk size off then .next (s.readReg (winRegAt off)) else .refused .windowAccess
  | .wait =>
    let s := s.readReg .status
    .next (if s.rdata.getLsbD 0 then { s with host := .wait :: s.host } else s)
  | .memWrite a v =>
    if Config.addrSpace ≤ a then .fault .noSuchAddress
    else if s.memoryBusy s.regionsInUse a then .refused .memoryInUse
    else .next { s with mem := s.mem.write a v }
  | .memRead a =>
    if Config.addrSpace ≤ a then .fault .noSuchAddress
    else if s.memoryBusy s.regionsWritten a then .refused .memoryInUse
    else .next { s with rdata := (s.mem.read a).setWidth 32 }
  | .hwReset => .next s.applyReset

/-! ### Pseudo-operations -/

/-- `WR <REG>, <v>` (R120). -/
def wr (r : WinReg) (v : Word) : HostOp := .write 4 (offsetOf r) v

/-- `RD <REG>` (R120). -/
def rd (r : WinReg) : HostOp := .read 4 (offsetOf r)

/-- The expansions of R121. -/
def expand : Pseudo → List HostOp
  | .cmd i => [wr .cmd (encode i)]
  | .wait => [.wait]
  | .run i => [wr .cmd (encode i), .wait]
  | .clr => [wr .status 0x0000000E]
  | .srst => [wr .ctrl 0x00000001]
  | .setSrc base len => [wr .srcBase base, wr .srcLen len]
  | .setDst base cap => [wr .dstBase base, wr .dstCap cap]
  | .setTmp base cap => [wr .tmpBase base, wr .tmpCap cap]
  | .setBc n => [wr .bitcntLo (n.extractLsb' 0 32), wr .bitcntHi (n.extractLsb' 32 32)]

/-- A host program (R120): its `MEM` lines, which declare start contents, and its operations. -/
def State.load (place : List (Nat × List Byte)) (ops : List HostOp) (s : State) : State :=
  { s with mem := place.foldl (fun m q => m.writeBytes q.1 q.2) s.mem, host := s.host ++ ops }

end Sys2Proof.Machine
end

