-- ==== Sys2Proof/Machine/Step.lean ====
section
/-! DEFINITION. One step: the host's next access, or the running command as one atomic step
(70_reset_and_hazards.md R337). -/

namespace Sys2Proof.Machine

/-- The running command: the one CMD selects, or E_ILLEGAL (40_command.md R133). -/
def runFetched (s : State) : Host.Outcome State Fault Refusal :=
  match s.fetch with
  | .ok i => exec i s
  | .error _ => .next s.illegalCommand

/-- One step. IDLE: the host's next access; with none the engine "changes no state"
(60_exceptions.md R311; log 18). BUSY: while `lag` says so and the host has an access, the host goes
first; else the running command executes, whole (R337; log 1). -/
def step (s : State) : Host.Outcome State Fault Refusal :=
  match s.seq, s.lag, s.host with
  | .idle, _, [] => .next s
  | .idle, _, op :: ops => hostAccess op { s with host := ops }
  | .busy, n + 1, op :: ops => hostAccess op { s with host := ops, lag := n }
  | .busy, 0, _ => runFetched s
  | .busy, _ + 1, [] => runFetched s

/-- The state in which the engine runs the command word `w`, numbered as spec/opcode_table.json
numbers it, at the very next step: the word is issued (40_command.md R130), and no host access comes
before it. It stands for the host's write to CMD (log 2). -/
def State.withFetchWord (s : State) (nbits w : Nat) : State :=
  { s.issue (BitVec.ofNat 32 (w % 2 ^ nbits)) with lag := 0, lags := s.lags }

end Sys2Proof.Machine
end

