-- ==== Sys2Proof/Safety.lean ====
section
/-! DEFINITION. The terms claims are stated in: which accesses meet no bus error, what a tree and a
state in good order are, and the results of the engine's procedures on whole sequences. -/

namespace Sys2Proof.Machine

/-! ### Memory -/

/-- No read of the `n` bytes from `a` on meets a bus error (20_memory.md R73). -/
def Readable (p : Params) (a n : Nat) : Prop := ∀ j, j < n → busErrRd p (a + j) = false

/-- No write of the `n` bytes from `a` on meets a bus error (20_memory.md R73). -/
def Writable (p : Params) (a n : Nat) : Prop := ∀ j, j < n → busErrWr p (a + j) = false

/-- A region of `cap` bytes at `base` takes `n` bytes of output without an error: they fit, and no write of
them meets a bus error (41_bitstream.md R159). -/
def Takes (p : Params) (base cap n : Nat) : Prop := n ≤ cap ∧ Writable p base n

/-- The first bus error that reading a region of `len` bytes at `base` from its start meets is at offset
`j` (20_memory.md R73, 41_bitstream.md R155). -/
structure FirstBusError (p : Params) (base len j : Nat) : Prop where
  lt : j < len
  before : Readable p base j
  bus : busErrRd p (base + j) = true

/-- The offset at which the block that holds offset `j` begins: a source channel fetches whole blocks of
BR_BLOCK bytes (41_bitstream.md R152, R155). -/
def blockStart (p : Params) (j : Nat) : Nat := j / p.brBlock * p.brBlock

/-- The bytes of SRC (20_memory.md R71). -/
def State.srcBytes (s : State) : List Byte := s.mem.bytes s.srcBase.toNat s.srcLen.toNat

/-! ### Host accesses -/

/-- A host read of the window at this offset returns `v` and changes nothing but the value read. -/
def Reads (s : State) (off : Nat) (v : Word) : Prop := hostAccess (.read 4 off) s = .next { s with rdata := v }

/-- A host write of `v` to the window at this offset goes on to `t`. -/
def Writes (s : State) (off : Nat) (v : Word) (t : State) : Prop := hostAccess (.write 4 off v) s = .next t

/-- BUSY, and the running command executes at this step: no host access comes before it (R337). -/
def State.executes (s : State) : Prop := s.seq = .busy ∧ (s.lag = 0 ∨ s.host = [])

/-- The step to come serves this access of the host. -/
def State.serves (s : State) (op : HostOp) : Prop := ¬s.executes ∧ ∃ ops, s.host = op :: ops

/-- The step to come is a reset: the reset input or a write of 1 to CTRL.SRST (70_reset_and_hazards.md
R320, R321). -/
def State.resets (s : State) : Prop :=
  s.serves .hwReset ∨ ∃ v, s.serves (.write 4 0x004 v) ∧ v.getLsbD 0 = true

/-- The step to come issues `w`: a write of CMD while IDLE (40_command.md R130). -/
def State.issues (s : State) (w : Word) : Prop := s.seq = .idle ∧ s.serves (.write 4 0x00C w)

/-- The step to come writes 1 to bit `j` of STATUS (10_state.md R24). -/
def State.clears (s : State) (j : Nat) : Prop := ∃ v, s.serves (.write 4 0x008 v) ∧ v.getLsbD j = true

/-! ### Errors -/

/-- The errors a command can raise: the table of 60_exceptions.md R293. -/
def raisable : Instr → List ErrKind
  | .nop | .ftClear => []
  | .pack => [.io, .illegal, .region]
  | .unpack => [.io, .corrupt, .region]
  | .ftCount => [.io, .overflow, .region]
  | .treeBuild => [.seq]
  | .treeSer => [.io, .seq, .region]
  | .treeDeser => [.io, .corrupt, .region]
  | .encRaw => [.io, .internal, .seq, .region]
  | .decRaw => [.io, .corrupt, .seq, .region]
  | .encode false => [.io, .region]
  | .encode true => [.io, .internal, .region]
  | .decode => [.io, .corrupt, .region]

/-! ### Results -/

/-- What a command may write besides memory: the parts of the out column of 30_encoding.md R94. -/
inductive Result where
  | outLen
  | bitcnt
  | srcPos
  /-- FREQ and TOTAL. -/
  | counters
  /-- The node store, the code table, TREE_VALID and the TREE_* registers. -/
  | tree
deriving DecidableEq, Repr

/-- The out column of 30_encoding.md R94, memory apart. -/
def results : Instr → List Result
  | .nop => []
  | .pack | .encRaw => [.outLen, .bitcnt]
  | .unpack | .treeSer | .decRaw => [.outLen]
  | .ftClear | .ftCount => [.counters]
  | .treeBuild => [.tree]
  | .treeDeser => [.tree, .srcPos]
  | .encode false => [.counters, .tree, .outLen, .bitcnt]
  | .encode true => [.tree, .outLen, .bitcnt]
  | .decode => [.tree, .outLen, .bitcnt, .srcPos]

/-- The bytes a command that completed in `t` has stored at an address: the first OUT_LEN of DST, and for
ENCODE the first ceil(BITCNT / 8) of TMP (45_pipeline.md R276); for an ENCODE of nothing both are 0. -/
def storedAt (i : Instr) (t : State) (a : Nat) : Bool :=
  (writeRegions i).any fun r =>
    match r with
    | .dst => decide (t.dstBase.toNat ≤ a) && decide (a < t.dstBase.toNat + t.outLen.toNat)
    | .tmp => decide (t.tmpBase.toNat ≤ a) && decide (a < t.tmpBase.toNat + (t.bitcnt.toNat + 7) / 8)
    | .src => false

/-! ### Sequences -/

/-- The counters after a sequence of bytes is tallied (42_tree.md R182). -/
def Counters.tallyAll (c : Counters) (vs : List Byte) : Counters := vs.foldl Counters.tally c

/-- The bits EncodeSyms emits for a sequence of symbols (44_dispatch.md R241). -/
def encodeBits (codes : CodeTable) (vs : List Byte) : List Bool := vs.flatMap (lookup codes)

/-- The unpacked form of a bit sequence (30_encoding.md R96). -/
def unpacked (bs : List Bool) : List Byte := bs.map fun b => if b then 0x01#8 else 0x00#8

/-- The bits that fill whole bytes. -/
def wholeBytes (bs : List Bool) : List Bool := bs.take (bs.length / 8 * 8)

/-- Of the bytes an output channel has taken, those it has drained: whole blocks of BW_CAP bytes
(41_bitstream.md R157, 40_command.md R137). -/
def drained (p : Params) (l : List Byte) : List Byte := l.take (l.length / p.bwCap * p.bwCap)

/-- The decimal value of a sequence of digit bytes (43_framer.md R230). -/
def decimalValue (ds : List Byte) : Nat := ds.foldl (fun n v => 10 * n + (v.toNat - 0x30)) 0

/-- A digit byte (30_encoding.md R114). -/
def isDigit (v : Byte) : Bool := decide (0x30 ≤ v.toNat) && decide (v.toNat ≤ 0x39)

/-- The artifact of a non-empty input: the header and the payload (30_encoding.md R110 to R113). -/
def artifact (t : Tree) (bits : List Bool) : List Byte := headerBytes t bits.length ++ packBits bits

/-! ### Trees -/

namespace Tree

/-- The node is an internal node. -/
def isNode : Tree → Bool
  | .leaf _ _ _ => false
  | .node _ _ _ _ => true

/-- The indices of the nodes, in pre-order. -/
def indices : Tree → List Nat
  | .leaf i _ _ => [i]
  | .node i z o _ => i :: (z.indices ++ o.indices)

/-- The longest path from the root to a leaf. -/
def height : Tree → Nat
  | .leaf _ _ _ => 0
  | .node _ z o _ => 1 + max z.height o.height

/-- The nodes numbered in pre-order from `k` (43_framer.md R219). -/
def renumber : Nat → Tree → Tree
  | k, .leaf _ s w => .leaf k s w
  | k, .node _ z o w => .node k (z.renumber (k + 1)) (o.renumber (k + 1 + z.size)) w

/-- The offset, in the serialization of the tree, of the record of its `k`-th node in pre-order
(30_encoding.md R100 to R102). -/
def recordOffset : Tree → Nat → Nat
  | _, 0 => 0
  | .leaf _ _ _, _ + 1 => 0
  | .node _ z o _, k + 1 =>
    if k < z.size then 9 + z.recordOffset k else 9 + (serTree z).length + o.recordOffset (k - z.size)

/-- The bytes `l` are the start of the serialization of the tree and end inside it, no later than where the
record of a node begins that a store with room for `room` nodes does not take (43_framer.md R215, R218). -/
structure CutShort (t : Tree) (room : Nat) (l : List Byte) : Prop where
  start : l <+: serTree t
  fits : t.size ≤ room → l.length < (serTree t).length
  full : room < t.size → l.length ≤ t.recordOffset room

/-- The path to the first leaf of a symbol in the walk of 42_tree.md R190. -/
def firstPath (t : Tree) (q : Byte) : Option (List Bool) :=
  match t with
  | .leaf _ s _ => if s = q then some [] else none
  | .node _ z o _ => ((z.firstPath q).map (false :: ·)).or ((o.firstPath q).map (true :: ·))

/-- Every leaf with the path to it, in the order of the walk of 42_tree.md R190. -/
def leafPaths : Tree → List (List Bool × Byte)
  | .leaf _ s _ => [([], s)]
  | .node _ z o _ =>
    z.leafPaths.map (fun e => (false :: e.1, e.2)) ++ o.leafPaths.map (fun e => (true :: e.1, e.2))

/-- The sum of the leaves' weights (42_tree.md R186). -/
def leafSum : Tree → Nat
  | .leaf _ _ w => w.toNat
  | .node _ z o _ => z.leafSum + o.leafSum

/-- Each internal node's weight is the sum of its subtree's leaf weights (42_tree.md R187). -/
def weighted : Tree → Prop
  | .leaf _ _ _ => True
  | .node _ z o w => w.toNat = z.leafSum + o.leafSum ∧ z.weighted ∧ o.weighted

/-- The symbols of the leaves, in pre-order. -/
def syms : Tree → List Byte
  | .leaf _ s _ => [s]
  | .node _ z o _ => z.syms ++ o.syms

/-- What Walk emits for a whole bit sequence (44_dispatch.md R246): `none` when the sequence ends
inside a code. -/
def decodeFrom (root : Tree) : WalkState → List Bool → Option (List Byte)
  | .atRoot, [] => some []
  | .atNode _, [] => none
  | w, b :: bs =>
    let here := match w with | .atRoot => root | .atNode t => t
    match here.child b with
    | .leaf _ s _ => (decodeFrom root .atRoot bs).map (s :: ·)
    | .node i z o v => decodeFrom root (.atNode (.node i z o v)) bs

/-- The symbols Walk has emitted after a bit sequence, the one it may be inside of apart (R246). -/
def emitted (root : Tree) : WalkState → List Bool → List Byte
  | _, [] => []
  | w, b :: bs =>
    let here := match w with | .atRoot => root | .atNode t => t
    match here.child b with
    | .leaf _ s _ => s :: emitted root .atRoot bs
    | .node i z o v => emitted root (.atNode (.node i z o v)) bs

/-- What an installed tree keeps (10_state.md R40 to R42): the root is internal, there are at most
256 leaves, and the nodes carry the indices 0 to TREE_NODES - 1, each once. -/
structure Ok (t : Tree) : Prop where
  root : t.isNode = true
  leaves_le : t.leaves ≤ 256
  nodup : t.indices.Nodup
  below : ∀ i ∈ t.indices, i < t.size

end Tree

/-- The greedy merge of 42_tree.md R186 with the priority structure as a set: the two least elements
under the key order become the zero and the one child of the node with the next index. -/
inductive GreedyMerge : Multiset Tree → Nat → Tree → Prop where
  | done (t : Tree) (next : Nat) : GreedyMerge {t} next t
  | merge (a b : Tree) (q : Multiset Tree) (next : Nat) (t : Tree) (hab : keyBelow a b = true)
      (ha : ∀ u ∈ q, keyBelow a u = true) (hb : ∀ u ∈ q, keyBelow b u = true)
      (rest : GreedyMerge (.node next a b (a.weight + b.weight) ::ₘ q) (next + 1) t) :
      GreedyMerge (a ::ₘ b ::ₘ q) next t

/-! ### States -/

/-- What the spec promises of every state a run reaches: memory in canonical form; DONE and ERR never
both 1, and neither while BUSY (R24); an error record exactly while ERR is 1 (R24, R31); the tree and
the code table in order (R40, R42 to R44). -/
structure State.Inv (s : State) : Prop where
  mem : s.mem.wf = true
  notBoth : ¬(s.done = true ∧ s.err = true)
  whileBusy : s.seq = .busy → s.done = false ∧ s.err = false
  noRecord : s.err = false → s.errCode = none ∧ s.errInfo = 0
  record : s.err = true → s.errCode ≠ none
  tree : ∀ t, s.tree = some t → t.Ok ∧ s.codes = deriveCodes t
  noTree : s.tree = none → s.codes = CodeTable.empty

end Sys2Proof.Machine
end

