-- ==== Sys2Proof/Certificates/Slice0/Obligations.lean ====
section
/-! DEFINITION. The statements about HUFF-CORE, for the provers. Each docstring names the rule it comes
from. A state is any state, unless a statement says `State.Inv`, which `StepKeepsInvariant` and
`ResetHoldsInvariant` are about. `startResult i s = .run` says that the start checks of 40_command.md R133
pass and that the regions are apart and ordinary memory (20_memory.md R85, R78). -/

open Sys2Proof Sys2Proof.Machine

/-! ### Command words (30_encoding.md) -/

/-- 30_encoding.md section 2: every command's word decodes to the command. -/
def Obligations.DecodeInvertsEncode : Prop := ∀ i : Instr, i.wf = true → decode (encode i) = .ok i

/-- R91: the match and mask of each command. -/
def Obligations.WordSelectsCommandIff : Prop :=
  ∀ w : Word,
    (decode w = .ok .nop ↔ w &&& 0xFFFFFFFF#32 = 0x00000000#32) ∧
    (decode w = .ok .pack ↔ w &&& 0xFFFFFFFF#32 = 0x00000010#32) ∧
    (decode w = .ok .unpack ↔ w &&& 0xFFFFFFFF#32 = 0x00000011#32) ∧
    (decode w = .ok .ftClear ↔ w &&& 0xFFFFFFFF#32 = 0x00000020#32) ∧
    (decode w = .ok .ftCount ↔ w &&& 0xFFFFFFFF#32 = 0x00000021#32) ∧
    (decode w = .ok .treeBuild ↔ w &&& 0xFFFFFFFF#32 = 0x00000022#32) ∧
    (decode w = .ok .treeSer ↔ w &&& 0xFFFFFFFF#32 = 0x00000030#32) ∧
    (decode w = .ok .treeDeser ↔ w &&& 0xFFFFFFFF#32 = 0x00000031#32) ∧
    (decode w = .ok .encRaw ↔ w &&& 0xFFFFFFFF#32 = 0x00000040#32) ∧
    (decode w = .ok .decRaw ↔ w &&& 0xFFFFFFFF#32 = 0x00000041#32) ∧
    (∀ pre, decode w = .ok (.encode pre) ↔ w &&& 0xFFFFFEFF#32 = 0x00000050#32 ∧ w.getLsbD 8 = pre) ∧
    (decode w = .ok .decode ↔ w &&& 0xFFFFFFFF#32 = 0x00000051#32)

/-- R92: which words are illegal, and what issuing one does. -/
def Obligations.IllegalWordCompletesWithError : Prop :=
  (∀ w : Word, (∃ e, decode w = .error e) ↔
    (w.extractLsb' 0 8 ∉ [0x00#8, 0x10#8, 0x11#8, 0x20#8, 0x21#8, 0x22#8, 0x30#8, 0x31#8, 0x40#8, 0x41#8, 0x50#8, 0x51#8]) ∨
      w.extractLsb' 9 23 ≠ 0#23 ∨ (w.getLsbD 8 = true ∧ w.extractLsb' 0 8 ≠ 0x50#8)) ∧
  (∀ w : Word, decode w = .ok .nop ↔ w = 0#32) ∧
  ∀ (s : State) (e : Reject), s.executes → decode s.cmd = .error e →
    step s = .next { s with seq := .idle, err := true, errCode := some .illegal, errInfo := s.cmd }

/-- 30_encoding.md section 2: the thirteen legal words, written out. -/
def Obligations.SampleWordsDecode : Prop :=
  decode 0x00000000#32 = .ok .nop ∧ decode 0x00000010#32 = .ok .pack ∧ decode 0x00000011#32 = .ok .unpack ∧
  decode 0x00000020#32 = .ok .ftClear ∧ decode 0x00000021#32 = .ok .ftCount ∧
  decode 0x00000022#32 = .ok .treeBuild ∧ decode 0x00000030#32 = .ok .treeSer ∧
  decode 0x00000031#32 = .ok .treeDeser ∧ decode 0x00000040#32 = .ok .encRaw ∧
  decode 0x00000041#32 = .ok .decRaw ∧ decode 0x00000050#32 = .ok (.encode false) ∧
  decode 0x00000150#32 = .ok (.encode true) ∧ decode 0x00000051#32 = .ok .decode

/-! ### Steps and the life cycle of a command (40_command.md) -/

/-- 40_command.md section 1, 70_reset_and_hazards.md section 4: a step runs the command CMD selects, or
serves the host's next access. When each happens while BUSY is the model's `lag` (log 1), and the list of
accesses is the model's (log 2). -/
def Obligations.StepRunsSelectedCommand : Prop :=
  ∀ s : State,
    (∀ i, s.executes → decode s.cmd = .ok i → step s = exec i s) ∧
    (∀ op ops, s.seq = .idle → s.host = op :: ops → step s = hostAccess op { s with host := ops }) ∧
    (∀ op ops n, s.seq = .busy → s.lag = n + 1 → s.host = op :: ops →
      step s = hostAccess op { s with host := ops, lag := n })

/-- R311: IDLE, the engine performs no access and changes nothing; a register or table keeps its value
until the host writes that register (a write of CMD also clears the status record, R130) or a reset comes. That
with no access of the host waiting the state stays is the model's reading (log 18), over its list of accesses
(log 2), and so is that a host read changes no byte, also of memory with read side effects (log 24). -/
def Obligations.IdleEngineChangesNothing : Prop :=
  ∀ s : State, s.seq = .idle →
    (s.host = [] → step s = .next s) ∧
    ∀ t, step s = .next t →
      (t = { s with mem := t.mem, host := t.host, rdata := t.rdata, freeCount := t.freeCount } ∧
        ((∀ a v, ¬s.serves (.memWrite a v)) → t.mem = s.mem)) ∨
      s.resets ∨
      ∃ off v, s.serves (.write 4 off v) ∧
        t = { s with host := t.host, irqEn := t.irqEn, done := t.done, err := t.err, errCode := t.errCode, errInfo := t.errInfo, ovr := t.ovr, seq := t.seq, cmd := t.cmd, lag := t.lag, lags := t.lags, srcBase := t.srcBase, srcLen := t.srcLen, dstBase := t.dstBase, dstCap := t.dstCap, tmpBase := t.tmpBase, tmpCap := t.tmpCap, bitcnt := t.bitcnt, total := t.total, freq := t.freq } ∧
        (off ≠ 0x004 → t.irqEn = s.irqEn) ∧
        (off ≠ 0x008 → off ≠ 0x00C →
          t.done = s.done ∧ t.err = s.err ∧ t.errCode = s.errCode ∧ t.errInfo = s.errInfo ∧ t.ovr = s.ovr) ∧
        (off ≠ 0x00C → t.seq = .idle ∧ t.cmd = s.cmd ∧ t.lag = s.lag ∧ t.lags = s.lags) ∧
        (off ≠ 0x010 → t.srcBase = s.srcBase) ∧ (off ≠ 0x014 → t.srcLen = s.srcLen) ∧
        (off ≠ 0x018 → t.dstBase = s.dstBase) ∧ (off ≠ 0x01C → t.dstCap = s.dstCap) ∧
        (off ≠ 0x020 → t.tmpBase = s.tmpBase) ∧ (off ≠ 0x024 → t.tmpCap = s.tmpCap) ∧
        (off ≠ 0x030 → t.bitcnt.extractLsb' 0 32 = s.bitcnt.extractLsb' 0 32) ∧
        (off ≠ 0x034 → t.bitcnt.extractLsb' 32 32 = s.bitcnt.extractLsb' 32 32) ∧
        (off ≠ 0x038 → t.total = s.total) ∧
        ∀ q : Byte, off ≠ 0x400 + 4 * q.toNat → lookup t.freq q = lookup s.freq q

/-- 40_command.md section 1: issue. The clauses on `lag` and `lags`, and when a command executes, are the model's
(log 1). -/
def Obligations.CmdWriteIssues : Prop :=
  (∀ (s : State) (w : Word), s.seq = .idle →
    Writes s 0x00C w { s with cmd := w, done := false, err := false, errCode := none, errInfo := 0, seq := .busy, lag := s.lags.headD 0, lags := s.lags.tail }) ∧
  (∀ s : State, s.seq = .busy → Reads s 0x008 s.statusWord ∧ s.statusWord.getLsbD 0 = true ∧
    s.statusWord.getLsbD 1 = s.done ∧ s.statusWord.getLsbD 2 = s.err) ∧
  (∀ (s t : State) (op : HostOp), s.seq = .busy → s.serves op → ¬s.resets → step s = .next t →
    t.seq = .busy ∧ (s.done = false → t.done = false) ∧ (s.err = false → t.err = false)) ∧
  (∀ (s : State) (e : Reject), s.executes → decode s.cmd = .error e → step s = .next s.illegalCommand) ∧
  ∀ (s : State) (i : Instr), s.executes → decode s.cmd = .ok i → step s = exec i s

/-- R131: one command at a time, to its completion or error; only a reset ends it otherwise. -/
def Obligations.RunningCommandEndsOnlyByCompletionOrReset : Prop :=
  ∀ s t : State, step s = .next t →
    (s.seq = .idle → t.seq = .busy → ∃ w, s.issues w ∧ t.cmd = w) ∧
    (s.seq = .busy → t.seq = .busy → t.cmd = s.cmd) ∧
    (s.seq = .busy → t.seq = .idle →
      (s.executes ∧ (t.done = true ∨ t.err = true)) ∨ (s.resets ∧ t.done = false ∧ t.err = false))

/-- R132: a CMD write while BUSY is dropped and sets OVR; OVR stays, does not change how the command
ends, and does not drive the interrupt. -/
def Obligations.CmdWriteWhileBusyIsDropped : Prop :=
  (∀ (s : State) (w : Word), s.seq = .busy → Writes s 0x00C w { s with ovr := true }) ∧
  (∀ (i : Instr) (s t : State) (b : Bool), exec i s = .next t →
    exec i { s with ovr := b } = .next { t with ovr := b }) ∧
  (∀ s t : State, step s = .next t → s.ovr = true → t.ovr = true ∨ s.clears 3 ∨ s.resets) ∧
  ∀ (s : State) (b : Bool), State.irq { s with ovr := b } = s.irq

/-- R133: the start checks in their order, and that one that fails does only what R136 says; and the table
of R74, the regions each command uses. That the checks come before the refusals of R85 and R78, so that these
hold also where regions overlap or lie on memory with side effects, is the model's reading (log 7), and
so is that ENCODE uses TMP whatever SRC_LEN is (log 8). -/
def Obligations.StartChecksInOrder : Prop :=
  (∀ (s : State) (e : Reject), s.executes → decode s.cmd = .error e →
    step s = .next (s.raiseErr ⟨.illegal, s.cmd⟩)) ∧
  (∀ (i : Instr) (s : State),
    (usesRegion i .src = true → 2 ^ 32 < s.srcBase.toNat + s.srcLen.toNat →
      exec i s = .next (s.raiseErr ⟨.region, 0x010⟩)) ∧
    (usesRegion i .dst = true → 2 ^ 32 < s.dstBase.toNat + s.dstCap.toNat →
      (usesRegion i .src = true → s.srcBase.toNat + s.srcLen.toNat ≤ 2 ^ 32) →
      exec i s = .next (s.raiseErr ⟨.region, 0x018⟩)) ∧
    (usesRegion i .tmp = true → 2 ^ 32 < s.tmpBase.toNat + s.tmpCap.toNat →
      (usesRegion i .src = true → s.srcBase.toNat + s.srcLen.toNat ≤ 2 ^ 32) →
      (usesRegion i .dst = true → s.dstBase.toNat + s.dstCap.toNat ≤ 2 ^ 32) →
      exec i s = .next (s.raiseErr ⟨.region, 0x020⟩)) ∧
    ((∀ r, usesRegion i r = true → s.regionBase r + s.regionSize r ≤ 2 ^ 32) →
      ((i = .treeSer ∨ i = .encRaw ∨ i = .decRaw) ∧ s.tree = none) ∨
        (i = .treeBuild ∧ ∀ q, lookup s.freq q = 0) →
      exec i s = .next (s.raiseErr ⟨.seq, 0⟩))) ∧
  (∀ i : Instr,
    (usesRegion i .src = true ↔ i ∈ [.pack, .unpack, .encRaw, .decRaw, .decode, .ftCount, .treeDeser, .encode false, .encode true]) ∧
    (usesRegion i .dst = true ↔ i ∈ [.pack, .unpack, .encRaw, .decRaw, .decode, .treeSer, .encode false, .encode true]) ∧
    (usesRegion i .tmp = true ↔ i ∈ [.encode false, .encode true])) ∧
  ∀ (s : State) (r : Raise),
    s.raiseErr r = { s with seq := .idle, err := true, errCode := some r.kind, errInfo := r.info }

/-- 40_command.md section 1 (completion, completion with an error): an issued command that ends leaves
exactly one of DONE and ERR; on an error the result registers OUT_LEN, BITCNT and SRC_POS are kept. -/
def Obligations.CommandEndsDoneOrErr : Prop :=
  ∀ (i : Instr) (s t : State), s.done = false → s.err = false → s.errCode = none → s.errInfo = 0 →
    exec i s = .next t → t.seq = .idle ∧
    ((t.done = true ∧ t.err = false ∧ t.errCode = none ∧ t.errInfo = 0) ∨
      (t.done = false ∧ t.err = true ∧ (∃ k ∈ raisable i, t.errCode = some k) ∧
        t.outLen = s.outLen ∧ t.bitcnt = s.bitcnt ∧ t.srcPos = s.srcPos))

/-- 30_encoding.md section 4 (the out column), registers and tables: what each command leaves alone. The
host's registers, IRQ_EN, OVR and CMD are never written by a command. -/
def Obligations.CommandFrame : Prop :=
  ∀ (i : Instr) (s t : State), exec i s = .next t →
    t = { s with seq := t.seq, done := t.done, err := t.err, errCode := t.errCode, errInfo := t.errInfo, outLen := t.outLen, srcPos := t.srcPos, bitcnt := t.bitcnt, total := t.total, freq := t.freq, tree := t.tree, codes := t.codes, mem := t.mem } ∧
    (i ∉ [.pack, .unpack, .treeSer, .encRaw, .decRaw, .encode false, .encode true, .decode] →
      t.outLen = s.outLen) ∧
    (i ∉ [.pack, .encRaw, .encode false, .encode true, .decode] → t.bitcnt = s.bitcnt) ∧
    (i ∉ [.treeDeser, .decode] → t.srcPos = s.srcPos) ∧
    (i ∉ [.ftClear, .ftCount, .encode false] → t.freq = s.freq ∧ t.total = s.total) ∧
    (i ∉ [.treeBuild, .treeDeser, .encode false, .encode true, .decode] →
      t.tree = s.tree ∧ t.codes = s.codes)

/-- 20_memory.md section 1 (the write column of the region table) and 45_pipeline.md section 2 (TMP after
ENCODE): a command writes only inside the regions it writes, and one that completes has stored exactly
the first OUT_LEN bytes of DST and, for ENCODE, the first ceil(BITCNT / 8) bytes of TMP. -/
def Obligations.CommandMemoryFrame : Prop :=
  ∀ (i : Instr) (s t : State), exec i s = .next t →
    (i ∈ [.nop, .ftClear, .ftCount, .treeBuild, .treeDeser] → ∀ a, t.mem.read a = s.mem.read a) ∧
    (∀ a, (i ∈ [.pack, .unpack, .encRaw, .decRaw, .treeSer, .decode] →
        a < s.dstBase.toNat ∨ s.dstBase.toNat + s.dstCap.toNat ≤ a) →
      (i = .encode false ∨ i = .encode true →
        (a < s.dstBase.toNat ∨ s.dstBase.toNat + s.dstCap.toNat ≤ a) ∧
        (a < s.tmpBase.toNat ∨ s.tmpBase.toNat + s.tmpCap.toNat ≤ a)) →
      t.mem.read a = s.mem.read a) ∧
    (s.err = false → t.err = false → ∀ a,
      (i ∈ [.pack, .unpack, .encRaw, .decRaw, .treeSer, .decode] →
        a < s.dstBase.toNat ∨ s.dstBase.toNat + t.outLen.toNat ≤ a) →
      (i = .encode false ∨ i = .encode true →
        (a < s.dstBase.toNat ∨ s.dstBase.toNat + t.outLen.toNat ≤ a) ∧
        (a < s.tmpBase.toNat ∨ s.tmpBase.toNat + (t.bitcnt.toNat + 7) / 8 ≤ a)) →
      t.mem.read a = s.mem.read a)

/-- R293: a command can raise an error exactly where the table says so. -/
def Obligations.EachCommandRaisesExactly : Prop :=
  (∀ (i : Instr) (k : ErrKind),
    (∃ s t : State, s.err = false ∧ s.errCode = none ∧ exec i s = .next t ∧ t.errCode = some k) ↔
      (i, k) ∈ [(.pack, .io), (.pack, .illegal), (.pack, .region),
        (.unpack, .io), (.unpack, .corrupt), (.unpack, .region),
        (.ftCount, .io), (.ftCount, .overflow), (.ftCount, .region),
        (.treeBuild, .seq),
        (.treeSer, .io), (.treeSer, .seq), (.treeSer, .region),
        (.treeDeser, .io), (.treeDeser, .corrupt), (.treeDeser, .region),
        (.encRaw, .io), (.encRaw, .internal), (.encRaw, .seq), (.encRaw, .region),
        (.decRaw, .io), (.decRaw, .corrupt), (.decRaw, .seq), (.decRaw, .region),
        (.encode false, .io), (.encode false, .region),
        (.encode true, .io), (.encode true, .internal), (.encode true, .region),
        (.decode, .io), (.decode, .corrupt), (.decode, .region)]) ∧
  ∀ (s t : State) (e : Reject), s.executes → decode s.cmd = .error e → step s = .next t →
    t.errCode = some .illegal

/-- 20_memory.md sections 2 and 5, 40_command.md section 1 (every command completes): a command is refused
only when two regions it uses share an address, or one lies on memory with read side effects, and in
every other state it ends in a next state. That the start checks come before the refusals is the model's
reading (log 7), and so is what it means that regions overlap (log 8); how the side effects are given is the
model's (log 9). -/
def Obligations.CommandRefusedOnlyForItsRegions : Prop :=
  ∀ (i : Instr) (s : State),
    let shared := ∃ r q a, r ≠ q ∧ usesRegion i r = true ∧ usesRegion i q = true ∧
      s.inRegion r a = true ∧ s.inRegion q a = true
    let sensitive := ∃ r a, usesRegion i r = true ∧ s.inRegion r a = true ∧
      Config.covers s.params.sideEffects a = true
    (startCheck i s = none → shared → exec i s = .refused .regionsOverlap) ∧
    (startCheck i s = none → ¬shared → sensitive → exec i s = .refused .regionSideEffects) ∧
    (startCheck i s ≠ none ∨ (¬shared ∧ ¬sensitive) → ∃ t, exec i s = .next t)

/-! ### The register window (10_state.md) -/

/-- R24: the fields of STATUS, what sets and clears each, and DONE and ERR never both 1, neither while
BUSY. -/
def Obligations.StatusRegister : Prop :=
  (∀ s : State, Reads s 0x008 s.statusWord ∧
    s.statusWord.getLsbD 0 = decide (s.seq = .busy) ∧ s.statusWord.getLsbD 1 = s.done ∧
    s.statusWord.getLsbD 2 = s.err ∧ s.statusWord.getLsbD 3 = s.ovr ∧
    s.statusWord.getLsbD 4 = s.tree.isSome ∧ s.statusWord.extractLsb' 5 3 = 0#3 ∧
    s.statusWord.extractLsb' 8 4 = (match s.errCode with
      | none => 0#4 | some .io => 1#4 | some .corrupt => 2#4 | some .internal => 3#4 | some .illegal => 4#4
      | some .seq => 5#4 | some .overflow => 6#4 | some .region => 7#4) ∧
    s.statusWord.extractLsb' 12 20 = 0#20) ∧
  State.reset.statusWord = 0#32 ∧
  (∀ (s : State) (v : Word), Writes s 0x008 v { s with done := s.done && !v.getLsbD 1, err := s.err && !v.getLsbD 2, errCode := if v.getLsbD 2 then none else s.errCode, errInfo := if v.getLsbD 2 then 0 else s.errInfo, ovr := s.ovr && !v.getLsbD 3 }) ∧
  (∀ s t : State, step s = .next t →
    (s.seq = .idle → t.seq = .busy → ∃ w, s.issues w) ∧
    (s.seq = .busy → t.seq = .idle → s.executes ∨ s.resets) ∧
    (s.done = false → t.done = true → s.executes ∧ t.seq = .idle ∧ t.err = s.err) ∧
    (s.done = true → t.done = false → s.clears 1 ∨ (∃ w, s.issues w) ∨ s.resets) ∧
    (s.err = false → t.err = true → s.executes ∧ t.seq = .idle ∧ t.done = s.done) ∧
    (s.err = true → t.err = false → s.clears 2 ∨ (∃ w, s.issues w) ∨ s.resets) ∧
    (s.ovr = false → t.ovr = true → s.seq = .busy ∧ ∃ w, s.serves (.write 4 0x00C w)) ∧
    (s.ovr = true → t.ovr = false → s.clears 3 ∨ s.resets) ∧
    (s.tree = none → t.tree ≠ none → s.executes ∧
      ∃ i ∈ [.treeBuild, .treeDeser, .encode false, .encode true, .decode], decode s.cmd = .ok i) ∧
    (s.tree ≠ none → t.tree = none →
      (s.executes ∧ (decode s.cmd = .ok .treeDeser ∨ decode s.cmd = .ok .decode) ∧ t.err = true ∧
        (t.errCode = some .io ∨ t.errCode = some .corrupt)) ∨ s.resets) ∧
    (t.errCode ≠ s.errCode → (s.executes ∧ t.err = true) ∨ s.clears 2 ∨ (∃ w, s.issues w) ∨ s.resets)) ∧
  ∀ s t : State, s.Inv → step s = .next t →
    ¬(t.done = true ∧ t.err = true) ∧ (t.seq = .busy → t.done = false ∧ t.err = false)

/-- R22, R23, R33: ID, CTRL and PARAM, IDLE or BUSY, and that no step changes what ID and PARAM read. That a
write of SRST resets also while BUSY with a command that a model refuses is the model's (log 22). -/
def Obligations.ControlAndConstantRegisters : Prop :=
  (∀ (s : State) (v : Word),
    Reads s 0x000 0x48554631#32 ∧ Writes s 0x000 v s ∧
    Reads s 0x04C (BitVec.ofNat 32 (s.params.brBlock * 2 ^ 16 + s.params.bwCap)) ∧ Writes s 0x04C v s ∧
    s.params.brBlock < 2 ^ 16 ∧ s.params.bwCap < 2 ^ 16 ∧
    Reads s 0x004 (if s.irqEn then 0x00000002#32 else 0x00000000#32) ∧
    (s.irqEn = false → s.irq = false) ∧ (s.irqEn = true → s.irq = (s.done || s.err)) ∧
    (v.getLsbD 0 = false → Writes s 0x004 v { s with irqEn := v.getLsbD 1 }) ∧
    (v.getLsbD 0 = true → Writes s 0x004 v s.applyReset ∧ s.applyReset.irqEn = false)) ∧
  State.reset.irqEn = false ∧
  ∀ s t : State, step s = .next t → t.params = s.params

/-- R26: the region registers. -/
def Obligations.RegionRegisters : Prop :=
  (∀ (s : State) (v : Word), s.seq = .idle →
    (Reads s 0x010 s.srcBase ∧ Writes s 0x010 v { s with srcBase := v }) ∧
    (Reads s 0x014 s.srcLen ∧ Writes s 0x014 v { s with srcLen := v }) ∧
    (Reads s 0x018 s.dstBase ∧ Writes s 0x018 v { s with dstBase := v }) ∧
    (Reads s 0x01C s.dstCap ∧ Writes s 0x01C v { s with dstCap := v }) ∧
    (Reads s 0x020 s.tmpBase ∧ Writes s 0x020 v { s with tmpBase := v }) ∧
    (Reads s 0x024 s.tmpCap ∧ Writes s 0x024 v { s with tmpCap := v })) ∧
  (∀ s : State, s.regionBase .src = s.srcBase.toNat ∧ s.regionSize .src = s.srcLen.toNat ∧
    s.regionBase .dst = s.dstBase.toNat ∧ s.regionSize .dst = s.dstCap.toNat ∧
    s.regionBase .tmp = s.tmpBase.toNat ∧ s.regionSize .tmp = s.tmpCap.toNat) ∧
  (State.reset.srcBase = 0 ∧ State.reset.srcLen = 0 ∧ State.reset.dstBase = 0 ∧ State.reset.dstCap = 0 ∧
    State.reset.tmpBase = 0 ∧ State.reset.tmpCap = 0) ∧
  ∀ (i : Instr) (s t : State), exec i s = .next t →
    t.srcBase = s.srcBase ∧ t.srcLen = s.srcLen ∧ t.dstBase = s.dstBase ∧ t.dstCap = s.dstCap ∧
    t.tmpBase = s.tmpBase ∧ t.tmpCap = s.tmpCap

/-- R29: BITCNT and its halves. -/
def Obligations.BitcntHalves : Prop :=
  (∀ (s : State) (v : Word), s.seq = .idle →
    Reads s 0x030 (s.bitcnt.extractLsb' 0 32) ∧ Reads s 0x034 (s.bitcnt.extractLsb' 32 32) ∧
    (∃ b : Dword, Writes s 0x030 v { s with bitcnt := b } ∧ b.extractLsb' 0 32 = v ∧
      b.extractLsb' 32 32 = s.bitcnt.extractLsb' 32 32) ∧
    (∃ b : Dword, Writes s 0x034 v { s with bitcnt := b } ∧ b.extractLsb' 32 32 = v ∧
      b.extractLsb' 0 32 = s.bitcnt.extractLsb' 0 32)) ∧
  State.reset.bitcnt = 0 ∧
  (∀ (i : Instr) (s t : State), exec i s = .next t → s.err = false → t.err = true → t.bitcnt = s.bitcnt) ∧
  ∀ (i : Instr) (s t : State), i ∉ [.pack, .encRaw, .encode false, .encode true, .decode] →
    exec i s = .next t → t.bitcnt = s.bitcnt

/-- R37: FREQ[s]; and the other 32-bit registers of 10_state.md section 2 whose value is stored as it is. -/
def Obligations.DataRegisters : Prop :=
  ∀ (s : State) (v : Word), s.seq = .idle →
    (∀ q : Byte, Reads s (0x400 + 4 * q.toNat) (lookup s.freq q) ∧
      ∃ f : FreqTable, Writes s (0x400 + 4 * q.toNat) v { s with freq := f } ∧
        ∀ q', lookup f q' = if q' = q then v else lookup s.freq q') ∧
    Reads s 0x00C s.cmd ∧ Reads s 0x028 s.outLen ∧ Reads s 0x02C s.srcPos ∧
    Reads s 0x038 s.total ∧ Writes s 0x038 v { s with total := v } ∧ Reads s 0x03C s.errInfo

/-- R35: host accesses while BUSY. The value an unspecified read returns is free: nothing is known of
`Config.freeWord`, and `freeCount` is the model's own counter (log 5). That R35 goes before R34 for a reserved
offset, and so its read is unspecified too, is the model's (log 21), and so is that a write of SRST resets also
with a command that a model refuses (log 22). -/
def Obligations.BusyAccess : Prop :=
  ∀ s : State, s.seq = .busy →
    (∀ off v, off % 4 = 0 → off ≤ 0x4FFC → off ∉ [0x004, 0x008, 0x00C] → Writes s off v s) ∧
    (∀ off, off % 4 = 0 → off ≤ 0x4FFC → off ∉ [0x000, 0x004, 0x008, 0x00C, 0x04C] →
      hostAccess (.read 4 off) s =
        .next { s with rdata := Config.freeWord s.freeCount, freeCount := s.freeCount + 1 }) ∧
    (Reads s 0x000 0x48554631#32 ∧ Reads s 0x004 s.ctrlWord ∧ Reads s 0x008 s.statusWord ∧
      Reads s 0x00C s.cmd ∧ Reads s 0x04C (State.regWord s .param)) ∧
    ∀ v : Word, Writes s 0x008 v (s.writeStatus v) ∧ Writes s 0x00C v { s with ovr := true } ∧
      (v.getLsbD 0 = false → Writes s 0x004 v { s with irqEn := v.getLsbD 1 }) ∧
      (v.getLsbD 0 = true → Writes s 0x004 v s.applyReset)

/-- 10_state.md sections 2 and 5: reserved offsets and bits read 0 and ignore writes; a read has no side effect;
a write to a read-only register or field has no effect. `rdata` and `freeCount` are the model's own (log 2,
log 5), and what a reserved offset reads while BUSY, which is not said here, is the model's too (log 21). -/
def Obligations.ReservedAndReadOnly : Prop :=
  (∀ (s : State) (off : Nat) (v : Word), s.seq = .idle → off % 4 = 0 →
    (0x050 ≤ off ∧ off ≤ 0x3FC) ∨ (0xC00 ≤ off ∧ off ≤ 0xFFC) ∨ (0x4FF0 ≤ off ∧ off ≤ 0x4FFC) →
    Reads s off 0 ∧ Writes s off v s) ∧
  (∀ s : State, s.ctrlWord.getLsbD 0 = false ∧ s.ctrlWord.extractLsb' 2 30 = 0#30 ∧
    s.statusWord.extractLsb' 5 3 = 0#3 ∧ s.statusWord.extractLsb' 12 20 = 0#20) ∧
  (∀ (s t : State) (v v' : Word), v.extractLsb' 0 2 = v'.extractLsb' 0 2 → Writes s 0x004 v t → Writes s 0x004 v' t) ∧
  (∀ (s t : State) (v v' : Word), v.extractLsb' 1 3 = v'.extractLsb' 1 3 → Writes s 0x008 v t → Writes s 0x008 v' t) ∧
  (∀ (s t : State) (size off : Nat), hostAccess (.read size off) s = .next t →
    t = { s with rdata := t.rdata, freeCount := t.freeCount }) ∧
  ∀ (s : State) (off : Nat) (v : Word), off % 4 = 0 →
    off ∈ [0x000, 0x028, 0x02C, 0x03C, 0x040, 0x044, 0x048, 0x04C] ∨ (0x800 ≤ off ∧ off ≤ 0xBFC) ∨
      (0x1000 ≤ off ∧ off ≤ 0x4FEC) → Writes s off v s

/-- R47: the accesses the interface has; a model refuses any other. The host addresses they stand at: an
offset is from HUFF_BASE (10_state.md section 2), the model's parameter `huffBase` (log 13). -/
def Obligations.WindowAccessRefused : Prop :=
  ∀ (s : State) (size off : Nat) (v : Word),
    (off < 0x5000 → s.hostLoad size (s.params.huffBase + off) = some (.read size off) ∧
      s.hostStore size (s.params.huffBase + off) v = some (.write size off v)) ∧
    (∀ a, a < s.params.huffBase ∨ s.params.huffBase + 0x5000 ≤ a →
      s.hostLoad size a = none ∧ s.hostStore size a v = none) ∧
    (size = 4 ∧ off % 4 = 0 ∧ off ≤ 0x4FFC →
      (∃ t, hostAccess (.read size off) s = .next t) ∧ ∃ t, hostAccess (.write size off v) s = .next t) ∧
    (¬(size = 4 ∧ off % 4 = 0 ∧ off ≤ 0x4FFC) →
      hostAccess (.read size off) s = .refused .windowAccess ∧
      hostAccess (.write size off v) s = .refused .windowAccess)

/-- R38, R39: the windows of the code table while there is a tree. -/
def Obligations.CodeWindow : Prop :=
  (∀ q : Byte, lookup State.reset.codes q = []) ∧
  ∀ (s : State) (q : Byte), s.Inv → s.seq = .idle → s.tree ≠ none →
    (∃ v : Word, Reads s (0x800 + 4 * q.toNat) v ∧ (v.extractLsb' 0 8).toNat = (lookup s.codes q).length ∧
      (lookup s.codes q).length ≤ 255 ∧ v.extractLsb' 8 24 = 0#24) ∧
    ∀ w, w < 8 → ∃ v : Word, Reads s (0x1000 + 32 * q.toNat + 4 * w) v ∧
      (∀ j, j < (lookup s.codes q).length → j / 32 = w →
        v.getLsbD (31 - j % 32) = (lookup s.codes q).getD j false) ∧
      (∀ j, (lookup s.codes q).length ≤ j → j / 32 = w → v.getLsbD (31 - j % 32) = false)

/-- R32, R41, R43: the TREE registers and the node window, with and without a tree. -/
def Obligations.TreeWindows : Prop :=
  (∀ (s : State) (t : Machine.Tree), s.Inv → s.seq = .idle → s.tree = some t →
    Reads s 0x040 (BitVec.ofNat 32 t.size) ∧ Reads s 0x044 (BitVec.ofNat 32 t.leaves) ∧
    Reads s 0x048 (BitVec.ofNat 32 t.idx) ∧
    ∀ i, i ≤ 510 →
      (∀ sym wt, t.find i = some (.leaf i sym wt) →
        (∃ v : Word, Reads s (0x3000 + 16 * i) v ∧ v.getLsbD 31 = true ∧ v.extractLsb' 8 23 = 0#23 ∧
          v.extractLsb' 0 8 = sym) ∧
        Reads s (0x3000 + 16 * i + 4) 0 ∧ Reads s (0x3000 + 16 * i + 8) (wt.extractLsb' 0 32) ∧
        Reads s (0x3000 + 16 * i + 12) (wt.extractLsb' 32 32)) ∧
      (∀ z o wt, t.find i = some (.node i z o wt) →
        Reads s (0x3000 + 16 * i) 0 ∧
        (∃ v : Word, Reads s (0x3000 + 16 * i + 4) v ∧ (v.extractLsb' 0 9).toNat = z.idx ∧
          v.extractLsb' 9 7 = 0#7 ∧ (v.extractLsb' 16 9).toNat = o.idx ∧ v.extractLsb' 25 7 = 0#7) ∧
        Reads s (0x3000 + 16 * i + 8) (wt.extractLsb' 0 32) ∧
        Reads s (0x3000 + 16 * i + 12) (wt.extractLsb' 32 32)) ∧
      (i < t.size → ∃ u, t.find i = some u ∧ u.idx = i) ∧
      (t.size ≤ i → ∀ k, k < 4 → Reads s (0x3000 + 16 * i + 4 * k) 0)) ∧
  (∀ (freq : FreqTable) (t : Machine.Tree), buildTree freq = some t →
    t.size + 1 = 2 * t.leaves ∧ t.idx + 1 = t.size) ∧
  (∀ t : Machine.Tree, (t.renumber 0).idx = 0 ∧ (t.renumber 0).size = t.size ∧ (t.renumber 0).leaves = t.leaves) ∧
  ∀ (s : State) (off : Nat), s.seq = .idle → s.tree = none → off % 4 = 0 →
    off ∈ [0x040, 0x044, 0x048] ∨ (0x800 ≤ off ∧ off ≤ 0xBFC) ∨ (0x1000 ≤ off ∧ off ≤ 0x4FEC) → Reads s off 0

/-! ### The data space (20_memory.md) -/

/-- R84, and 20_memory.md sections 1 and 5: the host's accesses to the data space. While BUSY, one to memory
in use is refused, and only that; a word that selects no command uses no region. That BUSY is the sequencer's,
whatever the host has read of it, is the model's (log 23), that an address at or above 2^32 faults (log 17), and
that memory with read side effects (log 24) or with bus errors of the engine's accesses (log 25) is plain memory to
the host. -/
def Obligations.HostMemoryAccess : Prop :=
  (∀ (i : Instr) (r : Region), r ∈ writeRegions i ↔
    (r = .dst ∧ i ∈ [.pack, .unpack, .encRaw, .decRaw, .treeSer, .decode, .encode false, .encode true]) ∨
      (r = .tmp ∧ i ∈ [.encode false, .encode true])) ∧
  (∀ (s : State) (i : Instr) (a : Nat) (v : Byte), s.seq = .busy → decode s.cmd = .ok i → a < 2 ^ 32 →
    ((∃ r, usesRegion i r = true ∧ s.inRegion r a = true) →
      hostAccess (.memWrite a v) s = .refused .memoryInUse) ∧
    ((∀ r, usesRegion i r = true → s.inRegion r a = false) →
      hostAccess (.memWrite a v) s = .next { s with mem := s.mem.write a v }) ∧
    ((∃ r ∈ writeRegions i, s.inRegion r a = true) → hostAccess (.memRead a) s = .refused .memoryInUse) ∧
    ((∀ r ∈ writeRegions i, s.inRegion r a = false) →
      hostAccess (.memRead a) s = .next { s with rdata := (s.mem.read a).setWidth 32 })) ∧
  (∀ (s : State) (e : Reject) (a : Nat) (v : Byte), s.seq = .busy → decode s.cmd = .error e → a < 2 ^ 32 →
    hostAccess (.memWrite a v) s = .next { s with mem := s.mem.write a v } ∧
    hostAccess (.memRead a) s = .next { s with rdata := (s.mem.read a).setWidth 32 }) ∧
  ∀ (s : State) (a : Nat) (v : Byte),
    (2 ^ 32 ≤ a → hostAccess (.memWrite a v) s = .fault .noSuchAddress ∧
      hostAccess (.memRead a) s = .fault .noSuchAddress) ∧
    (a < 2 ^ 32 → s.seq = .idle → s.mem.wf = true →
      ∃ m : Memory, hostAccess (.memWrite a v) s = .next { s with mem := m } ∧
        hostAccess (.memRead a) { s with mem := m } = .next { s with mem := m, rdata := v.setWidth 32 } ∧
        m.wf = true ∧ ∀ b, b ≠ a → m.read b = s.mem.read b)

/-- R73: the byte accesses; and that a sequence of them reads back, in canonical form. -/
def Obligations.ByteAccess : Prop :=
  (∀ (p : Params) (m : Memory) (a : Nat) (v : Byte),
    (busErrRd p a = true → memRead p m a = .error (raise .io a)) ∧
    (busErrRd p a = false → memRead p m a = .ok (m.read a)) ∧
    (busErrWr p a = true → memWrite p m a v = .error (raise .io a)) ∧
    (busErrWr p a = false → memWrite p m a v = .ok (m.write a v))) ∧
  (∀ (m : Memory) (a : Nat) (v : Byte), m.wf = true → a < 2 ^ 32 →
    (m.write a v).wf = true ∧ (m.write a v).read a = v ∧ ∀ b, b ≠ a → (m.write a v).read b = m.read b) ∧
  ∀ (m : Memory) (a : Nat) (vs : List Byte), m.wf = true → a + vs.length ≤ 2 ^ 32 →
    (m.writeBytes a vs).wf = true ∧ (m.writeBytes a vs).bytes a vs.length = vs ∧
    ∀ b, b < a ∨ a + vs.length ≤ b → (m.writeBytes a vs).read b = m.read b

/-! ### Reset and interrupt (70_reset_and_hazards.md, 60_exceptions.md) -/

/-- 70_reset_and_hazards.md section 1: a reset, by the input or by SRST, in any state. That the parameters and
the model's own fields `host`, `rdata` and `lags` are kept is the model's (log 16), and so are that the reset input
is an item of the host's list (log 19) and that a reset answers a next state also while BUSY with a command that a
model refuses (log 22). -/
def Obligations.ResetValues : Prop :=
  ∀ s : State, ∃ t : State, hostAccess .hwReset s = .next t ∧
    (∀ v : Word, v.getLsbD 0 = true → Writes s 0x004 v t) ∧
    t = { State.reset with params := s.params, mem := t.mem, host := s.host, rdata := s.rdata, lags := s.lags, freeCount := t.freeCount } ∧
    (t.seq = .idle ∧ t.irqEn = false ∧ t.done = false ∧ t.err = false ∧ t.ovr = false ∧ t.errCode = none ∧
      t.cmd = 0 ∧ t.srcBase = 0 ∧ t.srcLen = 0 ∧ t.dstBase = 0 ∧ t.dstCap = 0 ∧ t.tmpBase = 0 ∧ t.tmpCap = 0 ∧
      t.outLen = 0 ∧ t.srcPos = 0 ∧ t.bitcnt = 0 ∧ t.total = 0 ∧ t.errInfo = 0 ∧ (∀ q, lookup t.freq q = 0) ∧
      t.tree = none ∧ (∀ q, lookup t.codes q = []) ∧ t.irq = false) ∧
    (s.seq = .idle → t.mem = s.mem) ∧
    (∀ off, off % 4 = 0 → off ≤ 0x4FFC → Reads t off
      (if off = 0 then 0x48554631#32
        else if off = 0x04C then BitVec.ofNat 32 (s.params.brBlock * 2 ^ 16 + s.params.bwCap) else 0#32))

/-- 70_reset_and_hazards.md section 1 (a reset while BUSY): the command is aborted, no result register is
written, and every byte outside the regions it writes is kept; every byte, for a word that selects no command.
What the bytes inside read is free (log 6), a command that a model refuses is aborted like any other
(log 22), and the reset input is an item of the host's list (log 19). -/
def Obligations.ResetAbortsCommand : Prop :=
  ∀ s : State, s.seq = .busy →
    ∃ t : State, hostAccess .hwReset s = .next t ∧ t.seq = .idle ∧ t.done = false ∧ t.err = false ∧
      t.outLen = 0 ∧ t.bitcnt = 0 ∧ t.srcPos = 0 ∧ t.freq = State.reset.freq ∧ t.total = 0 ∧ t.tree = none ∧
      t.codes = State.reset.codes ∧
      (∀ i, decode s.cmd = .ok i →
        ∀ a, (∀ r ∈ writeRegions i, s.inRegion r a = false) → t.mem.read a = s.mem.read a) ∧
      ∀ e, decode s.cmd = .error e → t.mem = s.mem

/-- R300: the interrupt output, when it is asserted and what deasserts it. -/
def Obligations.InterruptLevel : Prop :=
  (∀ s : State, s.irq = (s.irqEn && (s.done || s.err))) ∧
  (∀ (s : State) (b : Bool), State.irq { s with ovr := b } = s.irq) ∧
  State.reset.irq = false ∧
  (∀ (i : Instr) (s t : State), s.irqEn = true → exec i s = .next t → t.irq = true) ∧
  (∀ s t : State, step s = .next t → s.irq = true → t.irq = false →
    s.clears 1 ∨ s.clears 2 ∨ (∃ w, s.issues w) ∨ s.resets ∨
      ∃ v, s.serves (.write 4 0x004 v) ∧ v.getLsbD 1 = false) ∧
  ∀ s t : State, s.Inv → step s = .next t →
    (s.clears 1 → s.done = true → t.irq = false) ∧ (s.clears 2 → s.err = true → t.irq = false) ∧
    ((∃ w, s.issues w) → t.irq = false) ∧ (s.resets → t.irq = false) ∧
    ((∃ v, s.serves (.write 4 0x004 v) ∧ v.getLsbD 1 = false) → t.irq = false)

/-- 70_reset_and_hazards.md section 4: a host in a WAIT loop sees the command end after finitely many accesses,
as long as the command is not one a model refuses. That the bound is `lag` is the model's (log 1), and so is that a
WAIT is a host operation that puts itself back (log 15). -/
def Obligations.WaitEnds : Prop :=
  ∀ (s : State) (ops : List HostOp), s.seq = .busy → s.host = .wait :: ops →
    (∀ i, decode s.cmd = .ok i → s.regionsDisjoint i = true ∧ (usedRegions i).any s.regionHasSideEffects = false) →
    ∃ t : State, Sys2Proof.core.run (s.lag + 1) s = .next t ∧ t.seq = .idle ∧ t.host = .wait :: ops

/-! ### Control and bit-stream accumulator (40_command.md, 41_bitstream.md) -/

/-- R140: NOP. The last clause is the model's: three steps from reset issue NOP and end the WAIT because the
reset value of `lags` is the empty list (log 1, log 16), over the model's list of host accesses (log 2), in which
WAIT is an item of its own (log 15). -/
def Obligations.NopCompletes : Prop :=
  (∀ s : State, exec .nop s = .next { s with seq := .idle, done := true }) ∧
  decode 0x00000000#32 = .ok .nop ∧
  (∀ w : Word, w.extractLsb' 0 8 = 0#8 → w ≠ 0#32 → ∃ e, decode w = .error e) ∧
  ∃ t : State, Sys2Proof.core.run 3 { State.reset with host := [.write 4 0x00C 0#32, .wait] } = .next t ∧
    t.host = [] ∧ t.rdata = 0x00000002#32

/-- R95: the packed form of a bit sequence, bit by bit, and that it reads back. -/
def Obligations.PackedBitPositions : Prop :=
  ∀ bs : List Bool, (packBits bs).length = (bs.length + 7) / 8 ∧
    (∀ (i : Nat) (h : i / 8 < (packBits bs).length), ((packBits bs)[i / 8]).getLsbD (7 - i % 8) = bs.getD i false) ∧
    (bitsOfBytes (packBits bs)).take bs.length = bs

/-- 41_bitstream.md sections 2 and 3 (PACK): a SRC of bits is packed into DST; a byte that is no bit raises
E_ILLEGAL at its offset, an output byte DST does not take E_IO at its address, a block of SRC whose fetch meets
a bus error E_IO at the error's address. What is drained before the first and the last is whole blocks of BW_CAP
bytes. -/
def Obligations.PackPacksBits : Prop :=
  (∀ (s : State) (bs : List Bool), startResult .pack s = .run →
    Readable s.params s.srcBase.toNat s.srcLen.toNat → s.srcBytes = unpacked bs →
    Takes s.params s.dstBase.toNat s.dstCap.toNat ((bs.length + 7) / 8) →
    exec .pack s = .next { s with seq := .idle, done := true, mem := s.mem.writeBytes s.dstBase.toNat (packBits bs), outLen := BitVec.ofNat 32 ((bs.length + 7) / 8), bitcnt := s.srcLen.setWidth 64 }) ∧
  (∀ (s : State) (bs : List Bool) (v : Byte) (rest : List Byte), startResult .pack s = .run →
    Readable s.params s.srcBase.toNat s.srcLen.toNat → s.srcBytes = unpacked bs ++ v :: rest → 1 < v.toNat →
    Takes s.params s.dstBase.toNat s.dstCap.toNat ((bs.length + 7) / 8) →
    exec .pack s = .next (State.raiseErr (raise .illegal bs.length) { s with mem := s.mem.writeBytes s.dstBase.toNat (drained s.params (packBits (wholeBytes bs))) })) ∧
  (∀ (s : State) (bs : List Bool) (j : Nat), startResult .pack s = .run →
    Readable s.params s.srcBase.toNat s.srcLen.toNat → s.srcBytes = unpacked bs → j < (bs.length + 7) / 8 →
    Takes s.params s.dstBase.toNat s.dstCap.toNat j → ¬Takes s.params s.dstBase.toNat s.dstCap.toNat (j + 1) →
    exec .pack s = .next (State.raiseErr (raise .io (s.dstBase.toNat + j)) { s with mem := s.mem.writeBytes s.dstBase.toNat ((packBits bs).take j) })) ∧
  ∀ (s : State) (bs : List Bool) (j : Nat), startResult .pack s = .run →
    FirstBusError s.params s.srcBase.toNat s.srcLen.toNat j →
    s.srcBytes.take (blockStart s.params j) = unpacked bs →
    Takes s.params s.dstBase.toNat s.dstCap.toNat ((bs.length + 7) / 8) →
    exec .pack s = .next (State.raiseErr (raise .io (s.srcBase.toNat + j)) { s with mem := s.mem.writeBytes s.dstBase.toNat (drained s.params (packBits (wholeBytes bs))) })

/-- 41_bitstream.md sections 1 to 3 (UNPACK): BITCNT bits, or E_CORRUPT(SRC_LEN) when SRC holds fewer; E_IO at
the address of the first output byte DST does not take; E_IO at the first bus error of a block of SRC that is
wanted. -/
def Obligations.UnpackUnpacksBits : Prop :=
  ∀ s : State, startResult .unpack s = .run →
    (Readable s.params s.srcBase.toNat s.srcLen.toNat →
      (s.bitcnt.toNat ≤ 8 * s.srcLen.toNat → Takes s.params s.dstBase.toNat s.dstCap.toNat s.bitcnt.toNat →
        exec .unpack s = .next { s with seq := .idle, done := true, mem := s.mem.writeBytes s.dstBase.toNat (unpacked ((bitsOfBytes s.srcBytes).take s.bitcnt.toNat)), outLen := BitVec.ofNat 32 s.bitcnt.toNat }) ∧
      (8 * s.srcLen.toNat < s.bitcnt.toNat → Takes s.params s.dstBase.toNat s.dstCap.toNat (8 * s.srcLen.toNat) →
        exec .unpack s = .next (State.raiseErr (raise .corrupt s.srcLen.toNat) { s with mem := s.mem.writeBytes s.dstBase.toNat (drained s.params (unpacked (bitsOfBytes s.srcBytes))) })) ∧
      ∀ j, s.bitcnt.toNat ≤ 8 * s.srcLen.toNat → j < s.bitcnt.toNat →
        Takes s.params s.dstBase.toNat s.dstCap.toNat j → ¬Takes s.params s.dstBase.toNat s.dstCap.toNat (j + 1) →
        exec .unpack s = .next (State.raiseErr (raise .io (s.dstBase.toNat + j)) { s with mem := s.mem.writeBytes s.dstBase.toNat ((unpacked ((bitsOfBytes s.srcBytes).take s.bitcnt.toNat)).take j) })) ∧
    ∀ j, FirstBusError s.params s.srcBase.toNat s.srcLen.toNat j → 8 * blockStart s.params j < s.bitcnt.toNat →
      Takes s.params s.dstBase.toNat s.dstCap.toNat (8 * blockStart s.params j) →
      exec .unpack s = .next (State.raiseErr (raise .io (s.srcBase.toNat + j)) { s with mem := s.mem.writeBytes s.dstBase.toNat (drained s.params (unpacked (bitsOfBytes (s.srcBytes.take (blockStart s.params j))))) })

/-! ### Frequency table and tree (42_tree.md) -/

/-- R181, R195: FT_CLEAR. -/
def Obligations.FtClearZeroes : Prop :=
  ∀ s : State, ∃ f : FreqTable, (∀ q, lookup f q = 0) ∧
    exec .ftClear s = .next { s with seq := .idle, done := true, freq := f, total := 0 }

/-- R183, and 42_tree.md section 4 (FT_COUNT): the byte counts of SRC are added; and what stays when Count
raises: byte `k` would carry a counter past its limit after a fetch of its block, or the fetch of offset `j`'s block meets a bus error. -/
def Obligations.FtCountTallies : Prop :=
  (∀ s : State, startResult .ftCount s = .run → Readable s.params s.srcBase.toNat s.srcLen.toNat →
    (∀ q, (lookup s.freq q).toNat + s.srcBytes.count q < 2 ^ 32) → s.total.toNat + s.srcLen.toNat < 2 ^ 32 →
    ∃ f : FreqTable, (∀ q, (lookup f q).toNat = (lookup s.freq q).toNat + s.srcBytes.count q) ∧
      exec .ftCount s = .next { s with seq := .idle, done := true, freq := f, total := s.total + s.srcLen }) ∧
  (∀ (s : State) (k : Nat), startResult .ftCount s = .run → k < s.srcLen.toNat →
    Readable s.params s.srcBase.toNat (min s.srcLen.toNat ((k / s.params.brBlock + 1) * s.params.brBlock)) →
    (∀ q, (lookup s.freq q).toNat + (s.srcBytes.take k).count q < 2 ^ 32) → s.total.toNat + k < 2 ^ 32 →
    ((lookup s.freq (s.mem.read (s.srcBase.toNat + k))).toNat +
        (s.srcBytes.take k).count (s.mem.read (s.srcBase.toNat + k)) = 2 ^ 32 - 1 ∨
      s.total.toNat + k = 2 ^ 32 - 1) →
    ∃ f : FreqTable, (∀ q, (lookup f q).toNat = (lookup s.freq q).toNat + (s.srcBytes.take k).count q) ∧
      exec .ftCount s = .next (State.raiseErr (raise .overflow k) { s with freq := f, total := s.total + BitVec.ofNat 32 k })) ∧
  (∀ (s : State) (j : Nat), startResult .ftCount s = .run →
    FirstBusError s.params s.srcBase.toNat s.srcLen.toNat j →
    let k := blockStart s.params j
    (∀ q, (lookup s.freq q).toNat + (s.srcBytes.take k).count q < 2 ^ 32) → s.total.toNat + k < 2 ^ 32 →
    ∃ f : FreqTable, (∀ q, (lookup f q).toNat = (lookup s.freq q).toNat + (s.srcBytes.take k).count q) ∧
      exec .ftCount s = .next (State.raiseErr (raise .io (s.srcBase.toNat + j)) { s with freq := f, total := s.total + BitVec.ofNat 32 k })) ∧
  ∀ (s t : State), exec .ftCount s = .next t →
    s.total.toNat ≤ t.total.toNat ∧ ∀ q, (lookup s.freq q).toNat ≤ (lookup t.freq q).toNat

/-- R186: TREE_BUILD installs the tree of the greedy merge over the leaves, or the three nodes of a single
symbol. -/
def Obligations.TreeBuildMergesGreedily : Prop :=
  ∀ s : State, startResult .treeBuild s = .run → ∃ t : Machine.Tree,
    exec .treeBuild s = .next { s with seq := .idle, done := true, tree := some t, codes := deriveCodes t } ∧
    (∀ q f, presentSyms s.freq = [(q, f)] →
      t = .node 2 (.leaf 0 q (f.setWidth 64)) (.leaf 1 q (f.setWidth 64)) (BitVec.ofNat 64 (2 * f.toNat))) ∧
    (2 ≤ (presentSyms s.freq).length →
      GreedyMerge ((presentSyms s.freq).zipIdx.map fun e => Machine.Tree.leaf e.2 e.1.1 (e.1.2.setWidth 64) : List Machine.Tree)
        (presentSyms s.freq).length t ∧
      t.size = 2 * (presentSyms s.freq).length - 1 ∧ t.leaves = (presentSyms s.freq).length ∧
      t.idx = 2 * (presentSyms s.freq).length - 2)

/-- R185, R187: the builder's input, and the node store it leaves; the order of the merges is that of
`GreedyMerge`, which numbers each internal node as it is made. -/
def Obligations.BuiltTreeShape : Prop :=
  (∀ freq : FreqTable, ((presentSyms freq).map fun e => e.1.toNat).Pairwise (· < ·) ∧
    ∀ q f, (q, f) ∈ presentSyms freq ↔ f = lookup freq q ∧ f ≠ 0) ∧
  ∀ (freq : FreqTable) (t : Machine.Tree), buildTree freq = some t →
    t.weighted ∧
    (2 ≤ (presentSyms freq).length →
      t.size = 2 * (presentSyms freq).length - 1 ∧ t.leaves = (presentSyms freq).length ∧
      t.idx = 2 * (presentSyms freq).length - 2 ∧
      (∀ k (h : k < (presentSyms freq).length), t.find k =
        some (.leaf k (presentSyms freq)[k].1 ((presentSyms freq)[k].2.setWidth 64))) ∧
      (∀ k, (presentSyms freq).length ≤ k → k ≤ 2 * (presentSyms freq).length - 2 →
        ∃ z o w, t.find k = some (.node k z o w)) ∧
      GreedyMerge ((presentSyms freq).zipIdx.map fun e => Machine.Tree.leaf e.2 e.1.1 (e.1.2.setWidth 64) : List Machine.Tree)
        (presentSyms freq).length t) ∧
    (∀ q f, presentSyms freq = [(q, f)] →
      t = .node 2 (.leaf 0 q (f.setWidth 64)) (.leaf 1 q (f.setWidth 64)) (BitVec.ofNat 64 (2 * f.toNat)) ∧
      t.size = 3 ∧ t.leaves = 2)

/-- R190: the code of a symbol is the path to the first leaf that holds it, in the order of the walk. -/
def Obligations.CodesAreFirstPaths : Prop :=
  (∀ (t : Machine.Tree) (q : Byte), lookup (deriveCodes t) q =
    ((t.leafPaths.find? fun e => e.2 == q).map Prod.fst).getD []) ∧
  ∀ (t : Machine.Tree) (q : Byte), t.Ok → q ∈ t.syms →
    1 ≤ (lookup (deriveCodes t) q).length ∧ (lookup (deriveCodes t) q).length ≤ 255

/-- R191: the codes are distinct, non-empty and prefix-free; a symbol outside the tree has none; every
leaf decodes to its symbol. -/
def Obligations.CodesArePrefixFree : Prop :=
  (∀ (freq : FreqTable) (t : Machine.Tree) (q : Byte), buildTree freq = some t →
    t.Ok ∧ (lookup (deriveCodes t) q ≠ [] ↔ lookup freq q ≠ 0)) ∧
  ∀ (t : Machine.Tree), t.Ok →
    (∀ q, lookup (deriveCodes t) q ≠ [] ↔ q ∈ t.syms) ∧
    (∀ q r, q ≠ r → lookup (deriveCodes t) q ≠ [] → lookup (deriveCodes t) r ≠ [] →
      lookup (deriveCodes t) q ≠ lookup (deriveCodes t) r ∧ ¬lookup (deriveCodes t) q <+: lookup (deriveCodes t) r) ∧
    ∀ e ∈ t.leafPaths, Tree.decodeFrom t .atRoot e.1 = some [e.2]

/-! ### Framer (43_framer.md, 30_encoding.md sections 6 and 7) -/

/-- R100, R101, R102, R104, R106: the records of a serialized tree and their length. -/
def Obligations.SerializedRecords : Prop :=
  (∀ (i : Nat) (sym : Byte) (w : Dword), serTree (.leaf i sym w) = 0x4C#8 :: sym :: weightBytes w) ∧
  (∀ (i : Nat) (z o : Machine.Tree) (w : Dword),
    serTree (.node i z o w) = 0x4E#8 :: (weightBytes w ++ serTree z ++ serTree o)) ∧
  (∀ w : Dword, (weightBytes w).length = 8 ∧
    ∀ k, k < 8 → (weightBytes w).getD k 0 = w.extractLsb' (8 * (7 - k)) 8) ∧
  ∀ t : Machine.Tree, (serTree t).length = 10 * t.leaves + 9 * (t.leaves - 1) ∧
    (serTree t).length = 19 * t.leaves - 9

/-- 43_framer.md section 4 (TREE_SER): the serialized tree in DST, or E_IO at the first byte DST does not
take. -/
def Obligations.TreeSerWritesTree : Prop :=
  ∀ (s : State) (t : Machine.Tree), startResult .treeSer s = .run → s.tree = some t →
    (Takes s.params s.dstBase.toNat s.dstCap.toNat (19 * t.leaves - 9) →
      exec .treeSer s = .next { s with seq := .idle, done := true, mem := s.mem.writeBytes s.dstBase.toNat (serTree t), outLen := BitVec.ofNat 32 (19 * t.leaves - 9) }) ∧
    ∀ j, j < 19 * t.leaves - 9 → Takes s.params s.dstBase.toNat s.dstCap.toNat j →
      ¬Takes s.params s.dstBase.toNat s.dstCap.toNat (j + 1) →
      exec .treeSer s = .next (State.raiseErr (raise .io (s.dstBase.toNat + j)) { s with mem := s.mem.writeBytes s.dstBase.toNat ((serTree t).take j) })

/-- 43_framer.md sections 2 and 4 (TREE_DESER): a serialized tree with an internal root and at most 256
leaves is installed, numbered in pre-order; any other SRC raises E_CORRUPT and leaves no tree; a block whose fetch
meets a bus error before the tree ends raises E_IO and leaves no tree; however the parse ends, there is the new
tree or none. -/
def Obligations.TreeDeserInstallsTree : Prop :=
  ∀ s : State, startResult .treeDeser s = .run →
    let installs := fun t : Machine.Tree => exec .treeDeser s = .next { s with seq := .idle, done := true, tree := some (t.renumber 0), codes := deriveCodes t, srcPos := BitVec.ofNat 32 (19 * t.leaves - 9) }
    (Readable s.params s.srcBase.toNat s.srcLen.toNat →
      (∀ (t : Machine.Tree) (rest : List Byte), t.isNode = true → t.leaves ≤ 256 → s.srcBytes = serTree t ++ rest →
        installs t) ∧
      ((∀ (t : Machine.Tree) (rest : List Byte), t.isNode = true → t.leaves ≤ 256 → s.srcBytes ≠ serTree t ++ rest) →
        ∃ info, exec .treeDeser s = .next (State.raiseErr (raise .corrupt info) { s with tree := none, codes := CodeTable.empty }))) ∧
    (∀ (j : Nat) (t : Machine.Tree), FirstBusError s.params s.srcBase.toNat s.srcLen.toNat j → t.isNode = true →
      (∀ rest : List Byte, t.leaves ≤ 256 → s.srcBytes.take (blockStart s.params j) = serTree t ++ rest → installs t) ∧
      (t.CutShort 511 (s.srcBytes.take (blockStart s.params j)) →
        exec .treeDeser s = .next (State.raiseErr (raise .io (s.srcBase.toNat + j)) { s with tree := none, codes := CodeTable.empty }))) ∧
    ((∃ t n, exec .treeDeser s = .next { s with seq := .idle, done := true, tree := some t, codes := deriveCodes t, srcPos := n }) ∨
      ∃ r : Raise, (r.kind = .io ∨ r.kind = .corrupt) ∧
        exec .treeDeser s = .next (State.raiseErr r { s with tree := none, codes := CodeTable.empty }))

/-- 43_framer.md section 2: where TREE_DESER finds a bad source: it ends too soon, a tag is unknown, the
root is a leaf, or a 512th node begins, whatever stands there and whether the tree is complete or not. -/
def Obligations.TreeDeserLocatesError : Prop :=
  ∀ s : State, startResult .treeDeser s = .run → Readable s.params s.srcBase.toNat s.srcLen.toNat →
    let fails := fun info => exec .treeDeser s =
      .next (State.raiseErr (raise .corrupt info) { s with tree := none, codes := CodeTable.empty })
    (∀ t : Machine.Tree, t.isNode = true → t.CutShort 511 s.srcBytes → fails s.srcLen.toNat) ∧
    (∀ (t : Machine.Tree) (k : Nat) (v : Byte) (rest : List Byte), t.isNode = true → k < t.size → k ≤ 510 →
      v ≠ 0x4C#8 → v ≠ 0x4E#8 → s.srcBytes = (serTree t).take (t.recordOffset k) ++ v :: rest →
      fails (t.recordOffset k)) ∧
    (∀ rest : List Byte, s.srcBytes = 0x4C#8 :: rest → fails 0) ∧
    (∀ (t : Machine.Tree) (v : Byte) (rest : List Byte), 511 < t.size →
      s.srcBytes = (serTree t).take (t.recordOffset 511) ++ v :: rest → fails (t.recordOffset 511))

/-- R222: TREE_DESER of what TREE_SER wrote installs the same tree, in pre-order, with the same codes. -/
def Obligations.FramerRoundTrip : Prop :=
  ∀ (s t u : State) (T : Machine.Tree), s.Inv → s.err = false → s.tree = some T → exec .treeSer s = .next t →
    t.err = false →
    u.params = s.params → u.mem = t.mem → u.srcBase = s.dstBase → u.srcLen = t.outLen →
    startResult .treeDeser u = .run → Readable u.params u.srcBase.toNat u.srcLen.toNat →
    ∃ v : State, exec .treeDeser u = .next v ∧ v.err = u.err ∧ v.done = true ∧ v.tree = some (T.renumber 0) ∧
      v.codes = s.codes ∧ v.srcPos = t.outLen

/-- R112: the decimal form of a 64-bit number. -/
def Obligations.DecimalCount : Prop :=
  ∀ n, n < 2 ^ 64 →
    (∀ v ∈ dec n, 0x30 ≤ v.toNat ∧ v.toNat ≤ 0x39) ∧ dec n ≠ [] ∧ decimalValue (dec n) = n ∧
    (0 < n → (dec n).head? ≠ some 0x30#8) ∧ dec 0 = [0x30#8] ∧ (dec n).length ≤ 20

/-! ### Code dispatcher (44_dispatch.md) -/

/-- 44_dispatch.md sections 1 and 3 (ENC_RAW): the codes of SRC, packed; a symbol without a code raises
E_INTERNAL at its offset, an output byte DST does not take E_IO at its address, a block of SRC whose fetch meets a
bus error E_IO at the error's address. -/
def Obligations.EncRawEmitsCodes : Prop :=
  ∀ s : State, startResult .encRaw s = .run →
    (Readable s.params s.srcBase.toNat s.srcLen.toNat →
      ((∀ v ∈ s.srcBytes, lookup s.codes v ≠ []) →
        Takes s.params s.dstBase.toNat s.dstCap.toNat (((encodeBits s.codes s.srcBytes).length + 7) / 8) →
        exec .encRaw s = .next { s with seq := .idle, done := true, mem := s.mem.writeBytes s.dstBase.toNat (packBits (encodeBits s.codes s.srcBytes)), bitcnt := BitVec.ofNat 64 (encodeBits s.codes s.srcBytes).length, outLen := BitVec.ofNat 32 (((encodeBits s.codes s.srcBytes).length + 7) / 8) }) ∧
      (∀ j, j < s.srcLen.toNat → (∀ v ∈ s.srcBytes.take j, lookup s.codes v ≠ []) →
        lookup s.codes (s.mem.read (s.srcBase.toNat + j)) = [] →
        Takes s.params s.dstBase.toNat s.dstCap.toNat (((encodeBits s.codes (s.srcBytes.take j)).length + 7) / 8) →
        exec .encRaw s = .next (State.raiseErr (raise .internal j) { s with mem := s.mem.writeBytes s.dstBase.toNat (drained s.params (packBits (wholeBytes (encodeBits s.codes (s.srcBytes.take j))))) })) ∧
      ∀ j, (∀ v ∈ s.srcBytes, lookup s.codes v ≠ []) → j < ((encodeBits s.codes s.srcBytes).length + 7) / 8 →
        Takes s.params s.dstBase.toNat s.dstCap.toNat j → ¬Takes s.params s.dstBase.toNat s.dstCap.toNat (j + 1) →
        exec .encRaw s = .next (State.raiseErr (raise .io (s.dstBase.toNat + j)) { s with mem := s.mem.writeBytes s.dstBase.toNat ((packBits (encodeBits s.codes s.srcBytes)).take j) })) ∧
    ∀ j, FirstBusError s.params s.srcBase.toNat s.srcLen.toNat j →
      let bits := encodeBits s.codes (s.srcBytes.take (blockStart s.params j))
      (∀ v ∈ s.srcBytes.take (blockStart s.params j), lookup s.codes v ≠ []) →
      Takes s.params s.dstBase.toNat s.dstCap.toNat ((bits.length + 7) / 8) →
      exec .encRaw s = .next (State.raiseErr (raise .io (s.srcBase.toNat + j)) { s with mem := s.mem.writeBytes s.dstBase.toNat (drained s.params (packBits (wholeBytes bits))) })

/-- 44_dispatch.md sections 2 and 3 (DEC_RAW): the walk of BITCNT bits; a code cut at BITCNT, or a SRC with
fewer bits, raises E_CORRUPT, an output byte DST does not take E_IO at its address, a block of SRC that is wanted and
whose fetch meets a bus error E_IO at the error's address. -/
def Obligations.DecRawWalksTree : Prop :=
  ∀ (s : State) (t : Machine.Tree), startResult .decRaw s = .run → s.tree = some t →
    (Readable s.params s.srcBase.toNat s.srcLen.toNat →
      let bits := (bitsOfBytes s.srcBytes).take s.bitcnt.toNat
      let fails := fun info => exec .decRaw s = .next (State.raiseErr (raise .corrupt info) { s with mem := s.mem.writeBytes s.dstBase.toNat (drained s.params (Tree.emitted t .atRoot bits)) })
      (∀ syms, s.bitcnt.toNat ≤ 8 * s.srcLen.toNat → Tree.decodeFrom t .atRoot bits = some syms →
        (Takes s.params s.dstBase.toNat s.dstCap.toNat syms.length →
          exec .decRaw s = .next { s with seq := .idle, done := true, mem := s.mem.writeBytes s.dstBase.toNat syms, outLen := BitVec.ofNat 32 syms.length }) ∧
        ∀ j, j < syms.length → Takes s.params s.dstBase.toNat s.dstCap.toNat j →
          ¬Takes s.params s.dstBase.toNat s.dstCap.toNat (j + 1) →
          exec .decRaw s = .next (State.raiseErr (raise .io (s.dstBase.toNat + j)) { s with mem := s.mem.writeBytes s.dstBase.toNat (syms.take j) })) ∧
      (Takes s.params s.dstBase.toNat s.dstCap.toNat (Tree.emitted t .atRoot bits).length →
        (s.bitcnt.toNat ≤ 8 * s.srcLen.toNat → Tree.decodeFrom t .atRoot bits = none → fails (s.bitcnt.toNat / 8)) ∧
        (8 * s.srcLen.toNat < s.bitcnt.toNat → fails s.srcLen.toNat))) ∧
    ∀ j, FirstBusError s.params s.srcBase.toNat s.srcLen.toNat j → 8 * blockStart s.params j < s.bitcnt.toNat →
      let syms := Tree.emitted t .atRoot (bitsOfBytes (s.srcBytes.take (blockStart s.params j)))
      Takes s.params s.dstBase.toNat s.dstCap.toNat syms.length →
      exec .decRaw s = .next (State.raiseErr (raise .io (s.srcBase.toNat + j)) { s with mem := s.mem.writeBytes s.dstBase.toNat (drained s.params syms) })

/-- R249: DEC_RAW of the bits ENC_RAW wrote, under the same tree, gives the symbols back. -/
def Obligations.CodecInverseLaw : Prop :=
  ∀ s t u : State, s.Inv → s.err = false → exec .encRaw s = .next t → t.err = false →
    u.params = s.params → u.mem = t.mem → u.tree = s.tree → u.srcBase = s.dstBase → u.srcLen = t.outLen →
    u.bitcnt = t.bitcnt → startResult .decRaw u = .run → Readable u.params u.srcBase.toNat u.srcLen.toNat →
    Takes u.params u.dstBase.toNat u.dstCap.toNat s.srcLen.toNat →
    ∃ v : State, exec .decRaw u = .next v ∧ v.done = true ∧ v.err = u.err ∧ v.outLen = s.srcLen ∧
      v.mem.bytes u.dstBase.toNat s.srcLen.toNat = s.srcBytes

/-! ### Pipeline (45_pipeline.md) -/

/-- 45_pipeline.md sections 1 and 2 (ENCODE, ENCODE.PRE, the artifact's size, TMP after ENCODE): a
non-empty SRC. `f` is FREQ after pass 1, or as the host left it. -/
def Obligations.EncodeWritesArtifact : Prop :=
  ∀ (pre : Bool) (s : State) (f : FreqTable) (t : Machine.Tree) (bits : List Bool),
    startResult (.encode pre) s = .run → s.mem.wf = true → s.srcLen ≠ 0 →
    Readable s.params s.srcBase.toNat s.srcLen.toNat →
    (pre = false → ∀ q, (lookup f q).toNat = s.srcBytes.count q) →
    (pre = true → f = s.freq ∧ ∀ v ∈ s.srcBytes, lookup f v ≠ 0) →
    buildTree f = some t → bits = encodeBits (deriveCodes t) s.srcBytes →
    Takes s.params s.tmpBase.toNat s.tmpCap.toNat ((bits.length + 7) / 8) →
    Readable s.params s.tmpBase.toNat ((bits.length + 7) / 8) →
    Takes s.params s.dstBase.toNat s.dstCap.toNat
      (19 * t.leaves - 9 + 1 + (dec bits.length).length + 1 + (bits.length + 7) / 8) →
    artifact t bits = serTree t ++ [0x0A#8] ++ dec bits.length ++ [0x0A#8] ++ packBits bits ∧
    exec (.encode pre) s = .next { s with seq := .idle, done := true, freq := f, total := if pre then s.total else s.srcLen, tree := some t, codes := deriveCodes t, mem := (s.mem.writeBytes s.tmpBase.toNat (packBits bits)).writeBytes s.dstBase.toNat (artifact t bits), bitcnt := BitVec.ofNat 64 bits.length, outLen := BitVec.ofNat 32 (19 * t.leaves - 9 + 1 + (dec bits.length).length + 1 + (bits.length + 7) / 8) }

/-- R263; and ENCODE.PRE with an empty table (45_pipeline.md section 1). -/
def Obligations.EncodeOfNothing : Prop :=
  (∀ s : State, startResult (.encode false) s = .run → s.srcLen = 0 → ∃ f : FreqTable, (∀ q, lookup f q = 0) ∧
    exec (.encode false) s = .next { s with seq := .idle, done := true, freq := f, total := 0, bitcnt := 0, outLen := 0 }) ∧
  (∀ s : State, startResult (.encode true) s = .run → s.srcLen = 0 →
    exec (.encode true) s = .next { s with seq := .idle, done := true, bitcnt := 0, outLen := 0 }) ∧
  ∀ s : State, startResult (.encode true) s = .run → s.srcLen ≠ 0 → (∀ q, lookup s.freq q = 0) →
    exec (.encode true) s = .next (s.raiseErr ⟨.internal, 0⟩)

/-- 45_pipeline.md sections 1 and 2 (errors by stage), for both forms of ENCODE: TMP or DST too small, a bus
error of TMP read back, a symbol without a code, which only ENCODE.PRE can meet, and a bus error of SRC, in pass 1 or,
with PRE, in pass 2; with the tree and FREQ as they are left. `f` is FREQ after pass 1, or as the host left it. -/
def Obligations.EncodeStops : Prop :=
  (∀ (pre : Bool) (s : State) (f : FreqTable) (t : Machine.Tree) (bits : List Bool),
    startResult (.encode pre) s = .run → s.mem.wf = true → s.srcLen ≠ 0 →
    Readable s.params s.srcBase.toNat s.srcLen.toNat →
    (pre = false → ∀ q, (lookup f q).toNat = s.srcBytes.count q) → (pre = true → f = s.freq) →
    buildTree f = some t →
    let tot := if pre then s.total else s.srcLen
    (∀ j, (∀ v ∈ s.srcBytes, lookup f v ≠ 0) → bits = encodeBits (deriveCodes t) s.srcBytes →
      j < (bits.length + 7) / 8 → Takes s.params s.tmpBase.toNat s.tmpCap.toNat j →
      ¬Takes s.params s.tmpBase.toNat s.tmpCap.toNat (j + 1) →
      exec (.encode pre) s = .next (State.raiseErr (raise .io (s.tmpBase.toNat + j)) { s with freq := f, total := tot, tree := some t, codes := deriveCodes t, mem := s.mem.writeBytes s.tmpBase.toNat ((packBits bits).take j) })) ∧
    (∀ j, (∀ v ∈ s.srcBytes, lookup f v ≠ 0) → bits = encodeBits (deriveCodes t) s.srcBytes →
      Takes s.params s.tmpBase.toNat s.tmpCap.toNat ((bits.length + 7) / 8) →
      Readable s.params s.tmpBase.toNat ((bits.length + 7) / 8) →
      j < (artifact t bits).length → Takes s.params s.dstBase.toNat s.dstCap.toNat j →
      ¬Takes s.params s.dstBase.toNat s.dstCap.toNat (j + 1) →
      exec (.encode pre) s = .next (State.raiseErr (raise .io (s.dstBase.toNat + j)) { s with freq := f, total := tot, tree := some t, codes := deriveCodes t, mem := (s.mem.writeBytes s.tmpBase.toNat (packBits bits)).writeBytes s.dstBase.toNat ((artifact t bits).take j) })) ∧
    (∀ j, (∀ v ∈ s.srcBytes, lookup f v ≠ 0) → bits = encodeBits (deriveCodes t) s.srcBytes →
      Takes s.params s.tmpBase.toNat s.tmpCap.toNat ((bits.length + 7) / 8) →
      FirstBusError s.params s.tmpBase.toNat ((bits.length + 7) / 8) j →
      let out := headerBytes t bits.length ++ (packBits bits).take (blockStart s.params j)
      Takes s.params s.dstBase.toNat s.dstCap.toNat out.length →
      exec (.encode pre) s = .next (State.raiseErr (raise .io (s.tmpBase.toNat + j)) { s with freq := f, total := tot, tree := some t, codes := deriveCodes t, mem := (s.mem.writeBytes s.tmpBase.toNat (packBits bits)).writeBytes s.dstBase.toNat (drained s.params out) })) ∧
    ∀ j, pre = true → j < s.srcLen.toNat → (∀ v ∈ s.srcBytes.take j, lookup f v ≠ 0) →
      lookup f (s.mem.read (s.srcBase.toNat + j)) = 0 →
      bits = encodeBits (deriveCodes t) (s.srcBytes.take j) →
      Takes s.params s.tmpBase.toNat s.tmpCap.toNat ((bits.length + 7) / 8) →
      exec (.encode pre) s = .next (State.raiseErr (raise .internal j) { s with freq := f, total := tot, tree := some t, codes := deriveCodes t, mem := s.mem.writeBytes s.tmpBase.toNat (drained s.params (packBits (wholeBytes bits))) })) ∧
  (∀ (s : State) (j : Nat), startResult (.encode false) s = .run →
    FirstBusError s.params s.srcBase.toNat s.srcLen.toNat j →
    ∃ f : FreqTable, (∀ q, (lookup f q).toNat = (s.srcBytes.take (blockStart s.params j)).count q) ∧
      exec (.encode false) s = .next (State.raiseErr (raise .io (s.srcBase.toNat + j)) { s with freq := f, total := BitVec.ofNat 32 (blockStart s.params j) })) ∧
  ∀ (s : State) (j : Nat) (t : Machine.Tree), startResult (.encode true) s = .run →
    FirstBusError s.params s.srcBase.toNat s.srcLen.toNat j → buildTree s.freq = some t →
    let bits := encodeBits (deriveCodes t) (s.srcBytes.take (blockStart s.params j))
    (∀ v ∈ s.srcBytes.take (blockStart s.params j), lookup s.freq v ≠ 0) →
    Takes s.params s.tmpBase.toNat s.tmpCap.toNat ((bits.length + 7) / 8) →
    exec (.encode true) s = .next (State.raiseErr (raise .io (s.srcBase.toNat + j)) { s with tree := some t, codes := deriveCodes t, mem := s.mem.writeBytes s.tmpBase.toNat (drained s.params (packBits (wholeBytes bits))) })

/-- 45_pipeline.md sections 1 and 2 (DECODE): an artifact whose count line may have leading zeros and
that may be followed by other bytes, into a DST that takes the symbols or does not take one; and the empty
artifact. -/
def Obligations.DecodeExpandsArtifact : Prop :=
  (∀ (s : State) (t : Machine.Tree) (ds payload syms : List Byte), startResult .decode s = .run →
    Readable s.params s.srcBase.toNat s.srcLen.toNat → t.isNode = true → t.leaves ≤ 256 →
    s.srcBytes = serTree t ++ [0x0A#8] ++ ds ++ [0x0A#8] ++ payload →
    (∀ v ∈ ds, 0x30 ≤ v.toNat ∧ v.toNat ≤ 0x39) → ds ≠ [] → decimalValue ds < 2 ^ 64 →
    decimalValue ds ≤ 8 * payload.length →
    Tree.decodeFrom t .atRoot ((bitsOfBytes payload).take (decimalValue ds)) = some syms →
    (Takes s.params s.dstBase.toNat s.dstCap.toNat syms.length →
      exec .decode s = .next { s with seq := .idle, done := true, tree := some (t.renumber 0), codes := deriveCodes t, mem := s.mem.writeBytes s.dstBase.toNat syms, outLen := BitVec.ofNat 32 syms.length, bitcnt := BitVec.ofNat 64 (decimalValue ds), srcPos := BitVec.ofNat 32 (19 * t.leaves - 7 + ds.length) }) ∧
    ∀ j, j < syms.length → Takes s.params s.dstBase.toNat s.dstCap.toNat j →
      ¬Takes s.params s.dstBase.toNat s.dstCap.toNat (j + 1) →
      exec .decode s = .next (State.raiseErr (raise .io (s.dstBase.toNat + j)) { s with tree := some (t.renumber 0), codes := deriveCodes t, mem := s.mem.writeBytes s.dstBase.toNat (syms.take j) })) ∧
  ∀ s : State, startResult .decode s = .run → s.srcLen = 0 →
    exec .decode s = .next { s with seq := .idle, done := true, outLen := 0, bitcnt := 0, srcPos := 0 }

/-- 45_pipeline.md section 1 (DECODE, "Every malformed artifact is E_CORRUPT"): a DECODE of a non-empty
SRC that completes has decoded a whole artifact. -/
def Obligations.DecodeAcceptsOnlyArtifacts : Prop :=
  ∀ s t : State, startResult .decode s = .run → Readable s.params s.srcBase.toNat s.srcLen.toNat →
    s.srcLen ≠ 0 → s.err = false → exec .decode s = .next t → t.err = false →
    ∃ (T : Machine.Tree) (ds payload syms : List Byte), T.isNode = true ∧ T.leaves ≤ 256 ∧
      s.srcBytes = serTree T ++ [0x0A#8] ++ ds ++ [0x0A#8] ++ payload ∧
      (∀ v ∈ ds, 0x30 ≤ v.toNat ∧ v.toNat ≤ 0x39) ∧ ds ≠ [] ∧ decimalValue ds < 2 ^ 64 ∧
      decimalValue ds ≤ 8 * payload.length ∧
      Tree.decodeFrom T .atRoot ((bitsOfBytes payload).take (decimalValue ds)) = some syms ∧
      t.mem = s.mem.writeBytes s.dstBase.toNat syms ∧ t.outLen = BitVec.ofNat 32 syms.length

/-- R273; where DECODE finds a bad count line or payload (43_framer.md section 3, 44_dispatch.md section 2); and
a block of SRC whose fetch meets a bus error, in the tree, the count line or the payload. A DECODE whose tree parse
fails leaves no tree; one that fails later keeps the parsed tree. -/
def Obligations.DecodeStops : Prop :=
  ∀ s : State, startResult .decode s = .run →
    let losesTree := fun r => exec .decode s = .next (State.raiseErr r { s with tree := none, codes := CodeTable.empty })
    let keepsTree := fun (t : Machine.Tree) r m => exec .decode s = .next (State.raiseErr r { s with tree := some (t.renumber 0), codes := deriveCodes t, mem := m })
    let hasTree := fun t : Machine.Tree => ∀ u, exec .decode s = .next u → u.tree = some (t.renumber 0) ∧ u.codes = deriveCodes t
    (Readable s.params s.srcBase.toNat s.srcLen.toNat → s.srcLen ≠ 0 →
      ((∀ (t : Machine.Tree) (rest : List Byte), t.isNode = true → t.leaves ≤ 256 → s.srcBytes ≠ serTree t ++ rest) →
        ∃ info, losesTree (raise .corrupt info)) ∧
      ∀ (t : Machine.Tree) (rest : List Byte), t.isNode = true → t.leaves ≤ 256 → s.srcBytes = serTree t ++ rest →
        hasTree t ∧
        (∀ info,
          (rest = [] ∧ info = s.srcLen.toNat) ∨
          (∃ v l, rest = v :: l ∧ v ≠ 0x0A#8 ∧ info = (serTree t).length) ∨
          (∃ ds, rest = 0x0A#8 :: ds ∧ (∀ v ∈ ds, isDigit v = true) ∧ decimalValue ds < 2 ^ 64 ∧
            info = s.srcLen.toNat) ∨
          (∃ ds v l, rest = 0x0A#8 :: (ds ++ v :: l) ∧ (∀ v ∈ ds, isDigit v = true) ∧ decimalValue ds < 2 ^ 64 ∧
            ((isDigit v = false ∧ (v = 0x0A#8 → ds = [])) ∨
              (isDigit v = true ∧ 2 ^ 64 ≤ decimalValue (ds ++ [v]))) ∧
            info = (serTree t).length + 1 + ds.length) →
          keepsTree t (raise .corrupt info) s.mem) ∧
        ∀ ds payload, rest = [0x0A#8] ++ ds ++ [0x0A#8] ++ payload → (∀ v ∈ ds, isDigit v = true) → ds ≠ [] →
          decimalValue ds < 2 ^ 64 →
          let bits := (bitsOfBytes payload).take (decimalValue ds)
          let fails := fun info => keepsTree t (raise .corrupt info)
            (s.mem.writeBytes s.dstBase.toNat (drained s.params (Tree.emitted t .atRoot bits)))
          Takes s.params s.dstBase.toNat s.dstCap.toNat (Tree.emitted t .atRoot bits).length →
          (decimalValue ds ≤ 8 * payload.length → Tree.decodeFrom t .atRoot bits = none →
            fails ((serTree t).length + ds.length + 2 + decimalValue ds / 8)) ∧
          (8 * payload.length < decimalValue ds → fails s.srcLen.toNat)) ∧
    (s.srcLen ≠ 0 → (∃ r : Raise, (r.kind = .io ∨ r.kind = .corrupt) ∧ losesTree r) ∨
      ∃ t u, exec .decode s = .next u ∧ u.tree = some t ∧ u.codes = deriveCodes t) ∧
    ∀ (j : Nat) (t : Machine.Tree), FirstBusError s.params s.srcBase.toNat s.srcLen.toNat j → t.isNode = true →
      let got := s.srcBytes.take (blockStart s.params j)
      let io := raise .io (s.srcBase.toNat + j)
      (t.CutShort 511 got → losesTree io) ∧
      ∀ rest : List Byte, t.leaves ≤ 256 → got = serTree t ++ rest →
        hasTree t ∧
        (rest = [] ∨ (∃ ds, rest = 0x0A#8 :: ds ∧ (∀ v ∈ ds, isDigit v = true) ∧ decimalValue ds < 2 ^ 64) →
          keepsTree t io s.mem) ∧
        ∀ ds payload, rest = [0x0A#8] ++ ds ++ [0x0A#8] ++ payload → (∀ v ∈ ds, isDigit v = true) → ds ≠ [] →
          decimalValue ds < 2 ^ 64 → 8 * payload.length < decimalValue ds →
          Takes s.params s.dstBase.toNat s.dstCap.toNat (Tree.emitted t .atRoot (bitsOfBytes payload)).length →
          keepsTree t io (s.mem.writeBytes s.dstBase.toNat
            (drained s.params (Tree.emitted t .atRoot (bitsOfBytes payload))))

/-- R274: `decode(encode(s)) == s`. -/
def Obligations.PipelineRoundTrip : Prop :=
  ∀ s t u : State, s.Inv → s.err = false → exec (.encode false) s = .next t → t.err = false →
    u.params = s.params → u.mem = t.mem → u.srcBase = s.dstBase → u.srcLen = t.outLen →
    startResult .decode u = .run → Readable u.params u.srcBase.toNat u.srcLen.toNat →
    Takes u.params u.dstBase.toNat u.dstCap.toNat s.srcLen.toNat →
    ∃ v : State, exec .decode u = .next v ∧ v.done = true ∧ v.err = u.err ∧ v.outLen = s.srcLen ∧
      v.mem.bytes u.dstBase.toNat s.srcLen.toNat = s.srcBytes

/-- R269: two successful ENCODEs of the same bytes, under any parameters and region addresses. -/
def Obligations.EncodeDeterminism : Prop :=
  ∀ (pre : Bool) (s t s' t' : State), s.Inv → s'.Inv → s.err = false → s'.err = false →
    s.srcBytes = s'.srcBytes → (pre = true → s.freq = s'.freq) →
    exec (.encode pre) s = .next t → exec (.encode pre) s' = .next t' → t.err = false → t'.err = false →
    t.outLen = t'.outLen ∧ t.bitcnt = t'.bitcnt ∧
      t.mem.bytes s.dstBase.toNat t.outLen.toNat = t'.mem.bytes s'.dstBase.toNat t'.outLen.toNat

/-! ### The invariant -/

/-- 10_state.md rules on STATUS, the node store and the code table, and the memory's canonical form: every
step keeps `State.Inv`, from every state that has it. -/
def Obligations.StepKeepsInvariant : Prop := ∀ s t : State, s.Inv → step s = .next t → t.Inv

/-- 70_reset_and_hazards.md section 1: `State.Inv` holds after reset. -/
def Obligations.ResetHoldsInvariant : Prop := State.reset.Inv
end

