-- ==== Sys2Proof/Laws/Memory.lean ====
section
/-! SUPPORT. The laws of the data space: read after write, the canonical form, sequences of bytes. -/

namespace Sys2Proof.Machine.Memory

@[simp] theorem read_nil (a : Nat) : read [] a = Config.unwrittenByte := rfl

theorem wf_cons {a : Nat} {v : Byte} {m : Memory} :
    wf ((a, v) :: m) = true ↔
      v ≠ Config.unwrittenByte ∧ a < Config.addrSpace ∧ (∀ c ∈ m, a < c.1) ∧ wf m = true := by
  simp only [wf, Bool.and_eq_true, decide_eq_true_eq, List.all_eq_true, and_assoc]

/-- An address below every listed one is unlisted. -/
theorem read_of_lt {m : Memory} {a : Nat} (h : ∀ c ∈ m, a < c.1) : read m a = Config.unwrittenByte := by
  induction m with
  | nil => rfl
  | cons c m ih =>
    have hc := h c (by simp)
    have ih := ih fun d hd => h d (by simp [hd])
    obtain ⟨x, b⟩ := c
    have : x ≠ a := by simp at hc; omega
    simp [read, this, ih]

theorem read_write_self {m : Memory} (a : Nat) (v : Byte) (h : wf m = true) : (m.write a v).read a = v := by
  induction m with
  | nil => by_cases hv : v = Config.unwrittenByte <;> simp [write, read, hv]
  | cons c m ih =>
    obtain ⟨x, b⟩ := c
    obtain ⟨-, -, hlt, hm⟩ := wf_cons.1 h
    rcases lt_trichotomy x a with hx | rfl | hx
    · simp [write, hx, read, Nat.ne_of_lt hx, ih hm]
    · by_cases hv : v = Config.unwrittenByte
      · simp [write, hv, read_of_lt hlt]
      · simp [write, hv, read]
    · have h1 : ¬ x < a := by omega
      have h2 : x ≠ a := by omega
      by_cases hv : v = Config.unwrittenByte
      · simp only [write, h1, h2, if_false, hv, if_true]
        exact read_of_lt fun d hd => by
          rcases List.mem_cons.1 hd with rfl | hd
          · exact hx
          · exact Nat.lt_trans hx (hlt d hd)
      · simp [write, h1, h2, hv, read]

theorem read_write_other (m : Memory) {a b : Nat} (v : Byte) (hab : b ≠ a) : (m.write a v).read b = m.read b := by
  induction m with
  | nil =>
    by_cases hv : v = Config.unwrittenByte
    · simp [write, hv]
    · simp [write, read, hv, Ne.symm hab]
  | cons c m ih =>
    obtain ⟨x, w⟩ := c
    rcases lt_trichotomy x a with hx | rfl | hx
    · simp [write, hx, read, ih]
    · by_cases hv : v = Config.unwrittenByte <;> simp [write, hv, read, Ne.symm hab]
    · have h1 : ¬ x < a := by omega
      have h2 : x ≠ a := by omega
      by_cases hv : v = Config.unwrittenByte <;> simp [write, h1, h2, hv, read, Ne.symm hab]

/-- Read after write, in one line. -/
theorem read_write {m : Memory} (h : wf m = true) (a b : Nat) (v : Byte) :
    (m.write a v).read b = if b = a then v else m.read b := by
  split
  · next e => rw [e, read_write_self a v h]
  · next e => exact read_write_other m v e

theorem mem_write {m : Memory} {a : Nat} {v : Byte} {c : Host.Cell} (h : c ∈ m.write a v) :
    c = (a, v) ∨ c ∈ m := by
  induction m with
  | nil => by_cases hv : v = Config.unwrittenByte <;> simp_all [write]
  | cons d m ih =>
    obtain ⟨x, w⟩ := d
    simp only [write] at h
    split at h
    · rcases List.mem_cons.1 h with rfl | h
      · simp
      · rcases ih h with h | h <;> simp [h]
    · split at h
      · split at h
        · simp [h]
        · rcases List.mem_cons.1 h with h | h <;> simp [h]
      · split at h
        · exact .inr h
        · rcases List.mem_cons.1 h with h | h
          · simp [h]
          · exact .inr h

/-- A write keeps the canonical form. -/
theorem wf_write {m : Memory} {a : Nat} (v : Byte) (h : wf m = true) (ha : a < Config.addrSpace) :
    wf (m.write a v) = true := by
  induction m with
  | nil =>
    by_cases hv : v = Config.unwrittenByte
    · simp [write, hv, wf]
    · simp [write, hv, wf, ha]
  | cons c m ih =>
    obtain ⟨x, w⟩ := c
    obtain ⟨hw, hx', hlt, hm⟩ := wf_cons.1 h
    simp only [write]
    split
    · next hx =>
      refine wf_cons.2 ⟨hw, hx', fun d hd => ?_, ih hm⟩
      rcases mem_write hd with rfl | hd
      · exact hx
      · exact hlt d hd
    · split
      · next hx =>
        subst hx
        split
        · exact hm
        · next hv => exact wf_cons.2 ⟨hv, ha, hlt, hm⟩
      · split
        · exact h
        · next h1 h2 hv =>
          refine wf_cons.2 ⟨hv, ha, fun d hd => ?_, h⟩
          rcases List.mem_cons.1 hd with rfl | hd
          · simp only; omega
          · have := hlt d hd; omega

/-- A memory in canonical form is determined by what it reads. -/
theorem eq_of_read {m n : Memory} (hm : wf m = true) (hn : wf n = true) (h : ∀ a, m.read a = n.read a) :
    m = n := by
  induction m generalizing n with
  | nil =>
    cases n with
    | nil => rfl
    | cons c n =>
      obtain ⟨x, w⟩ := c
      obtain ⟨hw, -, -, -⟩ := wf_cons.1 hn
      exact absurd (by simpa [read] using (h x).symm) hw
  | cons c m ih =>
    obtain ⟨x, w⟩ := c
    obtain ⟨hw, -, hlt, hm'⟩ := wf_cons.1 hm
    cases n with
    | nil => exact absurd (by simpa [read] using h x) hw
    | cons d n =>
      obtain ⟨y, u⟩ := d
      obtain ⟨hu, -, hlt', hn'⟩ := wf_cons.1 hn
      have hxy : x = y := by
        rcases lt_trichotomy x y with hxy | hxy | hxy
        · have := h x
          have e : read ((y, u) :: n) x = Config.unwrittenByte := read_of_lt fun c hc => by
            rcases List.mem_cons.1 hc with rfl | hc
            · exact hxy
            · exact Nat.lt_trans hxy (hlt' c hc)
          rw [e] at this
          exact absurd (by simpa [read] using this) hw
        · exact hxy
        · have := h y
          have e : read ((x, w) :: m) y = Config.unwrittenByte := read_of_lt fun c hc => by
            rcases List.mem_cons.1 hc with rfl | hc
            · exact hxy
            · exact Nat.lt_trans hxy (hlt c hc)
          rw [e] at this
          exact absurd (by simpa [read] using this.symm) hu
      subst hxy
      have hwu : w = u := by simpa [read] using h x
      subst hwu
      have : m = n := ih hm' hn' fun a => by
        by_cases ha : x = a
        · subst ha; rw [read_of_lt hlt, read_of_lt hlt']
        · simpa [read, ha] using h a
      rw [this]

@[simp] theorem bytes_zero (m : Memory) (a : Nat) : m.bytes a 0 = [] := rfl

@[simp] theorem bytes_succ (m : Memory) (a n : Nat) : m.bytes a (n + 1) = m.read a :: m.bytes (a + 1) n := rfl

@[simp] theorem length_bytes (m : Memory) (a n : Nat) : (m.bytes a n).length = n := by
  induction n generalizing a with
  | zero => rfl
  | succ n ih => simp [ih]

theorem bytes_add (m : Memory) (a n k : Nat) : m.bytes a (n + k) = m.bytes a n ++ m.bytes (a + n) k := by
  induction n generalizing a with
  | zero => simp
  | succ n ih =>
    rw [Nat.succ_add, bytes_succ, bytes_succ, ih, List.cons_append, Nat.add_right_comm, Nat.add_assoc]

theorem getElem_bytes (m : Memory) (a n i : Nat) (h : i < (m.bytes a n).length) :
    (m.bytes a n)[i] = m.read (a + i) := by
  induction n generalizing a i with
  | zero => simp at h
  | succ n ih =>
    cases i with
    | zero => rfl
    | succ i =>
      simp only [bytes_succ, List.getElem_cons_succ]
      rw [ih]
      congr 1
      omega

theorem bytes_congr {m m' : Memory} {a n : Nat} (h : ∀ j, j < n → m'.read (a + j) = m.read (a + j)) :
    m'.bytes a n = m.bytes a n := by
  refine List.ext_getElem (by simp) fun i h1 h2 => ?_
  rw [getElem_bytes, getElem_bytes]
  exact h i (by simpa using h1)

@[simp] theorem writeBytes_nil (m : Memory) (a : Nat) : m.writeBytes a [] = m := rfl

@[simp] theorem writeBytes_cons (m : Memory) (a : Nat) (v : Byte) (vs : List Byte) :
    m.writeBytes a (v :: vs) = (m.write a v).writeBytes (a + 1) vs := rfl

theorem writeBytes_append (m : Memory) (a : Nat) (vs ws : List Byte) :
    m.writeBytes a (vs ++ ws) = (m.writeBytes a vs).writeBytes (a + vs.length) ws := by
  induction vs generalizing m a with
  | nil => simp
  | cons v vs ih => simp only [List.cons_append, writeBytes_cons, ih, List.length_cons]; congr 1; omega

theorem wf_writeBytes {m : Memory} {a : Nat} (vs : List Byte) (h : wf m = true)
    (ha : a + vs.length ≤ Config.addrSpace) : wf (m.writeBytes a vs) = true := by
  induction vs generalizing m a with
  | nil => simpa using h
  | cons v vs ih =>
    simp only [List.length_cons] at ha
    exact ih (wf_write v h (by omega)) (by omega)

/-- A sequence of bytes written leaves every other address alone. -/
theorem read_writeBytes_other (m : Memory) {a b : Nat} (vs : List Byte) (hb : b < a ∨ a + vs.length ≤ b) :
    (m.writeBytes a vs).read b = m.read b := by
  induction vs generalizing m a with
  | nil => rfl
  | cons v vs ih =>
    simp only [List.length_cons] at hb
    rw [writeBytes_cons, ih _ (by omega), read_write_other _ _ (by omega)]

/-- A sequence of bytes written reads back. -/
theorem read_writeBytes_inside {m : Memory} {a : Nat} (vs : List Byte) (h : wf m = true)
    (ha : a + vs.length ≤ Config.addrSpace) (i : Nat) (hi : i < vs.length) :
    (m.writeBytes a vs).read (a + i) = vs[i] := by
  induction vs generalizing m a i with
  | nil => simp at hi
  | cons v vs ih =>
    simp only [List.length_cons] at ha hi
    have hw := wf_write (m := m) v h (a := a) (by omega)
    cases i with
    | zero =>
      rw [writeBytes_cons, read_writeBytes_other _ _ (by omega)]
      simpa using read_write_self a v h
    | succ i =>
      have hi' : i < vs.length := by omega
      have := ih (a := a + 1) hw (by omega) i hi'
      rw [writeBytes_cons, List.getElem_cons_succ, ← this, Nat.add_right_comm, Nat.add_assoc]

theorem bytes_writeBytes_self {m : Memory} {a : Nat} (vs : List Byte) (h : wf m = true)
    (ha : a + vs.length ≤ Config.addrSpace) : (m.writeBytes a vs).bytes a vs.length = vs := by
  refine List.ext_getElem (by simp) fun i h1 h2 => ?_
  rw [getElem_bytes, read_writeBytes_inside vs h ha i h2]

/-- Bytes read from addresses a write does not touch. -/
theorem bytes_writeBytes_other (m : Memory) {a b n : Nat} (vs : List Byte)
    (hb : b + n ≤ a ∨ a + vs.length ≤ b ∨ n = 0) : (m.writeBytes a vs).bytes b n = m.bytes b n :=
  bytes_congr fun j hj => read_writeBytes_other m vs (by omega)

theorem wf_havoc {m : Memory} (c base n : Nat) (h : wf m = true) (hb : base + n ≤ Config.addrSpace) :
    wf (m.havoc c base n) = true := by
  induction n with
  | zero => exact h
  | succ n ih => exact wf_write _ (ih (by omega)) (by omega)

theorem read_havoc_other (m : Memory) (c base n : Nat) {a : Nat} (ha : a < base ∨ base + n ≤ a) :
    (m.havoc c base n).read a = m.read a := by
  induction n with
  | zero => rfl
  | succ n ih => rw [havoc, read_write_other _ _ (by omega), ih (by omega)]

end Sys2Proof.Machine.Memory
end

