-- ==== Sys2Proof/Laws/Packing.lean ====
section
/-! SUPPORT. Bit sequences and bytes: the packed form of 30_encoding.md R95 and its inverse. -/

namespace Sys2Proof.Machine

theorem msbFirst_nil (n : Nat) : msbFirst n [] = 0 := by cases n <;> rfl

theorem msbFirst_lt (n : Nat) (bs : List Bool) : msbFirst n bs < 2 ^ n := by
  induction n generalizing bs with
  | zero => simp [msbFirst]
  | succ n ih =>
    cases bs with
    | nil => simp [msbFirst]
    | cons b bs =>
      have := ih bs
      have h2 : 2 ^ (n + 1) = 2 ^ n + 2 ^ n := by omega
      cases b <;> simp [msbFirst] <;> omega

/-- The missing low bits are 0. -/
theorem msbFirst_pad (bs : List Bool) (k : Nat) :
    msbFirst (bs.length + k) bs = msbFirst bs.length bs * 2 ^ k := by
  induction bs with
  | nil => simp [msbFirst_nil]
  | cons b bs ih =>
    have e : (b :: bs).length + k = (bs.length + k) + 1 := by simp; omega
    rw [e, List.length_cons]
    simp only [msbFirst, ih]
    cases b <;> simp [Nat.add_mul, Nat.pow_add]

theorem msbFirst_snoc (bs : List Bool) (b : Bool) :
    msbFirst (bs.length + 1) (bs ++ [b]) = 2 * msbFirst bs.length bs + b.toNat := by
  induction bs with
  | nil => cases b <;> rfl
  | cons c bs ih =>
    simp only [List.cons_append, List.length_cons, msbFirst] at ih ⊢
    rw [ih]
    cases c
    · simp
    · simp only [Nat.pow_succ, if_true]; omega

/-- Bit `n - 1 - j` of an `n`-bit number made of bits most significant first is bit `j`. -/
theorem testBit_msbFirst (n : Nat) (bs : List Bool) (j : Nat) (hj : j < n) :
    (msbFirst n bs).testBit (n - 1 - j) = bs.getD j false := by
  induction n generalizing bs j with
  | zero => omega
  | succ n ih =>
    cases bs with
    | nil => simp [msbFirst]
    | cons b bs =>
      have hlt := msbFirst_lt n bs
      cases j with
      | zero =>
        simp only [msbFirst, Nat.add_sub_cancel, Nat.sub_zero, List.getD_cons_zero]
        cases b
        · simp [Nat.testBit_lt_two_pow hlt]
        · simp [Nat.testBit_two_pow_add_eq, Nat.testBit_lt_two_pow hlt]
      | succ j =>
        have e : n + 1 - 1 - (j + 1) = n - 1 - j := by omega
        rw [e, List.getD_cons_succ, ← ih bs j (by omega)]
        simp only [msbFirst]
        cases b
        · simp
        · simp only [if_true]
          rw [Nat.testBit_two_pow_add_gt (by omega)]

theorem packBits_eight (b0 b1 b2 b3 b4 b5 b6 b7 : Bool) (bs : List Bool) :
    packBits (b0 :: b1 :: b2 :: b3 :: b4 :: b5 :: b6 :: b7 :: bs) =
      BitVec.ofNat 8 (msbFirst 8 [b0, b1, b2, b3, b4, b5, b6, b7]) :: packBits bs := rfl

/-- A non-empty sequence of at most eight bits packs to one byte. -/
theorem packBits_short {bs : List Bool} (h0 : bs ≠ []) (h : bs.length ≤ 8) :
    packBits bs = [BitVec.ofNat 8 (msbFirst 8 bs)] := by
  match bs, h0, h with
  | [_], _, _ | [_, _], _, _ | [_, _, _], _, _ | [_, _, _, _], _, _ | [_, _, _, _, _], _, _
  | [_, _, _, _, _, _], _, _ | [_, _, _, _, _, _, _], _, _ | [_, _, _, _, _, _, _, _], _, _ => rfl
  | _ :: _ :: _ :: _ :: _ :: _ :: _ :: _ :: _ :: _, _, h => simp at h; omega

/-- Eight bits more make one byte more. -/
theorem packBits_cons {full : List Bool} (h : full.length = 8) (bs : List Bool) :
    packBits (full ++ bs) = BitVec.ofNat 8 (msbFirst 8 full) :: packBits bs := by
  match full, h with
  | [_, _, _, _, _, _, _, _], _ => rfl

/-- Induction on a bit sequence in blocks of eight. -/
theorem eightInduction {motive : List Bool → Prop} (short : ∀ bs, bs.length < 8 → motive bs)
    (block : ∀ full bs, full.length = 8 → motive bs → motive (full ++ bs)) (bs : List Bool) : motive bs := by
  induction h : bs.length using Nat.strong_induction_on generalizing bs with
  | _ n ih =>
    by_cases h8 : bs.length < 8
    · exact short bs h8
    · rw [← List.take_append_drop 8 bs]
      exact block _ _ (by simp; omega) (ih _ (by simp; omega) _ rfl)

/-- Whole bytes pack by themselves. -/
theorem packBits_append {full : List Bool} (h : full.length % 8 = 0) (bs : List Bool) :
    packBits (full ++ bs) = packBits full ++ packBits bs := by
  induction full using eightInduction with
  | short full h8 =>
    have : full = [] := List.eq_nil_of_length_eq_zero (by omega)
    subst this
    rfl
  | block a b ha ih =>
    rw [List.append_assoc, packBits_cons ha, packBits_cons ha, ih (by simp at h; omega)]
    rfl

theorem length_packBits (bs : List Bool) : (packBits bs).length = (bs.length + 7) / 8 := by
  induction bs using eightInduction with
  | short bs h =>
    rcases bs with _ | ⟨b, bs⟩
    · rfl
    · rw [packBits_short (by simp) (by omega)]
      simp at h ⊢
      omega
  | block a b ha ih =>
    rw [packBits_cons ha, List.length_cons, ih, List.length_append, ha]
    omega

/-- R95, R162: bit `i` of the sequence is bit `7 - (i mod 8)` of byte `i div 8`; where there is no bit
`i`, the byte's bit is 0. -/
theorem getLsbD_packBits (bs : List Bool) (i : Nat) (hi : i / 8 < (packBits bs).length) :
    ((packBits bs)[i / 8]).getLsbD (7 - i % 8) = bs.getD i false := by
  induction bs using eightInduction generalizing i with
  | short bs h =>
    by_cases h0 : bs = []
    · subst h0; simp [packBits] at hi
    · have hp := packBits_short h0 (by omega)
      have hl : (packBits bs).length = 1 := by rw [hp]; rfl
      have hi0 : i / 8 = 0 := by omega
      simp only [hp, hi0, List.getElem_cons_zero, BitVec.getLsbD_ofNat]
      have := testBit_msbFirst 8 bs i (by omega)
      have e : 8 - 1 - i = 7 - i % 8 := by omega
      rw [e] at this
      rw [this]
      simp
      omega
  | block a b ha ih =>
    have hp := packBits_cons ha b
    rcases Nat.lt_or_ge i 8 with h8 | h8
    · have hi0 : i / 8 = 0 := by omega
      simp only [hp, hi0, List.getElem_cons_zero, BitVec.getLsbD_ofNat]
      have := testBit_msbFirst 8 a i h8
      have e : 8 - 1 - i = 7 - i % 8 := by omega
      rw [e] at this
      rw [this]
      simp [List.getElem?_append_left (by omega : i < a.length)]
      omega
    · have e : i / 8 = (i - 8) / 8 + 1 := by omega
      have hi' : (i - 8) / 8 < (packBits b).length := by rw [hp] at hi; simp at hi; omega
      have := ih (i - 8) hi'
      simp only [hp, e, List.getElem_cons_succ]
      rw [show 7 - i % 8 = 7 - (i - 8) % 8 by omega, this]
      simp [List.getElem?_append_right (by omega : a.length ≤ i), ha]

@[simp] theorem bitsOfBytes_nil : bitsOfBytes [] = [] := rfl

theorem bitsOfBytes_cons (v : Byte) (vs : List Byte) :
    bitsOfBytes (v :: vs) = ((List.range 8).map fun j => v.getLsbD (7 - j)) ++ bitsOfBytes vs := by
  simp [bitsOfBytes]

theorem length_bitsOfBytes (vs : List Byte) : (bitsOfBytes vs).length = 8 * vs.length := by
  induction vs with
  | nil => rfl
  | cons v vs ih => rw [bitsOfBytes_cons, List.length_append, ih]; simp; omega

theorem getElem?_bitsOfBytes (vs : List Byte) (i : Nat) (hi : i / 8 < vs.length) :
    (bitsOfBytes vs)[i]? = some ((vs[i / 8]).getLsbD (7 - i % 8)) := by
  induction vs generalizing i with
  | nil => simp at hi
  | cons v vs ih =>
    rw [bitsOfBytes_cons]
    rcases Nat.lt_or_ge i 8 with h8 | h8
    · have hi0 : i / 8 = 0 := by omega
      rw [List.getElem?_append_left (by simpa using h8)]
      simp [h8, hi0, Nat.mod_eq_of_lt h8]
    · have e : i / 8 = (i - 8) / 8 + 1 := by omega
      rw [List.getElem?_append_right (by simpa using h8)]
      simp only [List.length_map, List.length_range, e, List.getElem_cons_succ]
      rw [ih (i - 8) (by simp at hi; omega), show 7 - (i - 8) % 8 = 7 - i % 8 by omega]

/-- The bits of a packed sequence are the sequence and then the padding. -/
theorem bitsOfBytes_packBits_take (bs : List Bool) : (bitsOfBytes (packBits bs)).take bs.length = bs := by
  have hl := length_packBits bs
  refine List.ext_getElem? fun i => ?_
  rcases Nat.lt_or_ge i bs.length with h | h
  · rw [List.getElem?_take_of_lt h, getElem?_bitsOfBytes _ _ (by omega), getLsbD_packBits _ _ (by omega)]
    simp [h]
  · rw [List.getElem?_eq_none (by simp; omega), List.getElem?_eq_none h]

end Sys2Proof.Machine
end

