-- ==== Sys2Proof/Laws/Channels.lean ====
section
/-! SUPPORT. What the channels do (41_bitstream.md): one lemma for each operation says all of it, on the
whole sequence of bytes or bits the channel has still to give or has already taken. -/

namespace Sys2Proof.Machine

/-! ### Parts of a procedure -/

/-- Every way a part of a procedure ends: with a value as `P` says, or with a raise as `E` says. -/
def Res.Post {μ α : Type} (x : Res μ α) (P : μ → α → Prop) (E : μ → Raise → Prop) : Prop :=
  match x with
  | .ok m a => P m a
  | .raised m r => E m r

@[simp] theorem Res.post_ok {μ α : Type} (m : μ) (a : α) (P : μ → α → Prop) (E : μ → Raise → Prop) :
    (Res.ok m a).Post P E ↔ P m a := Iff.rfl

@[simp] theorem Res.post_raised {μ α : Type} (m : μ) (r : Raise) (P : μ → α → Prop) (E : μ → Raise → Prop) :
    (Res.raised m r : Res μ α).Post P E ↔ E m r := Iff.rfl

@[simp] theorem Res.bind_ok {μ α β : Type} (m : μ) (a : α) (f : μ → α → Res μ β) :
    (Res.ok m a).bind f = f m a := rfl

@[simp] theorem Res.bind_raised {μ α β : Type} (m : μ) (r : Raise) (f : μ → α → Res μ β) :
    (Res.raised m r).bind f = .raised m r := rfl

theorem Res.Post.bind {μ α β : Type} {x : Res μ α} {f : μ → α → Res μ β} {P : μ → α → Prop}
    {Q : μ → β → Prop} {E : μ → Raise → Prop} (hx : x.Post P E)
    (hf : ∀ m a, P m a → (f m a).Post Q E) : (x.bind f).Post Q E := by
  cases x with
  | ok m a => exact hf m a hx
  | raised m r => exact hx

theorem Res.Post.mono {μ α : Type} {x : Res μ α} {P Q : μ → α → Prop} {E F : μ → Raise → Prop}
    (hx : x.Post P E) (hP : ∀ m a, P m a → Q m a) (hE : ∀ m r, E m r → F m r) : x.Post Q F := by
  cases x with
  | ok m a => exact hP m a hx
  | raised m r => exact hE m r hx

/-- A part that can only raise in ways that do not happen ends with a value. -/
theorem Res.Post.ok_of_no_raise {μ α : Type} {x : Res μ α} {P : μ → α → Prop} {E : μ → Raise → Prop}
    (hx : x.Post P E) (hE : ∀ m r, ¬E m r) : ∃ m a, x = .ok m a ∧ P m a := by
  cases x with
  | ok m a => exact ⟨m, a, rfl, hx⟩
  | raised m r => exact absurd hx (hE m r)

/-! ### Source channel -/

/-- The channel has still to give the bytes `l`, reads memory `m` and meets no bus error. -/
structure SrcCh.Holds (p : Params) (m : Memory) (ch : SrcCh) (l : List Byte) : Prop where
  rest : ch.buf ++ m.bytes (ch.base + ch.off) (ch.len - ch.off) = l
  off_le : ch.off ≤ ch.len
  pos : ch.pos + ch.buf.length = ch.off
  readable : Readable p ch.base ch.len

/-- The bits left of the byte being split. -/
def SrcCh.curBits (ch : SrcCh) : List Bool := (List.range ch.nb).map fun j => ch.cur.getLsbD (7 - j)

/-- The channel has still to give the bits `bs`. -/
structure SrcCh.HoldsBits (p : Params) (m : Memory) (ch : SrcCh) (bs : List Bool) : Prop where
  nb_le : ch.nb ≤ 8
  bits : ∃ l, ch.Holds p m l ∧ bs = ch.curBits ++ bitsOfBytes l

theorem SrcCh.Holds.congr {p : Params} {m m' : Memory} {ch : SrcCh} {l : List Byte} (h : ch.Holds p m l)
    (hm : ∀ j, j < ch.len → m'.read (ch.base + j) = m.read (ch.base + j)) : ch.Holds p m' l where
  rest := by
    rw [← h.rest]
    congr 1
    refine Memory.bytes_congr fun j hj => ?_
    have := hm (ch.off + j) (by omega)
    rwa [← Nat.add_assoc] at this
  off_le := h.off_le
  pos := h.pos
  readable := h.readable

theorem SrcCh.HoldsBits.congr {p : Params} {m m' : Memory} {ch : SrcCh} {bs : List Bool}
    (h : ch.HoldsBits p m bs) (hm : ∀ j, j < ch.len → m'.read (ch.base + j) = m.read (ch.base + j)) :
    ch.HoldsBits p m' bs := by
  obtain ⟨l, hl, hb⟩ := h.bits
  exact ⟨h.nb_le, l, hl.congr hm, hb⟩

@[simp] theorem srcOpen_base (base len : Nat) : (srcOpen base len).base = base := rfl

@[simp] theorem srcOpen_len (base len : Nat) : (srcOpen base len).len = len := rfl

@[simp] theorem srcOpen_pos (base len : Nat) : (srcOpen base len).pos = 0 := rfl

@[simp] theorem srcOpen_nb (base len : Nat) : (srcOpen base len).nb = 0 := rfl

/-- A channel just opened gives the bytes of its region. -/
theorem srcOpen_holds {p : Params} {base len : Nat} (m : Memory) (h : Readable p base len) :
    (srcOpen base len).Holds p m (m.bytes base len) := ⟨rfl, Nat.zero_le _, rfl, h⟩

theorem srcOpen_holdsBits {p : Params} {base len : Nat} (m : Memory) (h : Readable p base len) :
    (srcOpen base len).HoldsBits p m (bitsOfBytes (m.bytes base len)) :=
  ⟨Nat.zero_le _, _, srcOpen_holds m h, rfl⟩

theorem SrcCh.Holds.length {p : Params} {m : Memory} {ch : SrcCh} {l : List Byte} (h : ch.Holds p m l) :
    ch.pos + l.length = ch.len := by
  have := h.rest
  have h1 := h.pos
  have h2 := h.off_le
  subst this
  simp
  omega

theorem fetchBlock_ok {p : Params} {m : Memory} {a k : Nat} (h : Readable p a k) :
    fetchBlock p m a k = .ok (m.bytes a k) := by
  induction k generalizing a with
  | zero => rfl
  | succ k ih =>
    have h0 := h 0 (by omega)
    have ih := ih (a := a + 1) fun j hj => by
      have := h (j + 1) (by omega)
      rwa [Nat.add_right_comm, ← Nat.add_assoc] at *
    simp only [Nat.add_zero] at h0
    simp [fetchBlock, memRead, h0, ih]

/-- A fetch raises only E_IO, at the address of the first bus error (R152, R292). -/
theorem fetchBlock_error {p : Params} {m : Memory} {a k : Nat} {r : Raise}
    (h : fetchBlock p m a k = .error r) :
    ∃ j, j < k ∧ busErrRd p (a + j) = true ∧ (∀ i, i < j → busErrRd p (a + i) = false) ∧
      r = raise .io (a + j) := by
  induction k generalizing a with
  | zero => simp [fetchBlock] at h
  | succ k ih =>
    by_cases h0 : busErrRd p a = true
    · simp only [fetchBlock, memRead, h0, if_true, Except.error.injEq] at h
      exact ⟨0, by omega, h0, fun i hi => by omega, h.symm⟩
    · simp only [fetchBlock, memRead, h0, Bool.false_eq_true, if_false] at h
      split at h
      · next r' h' =>
        cases h
        obtain ⟨j, hj, hb, hi, hr⟩ := ih h'
        refine ⟨j + 1, by omega, by rwa [← Nat.add_assoc, Nat.add_right_comm], fun i hij => ?_, ?_⟩
        · cases i with
          | zero => simpa using h0
          | succ i =>
            have := hi i (by omega)
            rwa [← Nat.add_assoc, Nat.add_right_comm]
        · rw [hr, ← Nat.add_assoc, Nat.add_right_comm]
      · simp at h

/-- Whatever the memory and the bus, SrcByte keeps the region and the bits of the byte being split, and
raises only E_IO at an address of the region. -/
theorem srcByte_cases (p : Params) (m : Memory) (ch : SrcCh) :
    (∃ r, srcByte p m ch = .error r ∧ r.kind = .io) ∨
    (∃ v ch', srcByte p m ch = .ok (v, ch') ∧ ch'.base = ch.base ∧ ch'.len = ch.len ∧ ch'.cur = ch.cur ∧
      ch'.nb = ch.nb) := by
  unfold srcByte
  split
  · exact .inr ⟨_, _, rfl, rfl, rfl, rfl, rfl⟩
  · unfold refill
    simp only
    split
    · next r h =>
      split at h
      · next r' h' =>
        obtain ⟨j, -, -, -, hr⟩ := fetchBlock_error h'
        cases h
        exact .inl ⟨_, rfl, by rw [hr]; rfl⟩
      · simp at h
    · next ch' h =>
      split at h
      · simp at h
      · cases h
        split <;> exact .inr ⟨_, _, rfl, rfl, rfl, rfl, rfl⟩

/-- SrcByte gives the next byte (R153). -/
theorem SrcCh.Holds.srcByte_cons {p : Params} {m : Memory} {ch : SrcCh} {v : Byte} {l : List Byte}
    (h : ch.Holds p m (v :: l)) :
    ∃ ch', srcByte p m ch = .ok (some v, ch') ∧ ch'.Holds p m l ∧ ch'.base = ch.base ∧ ch'.len = ch.len ∧
      ch'.pos = ch.pos + 1 ∧ ch'.cur = ch.cur ∧ ch'.nb = ch.nb := by
  obtain ⟨hr, ho, hp, hb⟩ := h
  unfold srcByte
  split
  · next v' vs hbuf =>
    rw [hbuf, List.cons_append] at hr
    injection hr with hv hl
    subst hv
    refine ⟨_, rfl, ⟨hl, ho, ?_, hb⟩, rfl, rfl, rfl, rfl, rfl⟩
    rw [hbuf] at hp
    simp at hp ⊢
    omega
  · next hbuf =>
    rw [hbuf, List.nil_append] at hr
    have hlen : 0 < ch.len - ch.off := by
      have := congrArg List.length hr
      simp at this
      omega
    have hk : 0 < min p.brBlock (ch.len - ch.off) := by
      have : 0 < p.brBlock := by simp [Params.brBlock]
      omega
    have hread : Readable p (ch.base + ch.off) (min p.brBlock (ch.len - ch.off)) := fun j hj => by
      have := hb (ch.off + j) (by omega)
      rwa [← Nat.add_assoc] at this
    generalize hkd : min p.brBlock (ch.len - ch.off) = k at hk hread
    obtain ⟨k', rfl⟩ : ∃ k', k = k' + 1 := ⟨k - 1, by omega⟩
    have hsplit : ch.len - ch.off = (k' + 1) + (ch.len - ch.off - (k' + 1)) := by omega
    rw [hsplit, Memory.bytes_add] at hr
    simp only [Memory.bytes_succ, List.cons_append] at hr
    injection hr with hv hl
    simp only [refill, hkd, fetchBlock_ok hread, Memory.bytes_succ]
    refine ⟨{ ch with off := ch.off + (k' + 1), buf := m.bytes (ch.base + ch.off + 1) k', pos := ch.pos + 1 },
      by rw [hv], ⟨?_, ?_, ?_, hb⟩, rfl, rfl, rfl, rfl, rfl⟩
    · rw [← hl]
      simp only
      congr 2
      · omega
      · omega
    · simp only; omega
    · rw [hbuf] at hp; simp at hp ⊢; omega

/-- SrcByte answers END when the sequence has ended (R153). -/
theorem SrcCh.Holds.srcByte_nil {p : Params} {m : Memory} {ch : SrcCh} (h : ch.Holds p m []) :
    ∃ ch', srcByte p m ch = .ok (none, ch') ∧ ch'.Holds p m [] ∧ ch'.base = ch.base ∧ ch'.len = ch.len ∧
      ch'.pos = ch.pos ∧ ch'.cur = ch.cur ∧ ch'.nb = ch.nb := by
  have hlen := h.length
  obtain ⟨hr, ho, hp, hb⟩ := h
  obtain ⟨hbuf, hrest⟩ := List.append_eq_nil_iff.1 hr
  have hoff : ch.off = ch.len := by
    have := congrArg List.length hrest
    simp at this
    omega
  unfold srcByte
  rw [hbuf]
  simp only [refill, hoff, Nat.sub_self, Nat.min_zero, fetchBlock]
  exact ⟨_, rfl, ⟨by simp, by simp, by rw [hbuf] at hp; simpa [hoff] using hp, hb⟩, rfl, rfl, rfl, rfl, rfl⟩

theorem curBits_cons {ch : SrcCh} (h0 : 0 < ch.nb) (h8 : ch.nb ≤ 8) :
    ch.curBits = (takeBit ch).1 :: (takeBit ch).2.curBits := by
  unfold SrcCh.curBits takeBit
  obtain ⟨n, hn⟩ : ∃ n, ch.nb = n + 1 := ⟨ch.nb - 1, by omega⟩
  simp only [hn, Nat.add_sub_cancel, List.range_succ_eq_map, List.map_cons, List.map_map, Nat.sub_zero]
  congr 1
  refine List.map_congr_left fun j hj => ?_
  have hj := List.mem_range.1 hj
  have h1 : 7 - j < 8 := by omega
  have h2 : ¬ 7 - j < 1 := by omega
  simp only [Function.comp, Nat.succ_eq_add_one, BitVec.getLsbD_shiftLeft, h1, h2, decide_true, decide_false,
    Bool.not_false, Bool.true_and]
  congr 1

/-- Whatever the memory and the bus, SrcBit keeps the region and raises only E_IO. -/
theorem srcBit_cases (p : Params) (m : Memory) (ch : SrcCh) :
    (∃ r, srcBit p m ch = .error r ∧ r.kind = .io) ∨
    (∃ v ch', srcBit p m ch = .ok (v, ch') ∧ ch'.base = ch.base ∧ ch'.len = ch.len) := by
  unfold srcBit
  split
  · rcases srcByte_cases p m ch with ⟨r, hr, hk⟩ | ⟨v, ch', hr, hb, hl, -, -⟩
    · exact .inl ⟨r, by rw [hr], hk⟩
    · cases v <;> rw [hr] <;> exact .inr ⟨_, _, rfl, hb, hl⟩
  · exact .inr ⟨_, _, rfl, rfl, rfl⟩

/-- SrcBit gives the next bit (R154). -/
theorem SrcCh.HoldsBits.srcBit_cons {p : Params} {m : Memory} {ch : SrcCh} {b : Bool} {bs : List Bool}
    (h : ch.HoldsBits p m (b :: bs)) :
    ∃ ch', srcBit p m ch = .ok (some b, ch') ∧ ch'.HoldsBits p m bs ∧ ch'.base = ch.base ∧ ch'.len = ch.len := by
  obtain ⟨h8, l, hl, hb⟩ := h
  unfold srcBit
  split
  · next h0 =>
    have hc : ch.curBits = [] := by simp [SrcCh.curBits, h0]
    rw [hc, List.nil_append] at hb
    cases l with
    | nil => simp at hb
    | cons v l =>
      obtain ⟨ch', he, hh, hbase, hlen, -, -, -⟩ := hl.srcByte_cons
      rw [he]
      have e := curBits_cons (ch := { ch' with cur := v, nb := 8 }) (by simp) (by simp)
      have e8 : ({ ch' with cur := v, nb := 8 } : SrcCh).curBits =
          (List.range 8).map fun j => v.getLsbD (7 - j) := rfl
      rw [bitsOfBytes_cons, ← e8, e, List.cons_append] at hb
      injection hb with hb1 hb2
      refine ⟨(takeBit { ch' with cur := v, nb := 8 }).2, ?_, ⟨?_, l, ⟨hh.rest, hh.off_le, hh.pos, hh.readable⟩, hb2⟩,
        hbase, hlen⟩
      · rw [hb1]
      · simp [takeBit]
  · next h0 =>
    have e := curBits_cons (ch := ch) (by omega) h8
    rw [e, List.cons_append] at hb
    injection hb with hb1 hb2
    refine ⟨(takeBit ch).2, ?_, ⟨?_, l, ⟨hl.rest, hl.off_le, hl.pos, hl.readable⟩, hb2⟩, rfl, rfl⟩
    · rw [hb1]
    · simp [takeBit]; omega

/-- SrcBit answers END when there is no bit left (R154). -/
theorem SrcCh.HoldsBits.srcBit_nil {p : Params} {m : Memory} {ch : SrcCh} (h : ch.HoldsBits p m []) :
    ∃ ch', srcBit p m ch = .ok (none, ch') ∧ ch'.len = ch.len := by
  obtain ⟨-, l, hl, hb⟩ := h
  obtain ⟨hc, hn⟩ := List.append_eq_nil_iff.1 hb.symm
  have h0 : ch.nb = 0 := by
    have := congrArg List.length hc
    simpa [SrcCh.curBits] using this
  have hl0 : l = [] := by
    have := congrArg List.length hn
    rw [length_bitsOfBytes] at this
    simp at this
    exact List.eq_nil_of_length_eq_zero (by simp [this])
  subst hl0
  obtain ⟨ch', he, -, -, hlen, -⟩ := hl.srcByte_nil
  exact ⟨ch', by simp [srcBit, h0, he], hlen⟩

/-! ### Output channel -/

/-- Byte `j` of the region can be written: it is below the capacity and meets no bus error (R159). -/
def goodByte (p : Params) (base cap j : Nat) : Prop := j < cap ∧ busErrWr p (base + j) = false

/-- The channel over `base`, `cap` has taken the bytes `l`, of which the first `ch.n` are in memory
(`m0` is the memory it was opened on) and the rest in its buffer. -/
structure OutCh.Holds (p : Params) (base cap : Nat) (m0 m : Memory) (ch : OutCh) (l : List Byte) : Prop where
  base_eq : ch.base = base
  cap_eq : ch.cap = cap
  mem : m = m0.writeBytes base (l.take ch.n)
  buf : ch.buf = l.drop ch.n
  n_le : ch.n ≤ l.length
  small : ch.buf.length < p.bwCap
  blocks : ch.n % p.bwCap = 0
  good : ∀ j, j < ch.n → goodByte p base cap j

/-- The raise of a drain (R159, R292): the first byte `j` of `l` that cannot be written raises
E_IO(base + j), and the bytes before it are in memory. -/
def OutFail (p : Params) (base cap : Nat) (m0 : Memory) (l : List Byte) (m : Memory) (r : Raise) : Prop :=
  ∃ j, j < l.length ∧ (∀ i, i < j → goodByte p base cap i) ∧ ¬goodByte p base cap j ∧
    m = m0.writeBytes base (l.take j) ∧ r = raise .io (base + j)

theorem OutFail.append {p : Params} {base cap : Nat} {m0 : Memory} {l : List Byte} {m : Memory} {r : Raise}
    (h : OutFail p base cap m0 l m r) (l' : List Byte) : OutFail p base cap m0 (l ++ l') m r := by
  obtain ⟨j, hj, hg, hb, hm, hr⟩ := h
  exact ⟨j, by simp; omega, hg, hb, by rw [hm, List.take_append_of_le_length (by omega)], hr⟩

theorem outOpen_holds (p : Params) (base cap : Nat) (m : Memory) :
    (outOpen base cap).Holds p base cap m m [] :=
  ⟨rfl, rfl, rfl, rfl, Nat.le_refl _, by simp [outOpen, Params.bwCap], Nat.zero_mod _, fun j hj => by simp [outOpen] at hj⟩

/-- What is in memory: the whole blocks of the bytes taken (R157, 40_command.md R137). -/
theorem OutCh.Holds.mem_eq {p : Params} {base cap : Nat} {m0 m : Memory} {ch : OutCh} {l : List Byte}
    (h : ch.Holds p base cap m0 m l) : m = m0.writeBytes base (drained p l) := by
  have h1 := h.small
  have h2 := h.blocks
  have h3 := h.n_le
  rw [h.buf] at h1
  simp only [List.length_drop] at h1
  have hb : 0 < p.bwCap := by simp [Params.bwCap]
  have : l.length / p.bwCap * p.bwCap = ch.n := by
    have h4 : l.length / p.bwCap = ch.n / p.bwCap := by
      have h5 := Nat.div_add_mod ch.n p.bwCap
      rw [h2, Nat.add_zero] at h5
      refine Nat.div_eq_of_lt_le ?_ ?_
      · rw [Nat.mul_comm, h5]; exact h3
      · rw [Nat.succ_mul, Nat.mul_comm, h5]; omega
    rw [h4]
    exact Nat.div_mul_cancel (Nat.dvd_of_mod_eq_zero h2)
  rw [drained, this]
  exact h.mem

/-- What memory an output channel may have changed: some bytes at the start of its region. -/
theorem OutCh.Holds.read_other {p : Params} {base cap : Nat} {m0 m : Memory} {ch : OutCh} {l : List Byte}
    (h : ch.Holds p base cap m0 m l) {a : Nat} (ha : a < base ∨ base + cap ≤ a) : m.read a = m0.read a := by
  have hn : ch.n ≤ cap := by
    rcases Nat.eq_zero_or_pos ch.n with h0 | h0
    · omega
    · have := (h.good (ch.n - 1) (by omega)).1
      omega
  rw [h.mem]
  refine Memory.read_writeBytes_other _ _ ?_
  have := h.n_le
  simp
  omega

theorem raise_mod (k : ErrKind) (a : Nat) : raise k (a % Config.addrSpace) = raise k a := by
  unfold raise
  congr 1
  apply BitVec.eq_of_toNat_eq
  simp [BitVec.toNat_ofNat]

theorem drainBytes_post (p : Params) {base cap : Nat} (m0 : Memory) (hs : base + cap ≤ Config.addrSpace)
    (vs : List Byte) (pre : List Byte) (hg : ∀ j, j < pre.length → goodByte p base cap j) :
    (drainBytes p base cap (m0.writeBytes base pre) pre.length vs).Post
      (fun m n => m = m0.writeBytes base (pre ++ vs) ∧ n = (pre ++ vs).length ∧
        ∀ j, j < (pre ++ vs).length → goodByte p base cap j)
      (OutFail p base cap m0 (pre ++ vs)) := by
  induction vs generalizing pre with
  | nil => simpa [drainBytes] using hg
  | cons v vs ih =>
    unfold drainBytes
    simp only
    split
    · next hc =>
      refine ⟨pre.length, by simp, hg, fun h => ?_, by simp, (raise_mod _ _).symm ▸ rfl⟩
      exact absurd h.1 (by omega)
    · next hc =>
      have hmod : (base + pre.length) % Config.addrSpace = base + pre.length := Nat.mod_eq_of_lt (by omega)
      rw [hmod]
      unfold memWrite
      split
      · next r hr =>
        split at hr
        · next hb =>
          cases hr
          refine ⟨pre.length, by simp, hg, fun h => ?_, by simp, rfl⟩
          rw [h.2] at hb
          exact absurd hb (by simp)
        · simp at hr
      · next m hm =>
        split at hm
        · simp at hm
        · next hb =>
          cases hm
          have := ih (pre ++ [v]) fun j hj => by
            simp at hj
            rcases Nat.lt_or_ge j pre.length with h | h
            · exact hg j h
            · have : j = pre.length := by omega
              subst this
              exact ⟨by omega, by simpa using hb⟩
          simpa [Memory.writeBytes_append] using this

/-- Drain (R159) on a channel whose buffer may be full. -/
theorem drain_post {p : Params} {base cap : Nat} {m0 m : Memory} {ch : OutCh} {l : List Byte}
    (hs : base + cap ≤ Config.addrSpace) (hbase : ch.base = base) (hcap : ch.cap = cap)
    (hm : m = m0.writeBytes base (l.take ch.n)) (hbuf : ch.buf = l.drop ch.n) (hn : ch.n ≤ l.length)
    (hg : ∀ j, j < ch.n → goodByte p base cap j) :
    (drain p m ch).Post
      (fun m' ch' => (l.length % p.bwCap = 0 → ch'.Holds p base cap m0 m' l) ∧ ch'.n = l.length ∧
        ch'.acc = ch.acc ∧ ch'.k = ch.k ∧ ch'.bits = ch.bits ∧ m' = m0.writeBytes base l ∧
        ∀ j, j < l.length → goodByte p base cap j)
      (OutFail p base cap m0 l) := by
  have hlen : (l.take ch.n).length = ch.n := by simp; omega
  have := drainBytes_post p m0 hs ch.buf (l.take ch.n) (by rwa [hlen])
  rw [hlen, ← hm, hbuf, List.take_append_drop] at this
  unfold drain
  rw [hbase, hcap, hbuf]
  refine Res.Post.bind this fun m' n h => ?_
  obtain ⟨h1, h2, h3⟩ := h
  subst h2
  refine ⟨fun hb => ⟨rfl, rfl, ?_, ?_, Nat.le_refl _, ?_, hb, h3⟩, rfl, rfl, rfl, rfl, h1, h3⟩
  · simpa using h1
  · simp
  · simp [Params.bwCap]

/-- OutByte takes one byte more (R157). -/
theorem OutCh.Holds.outByte {p : Params} {base cap : Nat} {m0 m : Memory} {ch : OutCh} {l : List Byte}
    (h : ch.Holds p base cap m0 m l) (hs : base + cap ≤ Config.addrSpace) (v : Byte) :
    (outByte p m ch v).Post
      (fun m' ch' => ch'.Holds p base cap m0 m' (l ++ [v]) ∧ ch'.acc = ch.acc ∧ ch'.k = ch.k ∧
        ch'.bits = ch.bits)
      (OutFail p base cap m0 (l ++ [v])) := by
  have hn := h.n_le
  have hbuf : ch.buf ++ [v] = (l ++ [v]).drop ch.n := by rw [h.buf, List.drop_append_of_le_length hn]
  have hm : m = m0.writeBytes base ((l ++ [v]).take ch.n) := by
    rw [h.mem, List.take_append_of_le_length hn]
  unfold Machine.outByte
  simp only
  split
  · next hfull =>
    refine (drain_post (ch := { ch with buf := ch.buf ++ [v] }) hs h.base_eq h.cap_eq hm hbuf (by simp; omega) h.good).mono
      (fun m' ch' h' => ⟨h'.1 ?_, h'.2.2.1, h'.2.2.2.1, h'.2.2.2.2.1⟩) (fun _ _ h' => h')
    have hb := h.blocks
    have hl : (l ++ [v]).length = ch.n + p.bwCap := by
      rw [h.buf] at hfull
      simp at hfull ⊢
      omega
    rw [hl, Nat.add_mod_right, hb]
  · next hfull =>
    refine ⟨⟨h.base_eq, h.cap_eq, hm, hbuf, by simp; omega, ?_, h.blocks, h.good⟩, rfl, rfl, rfl⟩
    have := h.small
    simp at hfull ⊢
    omega

/-- OutByte for a sequence of bytes. -/
theorem OutCh.Holds.outBytes {p : Params} {base cap : Nat} {m0 m : Memory} {ch : OutCh} {l : List Byte}
    (h : ch.Holds p base cap m0 m l) (hs : base + cap ≤ Config.addrSpace) (vs : List Byte) :
    (outBytes p m ch vs).Post
      (fun m' ch' => ch'.Holds p base cap m0 m' (l ++ vs) ∧ ch'.acc = ch.acc ∧ ch'.k = ch.k ∧ ch'.bits = ch.bits)
      (OutFail p base cap m0 (l ++ vs)) := by
  induction vs generalizing m ch l with
  | nil => simpa [Machine.outBytes] using h
  | cons v vs ih =>
    unfold Machine.outBytes
    have h1 := (h.outByte hs v).mono (fun _ _ h => h) (fun _ _ h => h.append vs)
    rw [List.append_assoc, List.singleton_append] at h1
    refine Res.Post.bind h1 fun m' ch' h' => ?_
    have h2 := ih h'.1
    rw [List.append_assoc, List.singleton_append] at h2
    exact h2.mono (fun _ _ h3 => ⟨h3.1, by rw [h3.2.1, h'.2.1], by rw [h3.2.2.1, h'.2.2.1], by rw [h3.2.2.2, h'.2.2.2]⟩)
      fun _ _ h3 => h3

/-- The channel has taken the bits `bs`: whole bytes as `Holds` says, and the last `ch.k` bits in its
partial byte. -/
def OutCh.HoldsBits (p : Params) (base cap : Nat) (m0 m : Memory) (ch : OutCh) (bs : List Bool) : Prop :=
  ∃ full part, bs = full ++ part ∧ full.length % 8 = 0 ∧ part.length = ch.k ∧ ch.k < 8 ∧
    ch.acc = BitVec.ofNat 8 (msbFirst part.length part) ∧ ch.bits = bs.length ∧
    ch.Holds p base cap m0 m (packBits full)

theorem outOpen_holdsBits (p : Params) (base cap : Nat) (m : Memory) :
    (outOpen base cap).HoldsBits p base cap m m [] :=
  ⟨[], [], rfl, rfl, rfl, by simp [outOpen], rfl, rfl, outOpen_holds p base cap m⟩

/-- What is in memory of a session of bits. -/
theorem OutCh.HoldsBits.mem_eq {p : Params} {base cap : Nat} {m0 m : Memory} {ch : OutCh} {bs : List Bool}
    (h : ch.HoldsBits p base cap m0 m bs) : m = m0.writeBytes base (drained p (packBits (wholeBytes bs))) := by
  obtain ⟨full, part, hbs, hfull, hpart, hk, -, -, h⟩ := h
  have : wholeBytes bs = full := by
    subst hbs
    have e : (full ++ part).length / 8 * 8 = full.length := by simp; omega
    rw [wholeBytes, e, List.take_left']
    rfl
  rw [this]
  exact h.mem_eq

theorem OutCh.HoldsBits.read_other {p : Params} {base cap : Nat} {m0 m : Memory} {ch : OutCh} {bs : List Bool}
    (h : ch.HoldsBits p base cap m0 m bs) {a : Nat} (ha : a < base ∨ base + cap ≤ a) :
    m.read a = m0.read a := by
  obtain ⟨full, part, -, -, -, -, -, -, h⟩ := h
  exact h.read_other ha

theorem accumulate_eq (part : List Bool) (b : Bool) :
    (BitVec.ofNat 8 (msbFirst part.length part) <<< 1) ||| (BitVec.ofBool b).setWidth 8 =
      BitVec.ofNat 8 (msbFirst (part.length + 1) (part ++ [b])) := by
  rw [msbFirst_snoc]
  generalize msbFirst part.length part = x
  have e : (BitVec.ofNat 8 (2 * x + b.toNat)) = BitVec.ofNat 8 x <<< 1 + (BitVec.ofBool b).setWidth 8 := by
    apply BitVec.eq_of_toNat_eq
    simp [BitVec.toNat_add, Nat.shiftLeft_eq]
    cases b <;> simp <;> omega
  rw [e]
  generalize BitVec.ofNat 8 x = y
  cases b
  · revert y; decide
  · revert y; decide

/-- OutBit takes one bit more (R158). -/
theorem OutCh.HoldsBits.outBit {p : Params} {base cap : Nat} {m0 m : Memory} {ch : OutCh} {bs : List Bool}
    (h : ch.HoldsBits p base cap m0 m bs) (hs : base + cap ≤ Config.addrSpace) (b : Bool) :
    (outBit p m ch b).Post
      (fun m' ch' => ch'.HoldsBits p base cap m0 m' (bs ++ [b]))
      (fun m' r => ∀ cs, OutFail p base cap m0 (packBits (bs ++ b :: cs)) m' r) := by
  obtain ⟨full, part, hbs, hfull, hpart, hk, hacc, hbits, hh⟩ := h
  have hacc' := accumulate_eq part b
  rw [← hacc] at hacc'
  unfold Machine.outBit
  simp only
  rw [hacc']
  split
  · next h8 =>
    have h8' : (part ++ [b]).length = 8 := by simp; omega
    have hpk : packBits (full ++ (part ++ [b])) =
        packBits full ++ [BitVec.ofNat 8 (msbFirst (part.length + 1) (part ++ [b]))] := by
      rw [packBits_append hfull, packBits_short (bs := part ++ [b]) (by simp) (by omega)]
      congr 4
      omega
    have hh' : ({ ch with k := 0, acc := 0, bits := ch.bits + 1 } : OutCh).Holds p base cap m0 m (packBits full) :=
      ⟨hh.base_eq, hh.cap_eq, hh.mem, hh.buf, hh.n_le, hh.small, hh.blocks, hh.good⟩
    refine (hh'.outByte hs _).mono (fun m' ch' h' => ?_) (fun m' r h' cs => ?_)
    swap
    · have e : bs ++ b :: cs = (full ++ (part ++ [b])) ++ cs := by simp [hbs]
      rw [e, packBits_append (by simp at h8' ⊢; omega), hpk]
      exact h'.append _
    rw [hbs, List.append_assoc]
    refine ⟨full ++ (part ++ [b]), [], by simp, by simp at h8' ⊢; omega, ?_, ?_, ?_, ?_, ?_⟩
    · simp [h'.2.2.1]
    · rw [h'.2.2.1]; simp
    · rw [h'.2.1]; rfl
    · rw [h'.2.2.2, hbits, hbs]; simp; omega
    · rw [hpk]; exact h'.1
  · next h8 =>
    refine ⟨full, part ++ [b], by rw [hbs, List.append_assoc], hfull, by simp [hpart], ?_, by simp, ?_,
      ⟨hh.base_eq, hh.cap_eq, hh.mem, hh.buf, hh.n_le, hh.small, hh.blocks, hh.good⟩⟩
    · simp at h8 ⊢; omega
    · simp [hbits]

/-- OutBit for a sequence of bits. -/
theorem OutCh.HoldsBits.outBits {p : Params} {base cap : Nat} {m0 m : Memory} {ch : OutCh} {bs : List Bool}
    (h : ch.HoldsBits p base cap m0 m bs) (hs : base + cap ≤ Config.addrSpace) (cs : List Bool) :
    (outBits p m ch cs).Post
      (fun m' ch' => ch'.HoldsBits p base cap m0 m' (bs ++ cs))
      (fun m' r => ∀ ds, OutFail p base cap m0 (packBits (bs ++ cs ++ ds)) m' r) := by
  induction cs generalizing m ch bs with
  | nil => simpa [Machine.outBits] using h
  | cons c cs ih =>
    unfold Machine.outBits
    refine Res.Post.bind ((h.outBit hs c).mono (fun _ _ h => h) fun m' r h' ds => ?_) fun m' ch' h' => ?_
    · simpa using h' (cs ++ ds)
    · simpa using ih h'

/-- OutFlush after whole bytes only drains (R160). -/
theorem OutCh.Holds.outFlush {p : Params} {base cap : Nat} {m0 m : Memory} {ch : OutCh} {l : List Byte}
    (h : ch.Holds p base cap m0 m l) (hs : base + cap ≤ Config.addrSpace) (hk : ch.k = 0) :
    (outFlush p m ch).Post
      (fun m' ch' => m' = m0.writeBytes base l ∧ ch'.n = l.length ∧ ∀ j, j < l.length → goodByte p base cap j)
      (OutFail p base cap m0 l) := by
  unfold Machine.outFlush
  rw [if_neg (by omega)]
  refine (drain_post hs h.base_eq h.cap_eq h.mem h.buf h.n_le h.good).mono (fun m' ch' h' => ?_) fun _ _ h' => h'
  exact ⟨h'.2.2.2.2.2.1, h'.2.1, h'.2.2.2.2.2.2⟩

/-- OutFlush after bits writes the last byte, padded with zeros (R160). -/
theorem OutCh.HoldsBits.outFlush {p : Params} {base cap : Nat} {m0 m : Memory} {ch : OutCh} {bs : List Bool}
    (h : ch.HoldsBits p base cap m0 m bs) (hs : base + cap ≤ Config.addrSpace) :
    (outFlush p m ch).Post
      (fun m' ch' => m' = m0.writeBytes base (packBits bs) ∧ ch'.n = (packBits bs).length ∧ ch'.bits = bs.length ∧
        ∀ j, j < (packBits bs).length → goodByte p base cap j)
      (OutFail p base cap m0 (packBits bs)) := by
  obtain ⟨full, part, hbs, hfull, hpart, hk, hacc, hbits, hh⟩ := h
  have fin : ∀ {m1 : Memory} {c : OutCh}, c.Holds p base cap m0 m1 (packBits bs) → c.bits = bs.length →
      (drain p m1 c).Post
        (fun m' ch' => m' = m0.writeBytes base (packBits bs) ∧ ch'.n = (packBits bs).length ∧ ch'.bits = bs.length ∧
          ∀ j, j < (packBits bs).length → goodByte p base cap j)
        (OutFail p base cap m0 (packBits bs)) := fun h hb => by
    refine (drain_post hs h.base_eq h.cap_eq h.mem h.buf h.n_le h.good).mono (fun m' ch' h' => ?_) fun _ _ h' => h'
    obtain ⟨-, h2, -, -, h3, hm, hg⟩ := h'
    exact ⟨hm, h2, h3.trans hb, hg⟩
  unfold Machine.outFlush
  split
  · next hpos =>
    have hne : part ≠ [] := fun h0 => by simp [h0] at hpart; omega
    have hpk : packBits bs = packBits full ++ [ch.acc <<< (8 - ch.k)] := by
      rw [hbs, packBits_append hfull, packBits_short hne (by omega), hacc]
      congr 2
      have := msbFirst_pad part (8 - part.length)
      rw [show part.length + (8 - part.length) = 8 by omega] at this
      rw [this, ← hpart]
      apply BitVec.eq_of_toNat_eq
      simp [Nat.shiftLeft_eq]
    have hh' : ({ ch with acc := 0, k := 0 } : OutCh).Holds p base cap m0 m (packBits full) :=
      ⟨hh.base_eq, hh.cap_eq, hh.mem, hh.buf, hh.n_le, hh.small, hh.blocks, hh.good⟩
    have := hh'.outByte hs (ch.acc <<< (8 - ch.k))
    rw [← hpk] at this
    exact Res.Post.bind this fun m1 c h1 => fin h1.1 (by rw [h1.2.2.2, hbits])
  · next hpos =>
    have hp0 : part = [] := List.eq_nil_of_length_eq_zero (by omega)
    have : packBits bs = packBits full := by rw [hbs, hp0, List.append_nil]
    exact fin (this ▸ hh) hbits

end Sys2Proof.Machine
end

