-- ==== Sys2Proof/Laws/Procedures.lean ====
section
/-! SUPPORT. What the loops of the commands' procedures do: one lemma for each loop says every way it
ends (41_bitstream.md R165, R166; 42_tree.md R182; 44_dispatch.md R241, R246; 45_pipeline.md R265). -/

namespace Sys2Proof.Machine

/-- A procedure that writes only the region at `base` of size `cap` got no further than some bytes at
its start. -/
def Touched (base cap : Nat) (m0 m : Memory) : Prop :=
  ∃ l : List Byte, l.length ≤ cap ∧ m = m0.writeBytes base l

theorem Touched.read_other {base cap : Nat} {m0 m : Memory} (h : Touched base cap m0 m) {a : Nat}
    (ha : a < base ∨ base + cap ≤ a) : m.read a = m0.read a := by
  obtain ⟨l, hl, rfl⟩ := h
  exact Memory.read_writeBytes_other _ _ (by omega)

theorem Touched.wf {base cap : Nat} {m0 m : Memory} (h : Touched base cap m0 m)
    (hs : base + cap ≤ Config.addrSpace) (hm : m0.wf = true) : m.wf = true := by
  obtain ⟨l, hl, rfl⟩ := h
  exact Memory.wf_writeBytes _ hm (by omega)

theorem touched_of_good {p : Params} {base cap n : Nat} {m0 m : Memory} {l : List Byte}
    (hg : ∀ j, j < n → goodByte p base cap j) (hm : m = m0.writeBytes base (l.take n)) :
    Touched base cap m0 m := by
  refine ⟨l.take n, ?_, hm⟩
  rcases Nat.eq_zero_or_pos n with h0 | h0
  · simp [h0]
  · have := (hg (n - 1) (by omega)).1
    simp
    omega

theorem OutCh.Holds.touched {p : Params} {base cap : Nat} {m0 m : Memory} {ch : OutCh} {l : List Byte}
    (h : ch.Holds p base cap m0 m l) : Touched base cap m0 m := touched_of_good h.good h.mem

theorem OutCh.HoldsBits.touched {p : Params} {base cap : Nat} {m0 m : Memory} {ch : OutCh} {bs : List Bool}
    (h : ch.HoldsBits p base cap m0 m bs) : Touched base cap m0 m := by
  obtain ⟨full, part, -, -, -, -, -, -, h⟩ := h
  exact h.touched

theorem OutFail.touched {p : Params} {base cap : Nat} {m0 m : Memory} {l : List Byte} {r : Raise}
    (h : OutFail p base cap m0 l m r) : Touched base cap m0 m := by
  obtain ⟨j, -, hg, -, hm, -⟩ := h
  exact touched_of_good hg hm

theorem OutFail.io {p : Params} {base cap : Nat} {m0 m : Memory} {l : List Byte} {r : Raise}
    (h : OutFail p base cap m0 l m r) : r.kind = .io := by
  obtain ⟨j, -, -, -, -, rfl⟩ := h
  rfl

/-- Nothing fails where every byte of the sequence can be written. -/
theorem OutFail.absurd {p : Params} {base cap : Nat} {m0 m : Memory} {l : List Byte} {r : Raise}
    (h : OutFail p base cap m0 l m r) (hc : l.length ≤ cap) (hw : Writable p base l.length) : False := by
  obtain ⟨j, hj, -, hb, -, -⟩ := h
  exact hb ⟨by omega, hw j hj⟩

/-- The regions at `sb` of size `sn` and at `db` of size `dn` share no address. -/
def Apart (sb sn db dn : Nat) : Prop := ∀ j, j < sn → sb + j < db ∨ db + dn ≤ sb + j

/-- The byte UNPACK writes for a bit (30_encoding.md R96). -/
def bitByte (b : Bool) : Byte := (BitVec.ofBool b).setWidth 8

/-- SrcByte on a memory that agrees with `m0` on the channel's region. -/
theorem SrcCh.Holds.next {p : Params} {m0 m : Memory} {ch : SrcCh} {v : Byte} {l : List Byte}
    (h : ch.Holds p m0 (v :: l)) (hm : ∀ j, j < ch.len → m.read (ch.base + j) = m0.read (ch.base + j)) :
    ∃ ch', srcByte p m ch = .ok (some v, ch') ∧ ch'.Holds p m0 l ∧ ch'.base = ch.base ∧ ch'.len = ch.len ∧
      ch'.pos = ch.pos + 1 := by
  obtain ⟨ch', he, hh, hb, hl, hp, -⟩ := (h.congr hm).srcByte_cons
  exact ⟨ch', he, hh.congr fun j hj => by rw [hb]; exact (hm j (hl ▸ hj)).symm, hb, hl, hp⟩

/-- SrcBit on a memory that agrees with `m0` on the channel's region. -/
theorem SrcCh.HoldsBits.next {p : Params} {m0 m : Memory} {ch : SrcCh} {b : Bool} {bs : List Bool}
    (h : ch.HoldsBits p m0 (b :: bs)) (hm : ∀ j, j < ch.len → m.read (ch.base + j) = m0.read (ch.base + j)) :
    ∃ ch', srcBit p m ch = .ok (some b, ch') ∧ ch'.HoldsBits p m0 bs ∧ ch'.base = ch.base ∧ ch'.len = ch.len := by
  obtain ⟨ch', he, hh, hb, hl⟩ := (h.congr hm).srcBit_cons
  exact ⟨ch', he, hh.congr fun j hj => by rw [hb]; exact (hm j (hl ▸ hj)).symm, hb, hl⟩

/-! ### PACK, UNPACK -/

/-- A byte of the unpacked form (30_encoding.md R96). -/
def isBit (v : Byte) : Bool := decide (v.toNat ≤ 1)

/-- PACK's loop (R165): every byte is a bit, or the first that is not raises E_ILLEGAL at its offset,
unless a drain fails first. -/
theorem packLoop_post {p : Params} {base cap : Nat} {m0 : Memory} (hs : base + cap ≤ Config.addrSpace)
    (l : List Byte) (i : Nat) {src : SrcCh} {m : Memory} {out : OutCh} {bs : List Bool}
    (hsrc : src.Holds p m0 l) (hap : Apart src.base src.len base cap)
    (hout : out.HoldsBits p base cap m0 m bs) :
    (packLoop p l.length i src m out).Post
      (fun m' out' => (∀ v ∈ l, isBit v = true) ∧
        out'.HoldsBits p base cap m0 m' (bs ++ l.map fun v => v.getLsbD 0))
      (fun m' r => OutFail p base cap m0 (packBits (bs ++ (l.takeWhile isBit).map fun v => v.getLsbD 0)) m' r ∨
        ((l.takeWhile isBit).length < l.length ∧ r = raise .illegal (i + (l.takeWhile isBit).length) ∧
          m' = m0.writeBytes base (drained p (packBits (wholeBytes
            (bs ++ (l.takeWhile isBit).map fun v => v.getLsbD 0)))))) := by
  induction l generalizing i src m out bs with
  | nil => simpa [packLoop] using hout
  | cons v l ih =>
    obtain ⟨ch', he, hsrc2, hb, hlen, -⟩ := hsrc.next fun j hj => hout.read_other (hap j hj)
    simp only [List.length_cons, packLoop, he]
    by_cases hv : 1 < v.toNat
    · have : isBit v = false := by simp [isBit]; omega
      rw [if_pos hv]
      exact .inr ⟨by simp [this], by simp [this], by simpa [this] using hout.mem_eq⟩
    · have hbit : isBit v = true := by simp [isBit]; omega
      rw [if_neg hv]
      refine Res.Post.bind ((hout.outBit hs (v.getLsbD 0)).mono (fun _ _ h => h) fun m' r h => .inl ?_) fun m' out' h' => ?_
      · simpa [List.takeWhile_cons, hbit] using h ((l.takeWhile isBit).map fun v => v.getLsbD 0)
      · refine (ih (i + 1) hsrc2 (by rw [hb, hlen]; exact hap) h').mono (fun m2 o2 h2 => ?_) fun m2 r h2 => ?_
        · simpa [hbit] using h2
        · rcases h2 with h2 | ⟨h2, h3, h4⟩
          · left; simpa [List.takeWhile_cons, hbit] using h2
          · right
            refine ⟨by simpa [List.takeWhile_cons, hbit] using h2, ?_, by simpa [List.takeWhile_cons, hbit] using h4⟩
            rw [h3]
            simp [hbit]
            congr 1
            omega

/-- UNPACK's loop (R166): `n` bits, or E_CORRUPT(SRC_LEN) when the source is shorter, unless a drain
fails first. -/
theorem unpackLoop_post {p : Params} {base cap : Nat} {m0 : Memory} (hs : base + cap ≤ Config.addrSpace)
    (n : Nat) {src : SrcCh} {m : Memory} {out : OutCh} {bs : List Bool} {l : List Byte}
    (hsrc : src.HoldsBits p m0 bs) (hap : Apart src.base src.len base cap)
    (hout : out.Holds p base cap m0 m l) (hk : out.k = 0) :
    (unpackLoop p n src m out).Post
      (fun m' out' => n ≤ bs.length ∧ out'.Holds p base cap m0 m' (l ++ (bs.take n).map bitByte) ∧ out'.k = 0)
      (fun m' r => OutFail p base cap m0 (l ++ (bs.take n).map bitByte) m' r ∨
        (bs.length < n ∧ r = raise .corrupt src.len ∧
          m' = m0.writeBytes base (drained p (l ++ bs.map bitByte)))) := by
  induction n generalizing src m out bs l with
  | zero => simpa [unpackLoop] using ⟨hout, hk⟩
  | succ n ih =>
    cases bs with
    | nil =>
      obtain ⟨ch', he, hlen⟩ := (hsrc.congr fun j hj => hout.read_other (hap j hj)).srcBit_nil
      simp only [unpackLoop, he]
      exact .inr ⟨by simp, by rw [hlen], by simpa using hout.mem_eq⟩
    | cons b bs =>
      obtain ⟨ch', he, hsrc2, hb, hlen⟩ := hsrc.next fun j hj => hout.read_other (hap j hj)
      simp only [unpackLoop, he]
      refine Res.Post.bind ((hout.outByte hs (bitByte b)).mono (fun _ _ h => h) fun m' r h => .inl ?_) fun m' out' h' => ?_
      · simpa using h.append ((bs.take n).map bitByte)
      · refine (ih hsrc2 (by rw [hb, hlen]; exact hap) h'.1 (h'.2.2.1.trans hk)).mono (fun m2 o2 h2 => ?_) fun m2 r h2 => ?_
        · refine ⟨by simpa using h2.1, by simpa using h2.2.1, h2.2.2⟩
        · rcases h2 with h2 | ⟨h2, h3, h4⟩
          · left; simpa using h2
          · exact .inr ⟨by simpa using h2, by rw [h3, hlen], by simpa using h4⟩

/-! ### Counting -/

/-- Count's loop (R182, R183). -/
theorem countLoop_post {p : Params} {m : Memory} (l : List Byte) (i : Nat) {src : SrcCh} (c : Counters)
    (hsrc : src.Holds p m l) :
    (countLoop p m l.length i src c).Post
      (fun c' _ => c' = c.tallyAll l ∧ ∀ j, (hj : j < l.length) → (c.tallyAll (l.take j)).full l[j] = false)
      (fun c' r => ∃ j, ∃ hj : j < l.length, (∀ k, (hk : k < j) → (c.tallyAll (l.take k)).full l[k] = false) ∧
        (c.tallyAll (l.take j)).full l[j] = true ∧ c' = c.tallyAll (l.take j) ∧ r = raise .overflow (i + j)) := by
  induction l generalizing i src c with
  | nil => exact ⟨rfl, fun j hj => by simp at hj⟩
  | cons v l ih =>
    obtain ⟨ch', he, hsrc2, -, -, -⟩ := hsrc.next fun _ _ => rfl
    simp only [List.length_cons, countLoop, he]
    by_cases hf : c.full v = true
    · rw [if_pos hf]
      exact ⟨0, by simp, fun k hk => by omega, hf, rfl, rfl⟩
    · rw [if_neg hf]
      refine (ih (i + 1) (c.tally v) hsrc2).mono (fun c' _ h => ⟨h.1, fun j hj => ?_⟩) fun c' r h => ?_
      · cases j with
        | zero => exact Bool.not_eq_true _ ▸ hf
        | succ j => exact h.2 j (by simpa using hj)
      · obtain ⟨j, hj, hlt, hfj, hc, hr⟩ := h
        refine ⟨j + 1, by simpa using hj, fun k hk => ?_, hfj, hc, by rw [hr]; congr 1; omega⟩
        cases k with
        | zero => exact Bool.not_eq_true _ ▸ hf
        | succ k => exact hlt k (by omega)

/-! ### EncodeSyms -/

/-- The symbol has a code (44_dispatch.md R241). -/
def hasCode (codes : CodeTable) (v : Byte) : Bool := decide ((lookup codes v).length ≠ 0)

/-- EncodeSyms (R241): the codes of all symbols, or E_INTERNAL at the first symbol without one, unless
a drain fails first. -/
theorem encodeSyms_post {p : Params} {base cap : Nat} {m0 : Memory} (hs : base + cap ≤ Config.addrSpace)
    (codes : CodeTable) (l : List Byte) (i : Nat) {src : SrcCh} {m : Memory} {out : OutCh} {bs : List Bool}
    (hsrc : src.Holds p m0 l) (hap : Apart src.base src.len base cap)
    (hout : out.HoldsBits p base cap m0 m bs) :
    (encodeSyms p codes l.length i src m out).Post
      (fun m' out' => (∀ v ∈ l, hasCode codes v = true) ∧
        out'.HoldsBits p base cap m0 m' (bs ++ encodeBits codes l))
      (fun m' r => OutFail p base cap m0 (packBits (bs ++ encodeBits codes (l.takeWhile (hasCode codes)))) m' r ∨
        ((l.takeWhile (hasCode codes)).length < l.length ∧
          r = raise .internal (i + (l.takeWhile (hasCode codes)).length) ∧
          m' = m0.writeBytes base (drained p (packBits (wholeBytes
            (bs ++ encodeBits codes (l.takeWhile (hasCode codes)))))))) := by
  induction l generalizing i src m out bs with
  | nil => simpa [encodeSyms, encodeBits] using hout
  | cons v l ih =>
    obtain ⟨ch', he, hsrc2, hb, hlen, -⟩ := hsrc.next fun j hj => hout.read_other (hap j hj)
    simp only [List.length_cons, encodeSyms, he]
    by_cases hv : (lookup codes v).length = 0
    · have : hasCode codes v = false := by simp [hasCode]; simpa using hv
      rw [if_pos hv]
      exact .inr ⟨by simp [this], by simp [this], by simpa [this, encodeBits] using hout.mem_eq⟩
    · have hc : hasCode codes v = true := by simp [hasCode]; simpa using hv
      rw [if_neg hv]
      refine Res.Post.bind ((hout.outBits hs (lookup codes v)).mono (fun _ _ h => h) fun m' r h => .inl ?_) fun m' out' h' => ?_
      · have := h (encodeBits codes (l.takeWhile (hasCode codes)))
        simpa [List.takeWhile_cons, hc, encodeBits] using this
      · refine (ih (i + 1) hsrc2 (by rw [hb, hlen]; exact hap) h').mono (fun m2 o2 h2 => ?_) fun m2 r h2 => ?_
        · simpa [hc, encodeBits] using h2
        · rcases h2 with h2 | ⟨h2, h3, h4⟩
          · left; simpa [List.takeWhile_cons, hc, encodeBits] using h2
          · right
            refine ⟨by simpa [List.takeWhile_cons, hc] using h2, ?_,
              by simpa [List.takeWhile_cons, hc, encodeBits] using h4⟩
            rw [h3]
            simp [hc]
            congr 1
            omega

/-! ### Walk -/

/-- Walk (R246) with `left` bits to go: what `Tree.decodeFrom` gives for them, E_CORRUPT(p0 + bc div 8)
when they end inside a code, E_CORRUPT(SRC_LEN) when the source is shorter, unless a drain fails
first. -/
theorem walkLoop_post {p : Params} {base cap : Nat} {m0 : Memory} (hs : base + cap ≤ Config.addrSpace)
    (root : Tree) (bc p0 : Nat) (left : Nat) (w : WalkState) {src : SrcCh} {m : Memory} {out : OutCh}
    {bs : List Bool} {l : List Byte} (hsrc : src.HoldsBits p m0 bs) (hap : Apart src.base src.len base cap)
    (hout : out.Holds p base cap m0 m l) (hk : out.k = 0) :
    (walkLoop p root bc p0 left w src m out).Post
      (fun m' out' => left ≤ bs.length ∧ ∃ syms, Tree.decodeFrom root w (bs.take left) = some syms ∧
        out'.Holds p base cap m0 m' (l ++ syms) ∧ out'.k = 0)
      (fun m' r => OutFail p base cap m0 (l ++ Tree.emitted root w (bs.take left)) m' r ∨
        (m' = m0.writeBytes base (drained p (l ++ Tree.emitted root w (bs.take left))) ∧
          ((left ≤ bs.length ∧ Tree.decodeFrom root w (bs.take left) = none ∧ r = raise .corrupt (p0 + bc / 8)) ∨
            (bs.length < left ∧ r = raise .corrupt src.len)))) := by
  induction left generalizing w src m out bs l with
  | zero =>
    cases w with
    | atRoot => exact ⟨Nat.zero_le _, [], rfl, by simpa using hout, hk⟩
    | atNode t => exact .inr ⟨by simpa [Tree.emitted] using hout.mem_eq, .inl ⟨Nat.zero_le _, rfl, rfl⟩⟩
  | succ left ih =>
    cases bs with
    | nil =>
      obtain ⟨ch', he, hlen⟩ := (hsrc.congr fun j hj => hout.read_other (hap j hj)).srcBit_nil
      simp only [walkLoop, he]
      exact .inr ⟨by simpa [Tree.emitted] using hout.mem_eq, .inr ⟨by simp, by rw [hlen]⟩⟩
    | cons b bs =>
      obtain ⟨ch', he, hsrc2, hb, hlen⟩ := hsrc.next fun j hj => hout.read_other (hap j hj)
      have hap' : Apart ch'.base ch'.len base cap := by rw [hb, hlen]; exact hap
      simp only [walkLoop, he, List.take_succ_cons]
      have hd : Tree.decodeFrom root w (b :: bs.take left) =
          match (match w with | .atRoot => root | .atNode t => t).child b with
          | .leaf _ s _ => (Tree.decodeFrom root .atRoot (bs.take left)).map (s :: ·)
          | .node i z o v => Tree.decodeFrom root (.atNode (.node i z o v)) (bs.take left) := by
        cases w <;> rfl
      have hem : Tree.emitted root w (b :: bs.take left) =
          match (match w with | .atRoot => root | .atNode t => t).child b with
          | .leaf _ s _ => s :: Tree.emitted root .atRoot (bs.take left)
          | .node i z o v => Tree.emitted root (.atNode (.node i z o v)) (bs.take left) := by
        cases w <;> rfl
      rw [hd, hem]
      cases hch : (match w with | .atRoot => root | .atNode t => t).child b with
      | leaf i s x =>
        simp only
        refine Res.Post.bind ((hout.outByte hs s).mono (fun _ _ h => h) fun m' r h =>
          .inl (by simpa using h.append (Tree.emitted root .atRoot (bs.take left)))) fun m' out' h' => ?_
        refine (ih .atRoot hsrc2 hap' h'.1 (h'.2.2.1.trans hk)).mono (fun m2 o2 h2 => ?_) fun m2 r h2 => ?_
        · obtain ⟨h3, y, h4, h5, h6⟩ := h2
          exact ⟨by simpa using h3, s :: y, by rw [h4]; rfl, by simpa using h5, h6⟩
        · rcases h2 with h2 | ⟨h2, ⟨h3, h4, h5⟩ | ⟨h3, h4⟩⟩
          · exact .inl (by simpa using h2)
          · exact .inr ⟨by simpa using h2, .inl ⟨by simpa using h3, by rw [h4]; rfl, h5⟩⟩
          · exact .inr ⟨by simpa using h2, .inr ⟨by simpa using h3, by rw [h4, hlen]⟩⟩
      | node i z o x =>
        simp only
        refine (ih (.atNode (.node i z o x)) hsrc2 hap' hout hk).mono (fun m2 o2 h2 => ?_) fun m2 r h2 => ?_
        · exact ⟨by simpa using h2.1, h2.2⟩
        · rcases h2 with h2 | ⟨h2, ⟨h3, h4, h5⟩ | ⟨h3, h4⟩⟩
          · exact .inl h2
          · exact .inr ⟨h2, .inl ⟨by simpa using h3, h4, h5⟩⟩
          · exact .inr ⟨h2, .inr ⟨by simpa using h3, by rw [h4, hlen]⟩⟩

/-! ### The copy of the temporary store -/

/-- The copy loop (45_pipeline.md R265): every byte of the source channel. -/
theorem copyLoop_post {p : Params} {base cap : Nat} {m0 : Memory} (hs : base + cap ≤ Config.addrSpace)
    (l : List Byte) {src : SrcCh} {m : Memory} {out : OutCh} {done : List Byte}
    (hsrc : src.Holds p m0 l) (hap : Apart src.base src.len base cap)
    (hout : out.Holds p base cap m0 m done) (hk : out.k = 0) :
    (copyLoop p l.length src m out).Post
      (fun m' out' => out'.Holds p base cap m0 m' (done ++ l) ∧ out'.k = 0)
      (OutFail p base cap m0 (done ++ l)) := by
  induction l generalizing src m out done with
  | nil => simpa [copyLoop] using ⟨hout, hk⟩
  | cons v l ih =>
    obtain ⟨ch', he, hsrc2, hb, hlen, -⟩ := hsrc.next fun j hj => hout.read_other (hap j hj)
    simp only [List.length_cons, copyLoop, he]
    refine Res.Post.bind ((hout.outByte hs v).mono (fun _ _ h => h) fun m' r h => by simpa using h.append l)
      fun m' out' h' => ?_
    have := ih hsrc2 (by rw [hb, hlen]; exact hap) h'.1 (h'.2.2.1.trans hk)
    simpa using this

end Sys2Proof.Machine
end

