-- ==== Sys2Proof/Laws/Trees.lean ====
section
/-! SUPPORT. Trees and codes: sizes, pre-order numbers, the code table as paths, prefix-freeness, and the
walk as the inverse of the codes (10_state.md R40 to R44; 42_tree.md R190, R191; 44_dispatch.md R249). -/

namespace Sys2Proof.Machine

/-! ### Tables -/

@[simp] theorem lookup_update_self {α : Type} (t : Vector α 256) (q : Byte) (v : α) :
    lookup (update t q v) q = v := by simp [lookup, update]

theorem lookup_update_other {α : Type} (t : Vector α 256) {q r : Byte} (v : α) (h : r ≠ q) :
    lookup (update t q v) r = lookup t r := by
  simp only [lookup, update]
  rw [Vector.getElem_set_ne]
  exact fun e => h (BitVec.eq_of_toNat_eq e.symm)

theorem lookup_update {α : Type} (t : Vector α 256) (q r : Byte) (v : α) :
    lookup (update t q v) r = if r = q then v else lookup t r := by
  split
  · next h => rw [h, lookup_update_self]
  · next h => exact lookup_update_other t v h

@[simp] theorem lookup_replicate {α : Type} (v : α) (q : Byte) : lookup (Vector.replicate 256 v) q = v := by
  simp [lookup]

@[simp] theorem lookup_empty (q : Byte) : lookup CodeTable.empty q = [] := by simp [CodeTable.empty]

/-- A table is determined by its entries. -/
theorem table_ext {α : Type} {t u : Vector α 256} (h : ∀ q, lookup t q = lookup u q) : t = u := by
  refine Vector.ext fun i hi => ?_
  have := h (BitVec.ofNat 8 i)
  simpa [lookup, Nat.mod_eq_of_lt hi] using this

namespace Tree

/-! ### Sizes -/

theorem leaves_pos (t : Tree) : 0 < t.leaves := by
  induction t with
  | leaf => simp [leaves]
  | node i z o w hz ho => simp [leaves]; omega

/-- 00_scope.md R4: a full binary tree with L leaves has 2L - 1 nodes. -/
theorem size_eq (t : Tree) : t.size + 1 = 2 * t.leaves := by
  induction t with
  | leaf => rfl
  | node i z o w hz ho => simp only [size, leaves]; omega

/-- 00_scope.md R4: its height is at most L - 1. -/
theorem height_lt_leaves (t : Tree) : t.height + 1 ≤ t.leaves := by
  induction t with
  | leaf => simp [height, leaves]
  | node i z o w hz ho => simp only [height, leaves]; omega

theorem length_indices (t : Tree) : t.indices.length = t.size := by
  induction t with
  | leaf => rfl
  | node i z o w hz ho => simp [indices, size, hz, ho]; omega

theorem two_le_leaves {t : Tree} (h : t.isNode = true) : 2 ≤ t.leaves := by
  cases t with
  | leaf => simp [isNode] at h
  | node i z o w => have := z.leaves_pos; have := o.leaves_pos; simp [leaves]; omega

theorem idx_mem_indices (t : Tree) : t.idx ∈ t.indices := by cases t <;> simp [idx, indices]

theorem length_syms (t : Tree) : t.syms.length = t.leaves := by
  induction t with
  | leaf => rfl
  | node i z o w hz ho => simp [syms, leaves, hz, ho]

/-- 30_encoding.md R104: a tree of L leaves serializes to 19 L - 9 bytes. -/
theorem length_serTree (t : Tree) : (serTree t).length + 9 = 19 * t.leaves := by
  induction t with
  | leaf => rfl
  | node i z o w hz ho => simp [serTree, leaves, weightBytes]; omega

/-! ### Pre-order numbers -/

@[simp] theorem size_renumber (k : Nat) (t : Tree) : (t.renumber k).size = t.size := by
  induction t generalizing k with
  | leaf => rfl
  | node i z o w hz ho => simp [renumber, size, hz, ho]

@[simp] theorem leaves_renumber (k : Nat) (t : Tree) : (t.renumber k).leaves = t.leaves := by
  induction t generalizing k with
  | leaf => rfl
  | node i z o w hz ho => simp [renumber, leaves, hz, ho]

@[simp] theorem isNode_renumber (k : Nat) (t : Tree) : (t.renumber k).isNode = t.isNode := by cases t <;> rfl

@[simp] theorem idx_renumber (k : Nat) (t : Tree) : (t.renumber k).idx = k := by cases t <;> rfl

@[simp] theorem serTree_renumber (k : Nat) (t : Tree) : serTree (t.renumber k) = serTree t := by
  induction t generalizing k with
  | leaf => rfl
  | node i z o w hz ho => simp [renumber, serTree, hz, ho]

@[simp] theorem firstPath_renumber (k : Nat) (t : Tree) (q : Byte) : (t.renumber k).firstPath q = t.firstPath q := by
  induction t generalizing k with
  | leaf => rfl
  | node i z o w hz ho => simp [renumber, firstPath, hz, ho]

theorem indices_renumber (k : Nat) (t : Tree) : (t.renumber k).indices = List.range' k t.size := by
  induction t generalizing k with
  | leaf => rfl
  | node i z o w hz ho =>
    simp only [renumber, indices, size, hz, ho]
    rw [show 1 + z.size + o.size = (z.size + o.size) + 1 by omega, List.range'_succ, ← List.range'_append_1]

/-! ### Paths -/

theorem firstPath_length (t : Tree) {q : Byte} {p : List Bool} (h : t.firstPath q = some p) :
    p.length ≤ t.height := by
  induction t generalizing p with
  | leaf i s w =>
    simp [firstPath] at h
    obtain ⟨-, rfl⟩ := h
    simp
  | node i z o w hz ho =>
    simp only [firstPath, Option.or_eq_some_iff, Option.map_eq_some_iff] at h
    simp only [height]
    rcases h with ⟨y, hy, rfl⟩ | ⟨-, y, hy, rfl⟩
    · have := hz hy; simp; omega
    · have := ho hy; simp; omega

theorem firstPath_ne_nil {t : Tree} (ht : t.isNode = true) {q : Byte} {p : List Bool}
    (h : t.firstPath q = some p) : p ≠ [] := by
  cases t with
  | leaf => simp [isNode] at ht
  | node i z o w =>
    simp only [firstPath, Option.or_eq_some_iff, Option.map_eq_some_iff] at h
    rcases h with ⟨y, hy, rfl⟩ | ⟨-, y, hy, rfl⟩ <;> simp

theorem firstPath_isSome (t : Tree) (q : Byte) : (t.firstPath q).isSome = true ↔ q ∈ t.syms := by
  induction t with
  | leaf i s w =>
    simp only [firstPath, syms, List.mem_singleton]
    by_cases h : s = q
    · simp [h]
    · simp [h, Ne.symm h]
  | node i z o w hz ho => simp [firstPath, syms, ← hz, ← ho]

/-- Paths to leaves: none is a prefix of another's (42_tree.md R191). -/
theorem firstPath_prefix (t : Tree) {q r : Byte} {p s : List Bool} (hq : t.firstPath q = some p)
    (hr : t.firstPath r = some s) (h : p <+: s) : q = r := by
  induction t generalizing p s with
  | leaf i x w =>
    simp [firstPath] at hq hr
    rw [← hq.1, ← hr.1]
  | node i z o w hz ho =>
    simp only [firstPath, Option.or_eq_some_iff, Option.map_eq_some_iff] at hq hr
    rcases hq with ⟨y, hy, rfl⟩ | ⟨-, y, hy, rfl⟩ <;> rcases hr with ⟨x, hx, rfl⟩ | ⟨-, x, hx, rfl⟩
    · exact hz hy hx ((List.cons_prefix_cons.1 h).2)
    · simp at h
    · simp at h
    · exact ho hy hx ((List.cons_prefix_cons.1 h).2)

/-- The path to a symbol's first leaf is the first of all the paths to its leaves. -/
theorem firstPath_eq_find (t : Tree) (q : Byte) :
    t.firstPath q = (t.leafPaths.find? fun e => e.2 == q).map Prod.fst := by
  induction t with
  | leaf i s w =>
    by_cases h : s = q
    · simp [firstPath, leafPaths, h]
    · simp [firstPath, leafPaths, h]
  | node i z o w hz ho =>
    simp only [firstPath, leafPaths, hz, ho, List.find?_append, List.find?_map, Function.comp_def]
    cases List.find? (fun e => e.2 == q) z.leafPaths <;> simp [Function.comp_def]

theorem leafPath_of_firstPath {t : Tree} {q : Byte} {p : List Bool} (h : t.firstPath q = some p) :
    (p, q) ∈ t.leafPaths := by
  rw [firstPath_eq_find, Option.map_eq_some_iff] at h
  obtain ⟨⟨p', q'⟩, h1, rfl⟩ := h
  have := List.find?_some h1
  simp only [beq_iff_eq] at this
  subst this
  exact List.mem_of_find?_eq_some h1

/-- The walk along the path to a leaf emits the leaf's symbol (44_dispatch.md R245, R249). -/
theorem decodeFrom_leafPath (root t : Tree) {q : Byte} {p : List Bool} (ht : t.isNode = true)
    (h : (p, q) ∈ t.leafPaths) (bs : List Bool) :
    decodeFrom root (.atNode t) (p ++ bs) = (decodeFrom root .atRoot bs).map (q :: ·) := by
  induction t generalizing p with
  | leaf => simp [isNode] at ht
  | node i z o w hz ho =>
    simp only [leafPaths, List.mem_append, List.mem_map, Prod.mk.injEq, Prod.exists] at h
    rcases h with ⟨y, q', hy, rfl, rfl⟩ | ⟨y, q', hy, rfl, rfl⟩
    · simp only [List.cons_append, decodeFrom, child]
      cases z with
      | leaf j s v =>
        simp [leafPaths] at hy
        obtain ⟨rfl, rfl⟩ := hy
        rfl
      | node j z' o' v => exact hz rfl hy
    · simp only [List.cons_append, decodeFrom, child]
      cases o with
      | leaf j s v =>
        simp [leafPaths] at hy
        obtain ⟨rfl, rfl⟩ := hy
        rfl
      | node j z' o' v => exact ho rfl hy

theorem decodeFrom_path (root t : Tree) {q : Byte} {p : List Bool} (ht : t.isNode = true)
    (h : t.firstPath q = some p) (bs : List Bool) :
    decodeFrom root (.atNode t) (p ++ bs) = (decodeFrom root .atRoot bs).map (q :: ·) :=
  decodeFrom_leafPath root t ht (leafPath_of_firstPath h) bs

/-- AtRoot goes to the root without a bit (44_dispatch.md R245). -/
theorem decodeFrom_atRoot (root : Tree) {b : Bool} {bs : List Bool} :
    decodeFrom root .atRoot (b :: bs) = decodeFrom root (.atNode root) (b :: bs) := rfl

end Tree

/-! ### The code table -/

theorem lookup_visit (t : Tree) (path : List Bool) (tab : CodeTable) (q : Byte) :
    lookup (visit t path tab) q =
      if (lookup tab q).length ≠ 0 then lookup tab q
      else match t.firstPath q with | some p => path ++ p | none => lookup tab q := by
  induction t generalizing path tab with
  | leaf i s w =>
    simp only [visit, Tree.firstPath]
    by_cases hs : s = q
    · subst hs
      by_cases h0 : (lookup tab s).length = 0 <;> simp [h0]
    · by_cases h0 : (lookup tab s).length = 0
      · simp [h0, lookup_update_other _ _ (Ne.symm hs), hs]
      · simp [h0, hs]
  | node i z o w hz ho =>
    simp only [visit, Tree.firstPath, hz, ho]
    by_cases h0 : (lookup tab q).length = 0
    · have h0' : lookup tab q = [] := List.eq_nil_of_length_eq_zero h0
      cases hzq : z.firstPath q with
      | some p => simp [h0']
      | none => cases hoq : o.firstPath q <;> simp [h0']
    · simp [h0]

/-- R190: a symbol's code is the path to its first leaf; none if it has no leaf. -/
theorem lookup_deriveCodes (t : Tree) (q : Byte) : lookup (deriveCodes t) q = (t.firstPath q).getD [] := by
  rw [deriveCodes, lookup_visit]
  cases t.firstPath q <;> simp

@[simp] theorem deriveCodes_renumber (k : Nat) (t : Tree) : deriveCodes (t.renumber k) = deriveCodes t :=
  table_ext fun q => by simp [lookup_deriveCodes]

theorem hasCode_deriveCodes {t : Tree} (ht : t.isNode = true) (q : Byte) :
    hasCode (deriveCodes t) q = true ↔ q ∈ t.syms := by
  rw [← Tree.firstPath_isSome, hasCode, lookup_deriveCodes]
  cases h : t.firstPath q with
  | none => simp
  | some p => simpa using Tree.firstPath_ne_nil ht h

/-- 44_dispatch.md R249: the walk is the inverse of the codes. -/
theorem decodeFrom_encodeBits {t : Tree} (ht : t.isNode = true) (vs : List Byte)
    (h : ∀ v ∈ vs, hasCode (deriveCodes t) v = true) :
    Tree.decodeFrom t .atRoot (encodeBits (deriveCodes t) vs) = some vs := by
  induction vs with
  | nil => rfl
  | cons v vs ih =>
    have hv := h v (by simp)
    have ih := ih fun u hu => h u (by simp [hu])
    rw [hasCode_deriveCodes ht, ← Tree.firstPath_isSome, Option.isSome_iff_exists] at hv
    obtain ⟨p, hp⟩ := hv
    have hne := Tree.firstPath_ne_nil ht hp
    have e : encodeBits (deriveCodes t) (v :: vs) = p ++ encodeBits (deriveCodes t) vs := by
      simp [encodeBits, lookup_deriveCodes, hp]
    have := Tree.decodeFrom_path t t ht hp (encodeBits (deriveCodes t) vs)
    rw [ih] at this
    rw [e]
    cases p with
    | nil => exact absurd rfl hne
    | cons b p => exact this

end Sys2Proof.Machine
end

