-- ==== Sys2Proof/Laws/Builder.lean ====
section
/-! SUPPORT. What the tree builder gives: the greedy merge, the node store it leaves, and the weights
(42_tree.md R185 to R189). -/

namespace Sys2Proof.Machine

/-! ### The builder's input -/

theorem mem_presentSyms {freq : FreqTable} {q : Byte} {w : Word} :
    (q, w) ∈ presentSyms freq ↔ lookup freq q = w ∧ w ≠ 0 := by
  simp only [presentSyms, List.mem_filter, List.mem_map, Prod.mk.injEq, bne_iff_ne, ne_eq]
  refine and_congr_left fun hw => ⟨?_, ?_⟩
  · rintro ⟨⟨x, k⟩, hm, rfl, rfl⟩
    obtain ⟨-, hk, hx⟩ := List.mem_zipIdx hm
    have hk' : k < 256 := by simpa using hk
    rw [hx]
    simp [lookup, Nat.mod_eq_of_lt hk']
  · rintro rfl
    refine ⟨(lookup freq q, q.toNat), ?_, by simp, rfl⟩
    rw [List.mem_iff_getElem]
    exact ⟨q.toNat, by simpa using q.isLt, by simp [lookup]⟩

theorem presentSyms_sorted (freq : FreqTable) :
    (presentSyms freq).Pairwise fun a b => a.1.toNat < b.1.toNat := by
  unfold presentSyms
  refine List.Pairwise.filter _ (List.pairwise_map.2 ?_)
  rw [List.pairwise_iff_getElem]
  intro i j hi hj hij
  have h1 : i < 256 := by simpa using hi
  have h2 : j < 256 := by simpa using hj
  simp
  omega

theorem length_presentSyms_le (freq : FreqTable) : (presentSyms freq).length ≤ 256 := by
  have := List.length_filter_le (fun q : Byte × Word => q.2 != 0)
    (freq.toList.zipIdx.map fun q => (BitVec.ofNat 8 q.2, q.1))
  simpa [presentSyms] using this

/-- A symbol with a non-zero count is there exactly when TREE_BUILD's precondition holds (R133, R185). -/
theorem presentSyms_eq_nil {freq : FreqTable} : presentSyms freq = [] ↔ ∀ q, lookup freq q = 0 := by
  constructor
  · intro h q
    by_contra hq
    have := (mem_presentSyms (freq := freq)).2 ⟨rfl, hq⟩
    rw [h] at this
    simp at this
  · intro h
    rw [List.eq_nil_iff_forall_not_mem]
    rintro ⟨q, w⟩ hm
    obtain ⟨h1, h2⟩ := mem_presentSyms.1 hm
    exact h2 (h1.symm.trans (h q))

theorem any_freq_iff {freq : FreqTable} : freq.toList.any (· != 0) = true ↔ ∃ q, lookup freq q ≠ 0 := by
  simp only [List.any_eq_true, bne_iff_ne, ne_eq]
  constructor
  · rintro ⟨x, hx, h0⟩
    obtain ⟨i, hi, rfl⟩ := List.mem_iff_getElem.1 hx
    have hi' : i < 256 := by simpa using hi
    exact ⟨BitVec.ofNat 8 i, by simpa [lookup, Nat.mod_eq_of_lt hi'] using h0⟩
  · rintro ⟨q, hq⟩
    exact ⟨lookup freq q, by simp [lookup], hq⟩

/-- The leaf with index `k` for an entry of the builder's input. -/
def leafAt (e : Byte × Word) (k : Nat) : Tree := .leaf k e.1 (e.2.setWidth 64)

theorem builderLeaves_eq (freq : FreqTable) :
    builderLeaves freq = (presentSyms freq).zipIdx.map fun q => leafAt q.1 q.2 := rfl

@[simp] theorem length_builderLeaves (freq : FreqTable) :
    (builderLeaves freq).length = (presentSyms freq).length := by simp [builderLeaves]

theorem getElem_builderLeaves (freq : FreqTable) (k : Nat) (h : k < (builderLeaves freq).length) :
    (builderLeaves freq)[k] = leafAt ((presentSyms freq)[k]'(by simpa using h)) k := by
  simp [builderLeaves_eq]

/-! ### The key order and the queue -/

theorem keyBelow_iff {t u : Tree} : keyBelow t u = true ↔
    t.weight.toNat < u.weight.toNat ∨ (t.weight.toNat = u.weight.toNat ∧ t.idx < u.idx) := by
  simp [keyBelow, BitVec.toNat_eq]

theorem keyBelow_trans {t u v : Tree} (h1 : keyBelow t u = true) (h2 : keyBelow u v = true) :
    keyBelow t v = true := by
  rw [keyBelow_iff] at *; omega

theorem keyBelow_total {t u : Tree} (h : keyBelow u t = false) (hi : t.idx ≠ u.idx) : keyBelow t u = true := by
  have h' : ¬keyBelow u t = true := by simp [h]
  rw [keyBelow_iff] at *
  omega

theorem queueInsert_perm (t : Tree) (q : List Tree) : (queueInsert t q).Perm (t :: q) := by
  induction q with
  | nil => exact List.Perm.refl _
  | cons u q ih =>
    unfold queueInsert
    split
    · exact (ih.cons u).trans (List.Perm.swap t u q)
    · exact List.Perm.refl _

/-- A list in key order. -/
def Sorted (q : List Tree) : Prop := q.Pairwise fun t u => keyBelow t u = true

theorem queueInsert_sorted {t : Tree} {q : List Tree} (hq : Sorted q) (ht : ∀ u ∈ q, t.idx ≠ u.idx) :
    Sorted (queueInsert t q) := by
  induction q with
  | nil => simp [queueInsert, Sorted]
  | cons u q ih =>
    obtain ⟨h1, h2⟩ := List.pairwise_cons.1 hq
    unfold queueInsert
    split
    · next hk =>
      refine List.pairwise_cons.2 ⟨fun v hv => ?_, ih h2 fun v hv => ht v (by simp [hv])⟩
      rcases List.mem_cons.1 ((queueInsert_perm t q).mem_iff.1 hv) with rfl | hv
      · exact hk
      · exact h1 v hv
    · next hk =>
      have htu := keyBelow_total (Bool.not_eq_true _ ▸ hk) (ht u (by simp))
      refine List.pairwise_cons.2 ⟨fun v hv => ?_, hq⟩
      rcases List.mem_cons.1 hv with rfl | hv
      · exact htu
      · exact keyBelow_trans htu (h1 v hv)

theorem foldr_queueInsert_perm (ls : List Tree) : (ls.foldr queueInsert []).Perm ls := by
  induction ls with
  | nil => exact List.Perm.refl _
  | cons t ls ih => exact (queueInsert_perm t _).trans (ih.cons t)

theorem foldr_queueInsert_sorted {ls : List Tree} (h : (ls.map Tree.idx).Nodup) :
    Sorted (ls.foldr queueInsert []) := by
  induction ls with
  | nil => exact List.Pairwise.nil
  | cons t ls ih =>
    obtain ⟨h1, h2⟩ := List.nodup_cons.1 h
    refine queueInsert_sorted (ih h2) fun u hu he => h1 ?_
    rw [(foldr_queueInsert_perm ls).mem_iff] at hu
    exact he ▸ List.mem_map_of_mem hu

/-! ### The merge -/

namespace Tree

/-- The node and all nodes below it. -/
def subtrees : Tree → List Tree
  | .leaf i s w => [.leaf i s w]
  | .node i z o w => .node i z o w :: (z.subtrees ++ o.subtrees)

theorem indices_eq (t : Tree) : t.indices = t.subtrees.map Tree.idx := by
  induction t with
  | leaf => rfl
  | node i z o w hz ho => simp [indices, subtrees, idx, hz, ho]

theorem self_mem_subtrees (t : Tree) : t ∈ t.subtrees := by cases t <;> simp [subtrees]

theorem find_none {t : Tree} {i : Nat} (h : i ∉ t.indices) : t.find i = none := by
  induction t with
  | leaf j s w => simp [indices] at h; simp [find, Ne.symm h]
  | node j z o w hz ho =>
    simp only [indices, List.mem_cons, List.mem_append, not_or] at h
    simp [find, Ne.symm h.1, hz h.2.1, ho h.2.2]

/-- NODE[i] is the one node with index i. -/
theorem find_of_mem {t u : Tree} (hn : t.indices.Nodup) (hu : u ∈ t.subtrees) : t.find u.idx = some u := by
  induction t with
  | leaf j s w => simp [subtrees] at hu; subst hu; simp [find, idx]
  | node j z o w hz ho =>
    simp only [indices, List.nodup_cons, List.mem_append, not_or, List.nodup_append] at hn
    obtain ⟨⟨hjz, hjo⟩, hnz, hno, hd⟩ := hn
    simp only [subtrees, List.mem_cons, List.mem_append] at hu
    rcases hu with rfl | hu | hu
    · simp [find, idx]
    · have hi : u.idx ∈ z.indices := by rw [indices_eq]; exact List.mem_map_of_mem hu
      have : j ≠ u.idx := fun e => hjz (e ▸ hi)
      simp [find, this, hz hnz hu]
    · have hi : u.idx ∈ o.indices := by rw [indices_eq]; exact List.mem_map_of_mem hu
      have : j ≠ u.idx := fun e => hjo (e ▸ hi)
      have hzn : z.find u.idx = none := find_none fun hz' => hd _ hz' _ hi rfl
      simp [find, this, hzn, ho hno hu]

theorem mem_of_find {t u : Tree} {i : Nat} (h : t.find i = some u) : u ∈ t.subtrees ∧ u.idx = i := by
  induction t with
  | leaf j s w => simp [find] at h; obtain ⟨rfl, rfl⟩ := h; simp [subtrees, idx]
  | node j z o w hz ho =>
    unfold find at h
    split at h
    · next hj => cases h; exact ⟨by simp [subtrees], hj⟩
    · rcases Option.or_eq_some_iff.1 h with h | ⟨-, h⟩
      · exact ⟨by simp [subtrees, (hz h).1], (hz h).2⟩
      · exact ⟨by simp [subtrees, (ho h).1], (ho h).2⟩

end Tree

/-- What the queue keeps while the merge runs: key order, the indices below `next` each once, every weight
the sum of its leaves, and no sum that reaches 2^64 (R186). -/
structure Merging (q : List Tree) (next : Nat) : Prop where
  sorted : Sorted q
  indices : (q.flatMap Tree.indices).Perm (List.range next)
  weights : ∀ t ∈ q, t.weight.toNat = t.leafSum ∧ t.weighted
  small : (q.map Tree.leafSum).sum < 2 ^ 64

theorem Merging.idx_lt {q : List Tree} {next : Nat} (h : Merging q next) {t : Tree} (ht : t ∈ q) : t.idx < next :=
  List.mem_range.1 (h.indices.mem_iff.1 (List.mem_flatMap.2 ⟨t, ht, t.idx_mem_indices⟩))

theorem Merging.merge {a b : Tree} {q : List Tree} {next : Nat} (h : Merging (a :: b :: q) next) :
    Merging (queueInsert (.node next a b (a.weight + b.weight)) q) (next + 1) := by
  have hp := queueInsert_perm (.node next a b (a.weight + b.weight)) q
  obtain ⟨-, hs⟩ := List.pairwise_cons.1 h.sorted
  obtain ⟨-, hs⟩ := List.pairwise_cons.1 hs
  have hsmall := h.small
  simp only [List.map_cons, List.sum_cons] at hsmall
  obtain ⟨ha, ha'⟩ := h.weights a (by simp)
  obtain ⟨hb, hb'⟩ := h.weights b (by simp)
  have hw : (a.weight + b.weight).toNat = a.leafSum + b.leafSum := by
    rw [BitVec.toNat_add, ha, hb]; exact Nat.mod_eq_of_lt (by omega)
  refine ⟨queueInsert_sorted hs fun u hu => ?_, ?_, fun t ht => ?_, ?_⟩
  · exact Nat.ne_of_gt (h.idx_lt (t := u) (by simp [hu]))
  · refine (hp.flatMap_right _).trans ?_
    rw [List.range_succ]
    refine List.Perm.trans ?_ (h.indices.append_right [next])
    simp only [List.flatMap_cons, Tree.indices, List.cons_append]
    rw [← List.append_assoc]
    exact (List.perm_append_singleton next _).symm
  · rcases List.mem_cons.1 (hp.mem_iff.1 ht) with rfl | ht
    · exact ⟨hw, hw, ha', hb'⟩
    · exact h.weights t (by simp [ht])
  · rw [(hp.map Tree.leafSum).sum_eq]
    simp only [List.map_cons, List.sum_cons, Tree.leafSum]
    omega

/-- The merge of a queue (R186): the greedy merge, and what the tree it gives keeps of the queue. -/
theorem mergeLoop_spec {n next : Nat} {q : List Tree} (h : Merging q next) (hne : q ≠ []) (hn : q.length ≤ n + 1) :
    ∃ T, mergeLoop n next q = some T ∧ GreedyMerge (q : Multiset Tree) next T ∧
      T.indices.Perm (List.range (next + q.length - 1)) ∧ T.weighted ∧
      T.syms.Perm (q.flatMap Tree.syms) ∧ (∀ u ∈ q.flatMap Tree.subtrees, u ∈ T.subtrees) ∧
      (2 ≤ q.length → T.isNode = true ∧ T.idx = next + q.length - 2) := by
  induction n generalizing next q with
  | zero =>
    match q, hne, hn with
    | [t], _, _ =>
      refine ⟨t, rfl, GreedyMerge.done t next, ?_, (h.weights t (by simp)).2, by simp, by simp, by simp⟩
      have := h.indices
      simpa using this
  | succ n ih =>
    match q, hne, hn with
    | [t], _, _ =>
      refine ⟨t, rfl, GreedyMerge.done t next, ?_, (h.weights t (by simp)).2, by simp, by simp, by simp⟩
      have := h.indices
      simpa using this
    | a :: b :: q, _, hn =>
      have hp := queueInsert_perm (.node next a b (a.weight + b.weight)) q
      have hl : (queueInsert (.node next a b (a.weight + b.weight)) q).length = q.length + 1 := by
        simpa using hp.length_eq
      obtain ⟨T, h1, h2, h3, h4, h5, h6, h7⟩ := ih h.merge
        (by intro h0; rw [h0] at hl; simp at hl) (by rw [hl]; simpa using hn)
      obtain ⟨hsa, hs⟩ := List.pairwise_cons.1 h.sorted
      obtain ⟨hsb, -⟩ := List.pairwise_cons.1 hs
      have hm : (queueInsert (.node next a b (a.weight + b.weight)) q : Multiset Tree) =
          (.node next a b (a.weight + b.weight)) ::ₘ (q : Multiset Tree) := by
        rw [Multiset.cons_coe]; exact Multiset.coe_eq_coe.2 hp
      rw [hm] at h2
      refine ⟨T, by simpa [mergeLoop] using h1, ?_, ?_, h4, ?_, ?_, fun _ => ?_⟩
      · have := GreedyMerge.merge a b (q : Multiset Tree) next T (hsa b (by simp))
          (fun u hu => hsa u (by simp at hu; simp [hu])) (fun u hu => hsb u (by simpa using hu)) h2
        simpa using this
      · rw [hl] at h3
        rw [show next + (a :: b :: q).length - 1 = next + 1 + (q.length + 1) - 1 by simp; omega]
        exact h3
      · refine h5.trans ((hp.flatMap_right _).trans ?_)
        simp [Tree.syms]
      · intro u hu
        refine h6 u ?_
        rw [(hp.flatMap_right _).mem_iff]
        simp only [List.flatMap_cons, List.mem_append, Tree.subtrees, List.mem_cons] at hu ⊢
        tauto
      · rcases Nat.eq_zero_or_pos q.length with h0 | h0
        · have hq : q = [] := List.eq_nil_of_length_eq_zero h0
          subst hq
          cases n with
          | zero => simp [mergeLoop, queueInsert] at h1; subst h1; simp [Tree.isNode, Tree.idx]
          | succ n => simp [mergeLoop, queueInsert] at h1; subst h1; simp [Tree.isNode, Tree.idx]
        · obtain ⟨h8, h9⟩ := h7 (by omega)
          refine ⟨h8, ?_⟩
          rw [h9, hl]; simp; omega

/-! ### Build -/

theorem leafSum_leafAt (e : Byte × Word) (k : Nat) : (leafAt e k).leafSum = e.2.toNat := by
  simp only [leafAt, Tree.leafSum, BitVec.toNat_setWidth]
  exact Nat.mod_eq_of_lt (by have := e.2.isLt; omega)

theorem flatMap_leaves_aux {α : Type} (f : Tree → List α) (g : Byte × Word → Nat → α)
    (hf : ∀ e k, f (leafAt e k) = [g e k]) (es : List (Byte × Word)) (k : Nat) :
    ((es.zipIdx k).map fun q => leafAt q.1 q.2).flatMap f = (es.zipIdx k).map fun q => g q.1 q.2 := by
  induction es generalizing k with
  | nil => rfl
  | cons e es ih => simp [List.zipIdx_cons, hf, ih]

theorem builderLeaves_merging (freq : FreqTable) :
    Merging ((builderLeaves freq).foldr queueInsert []) (presentSyms freq).length := by
  have hp := foldr_queueInsert_perm (builderLeaves freq)
  have hi : (builderLeaves freq).map Tree.idx = List.range (presentSyms freq).length := by
    refine List.ext_getElem (by simp) fun i h1 h2 => ?_
    simp [getElem_builderLeaves, leafAt, Tree.idx]
  refine ⟨foldr_queueInsert_sorted (by rw [hi]; exact List.nodup_range), ?_, fun t ht => ?_, ?_⟩
  · refine (hp.flatMap_right _).trans ?_
    have := flatMap_leaves_aux Tree.indices (fun _ k => k) (fun _ _ => rfl) (presentSyms freq) 0
    rw [builderLeaves_eq, this]
    refine List.Perm.of_eq (List.ext_getElem (by simp) fun i h1 h2 => ?_)
    simp
  · rw [hp.mem_iff] at ht
    obtain ⟨k, hk, rfl⟩ := List.mem_iff_getElem.1 ht
    rw [getElem_builderLeaves]
    exact ⟨rfl, trivial⟩
  · rw [(hp.map Tree.leafSum).sum_eq]
    have hb : ∀ x ∈ (builderLeaves freq).map Tree.leafSum, x ≤ 2 ^ 32 := by
      intro x hx
      obtain ⟨t, ht, rfl⟩ := List.mem_map.1 hx
      obtain ⟨k, hk, rfl⟩ := List.mem_iff_getElem.1 ht
      rw [getElem_builderLeaves, leafSum_leafAt]
      exact Nat.le_of_lt (BitVec.isLt _)
    have := List.sum_le_card_nsmul _ _ hb
    have hl := length_presentSyms_le freq
    simp at this
    omega

/-- R187: the two-leaf tree of a single symbol. -/
def soleTree (q : Byte) (f : Word) : Tree :=
  .node 2 (.leaf 0 q (f.setWidth 64)) (.leaf 1 q (f.setWidth 64)) (f.setWidth 64 + f.setWidth 64)

theorem buildTree_nil {freq : FreqTable} (h : presentSyms freq = []) : buildTree freq = none := by
  simp [buildTree, builderLeaves, h, mergeLoop]

theorem buildTree_one {freq : FreqTable} {q : Byte} {f : Word} (h : presentSyms freq = [(q, f)]) :
    buildTree freq = some (soleTree q f) := by
  simp [buildTree, builderLeaves, h, soleTree]

theorem buildTree_many {freq : FreqTable} (h : 2 ≤ (presentSyms freq).length) :
    buildTree freq = mergeLoop (presentSyms freq).length (presentSyms freq).length
      ((builderLeaves freq).foldr queueInsert []) := by
  have hl := length_builderLeaves freq
  unfold buildTree
  split
  · next s w he => rw [he] at hl; simp at hl; omega
  · rw [hl]

/-- R186, R187, R189: what Build gives for two or more symbols. -/
theorem buildTree_spec {freq : FreqTable} (h : 2 ≤ (presentSyms freq).length) :
    ∃ T, buildTree freq = some T ∧ GreedyMerge (builderLeaves freq : Multiset Tree) (presentSyms freq).length T ∧
      T.indices.Perm (List.range (2 * (presentSyms freq).length - 1)) ∧ T.weighted ∧
      T.syms.Perm ((presentSyms freq).map Prod.fst) ∧ (∀ u ∈ builderLeaves freq, u ∈ T.subtrees) ∧
      T.isNode = true ∧ T.idx = 2 * (presentSyms freq).length - 2 := by
  have hp := foldr_queueInsert_perm (builderLeaves freq)
  have hl : ((builderLeaves freq).foldr queueInsert []).length = (presentSyms freq).length := by
    rw [hp.length_eq, length_builderLeaves]
  obtain ⟨T, h1, h2, h3, h4, h5, h6, h7⟩ := mergeLoop_spec (n := (presentSyms freq).length)
    (builderLeaves_merging freq) (by intro h0; rw [h0] at hl; simp at hl; omega) (by omega)
  rw [hl] at h3 h7
  obtain ⟨h8, h9⟩ := h7 h
  refine ⟨T, by rw [buildTree_many h, h1], ?_, ?_, h4, ?_, fun u hu => h6 u ?_, h8, by rw [h9]; omega⟩
  · rwa [Multiset.coe_eq_coe.2 hp] at h2
  · rwa [show 2 * (presentSyms freq).length - 1 = (presentSyms freq).length + (presentSyms freq).length - 1 by omega]
  · refine h5.trans ((hp.flatMap_right _).trans ?_)
    have := flatMap_leaves_aux Tree.syms (fun e _ => e.1) (fun _ _ => rfl) (presentSyms freq) 0
    rw [builderLeaves_eq, this]
    refine List.Perm.of_eq (List.ext_getElem (by simp) fun i h1 h2 => ?_)
    simp
  · rw [(hp.flatMap_right _).mem_iff]
    exact List.mem_flatMap.2 ⟨u, hu, u.self_mem_subtrees⟩

/-- The tree Build gives is in order, and its leaves hold the symbols with a non-zero count. -/
theorem buildTree_ok {freq : FreqTable} {T : Tree} (h : buildTree freq = some T) :
    T.Ok ∧ T.weighted ∧ ∀ q, q ∈ T.syms ↔ lookup freq q ≠ 0 := by
  have hmem : ∀ q, q ∈ (presentSyms freq).map Prod.fst ↔ lookup freq q ≠ 0 := fun q => by
    constructor
    · intro hq
      obtain ⟨⟨r, w⟩, hm, rfl⟩ := List.mem_map.1 hq
      obtain ⟨h1, h2⟩ := mem_presentSyms.1 hm
      rw [h1]; exact h2
    · intro hq; exact List.mem_map.2 ⟨(q, lookup freq q), mem_presentSyms.2 ⟨rfl, hq⟩, rfl⟩
  match hps : presentSyms freq with
  | [] => rw [buildTree_nil hps] at h; simp at h
  | [(q, f)] =>
    rw [buildTree_one hps] at h
    cases h
    refine ⟨⟨rfl, by simp [soleTree, Tree.leaves], by simp [soleTree, Tree.indices],
      by simp [soleTree, Tree.indices, Tree.size]⟩, ?_, fun r => ?_⟩
    · refine ⟨?_, trivial, trivial⟩
      have := f.isLt
      simp only [Tree.leafSum, BitVec.toNat_add, BitVec.toNat_setWidth]
      omega
    · rw [← hmem, hps]; simp [soleTree, Tree.syms]
  | a :: b :: l =>
    have h2 : 2 ≤ (presentSyms freq).length := by rw [hps]; simp
    obtain ⟨T', h1, -, h3, h4, h5, -, h7, -⟩ := buildTree_spec h2
    rw [h1] at h
    cases h
    have hlen := length_presentSyms_le freq
    have hsz : T.size = 2 * (presentSyms freq).length - 1 := by
      rw [← T.length_indices, h3.length_eq, List.length_range]
    refine ⟨⟨h7, ?_, h3.nodup_iff.2 List.nodup_range, fun i hi => ?_⟩, h4, fun q => ?_⟩
    · have := T.size_eq; omega
    · rw [hsz]; exact List.mem_range.1 (h3.mem_iff.1 hi)
    · rw [h5.mem_iff, hmem]

theorem buildTree_isSome {freq : FreqTable} : (∃ T, buildTree freq = some T) ↔ ∃ q, lookup freq q ≠ 0 := by
  constructor
  · rintro ⟨T, h⟩
    by_contra hc
    have : presentSyms freq = [] := presentSyms_eq_nil.2 fun q => by by_contra h0; exact hc ⟨q, h0⟩
    rw [buildTree_nil this] at h
    simp at h
  · rintro ⟨q, hq⟩
    match hps : presentSyms freq with
    | [] => exact absurd (presentSyms_eq_nil.1 hps q) hq
    | [(r, f)] => exact ⟨_, buildTree_one hps⟩
    | a :: b :: l =>
      obtain ⟨T, h, -⟩ := buildTree_spec (freq := freq) (by rw [hps]; simp)
      exact ⟨T, h⟩

/-! ### The node store of a tree in order -/

theorem Tree.subtrees_trans {t u v : Tree} (h : u ∈ t.subtrees) (hv : v ∈ u.subtrees) : v ∈ t.subtrees := by
  induction t with
  | leaf i s w =>
    simp only [Tree.subtrees, List.mem_singleton] at h
    subst h
    exact hv
  | node i z o w hz ho =>
    simp only [Tree.subtrees, List.mem_cons, List.mem_append] at h ⊢
    rcases h with rfl | h | h
    · simpa only [Tree.subtrees, List.mem_cons, List.mem_append] using hv
    · exact .inr (.inl (hz h))
    · exact .inr (.inr (ho h))

/-- The children of a node of the store are in the store (10_state.md R40). -/
theorem Tree.children_mem {t : Tree} {i : Nat} {z o : Tree} {w : Dword} (h : .node i z o w ∈ t.subtrees) :
    z.idx ∈ t.indices ∧ o.idx ∈ t.indices := by
  rw [Tree.indices_eq]
  exact ⟨List.mem_map_of_mem (Tree.subtrees_trans h (by simp [Tree.subtrees, Tree.self_mem_subtrees])),
    List.mem_map_of_mem (Tree.subtrees_trans h (by simp [Tree.subtrees, Tree.self_mem_subtrees]))⟩

/-- Every index below TREE_NODES has a node (10_state.md R40). -/
theorem Tree.Ok.find_lt {t : Tree} (h : t.Ok) {i : Nat} (hi : i < t.size) : ∃ u, t.find i = some u ∧ u.idx = i := by
  have hp : t.indices.Perm (List.range t.size) :=
    (h.nodup.subperm fun j hj => List.mem_range.2 (h.below j hj)).perm_of_length_le (by simp [Tree.length_indices])
  have hm : i ∈ t.subtrees.map Tree.idx := by
    rw [← Tree.indices_eq]
    exact hp.mem_iff.2 (List.mem_range.2 hi)
  obtain ⟨u, hu, rfl⟩ := List.mem_map.1 hm
  exact ⟨u, Tree.find_of_mem h.nodup hu, rfl⟩

/-- Build gives the root the last index (42_tree.md R187). -/
theorem buildTree_idx {freq : FreqTable} {T : Tree} (h : buildTree freq = some T) : T.idx + 1 = T.size := by
  match hps : presentSyms freq with
  | [] => rw [buildTree_nil hps] at h; simp at h
  | [(q, f)] =>
    rw [buildTree_one hps] at h
    cases h
    rfl
  | a :: b :: l =>
    have h2 : 2 ≤ (presentSyms freq).length := by rw [hps]; simp
    obtain ⟨T', h1, -, h3, -, -, -, -, h8⟩ := buildTree_spec h2
    rw [h1] at h
    cases h
    rw [h8, ← T.length_indices, h3.length_eq, List.length_range]
    omega

/-- The leaves among the nodes of a tree, in pre-order. -/
def Tree.leafNodes : Tree → List Tree
  | .leaf i s w => [.leaf i s w]
  | .node _ z o _ => z.leafNodes ++ o.leafNodes

theorem Tree.length_leafNodes (t : Tree) : t.leafNodes.length = t.leaves := by
  induction t with
  | leaf i s w => rfl
  | node i z o w hz ho => simp [Tree.leafNodes, Tree.leaves, hz, ho]

theorem Tree.mem_leafNodes {t u : Tree} : u ∈ t.leafNodes ↔ u ∈ t.subtrees ∧ u.isNode = false := by
  induction t with
  | leaf i s w =>
    simp only [Tree.leafNodes, Tree.subtrees, List.mem_singleton]
    refine ⟨fun h => ⟨h, by rw [h]; rfl⟩, fun h => h.1⟩
  | node i z o w hz ho =>
    simp only [Tree.leafNodes, Tree.subtrees, List.mem_append, List.mem_cons, hz, ho]
    constructor
    · rintro (h | h)
      · exact ⟨.inr (.inl h.1), h.2⟩
      · exact ⟨.inr (.inr h.1), h.2⟩
    · rintro ⟨rfl | h | h, h2⟩
      · simp [Tree.isNode] at h2
      · exact .inl ⟨h, h2⟩
      · exact .inr ⟨h, h2⟩

theorem nodup_builderLeaves (freq : FreqTable) : (builderLeaves freq).Nodup := by
  refine List.pairwise_iff_getElem.2 fun i j hi hj hij h => ?_
  rw [getElem_builderLeaves, getElem_builderLeaves] at h
  have := congrArg Tree.idx h
  simp only [leafAt, Tree.idx] at this
  omega

/-- The node store Build leaves for two or more symbols: the leaves first, in symbol order, then the internal
nodes in the order they were made (42_tree.md R186, R187). -/
theorem buildTree_store {freq : FreqTable} {T : Tree} (h : 2 ≤ (presentSyms freq).length) (hT : buildTree freq = some T) :
    T.size = 2 * (presentSyms freq).length - 1 ∧ T.leaves = (presentSyms freq).length ∧
    T.idx = 2 * (presentSyms freq).length - 2 ∧
    (∀ k (hk : k < (presentSyms freq).length), T.find k = some (leafAt (presentSyms freq)[k] k)) ∧
    ∀ k, (presentSyms freq).length ≤ k → k ≤ 2 * (presentSyms freq).length - 2 →
      ∃ z o w, T.find k = some (.node k z o w) := by
  obtain ⟨hok, -⟩ := buildTree_ok hT
  obtain ⟨T', h1, -, h3, -, h5, h6, -, h8⟩ := buildTree_spec h
  rw [h1] at hT
  cases hT
  have hsz : T.size = 2 * (presentSyms freq).length - 1 := by
    rw [← T.length_indices, h3.length_eq, List.length_range]
  have hlv : T.leaves = (presentSyms freq).length := by have := T.size_eq; omega
  have hleaf : ∀ u ∈ builderLeaves freq, u.isNode = false := fun u hu => by
    obtain ⟨k, hk, rfl⟩ := List.getElem_of_mem hu
    rw [getElem_builderLeaves]
    rfl
  refine ⟨hsz, hlv, h8, fun k hk => ?_, fun k hk1 hk2 => ?_⟩
  · have hk' : k < (builderLeaves freq).length := by simpa using hk
    have := Tree.find_of_mem hok.nodup (h6 _ (List.getElem_mem hk'))
    rw [getElem_builderLeaves] at this
    exact this
  · obtain ⟨u, hu, rfl⟩ := hok.find_lt (i := k) (by omega)
    cases u with
    | node j z o w => exact ⟨z, o, w, hu⟩
    | leaf j s w =>
      exfalso
      have hm := Tree.mem_leafNodes.2 ⟨(Tree.mem_of_find hu).1, rfl⟩
      have hp : (builderLeaves freq).Perm T.leafNodes :=
        ((nodup_builderLeaves freq).subperm fun v hv => Tree.mem_leafNodes.2 ⟨h6 v hv, hleaf v hv⟩).perm_of_length_le
          (by rw [Tree.length_leafNodes, hlv, length_builderLeaves])
      obtain ⟨i, hi, he⟩ := List.getElem_of_mem (hp.mem_iff.2 hm)
      rw [getElem_builderLeaves] at he
      have := congrArg Tree.idx he
      simp only [leafAt, Tree.idx] at this
      simp only [Tree.idx] at hk1
      simp at hi
      omega

end Sys2Proof.Machine
end

