-- ==== Sys2Proof/Laws/Framer.lean ====
section
/-! SUPPORT. What the framer reads and writes: the weight bytes, the parse of a serialized tree in both
directions, and the bit-count line (43_framer.md R215 to R222, R230; 30_encoding.md R106, R112). -/

namespace Sys2Proof.Machine

/-! ### Bytes and weights -/

/-- What a source channel has still to give, as a predicate `H` of the channel and the bytes left: they
come one after another, and then the error `e` of the region, END being E_CORRUPT(SRC_LEN) (R215). -/
structure Feeds (p : Params) (m : Memory) (H : SrcCh → List Byte → Prop) (e : Nat → Nat → Raise) : Prop where
  cons : ∀ {ch : SrcCh} {v : Byte} {l : List Byte}, H ch (v :: l) →
    ∃ ch', srcByte p m ch = .ok (some v, ch') ∧ H ch' l ∧ ch'.base = ch.base ∧ ch'.len = ch.len ∧
      ch'.pos = ch.pos + 1 ∧ ch'.nb = ch.nb
  nil : ∀ {ch : SrcCh}, H ch [] → readByte p m ch = .error (e ch.base ch.len)
  within : ∀ {ch : SrcCh} {l : List Byte}, H ch l → ch.pos + l.length ≤ ch.len
  atEnd : ∀ {ch : SrcCh}, H ch [] → ch.pos = ch.len → e ch.base ch.len = raise .corrupt ch.len

/-- A channel on which no fetch fails. -/
theorem feeds_holds (p : Params) (m : Memory) : Feeds p m (SrcCh.Holds p m) (fun _ len => raise .corrupt len) where
  cons := fun h => by
    obtain ⟨ch', he, hh, hb, hl, hp, -, hn⟩ := h.srcByte_cons
    exact ⟨ch', he, hh, hb, hl, hp, hn⟩
  nil := fun h => by
    obtain ⟨ch', he, -⟩ := h.srcByte_nil
    simp [readByte, he]
  within := fun h => Nat.le_of_eq h.length
  atEnd := fun _ _ => rfl

section
variable {p : Params} {m : Memory} {H : SrcCh → List Byte → Prop} {e : Nat → Nat → Raise}

theorem Feeds.readByte (hF : Feeds p m H e) {ch : SrcCh} {v : Byte} {l : List Byte} (h : H ch (v :: l)) :
    ∃ ch', readByte p m ch = .ok (v, ch') ∧ H ch' l ∧ ch'.base = ch.base ∧ ch'.len = ch.len ∧
      ch'.pos = ch.pos + 1 ∧ ch'.nb = ch.nb := by
  obtain ⟨ch', he, h'⟩ := hF.cons h
  exact ⟨ch', by simp [Machine.readByte, he], h'⟩

/-- A big-endian number read byte by byte (R215). -/
def bigEndian (w : Dword) (vs : List Byte) : Dword := vs.foldl (fun w v => (w <<< 8) ||| v.setWidth 64) w

theorem bigEndian_weightBytes (w : Dword) : bigEndian 0 (weightBytes w) = w := by
  apply BitVec.eq_of_getLsbD_eq
  intro i hi
  simp only [bigEndian, weightBytes, List.map, List.foldl]
  interval_cases i <;> simp

theorem weightBytes_bigEndian {vs : List Byte} (h : vs.length = 8) : weightBytes (bigEndian 0 vs) = vs := by
  match vs, h with
  | [a, b, c, d, e, f, g, k], _ =>
    simp only [bigEndian, weightBytes, List.map, List.foldl, List.cons.injEq, and_true]
    refine ⟨?_, ?_, ?_, ?_, ?_, ?_, ?_, ?_⟩ <;>
    · apply BitVec.eq_of_getLsbD_eq
      intro i hi
      interval_cases i <;> simp

@[simp] theorem length_weightBytes (w : Dword) : (weightBytes w).length = 8 := rfl

theorem Feeds.readBigEndian (hF : Feeds p m H e) {ch : SrcCh} (vs : List Byte) {l : List Byte} (w : Dword)
    (h : H ch (vs ++ l)) :
    ∃ ch', readBigEndian p m vs.length w ch = .ok (bigEndian w vs, ch') ∧ H ch' l ∧
      ch'.base = ch.base ∧ ch'.len = ch.len ∧ ch'.pos = ch.pos + vs.length ∧ ch'.nb = ch.nb := by
  induction vs generalizing ch w with
  | nil => exact ⟨ch, rfl, h, rfl, rfl, rfl, rfl⟩
  | cons v vs ih =>
    obtain ⟨c1, he, hh, hb, hl, hp, hn⟩ := hF.readByte h
    obtain ⟨c2, he2, hh2, hb2, hl2, hp2, hn2⟩ := ih ((w <<< 8) ||| v.setWidth 64) hh
    refine ⟨c2, ?_, hh2, hb2.trans hb, hl2.trans hl, ?_, hn2.trans hn⟩
    · simp [Machine.readBigEndian, he, he2, bigEndian]
    · rw [hp2, hp, List.length_cons]; omega

theorem Feeds.readBigEndian_short (hF : Feeds p m H e) {ch : SrcCh} {l : List Byte} {n : Nat} (w : Dword)
    (h : H ch l) (hn : l.length < n) : Machine.readBigEndian p m n w ch = .error (e ch.base ch.len) := by
  induction l generalizing ch w n with
  | nil =>
    obtain ⟨n, rfl⟩ : ∃ k, n = k + 1 := ⟨n - 1, by simp at hn; omega⟩
    simp [Machine.readBigEndian, hF.nil h]
  | cons v l ih =>
    obtain ⟨n, rfl⟩ : ∃ k, n = k + 1 := ⟨n - 1, by simp at hn; omega⟩
    obtain ⟨c1, he, hh, hb, hl, -⟩ := hF.readByte h
    simp only [Machine.readBigEndian, he]
    rw [ih _ hh (by simpa using hn), hl, hb]

theorem Feeds.readU64 (hF : Feeds p m H e) {ch : SrcCh} {w : Dword} {l : List Byte}
    (h : H ch (weightBytes w ++ l)) :
    ∃ ch', readU64 p m ch = .ok (w, ch') ∧ H ch' l ∧ ch'.base = ch.base ∧ ch'.len = ch.len ∧
      ch'.pos = ch.pos + 8 ∧ ch'.nb = ch.nb := by
  obtain ⟨ch', he, h'⟩ := hF.readBigEndian _ 0 h
  rw [bigEndian_weightBytes] at he
  exact ⟨ch', he, h'⟩

/-! ### The tree -/

theorem leafTag_ne : leafTag ≠ nodeTag := by decide

theorem isNode_of_ne_leaf {t : Tree} {st : List Pending} (h : st = [] → t.isNode = true) {i : Nat} {s : Byte}
    {w : Dword} (ht : t = .leaf i s w) : st ≠ [] := fun h0 => by
  have := h h0
  rw [ht] at this
  exact absurd this (by simp [Tree.isNode])

theorem recordOffset_le (t : Tree) {k : Nat} (hk : k < t.size) : t.recordOffset k ≤ (serTree t).length := by
  induction t generalizing k with
  | leaf => cases k <;> simp [Tree.recordOffset]
  | node i z o w hz ho =>
    cases k with
    | zero => simp [Tree.recordOffset]
    | succ k =>
      simp only [Tree.size] at hk
      simp only [Tree.recordOffset, serTree, List.length_cons, List.length_append, length_weightBytes]
      split
      · next h => have := hz h; omega
      · next h => have := ho (k := k - z.size) (by omega); omega

/-- Where the bytes end, so does the parse, whatever record it is at. -/
theorem Feeds.parseLoop_nil (hF : Feeds p m H e) {room : Nat} {st : List Pending} {src : SrcCh} (h : H src []) :
    parseLoop p m room st src = .error (e src.base src.len) := by
  have := hF.nil h
  unfold Machine.readByte at this
  unfold parseLoop
  split at this <;> simp_all

/-- The parse of a serialized tree (R215, R222): its nodes numbered in pre-order close a subtree of the
parse stack. -/
theorem Feeds.parseLoop_ser (hF : Feeds p m H e) (t : Tree) {room : Nat} {st : List Pending} {src : SrcCh}
    {rest : List Byte} (hroom : t.size ≤ room) (hr : room ≤ Config.maxNodes) (hst : st = [] → t.isNode = true)
    (h : H src (serTree t ++ rest)) :
    ∃ src', H src' rest ∧ src'.base = src.base ∧ src'.len = src.len ∧
      src'.pos = src.pos + (serTree t).length ∧ src'.nb = src.nb ∧
      parseLoop p m room st src =
        match closeSubtree (t.renumber (Config.maxNodes - room)) st with
        | .inl t => .ok (t, src')
        | .inr st => parseLoop p m (room - t.size) st src' := by
  induction t generalizing room st src rest with
  | leaf i s w =>
    obtain ⟨room, rfl⟩ : ∃ k, room = k + 1 := ⟨room - 1, by simp [Tree.size] at hroom; omega⟩
    have hne := isNode_of_ne_leaf hst rfl
    simp only [serTree, List.cons_append] at h
    obtain ⟨c1, he1, h1, hb1, hl1, hp1, hn1⟩ := hF.cons h
    obtain ⟨c2, he2, h2, hb2, hl2, hp2, hn2⟩ := hF.readByte h1
    obtain ⟨c3, he3, h3, hb3, hl3, hp3, hn3⟩ := hF.readU64 h2
    refine ⟨c3, h3, by rw [hb3, hb2, hb1], by rw [hl3, hl2, hl1], ?_, by rw [hn3, hn2, hn1], ?_⟩
    · rw [hp3, hp2, hp1]; simp [serTree]
    · rw [parseLoop]
      simp [he1, hne, he2, he3, Tree.renumber, Tree.size]
      all_goals rfl
  | node i z o w hz ho =>
    obtain ⟨room, rfl⟩ : ∃ k, room = k + 1 := ⟨room - 1, by simp [Tree.size] at hroom; omega⟩
    simp only [Tree.size] at hroom
    simp only [serTree, List.cons_append, List.append_assoc] at h
    obtain ⟨c1, he1, h1, hb1, hl1, hp1, hn1⟩ := hF.cons h
    obtain ⟨c2, he2, h2, hb2, hl2, hp2, hn2⟩ := hF.readU64 h1
    obtain ⟨c3, h3, hb3, hl3, hp3, hn3, he3⟩ := hz (room := room)
      (st := ⟨Config.maxNodes - (room + 1), w, none⟩ :: st) (by omega) (by omega) (by simp) h2
    obtain ⟨c4, h4, hb4, hl4, hp4, hn4, he4⟩ := ho (room := room - z.size)
      (st := ⟨Config.maxNodes - (room + 1), w, some (z.renumber (Config.maxNodes - room))⟩ :: st)
      (by omega) (by omega) (by simp) h3
    refine ⟨c4, h4, by rw [hb4, hb3, hb2, hb1], by rw [hl4, hl3, hl2, hl1], ?_, by rw [hn4, hn3, hn2, hn1], ?_⟩
    · rw [hp4, hp3, hp2, hp1]; simp [serTree]; omega
    · rw [parseLoop]
      simp only [he1, leafTag_ne.symm, ne_eq, not_true_eq_false, and_false, if_false, he2]
      rw [he3]
      simp only [closeSubtree]
      rw [he4]
      have e1 : Config.maxNodes - (room + 1) + 1 = Config.maxNodes - room := by omega
      have e2 : Config.maxNodes - (room - z.size) = Config.maxNodes - room + z.size := by omega
      have e3 : room + 1 - (1 + z.size + o.size) = room - z.size - o.size := by omega
      simp only [closeSubtree, Tree.renumber, Tree.size, e1, e2, e3]

/-- The parse of a serialized tree cut short raises the error its bytes end with (R215). -/
theorem Feeds.parseLoop_short (hF : Feeds p m H e) (t : Tree) {room : Nat} {st : List Pending} {src : SrcCh}
    {l : List Byte} (hr : room ≤ Config.maxNodes) (hst : st = [] → t.isNode = true) (h : H src l)
    (hc : t.CutShort room l) : parseLoop p m room st src = .error (e src.base src.len) := by
  induction t generalizing room st src l with
  | leaf i s w =>
    obtain ⟨hpre, hfits, hfull⟩ := hc
    cases l with
    | nil => exact hF.parseLoop_nil h
    | cons v l =>
      obtain ⟨room, rfl⟩ : ∃ k, room = k + 1 := ⟨room - 1, by
        rcases Nat.eq_zero_or_pos room with h0 | h0
        · have := hfull (by simp [Tree.size, h0])
          simp [h0, Tree.recordOffset] at this
        · omega⟩
      have hne := isNode_of_ne_leaf hst rfl
      have hlt := hfits (by simp [Tree.size])
      rw [parseLoop]
      obtain ⟨rfl, hpre'⟩ := List.cons_prefix_cons.1 hpre
      obtain ⟨c1, he1, h1, hb1, hl1, hp1, hn1⟩ := hF.cons h
      simp only [he1, ne_eq, not_true_eq_false, false_and, hne, if_false, if_true]
      cases l with
      | nil => simp [hF.nil h1, hl1, hb1]
      | cons v l =>
        obtain ⟨rfl, hpre''⟩ := List.cons_prefix_cons.1 hpre'
        obtain ⟨c2, he2, h2, hb2, hl2, hp2, hn2⟩ := hF.readByte h1
        simp only [he2]
        have : l.length < 8 := by simp [serTree] at hlt; omega
        rw [Machine.readU64, hF.readBigEndian_short 0 h2 this, hl2, hl1, hb2, hb1]
  | node i z o w hz ho =>
    obtain ⟨hpre, hfits, hfull⟩ := hc
    cases l with
    | nil => exact hF.parseLoop_nil h
    | cons v l =>
      obtain ⟨room, rfl⟩ : ∃ k, room = k + 1 := ⟨room - 1, by
        rcases Nat.eq_zero_or_pos room with h0 | h0
        · have := hfull (by simp [Tree.size, h0])
          simp [h0, Tree.recordOffset] at this
        · omega⟩
      rw [parseLoop]
      obtain ⟨rfl, hpre'⟩ := List.cons_prefix_cons.1 hpre
      obtain ⟨c1, he1, h1, hb1, hl1, hp1, hn1⟩ := hF.cons h
      simp only [he1, leafTag_ne.symm, ne_eq, not_true_eq_false, and_false, if_false]
      rcases Nat.lt_or_ge l.length 8 with h8 | h8
      · rw [Machine.readU64, hF.readBigEndian_short 0 h1 h8, hl1, hb1]
      · obtain ⟨l, rfl⟩ : ∃ l', l = weightBytes w ++ l' := by
          have := List.prefix_of_prefix_length_le (List.prefix_append (weightBytes w) _) hpre' (by simpa using h8)
          exact ⟨_, (List.prefix_iff_eq_append.1 this).symm⟩
        rw [List.prefix_append_right_inj] at hpre'
        obtain ⟨c2, he2, h2, hb2, hl2, hp2, hn2⟩ := hF.readU64 h1
        simp only [he2]
        simp only [serTree, Tree.size, Tree.recordOffset, List.length_cons, List.length_append, length_weightBytes]
          at hfits hfull
        by_cases hzc : (z.size ≤ room → l.length < (serTree z).length)
        · rw [hz (by omega) (by simp) h2 ⟨?_, hzc, fun hlt => ?_⟩, hl2, hl1, hb2, hb1]
          · refine List.prefix_of_prefix_length_le hpre' (List.prefix_append _ _) ?_
            rcases Nat.lt_or_ge room z.size with hlt | hle
            · have := hfull (by omega)
              rw [if_pos hlt] at this
              have := recordOffset_le z hlt
              omega
            · have := hzc hle; omega
          · have := hfull (by omega)
            rw [if_pos hlt] at this
            omega
        · simp only [Classical.not_imp, Nat.not_lt] at hzc
          obtain ⟨hzr, hl⟩ := hzc
          obtain ⟨l, rfl⟩ : ∃ l', l = serTree z ++ l' := by
            have := List.prefix_of_prefix_length_le (List.prefix_append (serTree z) _) hpre' hl
            exact ⟨_, (List.prefix_iff_eq_append.1 this).symm⟩
          rw [List.prefix_append_right_inj] at hpre'
          obtain ⟨c3, h3, hb3, hl3, hp3, hn3, he3⟩ := hF.parseLoop_ser z (room := room)
            (st := ⟨Config.maxNodes - (room + 1), w, none⟩ :: st) (by omega) (by omega) (by simp) h2
          rw [he3]
          simp only [closeSubtree]
          simp only [List.length_append] at hfits hfull
          rw [ho (by omega) (by simp) h3 ⟨hpre', fun hle => ?_, fun hlt => ?_⟩, hl3, hl2, hl1, hb3, hb2, hb1]
          · have := hfits (by omega); omega
          · have := hfull (by omega)
            rw [if_neg (by omega)] at this
            omega

/-- Where the record of node `k` begins, a byte that is no tag, or any byte when the store takes no more
nodes, raises E_CORRUPT at its offset (R215, R218). -/
theorem parseLoop_badTag (t : Tree) {k room : Nat} {st : List Pending} {src : SrcCh}
    {v : Byte} {rest : List Byte} (hk : k < t.size) (hkr : k ≤ room) (hr : room ≤ Config.maxNodes)
    (hst : st = [] → t.isNode = true) (hv : k < room → v ≠ leafTag ∧ v ≠ nodeTag)
    (h : src.Holds p m ((serTree t).take (t.recordOffset k) ++ v :: rest)) :
    parseLoop p m room st src = .error (raise .corrupt (src.pos + t.recordOffset k)) := by
  have hF := feeds_holds p m
  have first : ∀ {room st} {src : SrcCh}, (0 < room → v ≠ leafTag ∧ v ≠ nodeTag) → src.Holds p m (v :: rest) →
      parseLoop p m room st src = .error (raise .corrupt src.pos) := fun {room st src} hv h => by
    obtain ⟨c1, he1, -⟩ := hF.cons h
    unfold parseLoop
    simp only [he1]
    split
    · rfl
    split
    · rfl
    · next h1 h2 =>
      cases room with
      | zero => rfl
      | succ room => exact absurd (hv (by omega)) h1
  induction t generalizing k room st src with
  | leaf i s w =>
    have : k = 0 := by simp [Tree.size] at hk; omega
    subst this
    simpa [Tree.recordOffset] using first hv (by simpa [Tree.recordOffset] using h)
  | node i z o w hz ho =>
    cases k with
    | zero => simpa [Tree.recordOffset] using first hv (by simpa [Tree.recordOffset] using h)
    | succ k =>
      obtain ⟨room, rfl⟩ : ∃ k, room = k + 1 := ⟨room - 1, by omega⟩
      simp only [Tree.size] at hk
      have hser : serTree (.node i z o w) = (nodeTag :: weightBytes w) ++ (serTree z ++ serTree o) := by simp [serTree]
      have key : ∀ n, (serTree (.node i z o w)).take (9 + n) = nodeTag :: (weightBytes w ++ (serTree z ++ serTree o).take n) := fun n => by
        rw [hser, show 9 + n = (nodeTag :: weightBytes w).length + n by simp, List.take_length_add_append]
        simp
      simp only [Tree.recordOffset] at h ⊢
      split at h
      · next hz' =>
        rw [key, List.take_append_of_le_length (recordOffset_le z hz')] at h
        simp only [List.cons_append, List.append_assoc] at h
        obtain ⟨c1, he1, g1, hb1, hl1, hp1, hn1⟩ := hF.cons h
        obtain ⟨c2, he2, g2, hb2, hl2, hp2, hn2⟩ := hF.readU64 g1
        rw [parseLoop]
        simp only [he1, leafTag_ne.symm, ne_eq, not_true_eq_false, and_false, if_false, he2, if_pos hz']
        rw [hz hz' (by omega) (by omega) (by simp) (fun hlt => hv (by omega)) g2, hp2, hp1]
        congr 2; omega
      · next hz' =>
        rw [Nat.add_assoc, key, List.take_length_add_append] at h
        simp only [List.cons_append, List.append_assoc] at h
        obtain ⟨c1, he1, g1, hb1, hl1, hp1, hn1⟩ := hF.cons h
        obtain ⟨c2, he2, g2, hb2, hl2, hp2, hn2⟩ := hF.readU64 g1
        obtain ⟨c3, g3, hb3, hl3, hp3, hn3, he3⟩ := hF.parseLoop_ser z (room := room)
          (st := ⟨Config.maxNodes - (room + 1), w, none⟩ :: st) (by omega) (by omega) (by simp) g2
        rw [parseLoop]
        simp only [he1, leafTag_ne.symm, ne_eq, not_true_eq_false, and_false, if_false, he2, if_neg hz']
        rw [he3]
        simp only [closeSubtree]
        rw [ho (k := k - z.size) (by omega) (by omega) (by omega) (by simp) (fun hlt => hv (by omega)) g3, hp3, hp2, hp1]
        congr 2; omega

end

/-! ### What any parse gives -/

/-- The indices of a stack entry and of the zero-branch it holds, in pre-order. -/
def Pending.indices (e : Pending) : List Nat := e.idx :: (e.zero.elim [] Tree.indices)

/-- The records of a stack entry and of the zero-branch it holds. -/
def Pending.bytes (e : Pending) : List Byte := nodeTag :: (weightBytes e.weight ++ e.zero.elim [] serTree)

/-- The entries of a stack, outermost first. -/
def stackOf {α : Type} (f : Pending → List α) (st : List Pending) : List α := st.reverse.flatMap f

theorem stackOf_cons {α : Type} (f : Pending → List α) (e : Pending) (st : List Pending) :
    stackOf f (e :: st) = stackOf f st ++ f e := by simp [stackOf]

theorem closeSubtree_inl {t T : Tree} {st : List Pending} (h : closeSubtree t st = .inl T) :
    T.indices = stackOf Pending.indices st ++ t.indices ∧ serTree T = stackOf Pending.bytes st ++ serTree t ∧
      (st ≠ [] ∨ t.isNode = true → T.isNode = true) := by
  induction st generalizing t with
  | nil => simp only [closeSubtree, Sum.inl.injEq] at h; subst h; simp [stackOf]
  | cons e st ih =>
    obtain ⟨i, w, z⟩ := e
    cases z with
    | none => simp [closeSubtree] at h
    | some z =>
      obtain ⟨h1, h2, h3⟩ := ih h
      rw [stackOf_cons, stackOf_cons, h1, h2]
      refine ⟨by simp [Tree.indices, Pending.indices], by simp [serTree, Pending.bytes], fun _ => h3 (.inr rfl)⟩

theorem closeSubtree_inr {t : Tree} {st st' : List Pending} (h : closeSubtree t st = .inr st') :
    stackOf Pending.indices st' = stackOf Pending.indices st ++ t.indices ∧
      stackOf Pending.bytes st' = stackOf Pending.bytes st ++ serTree t ∧ st' ≠ [] := by
  induction st generalizing t with
  | nil => simp [closeSubtree] at h
  | cons e st ih =>
    obtain ⟨i, w, z⟩ := e
    cases z with
    | none =>
      simp only [closeSubtree, Sum.inr.injEq] at h
      subst h
      simp [stackOf_cons, Pending.indices, Pending.bytes]
    | some z =>
      obtain ⟨h1, h2, h3⟩ := ih h
      rw [stackOf_cons, stackOf_cons, h1, h2]
      simp [Tree.indices, Pending.indices, serTree, Pending.bytes, h3]

theorem readByte_cases (p : Params) (m : Memory) (ch : SrcCh) :
    (∃ r, readByte p m ch = .error r ∧ (r.kind = .io ∨ r.kind = .corrupt)) ∨
    (∃ v ch', readByte p m ch = .ok (v, ch') ∧ srcByte p m ch = .ok (some v, ch')) := by
  unfold readByte
  rcases srcByte_cases p m ch with ⟨r, he, hr⟩ | ⟨v, ch', he, -⟩
  · exact .inl ⟨r, by simp [he], .inl hr⟩
  · cases v with
    | none => exact .inl ⟨_, by simp [he]; rfl, .inr rfl⟩
    | some v => exact .inr ⟨v, ch', by simp [he], he⟩

theorem readBigEndian_cases (p : Params) (m : Memory) (n : Nat) (w : Dword) (ch : SrcCh) :
    (∃ r, readBigEndian p m n w ch = .error r ∧ (r.kind = .io ∨ r.kind = .corrupt)) ∨
    (∃ v ch', readBigEndian p m n w ch = .ok (v, ch')) := by
  induction n generalizing w ch with
  | zero => exact .inr ⟨w, ch, rfl⟩
  | succ n ih =>
    unfold readBigEndian
    rcases readByte_cases p m ch with ⟨r, he, hr⟩ | ⟨v, ch', he, -⟩
    · exact .inl ⟨r, by simp [he], hr⟩
    · simp only [he]; exact ih _ _

/-- Every way a parse ends, whatever the bus: an E_IO or E_CORRUPT, or a tree whose nodes are numbered in
pre-order, with an internal root (R215, R218, R219). -/
theorem parseLoop_cases {p : Params} {m : Memory} {room : Nat} {st : List Pending} (src : SrcCh)
    (hr : room ≤ Config.maxNodes) (hst : stackOf Pending.indices st = List.range (Config.maxNodes - room)) :
    (∃ r, parseLoop p m room st src = .error r ∧ (r.kind = .io ∨ r.kind = .corrupt)) ∨
    (∃ T src', parseLoop p m room st src = .ok (T, src') ∧ T.isNode = true ∧ T.size ≤ Config.maxNodes ∧
      T.indices = List.range T.size) := by
  induction room generalizing st src with
  | zero =>
    unfold parseLoop
    rcases srcByte_cases p m src with ⟨r, he, h⟩ | ⟨v, ch', he, -⟩
    · exact .inl ⟨r, by simp [he], .inl h⟩
    · cases v with
      | none => exact .inl ⟨_, by simp [he]; rfl, .inr rfl⟩
      | some v => simp only [he]; split <;> [skip; split] <;> exact .inl ⟨_, rfl, .inr rfl⟩
  | succ room ih =>
    unfold parseLoop
    rcases srcByte_cases p m src with ⟨r, he, h⟩ | ⟨v, ch', he, -⟩
    · exact .inl ⟨r, by simp [he], .inl h⟩
    cases v with
    | none => exact .inl ⟨_, by simp [he]; rfl, .inr rfl⟩
    | some v =>
      simp only [he]
      have hnext : List.range (Config.maxNodes - (room + 1)) ++ [Config.maxNodes - (room + 1)] =
          List.range (Config.maxNodes - room) := by
        rw [show Config.maxNodes - room = (Config.maxNodes - (room + 1)) + 1 by omega, List.range_succ]
      split
      · exact .inl ⟨_, rfl, .inr rfl⟩
      split
      · exact .inl ⟨_, rfl, .inr rfl⟩
      next htag hroot =>
      split
      · next hleaf =>
        rcases readByte_cases p m ch' with ⟨r, he, h⟩ | ⟨s, c2, he, -⟩
        · exact .inl ⟨r, by simp [he], h⟩
        simp only [he]
        rcases readBigEndian_cases p m 8 0 c2 with ⟨r, he, h⟩ | ⟨w, c3, he⟩
        · exact .inl ⟨r, by simp only [readU64, he], h⟩
        simp only [readU64, he]
        cases hc : closeSubtree (.leaf (Config.maxNodes - (room + 1)) s w) st with
        | inl T =>
          obtain ⟨h1, -, h3⟩ := closeSubtree_inl hc
          have hi : T.indices = List.range (Config.maxNodes - room) := by rw [h1, hst]; exact hnext
          have hs : T.size = Config.maxNodes - room := by rw [← T.length_indices, hi, List.length_range]
          refine .inr ⟨T, c3, rfl, h3 (.inl fun h0 => hroot ⟨h0, hleaf⟩), by omega, by rw [hi, hs]⟩
        | inr st' =>
          refine ih (st := st') c3 (by omega) ?_
          rw [(closeSubtree_inr hc).1, hst]; exact hnext
      · rcases readBigEndian_cases p m 8 0 ch' with ⟨r, he, h⟩ | ⟨w, c3, he⟩
        · exact .inl ⟨r, by simp only [readU64, he], h⟩
        simp only [readU64, he]
        refine ih (st := ⟨_, w, none⟩ :: st) c3 (by omega) ?_
        rw [stackOf_cons, hst]; exact hnext

/-- A tree whose nodes are numbered in pre-order from 0, as a parse gives it, is in order. -/
theorem Tree.ok_of_range {T : Tree} (hn : T.isNode = true) (hs : T.size ≤ Config.maxNodes)
    (hi : T.indices = List.range T.size) : T.Ok where
  root := hn
  leaves_le := by have := T.size_eq; simp [Config.maxNodes] at hs; omega
  nodup := by rw [hi]; exact List.nodup_range
  below := fun i h => by rw [hi] at h; exact List.mem_range.1 h

theorem parseTree_cases (p : Params) (m : Memory) (src : SrcCh) :
    (∃ r, parseTree p m src = .error r ∧ (r.kind = .io ∨ r.kind = .corrupt)) ∨
    (∃ T src', parseTree p m src = .ok (T, src') ∧ T.isNode = true ∧ T.size ≤ Config.maxNodes ∧
      T.indices = List.range T.size) :=
  parseLoop_cases src (Nat.le_refl _) (by simp [stackOf])

/-- R222: the parse of a serialized tree gives the tree, numbered in pre-order, and stops at the first byte
after it. -/
theorem Feeds.parseTree_ser {p : Params} {m : Memory} {H : SrcCh → List Byte → Prop} {e : Nat → Nat → Raise}
    (hF : Feeds p m H e) {t : Tree} {src : SrcCh} {rest : List Byte}
    (hn : t.isNode = true) (hs : t.size ≤ Config.maxNodes) (h : H src (serTree t ++ rest)) :
    ∃ src', parseTree p m src = .ok (t.renumber 0, src') ∧ H src' rest ∧ src'.base = src.base ∧
      src'.len = src.len ∧ src'.pos = src.pos + (serTree t).length ∧ src'.nb = src.nb := by
  obtain ⟨src', h1, h2, h3, h4, h5, h6⟩ := hF.parseLoop_ser t hs (Nat.le_refl _) (fun _ => hn) h
  refine ⟨src', ?_, h1, h2, h3, h4, h5⟩
  rw [parseTree, h6]
  simp [closeSubtree]

/-! ### What a parse that succeeds has read -/

theorem SrcCh.Holds.readByte_ok {p : Params} {m : Memory} {ch ch' : SrcCh} {v : Byte} {l : List Byte}
    (h : ch.Holds p m l) (he : readByte p m ch = .ok (v, ch')) :
    ∃ l', l = v :: l' ∧ ch'.Holds p m l' ∧ ch'.len = ch.len ∧ ch'.base = ch.base := by
  cases l with
  | nil => rw [(feeds_holds p m).nil h] at he; simp at he
  | cons u l =>
    obtain ⟨c, hc, hh, hb, hl, -⟩ := (feeds_holds p m).readByte h
    rw [hc] at he
    simp only [Except.ok.injEq, Prod.mk.injEq] at he
    obtain ⟨rfl, rfl⟩ := he
    exact ⟨l, rfl, hh, hl, hb⟩

theorem SrcCh.Holds.readU64_ok {p : Params} {m : Memory} {ch ch' : SrcCh} {w : Dword} {l : List Byte}
    (h : ch.Holds p m l) (he : Machine.readU64 p m ch = .ok (w, ch')) :
    ∃ l', l = weightBytes w ++ l' ∧ ch'.Holds p m l' ∧ ch'.len = ch.len ∧ ch'.base = ch.base := by
  rcases Nat.lt_or_ge l.length 8 with h8 | h8
  · rw [Machine.readU64, (feeds_holds p m).readBigEndian_short 0 h h8] at he; simp at he
  · have hlen : (l.take 8).length = 8 := by simp; omega
    rw [← List.take_append_drop 8 l] at h
    obtain ⟨c, hc, hh, hb, hl, -⟩ := (feeds_holds p m).readBigEndian _ 0 h
    rw [hlen] at hc
    rw [Machine.readU64, hc] at he
    simp only [Except.ok.injEq, Prod.mk.injEq] at he
    obtain ⟨rfl, rfl⟩ := he
    exact ⟨l.drop 8, by rw [weightBytes_bigEndian hlen, List.take_append_drop], hh, hl, hb⟩

theorem SrcCh.Holds.srcByte_some {p : Params} {m : Memory} {ch ch' : SrcCh} {v : Byte} {l : List Byte}
    (h : ch.Holds p m l) (he : srcByte p m ch = .ok (some v, ch')) :
    ∃ l', l = v :: l' ∧ ch'.Holds p m l' ∧ ch'.len = ch.len ∧ ch'.base = ch.base := by
  refine h.readByte_ok (v := v) ?_
  simp [readByte, he]

/-- A parse that succeeds has read the serialized form of the tree it gives (R215, R105). -/
theorem parseLoop_sound {p : Params} {m : Memory} {room : Nat} {st : List Pending} {src src' : SrcCh} {T : Tree}
    {l : List Byte} (h : src.Holds p m l) (he : parseLoop p m room st src = .ok (T, src')) :
    ∃ l1 l2, l = l1 ++ l2 ∧ stackOf Pending.bytes st ++ l1 = serTree T ∧ src'.Holds p m l2 ∧
      src'.len = src.len ∧ src'.base = src.base := by
  induction room generalizing st src l with
  | zero =>
    unfold parseLoop at he
    split at he <;> try simp at he
  | succ room ih =>
    unfold parseLoop at he
    split at he <;> try simp at he
    next tag c1 hc1 =>
    obtain ⟨l1, rfl, h1, hl1, hb1⟩ := h.srcByte_some hc1
    split at he
    · simp at he
    split at he
    · simp at he
    next htag hroot =>
    split at he
    · next hleaf =>
      subst hleaf
      split at he <;> try simp at he
      next s c2 hc2 =>
      obtain ⟨l2, rfl, h2, hl2, hb2⟩ := h1.readByte_ok hc2
      split at he <;> try simp at he
      next w c3 hc3 =>
      obtain ⟨l3, rfl, h3, hl3, hb3⟩ := h2.readU64_ok hc3
      split at he
      · next t hc =>
        simp only [Except.ok.injEq, Prod.mk.injEq] at he
        obtain ⟨rfl, rfl⟩ := he
        refine ⟨leafTag :: s :: weightBytes w, l3, by simp, ?_, h3, by rw [hl3, hl2, hl1], by rw [hb3, hb2, hb1]⟩
        rw [(closeSubtree_inl hc).2.1]
        simp [serTree]
      · next st' hc =>
        obtain ⟨m1, m2, rfl, hs, hh, hl, hb⟩ := ih h3 he
        refine ⟨leafTag :: s :: (weightBytes w ++ m1), m2, by simp, ?_, hh, by rw [hl, hl3, hl2, hl1], by rw [hb, hb3, hb2, hb1]⟩
        rw [← hs, (closeSubtree_inr hc).2.1]
        simp [serTree]
    · next hnl =>
      have hnode : tag = nodeTag := by simpa [hnl] using htag
      subst hnode
      split at he <;> try simp at he
      next w c3 hc3 =>
      obtain ⟨l3, rfl, h3, hl3, hb3⟩ := h1.readU64_ok hc3
      obtain ⟨m1, m2, rfl, hs, hh, hl, hb⟩ := ih h3 he
      refine ⟨nodeTag :: (weightBytes w ++ m1), m2, by simp, ?_, hh, by rw [hl, hl3, hl1], by rw [hb, hb3, hb1]⟩
      rw [← hs, stackOf_cons]
      simp [Pending.bytes]

/-- TREE_DESER's parse succeeds only on a source that starts with a serialized tree (R105, R215). -/
theorem parseTree_sound {p : Params} {m : Memory} {src src' : SrcCh} {T : Tree} {l : List Byte}
    (h : src.Holds p m l) (he : parseTree p m src = .ok (T, src')) :
    ∃ l2, l = serTree T ++ l2 ∧ src'.Holds p m l2 ∧ src'.len = src.len ∧ src'.base = src.base := by
  obtain ⟨l1, l2, rfl, hs, hh, hl, hb⟩ := parseLoop_sound h he
  exact ⟨l2, by rw [← hs]; simp [stackOf], hh, hl, hb⟩

/-! ### Without bus errors, every error of a parse is E_CORRUPT -/

theorem SrcCh.Holds.srcByte_error {p : Params} {m : Memory} {ch : SrcCh} {l : List Byte} {r : Raise}
    (h : ch.Holds p m l) : Machine.srcByte p m ch ≠ .error r := by
  cases l with
  | nil => obtain ⟨c, he, -⟩ := h.srcByte_nil; simp [he]
  | cons v l => obtain ⟨c, he, -⟩ := h.srcByte_cons; simp [he]

theorem SrcCh.Holds.readByte_error {p : Params} {m : Memory} {ch : SrcCh} {l : List Byte} {r : Raise}
    (h : ch.Holds p m l) (he : readByte p m ch = .error r) : r.kind = .corrupt := by
  cases l with
  | nil => rw [(feeds_holds p m).nil h] at he; cases he; rfl
  | cons v l => obtain ⟨c, hc, -⟩ := (feeds_holds p m).readByte h; rw [hc] at he; simp at he

theorem SrcCh.Holds.readU64_error {p : Params} {m : Memory} {ch : SrcCh} {l : List Byte} {r : Raise}
    (h : ch.Holds p m l) (he : Machine.readU64 p m ch = .error r) : r.kind = .corrupt := by
  rcases Nat.lt_or_ge l.length 8 with h8 | h8
  · rw [Machine.readU64, (feeds_holds p m).readBigEndian_short 0 h h8] at he; cases he; rfl
  · have hlen : (l.take 8).length = 8 := by simp; omega
    rw [← List.take_append_drop 8 l] at h
    obtain ⟨c, hc, -⟩ := (feeds_holds p m).readBigEndian _ 0 h
    rw [hlen] at hc
    rw [Machine.readU64, hc] at he
    simp at he

theorem parseLoop_error {p : Params} {m : Memory} {room : Nat} {st : List Pending} {src : SrcCh} {l : List Byte}
    {r : Raise} (h : src.Holds p m l) (he : parseLoop p m room st src = .error r) : r.kind = .corrupt := by
  induction room generalizing st src l with
  | zero =>
    unfold parseLoop at he
    simp only at he
    split at he
    · next r' hr' => exact absurd hr' h.srcByte_error
    · cases he; rfl
    · split at he
      · cases he; rfl
      split at he <;> cases he <;> rfl
  | succ room ih =>
    unfold parseLoop at he
    simp only at he
    split at he
    · next r' hr' => exact absurd hr' h.srcByte_error
    · cases he; rfl
    next tag c1 hc1 =>
    obtain ⟨l1, rfl, h1, -, -⟩ := h.srcByte_some hc1
    split at he
    · cases he; rfl
    split at he
    · cases he; rfl
    split at he
    · split at he
      · next r' hr' => cases he; exact h1.readByte_error hr'
      next s c2 hc2 =>
      obtain ⟨l2, rfl, h2, -, -⟩ := h1.readByte_ok hc2
      split at he
      · next r' hr' => cases he; exact h2.readU64_error hr'
      next w c3 hc3 =>
      obtain ⟨l3, rfl, h3, -, -⟩ := h2.readU64_ok hc3
      split at he
      · simp at he
      · exact ih h3 he
    · split at he
      · next r' hr' => cases he; exact h1.readU64_error hr'
      next w c3 hc3 =>
      obtain ⟨l3, rfl, h3, -, -⟩ := h1.readU64_ok hc3
      exact ih h3 he

end Sys2Proof.Machine
end

