-- ==== Sys2Proof/Laws/CountLine.lean ====
section
/-! SUPPORT. The bit-count line: Dec and its value (30_encoding.md R112, R114) and every way ParseCount
ends (43_framer.md R230). -/

namespace Sys2Proof.Machine

/-- The value of a number continued by digit bytes. -/
def valueFrom (n : Nat) (ds : List Byte) : Nat := ds.foldl (fun n v => 10 * n + (v.toNat - 0x30)) n

theorem decimalValue_eq (ds : List Byte) : decimalValue ds = valueFrom 0 ds := by
  simp only [decimalValue, valueFrom]

@[simp] theorem valueFrom_nil (n : Nat) : valueFrom n [] = n := by simp only [valueFrom, List.foldl_nil]

theorem valueFrom_cons (n : Nat) (v : Byte) (ds : List Byte) :
    valueFrom n (v :: ds) = valueFrom (10 * n + (v.toNat - 0x30)) ds := by
  simp only [valueFrom, List.foldl_cons]

theorem valueFrom_append (n : Nat) (ds es : List Byte) :
    valueFrom n (ds ++ es) = valueFrom (valueFrom n ds) es := by simp [valueFrom]

theorem le_valueFrom (n : Nat) (ds : List Byte) : n ≤ valueFrom n ds := by
  induction ds generalizing n with
  | nil => exact Nat.le_refl _
  | cons v ds ih => rw [valueFrom_cons]; exact Nat.le_trans (by omega) (ih _)

/-! ### Dec -/

theorem digit_toNat {d : Nat} (h : d < 10) : (BitVec.ofNat 8 (0x30 + d)).toNat = 0x30 + d := by
  rw [BitVec.toNat_ofNat]; omega

theorem digit_isDigit {d : Nat} (h : d < 10) : isDigit (BitVec.ofNat 8 (0x30 + d)) = true := by
  unfold isDigit; rw [digit_toNat h]; simp; omega

theorem decDigits_digits (k n : Nat) : ∀ v ∈ decDigits k n, isDigit v = true := by
  induction k generalizing n with
  | zero => simp [decDigits]
  | succ k ih =>
    unfold decDigits
    split
    · next h => simpa using digit_isDigit h
    · intro v hv
      rcases List.mem_append.1 hv with hv | hv
      · exact ih _ v hv
      · rw [List.mem_singleton.1 hv]; exact digit_isDigit (Nat.mod_lt _ (by omega))

theorem decDigits_value (k n : Nat) (h : n < 10 ^ k) (hk : 0 < k) : decimalValue (decDigits k n) = n := by
  induction k generalizing n with
  | zero => omega
  | succ k ih =>
    unfold decDigits
    split
    · next h10 => simp [decimalValue_eq, valueFrom_cons, digit_toNat h10]
    · next h10 =>
      have hm : n % 10 < 10 := Nat.mod_lt _ (by omega)
      have hk : 0 < k := by
        rcases Nat.eq_zero_or_pos k with h0 | h0
        · subst h0; omega
        · exact h0
      have := ih (n / 10) (by rw [Nat.pow_succ] at h; omega) hk
      rw [decimalValue_eq] at this ⊢
      rw [valueFrom_append, this, valueFrom_cons, digit_toNat hm, valueFrom_nil]
      omega

theorem decDigits_ne_nil (k n : Nat) (hk : 0 < k) : decDigits k n ≠ [] := by
  obtain ⟨k, rfl⟩ : ∃ j, k = j + 1 := ⟨k - 1, by omega⟩
  unfold decDigits
  split <;> simp

theorem length_decDigits_le (k n : Nat) : (decDigits k n).length ≤ k := by
  induction k generalizing n with
  | zero => simp [decDigits]
  | succ k ih => unfold decDigits; split <;> [simp; (have := ih (n / 10); simp; omega)]

/-- No leading zero, but for the one digit of 0 (R112). -/
theorem decDigits_head (k n : Nat) (h : n < 10 ^ k) (hn : 0 < n) : (decDigits k n).head? ≠ some 0x30#8 := by
  induction k generalizing n with
  | zero => simp at h; omega
  | succ k ih =>
    unfold decDigits
    split
    · next h10 =>
      simp only [List.head?_cons, ne_eq, Option.some.injEq]
      intro e
      have := congrArg BitVec.toNat e
      rw [digit_toNat h10] at this
      simp at this; omega
    · next h10 =>
      have hk : 0 < k := by
        rcases Nat.eq_zero_or_pos k with h0 | h0
        · subst h0; omega
        · exact h0
      have h1 := ih (n / 10) (by rw [Nat.pow_succ] at h; omega) (by omega)
      have h2 := decDigits_ne_nil k (n / 10) hk
      cases hd : decDigits k (n / 10) with
      | nil => exact absurd hd h2
      | cons v vs => rw [hd] at h1; simpa using h1

theorem dec_digits (n : Nat) : ∀ v ∈ dec n, isDigit v = true := decDigits_digits 20 n

theorem decimalValue_dec {n : Nat} (h : n < 10 ^ 20) : decimalValue (dec n) = n :=
  decDigits_value 20 n h (by omega)

theorem dec_ne_nil (n : Nat) : dec n ≠ [] := decDigits_ne_nil 20 n (by omega)

/-! ### ParseCount -/

theorem isDigit_iff (v : Byte) : isDigit v = true ↔ ¬(v.toNat < 0x30 ∨ 0x39 < v.toNat) := by
  simp [isDigit]

theorem newline_not_digit {v : Byte} (h : isDigit v = true) : v ≠ newline := by
  rintro rfl; exact absurd h (by decide)

section
variable {p : Params} {m : Memory} {H : SrcCh → List Byte → Prop} {e : Nat → Nat → Raise}

/-- The digits before the byte that decides are read one by one (R230). -/
theorem Feeds.countDigits_digits (hF : Feeds p m H e) (ds : List Byte) {left n d : Nat} {src : SrcCh}
    {rest : List Byte} (h : H src (ds ++ rest)) (hds : ∀ v ∈ ds, isDigit v = true)
    (hleft : ds.length ≤ left) (hv : valueFrom n ds ≤ 2 ^ 64 - 1) :
    ∃ src', countDigits p m left n d src =
        countDigits p m (left - ds.length) (valueFrom n ds) (d + ds.length) src' ∧
      H src' rest ∧ src'.base = src.base ∧ src'.len = src.len ∧ src'.pos = src.pos + ds.length ∧
      src'.nb = src.nb := by
  induction ds generalizing left n d src with
  | nil => exact ⟨src, rfl, h, rfl, rfl, rfl, rfl⟩
  | cons v ds ih =>
    obtain ⟨left, rfl⟩ : ∃ k, left = k + 1 := ⟨left - 1, by simp at hleft; omega⟩
    obtain ⟨c1, he1, h1, hb1, hl1, hp1, hn1⟩ := hF.cons h
    have hdv := hds v (by simp)
    rw [valueFrom_cons] at hv
    have hle := le_valueFrom (10 * n + (v.toNat - 0x30)) ds
    obtain ⟨c2, he2, h2, hb2, hl2, hp2, hn2⟩ := ih (left := left) (n := 10 * n + (v.toNat - 0x30)) (d := d + 1)
      h1 (fun u hu => hds u (by simp [hu])) (by simpa using hleft) hv
    refine ⟨c2, ?_, h2, by rw [hb2, hb1], by rw [hl2, hl1], ?_, by rw [hn2, hn1]⟩
    · simp only [countDigits, he1, newline_not_digit hdv, false_and, if_false, if_neg ((isDigit_iff v).1 hdv)]
      rw [if_neg (by omega), he2, valueFrom_cons]
      simp only [List.length_cons]
      congr 1 <;> omega
    · rw [hp2, hp1]; simp; omega

/-- R114: the digits and then the newline are accepted. -/
theorem Feeds.countDigits_line (hF : Feeds p m H e) (ds : List Byte) {left : Nat} {src : SrcCh}
    {rest : List Byte} (h : H src (ds ++ newline :: rest)) (hds : ∀ v ∈ ds, isDigit v = true)
    (hne : ds ≠ []) (hleft : ds.length < left) (hv : decimalValue ds ≤ 2 ^ 64 - 1) :
    ∃ src', countDigits p m left 0 0 src = .ok (decimalValue ds, src') ∧ H src' rest ∧
      src'.base = src.base ∧ src'.len = src.len ∧ src'.pos = src.pos + ds.length + 1 ∧ src'.nb = src.nb := by
  obtain ⟨c1, he1, h1, hb1, hl1, hp1, hn1⟩ := hF.countDigits_digits (left := left) (d := 0) ds h hds (by omega) hv
  obtain ⟨c2, he2, h2, hb2, hl2, hp2, hn2⟩ := hF.cons h1
  have hpos : 0 < 0 + ds.length := by have := List.length_pos_of_ne_nil hne; omega
  refine ⟨c2, ?_, h2, by rw [hb2, hb1], by rw [hl2, hl1], by rw [hp2, hp1], by rw [hn2, hn1]⟩
  rw [he1]
  obtain ⟨k, hk⟩ : ∃ k, left - ds.length = k + 1 := ⟨left - ds.length - 1, by omega⟩
  rw [hk, countDigits]
  simp only [he2, true_and, if_pos hpos]
  rfl

/-- A source that ends among the digits raises the error its bytes end with (R230). -/
theorem Feeds.countDigits_short (hF : Feeds p m H e) (ds : List Byte) {src : SrcCh}
    (h : H src ds) (hds : ∀ v ∈ ds, isDigit v = true) (hv : decimalValue ds ≤ 2 ^ 64 - 1) :
    countDigits p m (src.len - src.pos) 0 0 src = .error (e src.base src.len) := by
  have hw := hF.within h
  obtain ⟨c1, he1, h1, hb1, hl1, hp1, hn1⟩ :=
    hF.countDigits_digits (left := src.len - src.pos) (d := 0) (rest := []) ds (by simpa using h) hds (by omega) hv
  rw [he1, ← hb1, ← hl1]
  cases hk : c1.len - src.pos - ds.length with
  | zero => rw [countDigits, hF.atEnd h1 (by omega)]
  | succ k =>
    have := hF.nil h1
    unfold Machine.readByte at this
    unfold countDigits
    split at this <;> simp_all

/-- A byte that is neither a digit nor the newline after one, or a digit that takes the value past
2^64 - 1, raises E_CORRUPT at its offset (R230). -/
theorem Feeds.countDigits_bad (hF : Feeds p m H e) (ds : List Byte) {left : Nat} {src : SrcCh} {v : Byte}
    {rest : List Byte} (h : H src (ds ++ v :: rest)) (hds : ∀ v ∈ ds, isDigit v = true)
    (hleft : ds.length < left) (hv : decimalValue ds ≤ 2 ^ 64 - 1)
    (hbad : (isDigit v = false ∧ (v = newline → ds = [])) ∨
      (isDigit v = true ∧ 2 ^ 64 - 1 < decimalValue (ds ++ [v]))) :
    countDigits p m left 0 0 src = .error (raise .corrupt (src.pos + ds.length)) := by
  obtain ⟨c1, he1, h1, hb1, hl1, hp1, hn1⟩ := hF.countDigits_digits (left := left) (d := 0) ds h hds (by omega) hv
  obtain ⟨c2, he2, -⟩ := hF.cons h1
  rw [he1]
  obtain ⟨k, hk⟩ : ∃ k, left - ds.length = k + 1 := ⟨left - ds.length - 1, by omega⟩
  rw [hk, countDigits]
  simp only [he2]
  rcases hbad with ⟨hd, hn⟩ | ⟨hd, hbig⟩
  · have h1 : ¬(v = newline ∧ 0 < 0 + ds.length) := fun ⟨h1, h2⟩ => by simp [hn h1] at h2
    have h2 : v.toNat < 0x30 ∨ 0x39 < v.toNat := by
      by_contra hc
      rw [← isDigit_iff] at hc
      simp [hc] at hd
    rw [if_neg h1, if_pos h2, hp1]
  · have h1 : ¬(v = newline ∧ 0 < 0 + ds.length) := fun ⟨h1, h2⟩ => newline_not_digit hd h1
    rw [if_neg h1, if_neg ((isDigit_iff v).1 hd), if_pos ?_, hp1]
    rw [decimalValue_eq, valueFrom_append, valueFrom_cons, valueFrom_nil] at hbig
    exact hbig

/-- The whole line: the delimiter after the tree, the digits, the delimiter after them (R230, R111). -/
theorem Feeds.parseCount_line (hF : Feeds p m H e) (ds : List Byte) {src : SrcCh} {rest : List Byte}
    (h : H src (newline :: (ds ++ newline :: rest))) (hds : ∀ v ∈ ds, isDigit v = true) (hne : ds ≠ [])
    (hv : decimalValue ds ≤ 2 ^ 64 - 1) :
    ∃ src', parseCount p m src = .ok (decimalValue ds, src') ∧ H src' rest ∧ src'.base = src.base ∧
      src'.len = src.len ∧ src'.pos = src.pos + ds.length + 2 ∧ src'.nb = src.nb := by
  obtain ⟨c1, he1, h1, hb1, hl1, hp1, hn1⟩ := hF.cons h
  have hlen := hF.within h1
  obtain ⟨c2, he2, h2, hb2, hl2, hp2, hn2⟩ := hF.countDigits_line (left := c1.len - c1.pos) ds h1 hds hne
    (by simp at hlen; omega) hv
  refine ⟨c2, ?_, h2, by rw [hb2, hb1], by rw [hl2, hl1], by rw [hp2, hp1]; omega, by rw [hn2, hn1]⟩
  rw [parseCount]
  simp only [he1, ne_eq, not_true_eq_false, if_false]
  exact he2

/-- A source that ends before the line does raises the error its bytes end with (R230). -/
theorem Feeds.parseCount_short (hF : Feeds p m H e) {src : SrcCh} {l : List Byte} (h : H src l)
    (hl : l = [] ∨ ∃ ds, l = newline :: ds ∧ (∀ v ∈ ds, isDigit v = true) ∧ decimalValue ds ≤ 2 ^ 64 - 1) :
    parseCount p m src = .error (e src.base src.len) := by
  unfold parseCount
  rcases hl with rfl | ⟨ds, rfl, hds, hv⟩
  · have := hF.nil h
    unfold Machine.readByte at this
    split at this <;> simp_all
  · obtain ⟨c1, he1, h1, hb1, hl1, -⟩ := hF.cons h
    simp only [he1, ne_eq, not_true_eq_false, if_false]
    rw [hF.countDigits_short ds h1 hds hv, hb1, hl1]

end

theorem countDigits_cases (p : Params) (m : Memory) (left n d : Nat) (src : SrcCh) :
    (∃ r, countDigits p m left n d src = .error r ∧ (r.kind = .io ∨ r.kind = .corrupt)) ∨
    (∃ bc src', countDigits p m left n d src = .ok (bc, src')) := by
  induction left generalizing n d src with
  | zero => exact .inl ⟨_, rfl, .inr rfl⟩
  | succ left ih =>
    unfold countDigits
    rcases srcByte_cases p m src with ⟨r, he, h⟩ | ⟨v, ch', he, -⟩
    · exact .inl ⟨r, by simp [he], .inl h⟩
    cases v with
    | none => exact .inl ⟨_, by simp [he]; rfl, .inr rfl⟩
    | some v =>
      simp only [he]
      split
      · exact .inr ⟨_, _, rfl⟩
      split
      · exact .inl ⟨_, rfl, .inr rfl⟩
      split
      · exact .inl ⟨_, rfl, .inr rfl⟩
      · exact ih _ _ _

/-- Every way ParseCount ends, whatever the bus. -/
theorem parseCount_cases (p : Params) (m : Memory) (src : SrcCh) :
    (∃ r, parseCount p m src = .error r ∧ (r.kind = .io ∨ r.kind = .corrupt)) ∨
    (∃ bc src', parseCount p m src = .ok (bc, src')) := by
  unfold parseCount
  rcases srcByte_cases p m src with ⟨r, he, h⟩ | ⟨v, ch', he, -⟩
  · exact .inl ⟨r, by simp [he], .inl h⟩
  cases v with
  | none => exact .inl ⟨_, by simp [he]; rfl, .inr rfl⟩
  | some v =>
    simp only [he]
    split
    · exact .inl ⟨_, rfl, .inr rfl⟩
    · exact countDigits_cases _ _ _ _ _ _

theorem countDigits_sound {p : Params} {m : Memory} {left n d bc : Nat} {src src' : SrcCh} {l : List Byte}
    (h : src.Holds p m l) (hn : n ≤ 2 ^ 64 - 1) (he : countDigits p m left n d src = .ok (bc, src')) :
    ∃ ds rest, l = ds ++ newline :: rest ∧ (∀ v ∈ ds, isDigit v = true) ∧ 0 < d + ds.length ∧
      bc = valueFrom n ds ∧ bc ≤ 2 ^ 64 - 1 ∧ src'.Holds p m rest := by
  induction left generalizing n d src l with
  | zero => simp [countDigits] at he
  | succ left ih =>
    unfold countDigits at he
    simp only at he
    split at he <;> try simp at he
    next v c1 hc1 =>
    obtain ⟨l1, rfl, h1, hl1, hb1⟩ := h.srcByte_some hc1
    split at he
    · next hv =>
      simp only [Except.ok.injEq, Prod.mk.injEq] at he
      obtain ⟨rfl, rfl⟩ := he
      exact ⟨[], l1, by rw [hv.1]; rfl, by simp, by simpa using hv.2, rfl, hn, h1⟩
    split at he
    · simp at he
    next hd =>
    split at he
    · simp at he
    next hbig =>
    obtain ⟨ds, rest, rfl, hds, -, hbc, hle, hh⟩ := ih h1 (by omega) he
    refine ⟨v :: ds, rest, rfl, fun u hu => ?_, by simp, hbc, hle, hh⟩
    rcases List.mem_cons.1 hu with rfl | hu
    · exact (isDigit_iff u).2 hd
    · exact hds u hu

/-- ParseCount accepts exactly the lines of R114. -/
theorem parseCount_sound {p : Params} {m : Memory} {bc : Nat} {src src' : SrcCh} {l : List Byte}
    (h : src.Holds p m l) (he : parseCount p m src = .ok (bc, src')) :
    ∃ ds rest, l = newline :: (ds ++ newline :: rest) ∧ (∀ v ∈ ds, isDigit v = true) ∧ ds ≠ [] ∧
      bc = decimalValue ds ∧ bc ≤ 2 ^ 64 - 1 ∧ src'.Holds p m rest := by
  unfold parseCount at he
  simp only at he
  split at he <;> try simp at he
  next v c1 hc1 =>
  obtain ⟨l1, rfl, h1, hl1, hb1⟩ := h.srcByte_some hc1
  split at he <;> try simp at he
  next hv =>
  have hv : v = newline := by simpa using hv
  subst hv
  obtain ⟨ds, rest, rfl, hds, hlen, hbc, hle, hh⟩ := countDigits_sound h1 (by omega) he
  exact ⟨ds, rest, rfl, hds, by rintro rfl; simp at hlen, hbc, hle, hh⟩

end Sys2Proof.Machine
end

