-- ==== Sys2Proof/Laws/Reading.lean ====
section
/-! SUPPORT. What a source channel gives whatever the bus does: byte after byte of its region, and an
E_IO of the first bus error of a block before any byte of that block (41_bitstream.md R152, R153, R155). -/

namespace Sys2Proof.Machine

/-- The channel stands between two calls: its buffer holds the bytes of its region from `pos` on, and
whole blocks have been fetched. -/
structure SrcCh.Aligned (p : Params) (m : Memory) (ch : SrcCh) : Prop where
  buf : ch.buf = m.bytes (ch.base + ch.pos) ch.buf.length
  off : ch.pos + ch.buf.length = ch.off
  le : ch.off ≤ ch.len
  whole : ch.off % p.brBlock = 0 ∨ ch.off = ch.len
  readable : Readable p ch.base ch.off

theorem srcOpen_aligned (p : Params) (m : Memory) (base len : Nat) : (srcOpen base len).Aligned p m :=
  ⟨rfl, rfl, Nat.zero_le _, .inl (by simp [srcOpen]), fun j hj => by simp [srcOpen] at hj⟩

theorem SrcCh.Aligned.congr {p : Params} {m m' : Memory} {ch : SrcCh} (h : ch.Aligned p m)
    (hm : ∀ j, j < ch.len → m'.read (ch.base + j) = m.read (ch.base + j)) : ch.Aligned p m' where
  buf := by
    rw [Memory.bytes_congr (m := m) fun j hj => ?_]
    · exact h.buf
    · rw [Nat.add_assoc]; exact hm _ (by have := h.off; have := h.le; omega)
  off := h.off
  le := h.le
  whole := h.whole
  readable := h.readable

theorem fetchBlock_eq_ok {p : Params} {m : Memory} {a k : Nat} {vs : List Byte}
    (h : fetchBlock p m a k = .ok vs) : vs = m.bytes a k ∧ Readable p a k := by
  induction k generalizing a vs with
  | zero => simp [fetchBlock] at h; exact ⟨by subst h; rfl, fun j hj => by omega⟩
  | succ k ih =>
    unfold fetchBlock memRead at h
    by_cases hb : busErrRd p a = true
    · simp [hb] at h
    · simp only [hb, Bool.false_eq_true, if_false] at h
      split at h
      · simp at h
      · next ws hw =>
        obtain ⟨rfl, hr⟩ := ih hw
        simp only [Except.ok.injEq] at h
        refine ⟨by rw [← h]; rfl, fun j hj => ?_⟩
        cases j with
        | zero => simpa using hb
        | succ j => have := hr j (by omega); rwa [Nat.add_right_comm, Nat.add_assoc] at this

/-- The read error of a block: the first bus error of the region, at an offset `j` in the block that
starts at `pos` (R152, R155). -/
def ReadFail (p : Params) (base len pos : Nat) (r : Raise) : Prop :=
  ∃ j, pos ≤ j ∧ j < len ∧ j < pos + p.brBlock ∧ pos % p.brBlock = 0 ∧ busErrRd p (base + j) = true ∧
    Readable p base j ∧ r = raise .io (base + j)

/-- The block that holds the byte at offset `k` has been fetched without an error (R152, R155). -/
def Fetched (p : Params) (base len k : Nat) : Prop :=
  ∃ e, k < e ∧ (e % p.brBlock = 0 ∨ e = len) ∧ Readable p base e

/-- SrcByte, every way it ends (R153): the next byte of the region, END at its end, or the error of a
block. -/
theorem SrcCh.Aligned.srcByte {p : Params} {m : Memory} {ch : SrcCh} (h : ch.Aligned p m) :
    (∃ r, srcByte p m ch = .error r ∧ ReadFail p ch.base ch.len ch.pos r) ∨
    (ch.pos = ch.len ∧ ∃ ch', srcByte p m ch = .ok (none, ch') ∧ ch'.len = ch.len) ∨
    (ch.pos < ch.len ∧ ∃ ch', srcByte p m ch = .ok (some (m.read (ch.base + ch.pos)), ch') ∧ ch'.Aligned p m ∧
      ch'.base = ch.base ∧ ch'.len = ch.len ∧ ch'.pos = ch.pos + 1 ∧ ch'.cur = ch.cur ∧ ch'.nb = ch.nb) := by
  obtain ⟨hbuf, hoff, hle, hw, hrd⟩ := h
  unfold Machine.srcByte
  split
  · next v vs hb =>
    rw [hb] at hbuf hoff
    simp only [List.length_cons, Memory.bytes_succ, List.cons.injEq] at hbuf hoff
    obtain ⟨rfl, hvs⟩ := hbuf
    refine .inr (.inr ⟨by omega, _, rfl, ⟨?_, by simp; omega, hle, hw, hrd⟩, rfl, rfl, rfl, rfl, rfl⟩)
    rw [show ch.base + (ch.pos + 1) = ch.base + ch.pos + 1 by omega]
    exact hvs
  · next hb =>
    rw [hb] at hoff
    simp only [List.length_nil, Nat.add_zero] at hoff
    unfold refill
    simp only
    cases hf : fetchBlock p m (ch.base + ch.off) (min p.brBlock (ch.len - ch.off)) with
    | error r =>
      obtain ⟨j, hj, hbj, hlt, hr⟩ := fetchBlock_error hf
      refine .inl ⟨r, rfl, ch.off + j, by omega, by omega, by omega, ?_, by rwa [← Nat.add_assoc], fun i h2 => ?_, ?_⟩
      · rcases hw with hw | hw
        · rw [hoff]; exact hw
        · omega
      · rcases Nat.lt_or_ge i ch.off with h1 | h1
        · exact hrd i h1
        have := hlt (i - ch.off) (by omega)
        rwa [show ch.base + ch.off + (i - ch.off) = ch.base + i by omega] at this
      · rw [hr, Nat.add_assoc]
    | ok vs =>
      obtain ⟨rfl, hrd2⟩ := fetchBlock_eq_ok hf
      simp only
      have hB : 0 < p.brBlock := by simp [Params.brBlock]
      cases hk : min p.brBlock (ch.len - ch.off) with
      | zero => exact .inr (.inl ⟨by omega, _, rfl, rfl⟩)
      | succ k =>
        refine .inr (.inr ⟨by omega, { ch with buf := m.bytes (ch.base + ch.off + 1) k, off := ch.off + (k + 1), pos := ch.pos + 1 },
          ?_, ⟨?_, ?_, ?_, ?_, ?_⟩, rfl, rfl, rfl, rfl, rfl⟩)
        · simp only [Memory.bytes_succ]; rw [hoff]
        · simp only [Memory.length_bytes]; rw [← hoff]; congr 1
        · simp only [Memory.length_bytes]; omega
        · simp only; omega
        · simp only
          rcases Nat.le_total p.brBlock (ch.len - ch.off) with hc | hc
          · left
            rcases hw with hw | hw
            · rw [show k + 1 = p.brBlock by omega]; simpa using hw
            · omega
          · right; omega
        · intro i hi
          simp only at hi ⊢
          rcases Nat.lt_or_ge i ch.off with h1 | h1
          · exact hrd i h1
          · have := hrd2 (i - ch.off) (by omega)
            rwa [show ch.base + ch.off + (i - ch.off) = ch.base + i by omega] at this

theorem ReadFail.io {p : Params} {base len pos : Nat} {r : Raise} (h : ReadFail p base len pos r) :
    r.kind = .io := by
  obtain ⟨j, -, -, -, -, -, -, rfl⟩ := h; rfl

/-- SrcByte on a memory that agrees with `m0` on the channel's region. -/
theorem SrcCh.Aligned.next {p : Params} {m0 m : Memory} {ch : SrcCh} (h : ch.Aligned p m0)
    (hm : ∀ j, j < ch.len → m.read (ch.base + j) = m0.read (ch.base + j)) :
    (∃ r, Machine.srcByte p m ch = .error r ∧ ReadFail p ch.base ch.len ch.pos r) ∨
    (ch.pos = ch.len ∧ ∃ ch', Machine.srcByte p m ch = .ok (none, ch') ∧ ch'.len = ch.len) ∨
    (ch.pos < ch.len ∧ ∃ ch', Machine.srcByte p m ch = .ok (some (m0.read (ch.base + ch.pos)), ch') ∧
      ch'.Aligned p m0 ∧ ch'.base = ch.base ∧ ch'.len = ch.len ∧ ch'.pos = ch.pos + 1) := by
  rcases (h.congr hm).srcByte with h1 | h1 | ⟨h1, ch', h2, h3, h4, h5, h6, -⟩
  · exact .inl h1
  · exact .inr (.inl h1)
  · refine .inr (.inr ⟨h1, ch', by rw [h2, hm _ h1], h3.congr fun j hj => ?_, h4, h5, h6⟩)
    rw [h4]; exact (hm j (h5 ▸ hj)).symm

/-! ### Counting, whatever the bus -/

theorem tallyAll_append (c : Counters) (l l' : List Byte) :
    c.tallyAll (l ++ l') = (c.tallyAll l).tallyAll l' := by simp [Counters.tallyAll]

/-- Count from a channel at `pos` (R182, R183): it ends with every byte tallied, with E_OVERFLOW at the
first byte that finds a counter full, or with the E_IO of a block after the bytes before that block. -/
theorem countLoop_ends {p : Params} {m : Memory} (n : Nat) (i : Nat) {src : SrcCh} (c : Counters)
    (h : src.Aligned p m) (hn : src.pos + n = src.len) :
    (countLoop p m n i src c).Post
      (fun c' _ => c' = c.tallyAll (m.bytes (src.base + src.pos) n) ∧ Readable p src.base src.len ∧
        ∀ k, k < n → (c.tallyAll (m.bytes (src.base + src.pos) k)).full (m.read (src.base + src.pos + k)) = false)
      (fun c' r => ∃ k, k < n ∧ c' = c.tallyAll (m.bytes (src.base + src.pos) k) ∧
        (∀ j, j < k → (c.tallyAll (m.bytes (src.base + src.pos) j)).full (m.read (src.base + src.pos + j)) = false) ∧
        (ReadFail p src.base src.len (src.pos + k) r ∨
          (r = raise .overflow (i + k) ∧ c'.full (m.read (src.base + src.pos + k)) = true ∧
            Fetched p src.base src.len (src.pos + k)))) := by
  induction n generalizing i src c with
  | zero =>
    refine ⟨rfl, fun j hj => h.readable j ?_, fun k hk => by omega⟩
    have := h.off
    have := h.le
    omega
  | succ n ih =>
    unfold countLoop
    rcases h.srcByte with ⟨r, he, hr⟩ | ⟨h0, -⟩ | ⟨-, ch', he, ha, hb, hl, hp, -⟩
    · simp only [he, Res.post_raised]
      exact ⟨0, by omega, rfl, fun j hj => by omega, .inl (by simpa using hr)⟩
    · omega
    · simp only [he]
      split
      · next hf => exact ⟨0, by omega, rfl, fun j hj => by omega, .inr ⟨rfl, by simpa [Counters.tallyAll] using hf, ch'.off,
          by have := ha.off; omega, by rw [← hl]; exact ha.whole, by rw [← hb]; exact ha.readable⟩⟩
      · next hf =>
        have e : src.base + src.pos + 1 = ch'.base + ch'.pos := by rw [hb, hp]; omega
        have hstep : ∀ k, (c.tallyAll (m.bytes (src.base + src.pos) (k + 1))) =
            (c.tally (m.read (src.base + src.pos))).tallyAll (m.bytes (ch'.base + ch'.pos) k) := fun k => by
          rw [Memory.bytes_succ, e]; simp [Counters.tallyAll]
        have hread : ∀ k, src.base + src.pos + (k + 1) = ch'.base + ch'.pos + k := fun k => by omega
        have hfull : ∀ k, (∀ j, j < k → ((c.tally (m.read (src.base + src.pos))).tallyAll
              (m.bytes (ch'.base + ch'.pos) j)).full (m.read (ch'.base + ch'.pos + j)) = false) →
            ∀ j, j < k + 1 → (c.tallyAll (m.bytes (src.base + src.pos) j)).full
              (m.read (src.base + src.pos + j)) = false := fun k hk j hj => by
          cases j with
          | zero => simpa [Counters.tallyAll] using hf
          | succ j => rw [hstep, hread]; exact hk j (by omega)
        refine (ih (i + 1) (c.tally _) ha (by omega)).mono (fun c' _ h' => ⟨by rw [hstep]; exact h'.1, by rw [← hb, ← hl]; exact h'.2.1, hfull n h'.2.2⟩)
          fun c' r h' => ?_
        obtain ⟨k, hk, hc, hlt, hr⟩ := h'
        refine ⟨k + 1, by omega, by rw [hstep]; exact hc, hfull k hlt, ?_⟩
        rcases hr with hr | ⟨hr, hf', hr'⟩
        · left; rwa [hb, hl, hp, show src.pos + 1 + k = src.pos + (k + 1) by omega] at hr
        · right; exact ⟨by rw [hr]; congr 1; omega, by rw [hread]; exact hf',
            by rwa [hb, hl, hp, show src.pos + 1 + k = src.pos + (k + 1) by omega] at hr'⟩

/-! ### The counters as numbers -/

theorem lookup_tallyAll (c : Counters) (l : List Byte) (q : Byte) :
    lookup (c.tallyAll l).freq q = lookup c.freq q + BitVec.ofNat 32 (l.count q) := by
  induction l generalizing c with
  | nil => simp [Counters.tallyAll]
  | cons v l ih =>
    have : c.tallyAll (v :: l) = (c.tally v).tallyAll l := rfl
    rw [this, ih]
    simp only [Counters.tally]
    by_cases hq : q = v
    · subst hq
      rw [lookup_update_self, List.count_cons_self, BitVec.add_assoc, BitVec.ofNat_add, BitVec.add_comm (1 : Word)]
      rfl
    · rw [lookup_update_other _ _ hq, List.count_cons_of_ne (Ne.symm hq)]

theorem total_tallyAll (c : Counters) (l : List Byte) :
    (c.tallyAll l).total = c.total + BitVec.ofNat 32 l.length := by
  induction l generalizing c with
  | nil => simp [Counters.tallyAll]
  | cons v l ih =>
    have : c.tallyAll (v :: l) = (c.tally v).tallyAll l := rfl
    rw [this, ih]
    simp only [Counters.tally, List.length_cons]
    rw [BitVec.add_assoc, BitVec.ofNat_add, BitVec.add_comm (1 : Word)]
    rfl

end Sys2Proof.Machine
end

