-- ==== Sys2Proof/Laws/Fetching.lean ====
section
/-! SUPPORT. What the procedures do when a block fetch of their source channel meets a bus error: the bytes
of the blocks before it are processed, none of its own, and E_IO at the error's address ends the procedure
(41_bitstream.md R152, R155; 40_command.md R137). -/

namespace Sys2Proof.Machine

theorem blockStart_le (p : Params) (j : Nat) : blockStart p j ≤ j := Nat.div_mul_le_self _ _

/-- The channel has still to give the bytes `l`, and then the block that holds offset `j` is next, where the
first bus error of the region is. -/
structure SrcCh.Cut (p : Params) (m : Memory) (j : Nat) (ch : SrcCh) (l : List Byte) : Prop where
  aligned : ch.Aligned p m
  bytes : m.bytes (ch.base + ch.pos) l.length = l
  cut : ch.pos + l.length = blockStart p j
  bus : FirstBusError p ch.base ch.len j

theorem SrcCh.Cut.congr {p : Params} {m m' : Memory} {j : Nat} {ch : SrcCh} {l : List Byte} (h : ch.Cut p m j l)
    (hm : ∀ i, i < ch.len → m'.read (ch.base + i) = m.read (ch.base + i)) : ch.Cut p m' j l where
  aligned := h.aligned.congr hm
  bytes := by
    rw [Memory.bytes_congr (m := m) fun i hi => ?_]
    · exact h.bytes
    · rw [Nat.add_assoc]
      exact hm _ (by have := h.cut; have := h.bus.lt; have := blockStart_le p j; omega)
  cut := h.cut
  bus := h.bus

/-- A channel just opened on a region with a bus error. -/
theorem srcOpen_cut {p : Params} {base len j : Nat} (m : Memory) (h : FirstBusError p base len j) :
    (srcOpen base len).Cut p m j (m.bytes base (blockStart p j)) :=
  ⟨srcOpen_aligned _ _ _ _, by simp [srcOpen], by simp [srcOpen], h⟩

/-- SrcByte before the block of the bus error gives the next byte (R153). -/
theorem SrcCh.Cut.srcByte_cons {p : Params} {m : Memory} {j : Nat} {ch : SrcCh} {v : Byte} {l : List Byte}
    (h : ch.Cut p m j (v :: l)) :
    ∃ ch', srcByte p m ch = .ok (some v, ch') ∧ ch'.Cut p m j l ∧ ch'.base = ch.base ∧ ch'.len = ch.len ∧
      ch'.pos = ch.pos + 1 ∧ ch'.cur = ch.cur ∧ ch'.nb = ch.nb := by
  obtain ⟨ha, hby, hc, hlt, hr, hb⟩ := h
  simp only [List.length_cons, Memory.bytes_succ, List.cons.injEq] at hby hc
  have hle := blockStart_le p j
  rcases ha.srcByte with ⟨r, -, i, h1, h2, h3, h4, h5, -, -⟩ | ⟨h1, -⟩ | ⟨-, ch', he, ha', hb', hl', hp', hcur, hnb⟩
  · exfalso
    have hji : j ≤ i := by
      by_contra hlt'
      have := hr i (by omega)
      rw [h5] at this; simp at this
    have hB : 0 < p.brBlock := by simp [Params.brBlock]
    have h6 : ch.pos / p.brBlock * p.brBlock = ch.pos := Nat.div_mul_cancel (Nat.dvd_of_mod_eq_zero h4)
    have h7 : j / p.brBlock ≤ ch.pos / p.brBlock := by
      refine Nat.le_of_lt_succ ((Nat.div_lt_iff_lt_mul hB).2 ?_)
      rw [Nat.succ_mul, h6]; omega
    have h8 := Nat.mul_le_mul_right p.brBlock h7
    rw [h6] at h8
    unfold blockStart at hc
    omega
  · omega
  · refine ⟨ch', by rw [he, hby.1], ⟨ha', ?_, by omega, by rw [hb', hl']; exact ⟨hlt, hr, hb⟩⟩,
      hb', hl', hp', hcur, hnb⟩
    rw [hb', hp', ← Nat.add_assoc]
    exact hby.2

/-- SrcByte at the block of the bus error raises E_IO at its address, and the channel gives none of that
block's bytes (R152). -/
theorem SrcCh.Cut.srcByte_nil {p : Params} {m : Memory} {j : Nat} {ch : SrcCh} (h : ch.Cut p m j []) :
    srcByte p m ch = .error (raise .io (ch.base + j)) := by
  obtain ⟨ha, -, hc, hlt, hr, hb⟩ := h
  simp only [List.length_nil, Nat.add_zero] at hc
  have hle := blockStart_le p j
  rcases ha.srcByte with ⟨r, he, i, h1, h2, h3, h4, h5, h6, rfl⟩ | ⟨h1, -⟩ | ⟨-, ch', he, ha', hb', hl', hp', -⟩
  · have : i = j := by
      rcases lt_trichotomy i j with h | h | h
      · have := hr i h; rw [h5] at this; simp at this
      · exact h
      · have := h6 j h; rw [hb] at this; simp at this
    rw [he, this]
  · omega
  · exfalso
    have hB : 0 < p.brBlock := by simp [Params.brBlock]
    have hoff := ha'.off
    have hjo : j < ch'.off := by
      rcases ha'.whole with hw | hw
      · have h10 : ch'.off / p.brBlock * p.brBlock = ch'.off := Nat.div_mul_cancel (Nat.dvd_of_mod_eq_zero hw)
        by_contra hcon
        have h11 := Nat.mul_le_mul_right p.brBlock (Nat.div_le_div_right (c := p.brBlock) (Nat.le_of_not_lt hcon))
        rw [h10] at h11
        unfold blockStart at hc
        omega
      · omega
    have := ha'.readable j hjo
    rw [hb', hb] at this; simp at this

/-- SrcByte on a memory that agrees with `m0` on the channel's region. -/
theorem SrcCh.Cut.next {p : Params} {m0 m : Memory} {j : Nat} {ch : SrcCh} {v : Byte} {l : List Byte}
    (h : ch.Cut p m0 j (v :: l)) (hm : ∀ i, i < ch.len → m.read (ch.base + i) = m0.read (ch.base + i)) :
    ∃ ch', srcByte p m ch = .ok (some v, ch') ∧ ch'.Cut p m0 j l ∧ ch'.base = ch.base ∧ ch'.len = ch.len := by
  obtain ⟨ch', he, hh, hb, hl, -⟩ := (h.congr hm).srcByte_cons
  exact ⟨ch', he, hh.congr fun i hi => by rw [hb]; exact (hm i (hl ▸ hi)).symm, hb, hl⟩

theorem feeds_cut (p : Params) (m : Memory) (j : Nat) :
    Feeds p m (fun ch l => ch.Cut p m j l) (fun base _ => raise .io (base + j)) where
  cons := fun h => by
    obtain ⟨ch', he, hh, hb, hl, hp, -, hn⟩ := h.srcByte_cons
    exact ⟨ch', he, hh, hb, hl, hp, hn⟩
  nil := fun h => by simp [readByte, h.srcByte_nil]
  within := fun h => by have := h.cut; have := h.bus.lt; have := blockStart_le p j; omega
  atEnd := fun h hp => by have := h.cut; have := h.bus.lt; have := blockStart_le p j; simp only [List.length_nil, Nat.add_zero] at *; omega

/-! ### Bits -/

/-- The channel has still to give the bits `bs`, and then meets the bus error at offset `j`. -/
structure SrcCh.CutBits (p : Params) (m : Memory) (j : Nat) (ch : SrcCh) (bs : List Bool) : Prop where
  nb_le : ch.nb ≤ 8
  bits : ∃ l, ch.Cut p m j l ∧ bs = ch.curBits ++ bitsOfBytes l

theorem SrcCh.CutBits.congr {p : Params} {m m' : Memory} {j : Nat} {ch : SrcCh} {bs : List Bool}
    (h : ch.CutBits p m j bs) (hm : ∀ i, i < ch.len → m'.read (ch.base + i) = m.read (ch.base + i)) :
    ch.CutBits p m' j bs := by
  obtain ⟨l, hl, hb⟩ := h.bits
  exact ⟨h.nb_le, l, hl.congr hm, hb⟩

theorem SrcCh.Cut.bits {p : Params} {m : Memory} {j : Nat} {ch : SrcCh} {l : List Byte} (h : ch.Cut p m j l)
    (h0 : ch.nb = 0) : ch.CutBits p m j (bitsOfBytes l) :=
  ⟨by omega, l, h, by simp [SrcCh.curBits, h0]⟩

/-- SrcBit gives the next bit (R154). -/
theorem SrcCh.CutBits.srcBit_cons {p : Params} {m : Memory} {j : Nat} {ch : SrcCh} {b : Bool} {bs : List Bool}
    (h : ch.CutBits p m j (b :: bs)) :
    ∃ ch', srcBit p m ch = .ok (some b, ch') ∧ ch'.CutBits p m j bs ∧ ch'.base = ch.base ∧ ch'.len = ch.len := by
  obtain ⟨h8, l, hl, hb⟩ := h
  unfold srcBit
  split
  · next h0 =>
    have hc : ch.curBits = [] := by simp [SrcCh.curBits, h0]
    rw [hc, List.nil_append] at hb
    cases l with
    | nil => simp at hb
    | cons v l =>
      obtain ⟨ch', he, hh, hbase, hlen, -, -, -⟩ := hl.srcByte_cons
      rw [he]
      have e := curBits_cons (ch := { ch' with cur := v, nb := 8 }) (by simp) (by simp)
      have e8 : ({ ch' with cur := v, nb := 8 } : SrcCh).curBits =
          (List.range 8).map fun j => v.getLsbD (7 - j) := rfl
      rw [bitsOfBytes_cons, ← e8, e, List.cons_append] at hb
      injection hb with hb1 hb2
      refine ⟨(takeBit { ch' with cur := v, nb := 8 }).2, ?_, ⟨?_, l, ⟨⟨hh.1.1, hh.1.2, hh.1.3, hh.1.4, hh.1.5⟩, hh.2, hh.3, hh.4⟩, hb2⟩, hbase, hlen⟩
      · rw [hb1]
      · simp [takeBit]
  · next h0 =>
    have e := curBits_cons (ch := ch) (by omega) h8
    rw [e, List.cons_append] at hb
    injection hb with hb1 hb2
    refine ⟨(takeBit ch).2, ?_, ⟨?_, l, ⟨⟨hl.1.1, hl.1.2, hl.1.3, hl.1.4, hl.1.5⟩, hl.2, hl.3, hl.4⟩, hb2⟩, rfl, rfl⟩
    · rw [hb1]
    · simp [takeBit]; omega

/-- SrcBit at the block of the bus error (R154, R152). -/
theorem SrcCh.CutBits.srcBit_nil {p : Params} {m : Memory} {j : Nat} {ch : SrcCh} (h : ch.CutBits p m j []) :
    srcBit p m ch = .error (raise .io (ch.base + j)) := by
  obtain ⟨-, l, hl, hb⟩ := h
  obtain ⟨hc, hn⟩ := List.append_eq_nil_iff.1 hb.symm
  have h0 : ch.nb = 0 := by
    have := congrArg List.length hc
    simpa [SrcCh.curBits] using this
  have hl0 : l = [] := by
    have := congrArg List.length hn
    rw [length_bitsOfBytes] at this
    simp at this
    exact List.eq_nil_of_length_eq_zero (by simp [this])
  subst hl0
  simp [srcBit, h0, hl.srcByte_nil]

/-- SrcBit on a memory that agrees with `m0` on the channel's region. -/
theorem SrcCh.CutBits.next {p : Params} {m0 m : Memory} {j : Nat} {ch : SrcCh} {b : Bool} {bs : List Bool}
    (h : ch.CutBits p m0 j (b :: bs)) (hm : ∀ i, i < ch.len → m.read (ch.base + i) = m0.read (ch.base + i)) :
    ∃ ch', srcBit p m ch = .ok (some b, ch') ∧ ch'.CutBits p m0 j bs ∧ ch'.base = ch.base ∧ ch'.len = ch.len := by
  obtain ⟨ch', he, hh, hb, hl⟩ := (h.congr hm).srcBit_cons
  exact ⟨ch', he, hh.congr fun i hi => by rw [hb]; exact (hm i (hl ▸ hi)).symm, hb, hl⟩

/-! ### The loops -/

section
variable {p : Params} {base cap j : Nat} {m0 : Memory}

/-- OutByte where the bytes find room. -/
theorem OutCh.Holds.outByte_takes {m : Memory} {ch : OutCh} {l : List Byte} (h : ch.Holds p base cap m0 m l)
    (hs : base + cap ≤ Config.addrSpace) (v : Byte) {n : Nat} (hn : l.length < n) (ht : Takes p base cap n) :
    ∃ m' ch', Machine.outByte p m ch v = .ok m' ch' ∧ ch'.Holds p base cap m0 m' (l ++ [v]) ∧ ch'.k = ch.k := by
  obtain ⟨m', ch', he, h1, -, h2, -⟩ := (h.outByte hs v).ok_of_no_raise fun m' r h' =>
    h'.absurd (by have := ht.1; simp; omega) fun i hi => ht.2 i (by simp at hi; omega)
  exact ⟨m', ch', he, h1, h2⟩

/-- OutBit, bit after bit, where the bytes they begin find room. -/
theorem OutCh.HoldsBits.outBits_takes {m : Memory} {ch : OutCh} {bs : List Bool}
    (h : ch.HoldsBits p base cap m0 m bs) (hs : base + cap ≤ Config.addrSpace) (cs : List Bool) {n : Nat}
    (hn : ((bs ++ cs).length + 7) / 8 ≤ n) (ht : Takes p base cap n) :
    ∃ m' ch', Machine.outBits p m ch cs = .ok m' ch' ∧ ch'.HoldsBits p base cap m0 m' (bs ++ cs) :=
  (h.outBits hs cs).ok_of_no_raise fun m' r h' => by
    have := h' []
    rw [List.append_nil] at this
    refine this.absurd ?_ fun i hi => ht.2 i ?_
    · rw [length_packBits]; exact Nat.le_trans hn ht.1
    · rw [length_packBits] at hi; omega

/-- PACK's loop up to a bus error of its source: the bits of the blocks before it are packed. -/
theorem packLoop_cut (hs : base + cap ≤ Config.addrSpace) (l : List Byte) {n : Nat} (i : Nat) {src : SrcCh}
    {m : Memory} {out : OutCh} {bs : List Bool} (hn : l.length < n) (hsrc : src.Cut p m0 j l)
    (hap : Apart src.base src.len base cap) (hl : ∀ v ∈ l, isBit v = true)
    (ht : Takes p base cap (((bs ++ l.map fun v => v.getLsbD 0).length + 7) / 8))
    (hout : out.HoldsBits p base cap m0 m bs) :
    packLoop p n i src m out = .raised
      (m0.writeBytes base (drained p (packBits (wholeBytes (bs ++ l.map fun v => v.getLsbD 0)))))
      (raise .io (src.base + j)) := by
  induction l generalizing n i src m out bs with
  | nil =>
    obtain ⟨n, rfl⟩ : ∃ k, n = k + 1 := ⟨n - 1, by omega⟩
    have hag := fun i hi => hout.read_other (hap i hi)
    simp only [packLoop, (hsrc.congr hag).srcByte_nil, List.map_nil, List.append_nil, ← hout.mem_eq]
  | cons v l ih =>
    obtain ⟨n, rfl⟩ : ∃ k, n = k + 1 := ⟨n - 1, by omega⟩
    obtain ⟨ch', he, hsrc2, hb, hlen⟩ := hsrc.next fun i hi => hout.read_other (hap i hi)
    have hv : ¬1 < v.toNat := by have := hl v (by simp); simp [isBit] at this; omega
    obtain ⟨m', out', ho, h'⟩ := hout.outBits_takes hs [v.getLsbD 0] (Nat.div_le_div_right (by simp)) ht
    have ho : outBit p m out (v.getLsbD 0) = .ok m' out' := by
      simp only [outBits] at ho
      cases hx : outBit p m out (v.getLsbD 0) <;> simp_all
    rw [packLoop]
    simp only [he, if_neg hv, ho, Res.bind_ok]
    rw [ih (i + 1) (by simpa using hn) hsrc2 (by rw [hb, hlen]; exact hap) (fun u hu => hl u (by simp [hu])) (by simpa using ht) h', hb]
    simp

/-- UNPACK's loop up to a bus error of its source. -/
theorem unpackLoop_cut (hs : base + cap ≤ Config.addrSpace) (bs : List Bool) {n : Nat} {src : SrcCh}
    {m : Memory} {out : OutCh} {l : List Byte} (hn : bs.length < n) (hsrc : src.CutBits p m0 j bs)
    (hap : Apart src.base src.len base cap) (ht : Takes p base cap (l.length + bs.length))
    (hout : out.Holds p base cap m0 m l) :
    unpackLoop p n src m out = .raised (m0.writeBytes base (drained p (l ++ bs.map bitByte)))
      (raise .io (src.base + j)) := by
  induction bs generalizing n src m out l with
  | nil =>
    obtain ⟨n, rfl⟩ : ∃ k, n = k + 1 := ⟨n - 1, by omega⟩
    have hag := fun i hi => hout.read_other (hap i hi)
    simp only [unpackLoop, (hsrc.congr hag).srcBit_nil, List.map_nil, List.append_nil, ← hout.mem_eq]
  | cons b bs ih =>
    obtain ⟨n, rfl⟩ : ∃ k, n = k + 1 := ⟨n - 1, by omega⟩
    obtain ⟨ch', he, hsrc2, hb, hlen⟩ := hsrc.next fun i hi => hout.read_other (hap i hi)
    obtain ⟨m', out', ho, h', -⟩ := hout.outByte_takes hs (bitByte b) (by simp) ht
    rw [unpackLoop]
    simp only [he]
    rw [show outByte p m out ((BitVec.ofBool b).setWidth 8) = .ok m' out' from ho, Res.bind_ok,
      ih (by simpa using hn) hsrc2 (by rw [hb, hlen]; exact hap) (by convert ht using 1; simp; omega) h', hb]
    simp

/-- EncodeSyms up to a bus error of its source. -/
theorem encodeSyms_cut (hs : base + cap ≤ Config.addrSpace) (codes : CodeTable) (l : List Byte) {n : Nat} (i : Nat)
    {src : SrcCh} {m : Memory} {out : OutCh} {bs : List Bool} (hn : l.length < n) (hsrc : src.Cut p m0 j l)
    (hap : Apart src.base src.len base cap) (hl : ∀ v ∈ l, hasCode codes v = true)
    (ht : Takes p base cap (((bs ++ encodeBits codes l).length + 7) / 8))
    (hout : out.HoldsBits p base cap m0 m bs) :
    encodeSyms p codes n i src m out = .raised
      (m0.writeBytes base (drained p (packBits (wholeBytes (bs ++ encodeBits codes l))))) (raise .io (src.base + j)) := by
  induction l generalizing n i src m out bs with
  | nil =>
    obtain ⟨n, rfl⟩ : ∃ k, n = k + 1 := ⟨n - 1, by omega⟩
    have hag := fun i hi => hout.read_other (hap i hi)
    simp only [encodeSyms, (hsrc.congr hag).srcByte_nil, encodeBits, List.flatMap_nil, List.append_nil, ← hout.mem_eq]
  | cons v l ih =>
    obtain ⟨n, rfl⟩ : ∃ k, n = k + 1 := ⟨n - 1, by omega⟩
    obtain ⟨ch', he, hsrc2, hb, hlen⟩ := hsrc.next fun i hi => hout.read_other (hap i hi)
    have hv : ¬(lookup codes v).length = 0 := by have := hl v (by simp); simpa [hasCode] using this
    have hcat : encodeBits codes (v :: l) = lookup codes v ++ encodeBits codes l := by simp [encodeBits]
    rw [hcat, ← List.append_assoc] at ht ⊢
    obtain ⟨m', out', ho, h'⟩ := hout.outBits_takes hs (lookup codes v) (Nat.div_le_div_right (by simp)) ht
    rw [encodeSyms]
    simp only [he, if_neg hv, ho, Res.bind_ok]
    rw [ih (i + 1) (by simpa using hn) hsrc2 (by rw [hb, hlen]; exact hap) (fun u hu => hl u (by simp [hu])) ht h', hb]

/-- Walk up to a bus error of its source: what it has emitted for the bits before (R246). -/
theorem walkLoop_cut (hs : base + cap ≤ Config.addrSpace) (root : Tree) (bc p0 : Nat) (bs : List Bool) {left : Nat}
    (w : WalkState) {src : SrcCh} {m : Memory} {out : OutCh} {l : List Byte} (hn : bs.length < left)
    (hsrc : src.CutBits p m0 j bs) (hap : Apart src.base src.len base cap)
    (ht : Takes p base cap (l ++ Tree.emitted root w bs).length) (hout : out.Holds p base cap m0 m l) :
    walkLoop p root bc p0 left w src m out = .raised
      (m0.writeBytes base (drained p (l ++ Tree.emitted root w bs))) (raise .io (src.base + j)) := by
  induction bs generalizing left w src m out l with
  | nil =>
    obtain ⟨left, rfl⟩ : ∃ k, left = k + 1 := ⟨left - 1, by simp at hn; omega⟩
    have hag := fun i hi => hout.read_other (hap i hi)
    have : Tree.emitted root w [] = [] := by cases w <;> rfl
    simp only [walkLoop, (hsrc.congr hag).srcBit_nil, this, List.append_nil, ← hout.mem_eq]
  | cons b bs ih =>
    obtain ⟨ch', he, hsrc2, hb, hlen⟩ := hsrc.next fun i hi => hout.read_other (hap i hi)
    obtain ⟨left, rfl⟩ : ∃ k, left = k + 1 := ⟨left - 1, by simp at hn; omega⟩
    simp only [walkLoop, he]
    have hem : Tree.emitted root w (b :: bs) =
        match (match w with | .atRoot => root | .atNode t => t).child b with
        | .leaf _ s _ => s :: Tree.emitted root .atRoot bs
        | .node i z o v => Tree.emitted root (.atNode (.node i z o v)) bs := by
      cases w <;> rfl
    rw [hem] at ht ⊢
    have hap' : Apart ch'.base ch'.len base cap := by rw [hb, hlen]; exact hap
    cases hch : (match w with | .atRoot => root | .atNode t => t).child b with
    | leaf i s x =>
      rw [hch] at ht
      obtain ⟨m', out', ho, h', -⟩ := hout.outByte_takes hs s (by simp) ht
      simp only [ho, Res.bind_ok]
      rw [ih .atRoot (by simpa using hn) hsrc2 hap' (by simpa using ht) h', hb]
      simp
    | node i z o x =>
      rw [hch] at ht
      simp only
      rw [ih (.atNode (.node i z o x)) (by simpa using hn) hsrc2 hap' ht hout, hb]

/-- The copy of the temporary store up to a bus error of it (45_pipeline.md R265). -/
theorem copyLoop_cut (hs : base + cap ≤ Config.addrSpace) (l : List Byte) {n : Nat} {src : SrcCh} {m : Memory}
    {out : OutCh} {done : List Byte} (hn : l.length < n) (hsrc : src.Cut p m0 j l)
    (hap : Apart src.base src.len base cap) (ht : Takes p base cap (done ++ l).length)
    (hout : out.Holds p base cap m0 m done) :
    copyLoop p n src m out = .raised (m0.writeBytes base (drained p (done ++ l))) (raise .io (src.base + j)) := by
  induction l generalizing n src m out done with
  | nil =>
    obtain ⟨n, rfl⟩ : ∃ k, n = k + 1 := ⟨n - 1, by omega⟩
    have hag := fun i hi => hout.read_other (hap i hi)
    simp only [copyLoop, (hsrc.congr hag).srcByte_nil, List.append_nil, ← hout.mem_eq]
  | cons v l ih =>
    obtain ⟨n, rfl⟩ : ∃ k, n = k + 1 := ⟨n - 1, by omega⟩
    obtain ⟨ch', he, hsrc2, hb, hlen⟩ := hsrc.next fun i hi => hout.read_other (hap i hi)
    obtain ⟨m', out', ho, h', -⟩ := hout.outByte_takes hs v (by simp) ht
    rw [copyLoop]
    simp only [he, ho, Res.bind_ok]
    rw [ih (by simpa using hn) hsrc2 (by rw [hb, hlen]; exact hap) (by simpa using ht) h', hb]
    simp

end

end Sys2Proof.Machine
end

