-- ==== Sys2Proof/Laws/Endings.lean ====
section
/-! SUPPORT. How each loop of a procedure can end, whatever the source, the capacity and the bus: what memory
it has touched and which errors it raises (60_exceptions.md R293; 20_memory.md R74). -/

namespace Sys2Proof.Machine

/-- An output channel in use: some bytes at the start of its region are written, its buffer is not full. -/
def OutCh.Open (p : Params) (base cap : Nat) (m0 m : Memory) (ch : OutCh) : Prop :=
  ∃ bs, ch.HoldsBits p base cap m0 m bs

/-- An output channel in use that has taken whole bytes only. -/
def OutCh.OpenBytes (p : Params) (base cap : Nat) (m0 m : Memory) (ch : OutCh) : Prop :=
  ∃ l, ch.Holds p base cap m0 m l ∧ ch.k = 0

theorem outOpen_open (p : Params) (base cap : Nat) (m : Memory) : (outOpen base cap).Open p base cap m m :=
  ⟨[], outOpen_holdsBits p base cap m⟩

theorem outOpen_openBytes (p : Params) (base cap : Nat) (m : Memory) :
    (outOpen base cap).OpenBytes p base cap m m := ⟨[], outOpen_holds p base cap m, rfl⟩

/-- The end of a part that writes one region: some bytes at its start, and an error of the list. -/
def Raised (base cap : Nat) (m0 : Memory) (ks : List ErrKind) (m : Memory) (r : Raise) : Prop :=
  Touched base cap m0 m ∧ r.kind ∈ ks

theorem OutFail.raised {p : Params} {base cap : Nat} {m0 m : Memory} {l : List Byte} {r : Raise}
    (h : OutFail p base cap m0 l m r) {ks : List ErrKind} (hk : ErrKind.io ∈ ks) : Raised base cap m0 ks m r :=
  ⟨h.touched, h.io ▸ hk⟩

theorem OutCh.OpenBytes.outByte {p : Params} {base cap : Nat} {m0 m : Memory} {ch : OutCh}
    (h : ch.OpenBytes p base cap m0 m) (hs : base + cap ≤ Config.addrSpace) (v : Byte) :
    (outByte p m ch v).Post (fun m' ch' => ch'.OpenBytes p base cap m0 m') (Raised base cap m0 [.io]) := by
  obtain ⟨l, hl, hk⟩ := h
  exact (hl.outByte hs v).mono (fun m' ch' h' => ⟨_, h'.1, h'.2.2.1.trans hk⟩) fun m' r h' => h'.raised (by simp)

theorem OutCh.OpenBytes.outBytes {p : Params} {base cap : Nat} {m0 m : Memory} {ch : OutCh}
    (h : ch.OpenBytes p base cap m0 m) (hs : base + cap ≤ Config.addrSpace) (vs : List Byte) :
    (outBytes p m ch vs).Post (fun m' ch' => ch'.OpenBytes p base cap m0 m') (Raised base cap m0 [.io]) := by
  obtain ⟨l, hl, hk⟩ := h
  exact (hl.outBytes hs vs).mono (fun m' ch' h' => ⟨_, h'.1, h'.2.2.1.trans hk⟩) fun m' r h' => h'.raised (by simp)

theorem OutCh.OpenBytes.outFlush {p : Params} {base cap : Nat} {m0 m : Memory} {ch : OutCh}
    (h : ch.OpenBytes p base cap m0 m) (hs : base + cap ≤ Config.addrSpace) :
    (outFlush p m ch).Post (fun m' ch' => ∃ l, l.length = ch'.n ∧ l.length ≤ cap ∧ m' = m0.writeBytes base l)
      (Raised base cap m0 [.io]) := by
  obtain ⟨l, hl, hk⟩ := h
  refine (hl.outFlush hs hk).mono (fun m' ch' h' => ?_) fun m' r h' => h'.raised (by simp)
  refine ⟨l, h'.2.1.symm, ?_, h'.1⟩
  rcases Nat.eq_zero_or_pos l.length with h0 | h0
  · omega
  · have := (h'.2.2 (l.length - 1) (by omega)).1; omega

theorem OutCh.Open.outBit {p : Params} {base cap : Nat} {m0 m : Memory} {ch : OutCh}
    (h : ch.Open p base cap m0 m) (hs : base + cap ≤ Config.addrSpace) (b : Bool) :
    (outBit p m ch b).Post (fun m' ch' => ch'.Open p base cap m0 m') (Raised base cap m0 [.io]) := by
  obtain ⟨bs, hb⟩ := h
  exact (hb.outBit hs b).mono (fun m' ch' h' => ⟨_, h'⟩) fun m' r h' => (h' []).raised (by simp)

theorem OutCh.Open.outBits {p : Params} {base cap : Nat} {m0 m : Memory} {ch : OutCh}
    (h : ch.Open p base cap m0 m) (hs : base + cap ≤ Config.addrSpace) (cs : List Bool) :
    (outBits p m ch cs).Post (fun m' ch' => ch'.Open p base cap m0 m') (Raised base cap m0 [.io]) := by
  obtain ⟨bs, hb⟩ := h
  exact (hb.outBits hs cs).mono (fun m' ch' h' => ⟨_, h'⟩) fun m' r h' => (h' []).raised (by simp)

theorem OutCh.Open.outFlush {p : Params} {base cap : Nat} {m0 m : Memory} {ch : OutCh}
    (h : ch.Open p base cap m0 m) (hs : base + cap ≤ Config.addrSpace) :
    (outFlush p m ch).Post
      (fun m' ch' => ∃ l, l.length = ch'.n ∧ l.length ≤ cap ∧ m' = m0.writeBytes base l ∧
        ch'.n = (ch'.bits + 7) / 8)
      (Raised base cap m0 [.io]) := by
  obtain ⟨bs, hb⟩ := h
  refine (hb.outFlush hs).mono (fun m' ch' h' => ?_) fun m' r h' => h'.raised (by simp)
  obtain ⟨hm, hn, hbits, hg⟩ := h'
  refine ⟨packBits bs, hn.symm, ?_, hm, by rw [hn, length_packBits, hbits]⟩
  rcases Nat.eq_zero_or_pos (packBits bs).length with h0 | h0
  · omega
  · have := (hg ((packBits bs).length - 1) (by omega)).1; omega

theorem OutCh.Open.touched {p : Params} {base cap : Nat} {m0 m : Memory} {ch : OutCh}
    (h : ch.Open p base cap m0 m) : Touched base cap m0 m := by obtain ⟨bs, hb⟩ := h; exact hb.touched

theorem OutCh.OpenBytes.touched {p : Params} {base cap : Nat} {m0 m : Memory} {ch : OutCh}
    (h : ch.OpenBytes p base cap m0 m) : Touched base cap m0 m := by obtain ⟨l, hl, -⟩ := h; exact hl.touched

theorem Raised.weaken {base cap : Nat} {m0 m : Memory} {ks ks' : List ErrKind} {r : Raise}
    (h : Raised base cap m0 ks m r) (hk : ∀ k ∈ ks, k ∈ ks') : Raised base cap m0 ks' m r := ⟨h.1, hk _ h.2⟩

/-! ### The loops -/

section
variable {p : Params} {base cap : Nat} {m0 : Memory} (hs : base + cap ≤ Config.addrSpace)
include hs

theorem packLoop_ends (n i : Nat) (src : SrcCh) {m : Memory} {out : OutCh} (h : out.Open p base cap m0 m) :
    (packLoop p n i src m out).Post (fun m' out' => out'.Open p base cap m0 m')
      (Raised base cap m0 [.io, .illegal]) := by
  induction n generalizing i src m out with
  | zero => exact h
  | succ n ih =>
    unfold packLoop
    rcases srcByte_cases p m src with ⟨r, he, hr⟩ | ⟨v, ch', he, -⟩
    · simp only [he]; exact ⟨h.touched, by simp [hr]⟩
    cases v with
    | none => simp only [he]; exact h
    | some v =>
      simp only [he]
      split
      · exact ⟨h.touched, by simp [raise]⟩
      · refine Res.Post.bind ((h.outBit hs _).mono (fun _ _ h => h) fun m r h => h.weaken (by simp)) fun m' out' h' => ?_
        exact ih _ _ h'

theorem unpackLoop_ends (n : Nat) (src : SrcCh) {m : Memory} {out : OutCh} (h : out.OpenBytes p base cap m0 m) :
    (unpackLoop p n src m out).Post (fun m' out' => out'.OpenBytes p base cap m0 m')
      (Raised base cap m0 [.io, .corrupt]) := by
  induction n generalizing src m out with
  | zero => exact h
  | succ n ih =>
    unfold unpackLoop
    rcases srcBit_cases p m src with ⟨r, he, hr⟩ | ⟨v, ch', he, -⟩
    · simp only [he]; exact ⟨h.touched, by simp [hr]⟩
    cases v with
    | none => simp only [he]; exact ⟨h.touched, by simp [raise]⟩
    | some v =>
      simp only [he]
      refine Res.Post.bind ((h.outByte hs _).mono (fun _ _ h => h) fun m r h => h.weaken (by simp)) fun m' out' h' => ?_
      exact ih _ h'

theorem encodeSyms_ends (codes : CodeTable) (n i : Nat) (src : SrcCh) {m : Memory} {out : OutCh}
    (h : out.Open p base cap m0 m) :
    (encodeSyms p codes n i src m out).Post (fun m' out' => out'.Open p base cap m0 m')
      (Raised base cap m0 [.io, .internal]) := by
  induction n generalizing i src m out with
  | zero => exact h
  | succ n ih =>
    unfold encodeSyms
    rcases srcByte_cases p m src with ⟨r, he, hr⟩ | ⟨v, ch', he, -⟩
    · simp only [he]; exact ⟨h.touched, by simp [hr]⟩
    cases v with
    | none => simp only [he]; exact h
    | some v =>
      simp only [he]
      split
      · exact ⟨h.touched, by simp [raise]⟩
      · refine Res.Post.bind ((h.outBits hs _).mono (fun _ _ h => h) fun m r h => h.weaken (by simp)) fun m' out' h' => ?_
        exact ih _ _ h'

/-- Where every byte of the source has a code, E_INTERNAL is not raised (45_pipeline.md R268). -/
theorem encodeSyms_ends_coded (codes : CodeTable) (n i : Nat) (src : SrcCh) {m : Memory} {out : OutCh}
    (h : out.Open p base cap m0 m) (ha : src.Aligned p m0) (hap : Apart src.base src.len base cap)
    (hc : ∀ j, j < src.len → hasCode codes (m0.read (src.base + j)) = true) :
    (encodeSyms p codes n i src m out).Post (fun m' out' => out'.Open p base cap m0 m')
      (Raised base cap m0 [.io]) := by
  induction n generalizing i src m out with
  | zero => exact h
  | succ n ih =>
    unfold encodeSyms
    rcases ha.next fun j hj => h.touched.read_other (hap j hj) with ⟨r, he, hr⟩ | ⟨-, ch', he, -⟩ | ⟨hlt, ch', he, ha', hb, hl, -⟩
    · simp only [he]; exact ⟨h.touched, by simp [hr.io]⟩
    · simp only [he]; exact h
    · simp only [he]
      split
      · next h0 => exact absurd (hc _ hlt) (by simp [hasCode, h0])
      · refine Res.Post.bind (h.outBits hs _) fun m' out' h' => ?_
        exact ih _ _ h' ha' (by rw [hb, hl]; exact hap) (by rw [hb, hl]; exact hc)

theorem walkLoop_ends (root : Tree) (bc p0 left : Nat) (w : WalkState) (src : SrcCh) {m : Memory} {out : OutCh}
    (h : out.OpenBytes p base cap m0 m) :
    (walkLoop p root bc p0 left w src m out).Post (fun m' out' => out'.OpenBytes p base cap m0 m')
      (Raised base cap m0 [.io, .corrupt]) := by
  induction left generalizing w src m out with
  | zero => cases w <;> [exact h; exact ⟨h.touched, by simp [raise]⟩]
  | succ left ih =>
    unfold walkLoop
    rcases srcBit_cases p m src with ⟨r, he, hr⟩ | ⟨v, ch', he, -⟩
    · simp only [he]; exact ⟨h.touched, by simp [hr]⟩
    cases v with
    | none => simp only [he]; exact ⟨h.touched, by simp [raise]⟩
    | some v =>
      simp only [he]
      split
      · refine Res.Post.bind ((h.outByte hs _).mono (fun _ _ h => h) fun m r h => h.weaken (by simp)) fun m' out' h' => ?_
        exact ih _ _ h'
      · exact ih _ _ h

theorem copyLoop_ends (n : Nat) (src : SrcCh) {m : Memory} {out : OutCh} (h : out.OpenBytes p base cap m0 m) :
    (copyLoop p n src m out).Post (fun m' out' => out'.OpenBytes p base cap m0 m') (Raised base cap m0 [.io]) := by
  induction n generalizing src m out with
  | zero => exact h
  | succ n ih =>
    unfold copyLoop
    rcases srcByte_cases p m src with ⟨r, he, hr⟩ | ⟨v, ch', he, -⟩
    · simp only [he]; exact ⟨h.touched, by simp [hr]⟩
    cases v with
    | none => simp only [he]; exact h
    | some v =>
      simp only [he]
      refine Res.Post.bind (h.outByte hs _) fun m' out' h' => ?_
      exact ih _ h'

end

/-- Count raises only E_IO and E_OVERFLOW. -/
theorem count_ends (s : State) (c : Counters) :
    (count s c).Post (fun _ _ => True) (fun _ r => r.kind = .io ∨ r.kind = .overflow) := by
  refine (countLoop_ends _ 0 c (srcOpen_aligned _ _ _ _) (by simp [srcOpen])).mono (fun _ _ _ => trivial) fun c' r h => ?_
  obtain ⟨k, -, -, -, h | ⟨h, -⟩⟩ := h
  · exact .inl h.io
  · exact .inr (by rw [h]; rfl)

/-- Pass 1 of ENCODE, on a cleared table (R261, R268): every byte is counted, or a fetch fails; no counter
reaches its limit. -/
theorem count_clear_ends (s : State) :
    (count s Counters.clear).Post (fun c _ => c = Counters.clear.tallyAll s.srcBytes) (fun _ r => r.kind = .io) := by
  refine (countLoop_ends _ 0 _ (srcOpen_aligned _ _ _ _) (by simp [srcOpen])).mono (fun c _ h => h.1) fun c' r h => ?_
  obtain ⟨k, hk, hc, -, h | ⟨-, h, -⟩⟩ := h
  · exact h.io
  · exfalso
    have hlen : s.srcLen.toNat < 2 ^ 32 := s.srcLen.isLt
    simp only [srcOpen_base, srcOpen_pos, Nat.add_zero] at hc h
    generalize hl : s.mem.bytes s.srcBase.toNat k = l at hc
    have hll : l.length = k := by rw [← hl]; simp
    rw [hc] at h
    simp only [Counters.full, Bool.or_eq_true, decide_eq_true_eq] at h
    rcases h with h | h
    · rw [lookup_tallyAll] at h
      have hcount := List.count_le_length (a := s.mem.read (s.srcBase.toNat + k)) (l := l)
      have := congrArg BitVec.toNat h
      simp [Counters.clear] at this
      omega
    · rw [total_tallyAll] at h
      have := congrArg BitVec.toNat h
      simp [Counters.clear] at this
      omega

theorem tallyAll_clear_ne_zero {l : List Byte} (hl : l.length < 2 ^ 32) {q : Byte} :
    lookup (Counters.clear.tallyAll l).freq q ≠ 0 ↔ q ∈ l := by
  rw [lookup_tallyAll]
  have := List.count_le_length (a := q) (l := l)
  simp only [Counters.clear, lookup_replicate]
  rw [← List.count_pos_iff, ← not_iff_not, not_not]
  constructor
  · intro h
    have := congrArg BitVec.toNat h
    simp at this
    omega
  · intro h
    rw [show List.count q l = 0 by omega]; rfl

end Sys2Proof.Machine
end

