-- ==== Sys2Proof/Laws/State.lean ====
section
/-! SUPPORT. What each update of the state does to each field, true by definition, so that no proof
unfolds a record update. -/

namespace Sys2Proof.Machine.State

/-! ### complete -/

@[simp] theorem complete_params (s : State) : s.complete.params = s.params := rfl
@[simp] theorem complete_seq (s : State) : s.complete.seq = .idle := rfl
@[simp] theorem complete_irqEn (s : State) : s.complete.irqEn = s.irqEn := rfl
@[simp] theorem complete_done (s : State) : s.complete.done = true := rfl
@[simp] theorem complete_err (s : State) : s.complete.err = s.err := rfl
@[simp] theorem complete_ovr (s : State) : s.complete.ovr = s.ovr := rfl
@[simp] theorem complete_errCode (s : State) : s.complete.errCode = s.errCode := rfl
@[simp] theorem complete_cmd (s : State) : s.complete.cmd = s.cmd := rfl
@[simp] theorem complete_srcBase (s : State) : s.complete.srcBase = s.srcBase := rfl
@[simp] theorem complete_srcLen (s : State) : s.complete.srcLen = s.srcLen := rfl
@[simp] theorem complete_dstBase (s : State) : s.complete.dstBase = s.dstBase := rfl
@[simp] theorem complete_dstCap (s : State) : s.complete.dstCap = s.dstCap := rfl
@[simp] theorem complete_tmpBase (s : State) : s.complete.tmpBase = s.tmpBase := rfl
@[simp] theorem complete_tmpCap (s : State) : s.complete.tmpCap = s.tmpCap := rfl
@[simp] theorem complete_outLen (s : State) : s.complete.outLen = s.outLen := rfl
@[simp] theorem complete_srcPos (s : State) : s.complete.srcPos = s.srcPos := rfl
@[simp] theorem complete_bitcnt (s : State) : s.complete.bitcnt = s.bitcnt := rfl
@[simp] theorem complete_total (s : State) : s.complete.total = s.total := rfl
@[simp] theorem complete_errInfo (s : State) : s.complete.errInfo = s.errInfo := rfl
@[simp] theorem complete_freq (s : State) : s.complete.freq = s.freq := rfl
@[simp] theorem complete_tree (s : State) : s.complete.tree = s.tree := rfl
@[simp] theorem complete_codes (s : State) : s.complete.codes = s.codes := rfl
@[simp] theorem complete_mem (s : State) : s.complete.mem = s.mem := rfl
@[simp] theorem complete_host (s : State) : s.complete.host = s.host := rfl
@[simp] theorem complete_rdata (s : State) : s.complete.rdata = s.rdata := rfl
@[simp] theorem complete_lag (s : State) : s.complete.lag = s.lag := rfl
@[simp] theorem complete_lags (s : State) : s.complete.lags = s.lags := rfl
@[simp] theorem complete_freeCount (s : State) : s.complete.freeCount = s.freeCount := rfl

/-! ### raiseErr -/

@[simp] theorem raiseErr_params (s : State) (r : Raise) : (s.raiseErr r).params = s.params := rfl
@[simp] theorem raiseErr_seq (s : State) (r : Raise) : (s.raiseErr r).seq = .idle := rfl
@[simp] theorem raiseErr_irqEn (s : State) (r : Raise) : (s.raiseErr r).irqEn = s.irqEn := rfl
@[simp] theorem raiseErr_done (s : State) (r : Raise) : (s.raiseErr r).done = s.done := rfl
@[simp] theorem raiseErr_err (s : State) (r : Raise) : (s.raiseErr r).err = true := rfl
@[simp] theorem raiseErr_ovr (s : State) (r : Raise) : (s.raiseErr r).ovr = s.ovr := rfl
@[simp] theorem raiseErr_errCode (s : State) (r : Raise) : (s.raiseErr r).errCode = some r.kind := rfl
@[simp] theorem raiseErr_cmd (s : State) (r : Raise) : (s.raiseErr r).cmd = s.cmd := rfl
@[simp] theorem raiseErr_srcBase (s : State) (r : Raise) : (s.raiseErr r).srcBase = s.srcBase := rfl
@[simp] theorem raiseErr_srcLen (s : State) (r : Raise) : (s.raiseErr r).srcLen = s.srcLen := rfl
@[simp] theorem raiseErr_dstBase (s : State) (r : Raise) : (s.raiseErr r).dstBase = s.dstBase := rfl
@[simp] theorem raiseErr_dstCap (s : State) (r : Raise) : (s.raiseErr r).dstCap = s.dstCap := rfl
@[simp] theorem raiseErr_tmpBase (s : State) (r : Raise) : (s.raiseErr r).tmpBase = s.tmpBase := rfl
@[simp] theorem raiseErr_tmpCap (s : State) (r : Raise) : (s.raiseErr r).tmpCap = s.tmpCap := rfl
@[simp] theorem raiseErr_outLen (s : State) (r : Raise) : (s.raiseErr r).outLen = s.outLen := rfl
@[simp] theorem raiseErr_srcPos (s : State) (r : Raise) : (s.raiseErr r).srcPos = s.srcPos := rfl
@[simp] theorem raiseErr_bitcnt (s : State) (r : Raise) : (s.raiseErr r).bitcnt = s.bitcnt := rfl
@[simp] theorem raiseErr_total (s : State) (r : Raise) : (s.raiseErr r).total = s.total := rfl
@[simp] theorem raiseErr_errInfo (s : State) (r : Raise) : (s.raiseErr r).errInfo = r.info := rfl
@[simp] theorem raiseErr_freq (s : State) (r : Raise) : (s.raiseErr r).freq = s.freq := rfl
@[simp] theorem raiseErr_tree (s : State) (r : Raise) : (s.raiseErr r).tree = s.tree := rfl
@[simp] theorem raiseErr_codes (s : State) (r : Raise) : (s.raiseErr r).codes = s.codes := rfl
@[simp] theorem raiseErr_mem (s : State) (r : Raise) : (s.raiseErr r).mem = s.mem := rfl
@[simp] theorem raiseErr_host (s : State) (r : Raise) : (s.raiseErr r).host = s.host := rfl
@[simp] theorem raiseErr_rdata (s : State) (r : Raise) : (s.raiseErr r).rdata = s.rdata := rfl
@[simp] theorem raiseErr_lag (s : State) (r : Raise) : (s.raiseErr r).lag = s.lag := rfl
@[simp] theorem raiseErr_lags (s : State) (r : Raise) : (s.raiseErr r).lags = s.lags := rfl
@[simp] theorem raiseErr_freeCount (s : State) (r : Raise) : (s.raiseErr r).freeCount = s.freeCount := rfl

/-! ### issue -/

@[simp] theorem issue_params (s : State) (w : Word) : (s.issue w).params = s.params := rfl
@[simp] theorem issue_seq (s : State) (w : Word) : (s.issue w).seq = .busy := rfl
@[simp] theorem issue_irqEn (s : State) (w : Word) : (s.issue w).irqEn = s.irqEn := rfl
@[simp] theorem issue_done (s : State) (w : Word) : (s.issue w).done = false := rfl
@[simp] theorem issue_err (s : State) (w : Word) : (s.issue w).err = false := rfl
@[simp] theorem issue_ovr (s : State) (w : Word) : (s.issue w).ovr = s.ovr := rfl
@[simp] theorem issue_errCode (s : State) (w : Word) : (s.issue w).errCode = none := rfl
@[simp] theorem issue_cmd (s : State) (w : Word) : (s.issue w).cmd = w := rfl
@[simp] theorem issue_srcBase (s : State) (w : Word) : (s.issue w).srcBase = s.srcBase := rfl
@[simp] theorem issue_srcLen (s : State) (w : Word) : (s.issue w).srcLen = s.srcLen := rfl
@[simp] theorem issue_dstBase (s : State) (w : Word) : (s.issue w).dstBase = s.dstBase := rfl
@[simp] theorem issue_dstCap (s : State) (w : Word) : (s.issue w).dstCap = s.dstCap := rfl
@[simp] theorem issue_tmpBase (s : State) (w : Word) : (s.issue w).tmpBase = s.tmpBase := rfl
@[simp] theorem issue_tmpCap (s : State) (w : Word) : (s.issue w).tmpCap = s.tmpCap := rfl
@[simp] theorem issue_outLen (s : State) (w : Word) : (s.issue w).outLen = s.outLen := rfl
@[simp] theorem issue_srcPos (s : State) (w : Word) : (s.issue w).srcPos = s.srcPos := rfl
@[simp] theorem issue_bitcnt (s : State) (w : Word) : (s.issue w).bitcnt = s.bitcnt := rfl
@[simp] theorem issue_total (s : State) (w : Word) : (s.issue w).total = s.total := rfl
@[simp] theorem issue_errInfo (s : State) (w : Word) : (s.issue w).errInfo = 0 := rfl
@[simp] theorem issue_freq (s : State) (w : Word) : (s.issue w).freq = s.freq := rfl
@[simp] theorem issue_tree (s : State) (w : Word) : (s.issue w).tree = s.tree := rfl
@[simp] theorem issue_codes (s : State) (w : Word) : (s.issue w).codes = s.codes := rfl
@[simp] theorem issue_mem (s : State) (w : Word) : (s.issue w).mem = s.mem := rfl
@[simp] theorem issue_host (s : State) (w : Word) : (s.issue w).host = s.host := rfl
@[simp] theorem issue_rdata (s : State) (w : Word) : (s.issue w).rdata = s.rdata := rfl
@[simp] theorem issue_lag (s : State) (w : Word) : (s.issue w).lag = s.lags.headD 0 := rfl
@[simp] theorem issue_lags (s : State) (w : Word) : (s.issue w).lags = s.lags.tail := rfl
@[simp] theorem issue_freeCount (s : State) (w : Word) : (s.issue w).freeCount = s.freeCount := rfl

/-! ### install -/

@[simp] theorem install_params (s : State) (t : Tree) : (s.install t).params = s.params := rfl
@[simp] theorem install_seq (s : State) (t : Tree) : (s.install t).seq = s.seq := rfl
@[simp] theorem install_irqEn (s : State) (t : Tree) : (s.install t).irqEn = s.irqEn := rfl
@[simp] theorem install_done (s : State) (t : Tree) : (s.install t).done = s.done := rfl
@[simp] theorem install_err (s : State) (t : Tree) : (s.install t).err = s.err := rfl
@[simp] theorem install_ovr (s : State) (t : Tree) : (s.install t).ovr = s.ovr := rfl
@[simp] theorem install_errCode (s : State) (t : Tree) : (s.install t).errCode = s.errCode := rfl
@[simp] theorem install_cmd (s : State) (t : Tree) : (s.install t).cmd = s.cmd := rfl
@[simp] theorem install_srcBase (s : State) (t : Tree) : (s.install t).srcBase = s.srcBase := rfl
@[simp] theorem install_srcLen (s : State) (t : Tree) : (s.install t).srcLen = s.srcLen := rfl
@[simp] theorem install_dstBase (s : State) (t : Tree) : (s.install t).dstBase = s.dstBase := rfl
@[simp] theorem install_dstCap (s : State) (t : Tree) : (s.install t).dstCap = s.dstCap := rfl
@[simp] theorem install_tmpBase (s : State) (t : Tree) : (s.install t).tmpBase = s.tmpBase := rfl
@[simp] theorem install_tmpCap (s : State) (t : Tree) : (s.install t).tmpCap = s.tmpCap := rfl
@[simp] theorem install_outLen (s : State) (t : Tree) : (s.install t).outLen = s.outLen := rfl
@[simp] theorem install_srcPos (s : State) (t : Tree) : (s.install t).srcPos = s.srcPos := rfl
@[simp] theorem install_bitcnt (s : State) (t : Tree) : (s.install t).bitcnt = s.bitcnt := rfl
@[simp] theorem install_total (s : State) (t : Tree) : (s.install t).total = s.total := rfl
@[simp] theorem install_errInfo (s : State) (t : Tree) : (s.install t).errInfo = s.errInfo := rfl
@[simp] theorem install_freq (s : State) (t : Tree) : (s.install t).freq = s.freq := rfl
@[simp] theorem install_tree (s : State) (t : Tree) : (s.install t).tree = some t := rfl
@[simp] theorem install_codes (s : State) (t : Tree) : (s.install t).codes = deriveCodes t := rfl
@[simp] theorem install_mem (s : State) (t : Tree) : (s.install t).mem = s.mem := rfl
@[simp] theorem install_host (s : State) (t : Tree) : (s.install t).host = s.host := rfl
@[simp] theorem install_rdata (s : State) (t : Tree) : (s.install t).rdata = s.rdata := rfl
@[simp] theorem install_lag (s : State) (t : Tree) : (s.install t).lag = s.lag := rfl
@[simp] theorem install_lags (s : State) (t : Tree) : (s.install t).lags = s.lags := rfl
@[simp] theorem install_freeCount (s : State) (t : Tree) : (s.install t).freeCount = s.freeCount := rfl

/-! ### uninstall -/

@[simp] theorem uninstall_params (s : State) : s.uninstall.params = s.params := rfl
@[simp] theorem uninstall_seq (s : State) : s.uninstall.seq = s.seq := rfl
@[simp] theorem uninstall_irqEn (s : State) : s.uninstall.irqEn = s.irqEn := rfl
@[simp] theorem uninstall_done (s : State) : s.uninstall.done = s.done := rfl
@[simp] theorem uninstall_err (s : State) : s.uninstall.err = s.err := rfl
@[simp] theorem uninstall_ovr (s : State) : s.uninstall.ovr = s.ovr := rfl
@[simp] theorem uninstall_errCode (s : State) : s.uninstall.errCode = s.errCode := rfl
@[simp] theorem uninstall_cmd (s : State) : s.uninstall.cmd = s.cmd := rfl
@[simp] theorem uninstall_srcBase (s : State) : s.uninstall.srcBase = s.srcBase := rfl
@[simp] theorem uninstall_srcLen (s : State) : s.uninstall.srcLen = s.srcLen := rfl
@[simp] theorem uninstall_dstBase (s : State) : s.uninstall.dstBase = s.dstBase := rfl
@[simp] theorem uninstall_dstCap (s : State) : s.uninstall.dstCap = s.dstCap := rfl
@[simp] theorem uninstall_tmpBase (s : State) : s.uninstall.tmpBase = s.tmpBase := rfl
@[simp] theorem uninstall_tmpCap (s : State) : s.uninstall.tmpCap = s.tmpCap := rfl
@[simp] theorem uninstall_outLen (s : State) : s.uninstall.outLen = s.outLen := rfl
@[simp] theorem uninstall_srcPos (s : State) : s.uninstall.srcPos = s.srcPos := rfl
@[simp] theorem uninstall_bitcnt (s : State) : s.uninstall.bitcnt = s.bitcnt := rfl
@[simp] theorem uninstall_total (s : State) : s.uninstall.total = s.total := rfl
@[simp] theorem uninstall_errInfo (s : State) : s.uninstall.errInfo = s.errInfo := rfl
@[simp] theorem uninstall_freq (s : State) : s.uninstall.freq = s.freq := rfl
@[simp] theorem uninstall_tree (s : State) : s.uninstall.tree = none := rfl
@[simp] theorem uninstall_codes (s : State) : s.uninstall.codes = CodeTable.empty := rfl
@[simp] theorem uninstall_mem (s : State) : s.uninstall.mem = s.mem := rfl
@[simp] theorem uninstall_host (s : State) : s.uninstall.host = s.host := rfl
@[simp] theorem uninstall_rdata (s : State) : s.uninstall.rdata = s.rdata := rfl
@[simp] theorem uninstall_lag (s : State) : s.uninstall.lag = s.lag := rfl
@[simp] theorem uninstall_lags (s : State) : s.uninstall.lags = s.lags := rfl
@[simp] theorem uninstall_freeCount (s : State) : s.uninstall.freeCount = s.freeCount := rfl

/-! ### writeStatus -/

@[simp] theorem writeStatus_params (s : State) (v : Word) : (s.writeStatus v).params = s.params := rfl
@[simp] theorem writeStatus_seq (s : State) (v : Word) : (s.writeStatus v).seq = s.seq := rfl
@[simp] theorem writeStatus_irqEn (s : State) (v : Word) : (s.writeStatus v).irqEn = s.irqEn := rfl
@[simp] theorem writeStatus_done (s : State) (v : Word) : (s.writeStatus v).done = (s.done && !v.getLsbD 1) := rfl
@[simp] theorem writeStatus_err (s : State) (v : Word) : (s.writeStatus v).err = (s.err && !v.getLsbD 2) := rfl
@[simp] theorem writeStatus_ovr (s : State) (v : Word) : (s.writeStatus v).ovr = (s.ovr && !v.getLsbD 3) := rfl
@[simp] theorem writeStatus_errCode (s : State) (v : Word) : (s.writeStatus v).errCode = (if v.getLsbD 2 then none else s.errCode) := rfl
@[simp] theorem writeStatus_cmd (s : State) (v : Word) : (s.writeStatus v).cmd = s.cmd := rfl
@[simp] theorem writeStatus_srcBase (s : State) (v : Word) : (s.writeStatus v).srcBase = s.srcBase := rfl
@[simp] theorem writeStatus_srcLen (s : State) (v : Word) : (s.writeStatus v).srcLen = s.srcLen := rfl
@[simp] theorem writeStatus_dstBase (s : State) (v : Word) : (s.writeStatus v).dstBase = s.dstBase := rfl
@[simp] theorem writeStatus_dstCap (s : State) (v : Word) : (s.writeStatus v).dstCap = s.dstCap := rfl
@[simp] theorem writeStatus_tmpBase (s : State) (v : Word) : (s.writeStatus v).tmpBase = s.tmpBase := rfl
@[simp] theorem writeStatus_tmpCap (s : State) (v : Word) : (s.writeStatus v).tmpCap = s.tmpCap := rfl
@[simp] theorem writeStatus_outLen (s : State) (v : Word) : (s.writeStatus v).outLen = s.outLen := rfl
@[simp] theorem writeStatus_srcPos (s : State) (v : Word) : (s.writeStatus v).srcPos = s.srcPos := rfl
@[simp] theorem writeStatus_bitcnt (s : State) (v : Word) : (s.writeStatus v).bitcnt = s.bitcnt := rfl
@[simp] theorem writeStatus_total (s : State) (v : Word) : (s.writeStatus v).total = s.total := rfl
@[simp] theorem writeStatus_errInfo (s : State) (v : Word) : (s.writeStatus v).errInfo = (if v.getLsbD 2 then 0 else s.errInfo) := rfl
@[simp] theorem writeStatus_freq (s : State) (v : Word) : (s.writeStatus v).freq = s.freq := rfl
@[simp] theorem writeStatus_tree (s : State) (v : Word) : (s.writeStatus v).tree = s.tree := rfl
@[simp] theorem writeStatus_codes (s : State) (v : Word) : (s.writeStatus v).codes = s.codes := rfl
@[simp] theorem writeStatus_mem (s : State) (v : Word) : (s.writeStatus v).mem = s.mem := rfl
@[simp] theorem writeStatus_host (s : State) (v : Word) : (s.writeStatus v).host = s.host := rfl
@[simp] theorem writeStatus_rdata (s : State) (v : Word) : (s.writeStatus v).rdata = s.rdata := rfl
@[simp] theorem writeStatus_lag (s : State) (v : Word) : (s.writeStatus v).lag = s.lag := rfl
@[simp] theorem writeStatus_lags (s : State) (v : Word) : (s.writeStatus v).lags = s.lags := rfl
@[simp] theorem writeStatus_freeCount (s : State) (v : Word) : (s.writeStatus v).freeCount = s.freeCount := rfl

/-! ### engineReset -/

@[simp] theorem engineReset_params (s : State) : s.engineReset.params = s.params := rfl
@[simp] theorem engineReset_seq (s : State) : s.engineReset.seq = .idle := rfl
@[simp] theorem engineReset_irqEn (s : State) : s.engineReset.irqEn = false := rfl
@[simp] theorem engineReset_done (s : State) : s.engineReset.done = false := rfl
@[simp] theorem engineReset_err (s : State) : s.engineReset.err = false := rfl
@[simp] theorem engineReset_ovr (s : State) : s.engineReset.ovr = false := rfl
@[simp] theorem engineReset_errCode (s : State) : s.engineReset.errCode = none := rfl
@[simp] theorem engineReset_cmd (s : State) : s.engineReset.cmd = 0 := rfl
@[simp] theorem engineReset_srcBase (s : State) : s.engineReset.srcBase = 0 := rfl
@[simp] theorem engineReset_srcLen (s : State) : s.engineReset.srcLen = 0 := rfl
@[simp] theorem engineReset_dstBase (s : State) : s.engineReset.dstBase = 0 := rfl
@[simp] theorem engineReset_dstCap (s : State) : s.engineReset.dstCap = 0 := rfl
@[simp] theorem engineReset_tmpBase (s : State) : s.engineReset.tmpBase = 0 := rfl
@[simp] theorem engineReset_tmpCap (s : State) : s.engineReset.tmpCap = 0 := rfl
@[simp] theorem engineReset_outLen (s : State) : s.engineReset.outLen = 0 := rfl
@[simp] theorem engineReset_srcPos (s : State) : s.engineReset.srcPos = 0 := rfl
@[simp] theorem engineReset_bitcnt (s : State) : s.engineReset.bitcnt = 0 := rfl
@[simp] theorem engineReset_total (s : State) : s.engineReset.total = 0 := rfl
@[simp] theorem engineReset_errInfo (s : State) : s.engineReset.errInfo = 0 := rfl
@[simp] theorem engineReset_freq (s : State) : s.engineReset.freq = Vector.replicate 256 0 := rfl
@[simp] theorem engineReset_tree (s : State) : s.engineReset.tree = none := rfl
@[simp] theorem engineReset_codes (s : State) : s.engineReset.codes = CodeTable.empty := rfl
@[simp] theorem engineReset_mem (s : State) : s.engineReset.mem = s.mem := rfl
@[simp] theorem engineReset_host (s : State) : s.engineReset.host = s.host := rfl
@[simp] theorem engineReset_rdata (s : State) : s.engineReset.rdata = s.rdata := rfl
@[simp] theorem engineReset_lag (s : State) : s.engineReset.lag = 0 := rfl
@[simp] theorem engineReset_lags (s : State) : s.engineReset.lags = s.lags := rfl
@[simp] theorem engineReset_freeCount (s : State) : s.engineReset.freeCount = s.freeCount := rfl

end Sys2Proof.Machine.State
end

