-- ==== Sys2Proof/Laws/Effect.lean ====
section
/-! SUPPORT. Everything a command can do: its start, and one inversion lemma, `exec_effect`, that the
whole-machine statements cite instead of unfolding a meaning (40_command.md R133 to R137; 30_encoding.md
R94; 60_exceptions.md R293). -/

namespace Sys2Proof.Machine

/-! ### Starting -/

theorem startResult_run {i : Instr} {s : State} : startResult i s = .run ↔
    startCheck i s = none ∧ s.regionsDisjoint i = true ∧ (usedRegions i).any s.regionHasSideEffects = false := by
  unfold startResult
  split
  · next r h => simp [h]
  · next h =>
    by_cases h1 : s.regionsDisjoint i = true <;> by_cases h2 : (usedRegions i).any s.regionHasSideEffects = true
    all_goals simp_all

theorem startCheck_none {i : Instr} {s : State} : startCheck i s = none ↔
    (∀ r ∈ usedRegions i, s.regionValid r = true) ∧ precondition i s = true := by
  unfold startCheck
  split
  · next r h =>
    have h1 := List.find?_some h
    have h2 := List.mem_of_find?_eq_some h
    simp only [reduceCtorEq, false_iff, not_and]
    intro hall
    simp [hall r h2] at h1
  · next h =>
    rw [List.find?_eq_none] at h
    have : ∀ r ∈ usedRegions i, s.regionValid r = true := fun r hr => by simpa using h r hr
    by_cases hp : precondition i s = true
    · simpa [hp] using this
    · simp [hp]

theorem startCheck_raisable {i : Instr} {s : State} {r : Raise} (h : startCheck i s = some r) :
    r.kind ∈ raisable i := by
  unfold startCheck at h
  split at h
  · next q hq =>
    cases h
    have := List.mem_of_find?_eq_some hq
    match i with
    | .encode true | .encode false | .pack | .unpack | .ftCount | .treeSer | .treeDeser | .encRaw | .decRaw
    | .decode => simp [raisable]
    | .nop | .ftClear | .treeBuild => simp [usedRegions, usesRegion, readRegions, writeRegions] at this
  · split at h
    · simp at h
    · next hp =>
      cases h
      match i with
      | .treeBuild | .treeSer | .encRaw | .decRaw => simp [raisable]
      | .encode _ | .pack | .unpack | .ftCount | .treeDeser | .decode | .nop | .ftClear => simp [precondition] at hp

theorem mem_usedRegions {i : Instr} {r : Region} : r ∈ usedRegions i ↔ usesRegion i r = true := by
  cases r <;> simp [usedRegions]

theorem run_valid {i : Instr} {s : State} (h : startResult i s = .run) {r : Region} (hr : usesRegion i r = true) :
    s.regionBase r + s.regionSize r ≤ Config.addrSpace := by
  have := (startCheck_none.1 (startResult_run.1 h).1).1 r (mem_usedRegions.2 hr)
  simpa [State.regionValid] using this

theorem run_precondition {i : Instr} {s : State} (h : startResult i s = .run) : precondition i s = true :=
  (startCheck_none.1 (startResult_run.1 h).1).2

theorem apart_of_disjoint {s : State} {r q : Region} (h : s.disjoint r q = true) :
    Apart (s.regionBase r) (s.regionSize r) (s.regionBase q) (s.regionSize q) ∧
      Apart (s.regionBase q) (s.regionSize q) (s.regionBase r) (s.regionSize r) := by
  simp only [State.disjoint, Bool.or_eq_true, decide_eq_true_eq] at h
  constructor <;> intro j hj <;> omega

/-- The regions of a command that runs are apart (20_memory.md R85). -/
theorem run_apart {i : Instr} {s : State} (h : startResult i s = .run) {r q : Region} (hr : usesRegion i r = true)
    (hq : usesRegion i q = true) (hne : r ≠ q) :
    Apart (s.regionBase r) (s.regionSize r) (s.regionBase q) (s.regionSize q) := by
  have hd := (startResult_run.1 h).2.1
  simp only [State.regionsDisjoint, Bool.and_eq_true, Bool.or_eq_true, Bool.not_eq_true', Bool.and_eq_false_iff] at hd
  obtain ⟨⟨h1, h2⟩, h3⟩ := hd
  cases r <;> cases q <;> simp [hr, hq] at h1 h2 h3 hne <;>
    first
    | exact (apart_of_disjoint h1).1
    | exact (apart_of_disjoint h1).2
    | exact (apart_of_disjoint h2).1
    | exact (apart_of_disjoint h2).2
    | exact (apart_of_disjoint h3).1
    | exact (apart_of_disjoint h3).2

/-- Every way a command ends: an error of its start checks, a refusal, or its procedure. -/
theorem runCommand_next {i : Instr} {s t : State} {body : State → State} (h : runCommand i s body = .next t) :
    (∃ r, startCheck i s = some r ∧ t = s.raiseErr r) ∨ (startResult i s = .run ∧ t = body s) := by
  unfold runCommand at h
  split at h
  · next r hr =>
    simp only [Host.Outcome.next.injEq] at h
    refine .inl ⟨r, ?_, h.symm⟩
    unfold startResult at hr
    split at hr
    · next r' hr' => simp only [Start.raise.injEq] at hr; rw [← hr]; exact hr'
    · split at hr
      · simp at hr
      · split at hr <;> simp at hr
  · simp at h
  · next hr => simp only [Host.Outcome.next.injEq] at h; exact .inr ⟨hr, h.symm⟩

theorem runCommand_run {i : Instr} {s : State} {body : State → State} (h : startResult i s = .run) :
    runCommand i s body = .next (body s) := by simp [runCommand, h]

/-! ### The effect of a command -/

/-- A command after whose failed parse there is no tree (43_framer.md R221, 45_pipeline.md R266). -/
def ParseFailed (i : Instr) (error : Option ErrKind) : Prop :=
  (i = .treeDeser ∨ i = .decode) ∧ (error = some .io ∨ error = some .corrupt)

/-- All a command may do to the state, and all it leaves alone. -/
structure Effect (i : Instr) (s t : State) : Prop where
  frame : t = { s with seq := .idle, done := t.done, err := t.err, errCode := t.errCode, errInfo := t.errInfo, outLen := t.outLen, srcPos := t.srcPos, bitcnt := t.bitcnt, total := t.total, freq := t.freq, tree := t.tree, codes := t.codes, mem := t.mem }
  outcome : (t.done = true ∧ t.err = s.err ∧ t.errCode = s.errCode ∧ t.errInfo = s.errInfo ∧
      ∀ a, storedAt i t a = false → t.mem.read a = s.mem.read a) ∨
    (t.done = s.done ∧ t.err = true ∧ (∃ k ∈ raisable i, t.errCode = some k) ∧ t.outLen = s.outLen ∧
      t.srcPos = s.srcPos ∧ t.bitcnt = s.bitcnt)
  outLen : .outLen ∉ results i → t.outLen = s.outLen
  bitcnt : .bitcnt ∉ results i → t.bitcnt = s.bitcnt
  srcPos : .srcPos ∉ results i → t.srcPos = s.srcPos
  counters : .counters ∉ results i → t.freq = s.freq ∧ t.total = s.total
  tree : (t.tree = s.tree ∧ t.codes = s.codes) ∨ (.tree ∈ results i ∧
    ((t.tree = none ∧ t.codes = CodeTable.empty ∧ t.err = true ∧ ParseFailed i t.errCode) ∨
      ∃ T : Tree, t.tree = some T ∧ T.Ok ∧ t.codes = deriveCodes T))
  mem : ∀ a, (∀ r ∈ writeRegions i, s.inRegion r a = false) → t.mem.read a = s.mem.read a
  wf : s.mem.wf = true → t.mem.wf = true

/-- A memory a command may leave: changed in its written regions only, and still in canonical form. -/
structure MemStep (i : Instr) (s : State) (m : Memory) : Prop where
  mem : ∀ a, (∀ r ∈ writeRegions i, s.inRegion r a = false) → m.read a = s.mem.read a
  wf : s.mem.wf = true → m.wf = true

theorem MemStep.same (i : Instr) (s : State) : MemStep i s s.mem := ⟨fun _ _ => rfl, id⟩

theorem MemStep.touched {i : Instr} {s : State} {r : Region} {m m' : Memory} (h : MemStep i s m)
    (hr : r ∈ writeRegions i) (hv : s.regionBase r + s.regionSize r ≤ Config.addrSpace)
    (ht : Touched (s.regionBase r) (s.regionSize r) m m') : MemStep i s m' where
  mem := fun a ha => by
    have := ha r hr
    simp only [State.inRegion, Bool.and_eq_false_iff, decide_eq_false_iff_not] at this
    rw [ht.read_other (by omega)]
    exact h.mem a ha
  wf := fun hw => ht.wf hv (h.wf hw)

/-- The tree and the code table a command may leave. -/
def TreeStep (i : Instr) (s : State) (tr : Option Tree) (cd : CodeTable) (error : Option ErrKind) : Prop :=
  (tr = s.tree ∧ cd = s.codes) ∨ (.tree ∈ results i ∧
    ((tr = none ∧ cd = CodeTable.empty ∧ ParseFailed i error) ∨ ∃ T : Tree, tr = some T ∧ T.Ok ∧ cd = deriveCodes T))

theorem TreeStep.same (i : Instr) (s : State) (f : Option ErrKind) : TreeStep i s s.tree s.codes f := .inl ⟨rfl, rfl⟩

/-- A command that raises in its procedure (40_command.md R136, R137). -/
theorem Effect.raised {i : Instr} {s : State} {m : Memory} {f : FreqTable} {tot : Word} {tr : Option Tree}
    {cd : CodeTable} {r : Raise} (hm : MemStep i s m) (hc : .counters ∉ results i → f = s.freq ∧ tot = s.total)
    (ht : TreeStep i s tr cd (some r.kind)) (hk : r.kind ∈ raisable i) :
    Effect i s ({ s with mem := m, freq := f, total := tot, tree := tr, codes := cd }.raiseErr r) where
  frame := rfl
  outcome := .inr ⟨rfl, rfl, ⟨r.kind, hk, rfl⟩, rfl, rfl, rfl⟩
  outLen := fun _ => rfl
  bitcnt := fun _ => rfl
  srcPos := fun _ => rfl
  counters := hc
  tree := ht.imp_right fun h => ⟨h.1, h.2.imp_left fun h => ⟨h.1, h.2.1, rfl, h.2.2⟩⟩
  mem := hm.mem
  wf := hm.wf

/-- A command that completes (40_command.md R135). -/
theorem Effect.completed {i : Instr} {s : State} {m : Memory} {f : FreqTable} {tot : Word} {tr : Option Tree}
    {cd : CodeTable} {ol sp : Word} {bc : Dword} (hm : MemStep i s m)
    (hc : .counters ∉ results i → f = s.freq ∧ tot = s.total) (ht : TreeStep i s tr cd none)
    (hol : .outLen ∉ results i → ol = s.outLen) (hbc : .bitcnt ∉ results i → bc = s.bitcnt)
    (hsp : .srcPos ∉ results i → sp = s.srcPos)
    (hst : ∀ a, storedAt i { s with outLen := ol, bitcnt := bc } a = false → m.read a = s.mem.read a) :
    Effect i s ({ s with mem := m, freq := f, total := tot, tree := tr, codes := cd, outLen := ol, bitcnt := bc, srcPos := sp }.complete) where
  frame := rfl
  outcome := .inl ⟨rfl, rfl, rfl, rfl, hst⟩
  outLen := hol
  bitcnt := hbc
  srcPos := hsp
  counters := hc
  tree := by
    rcases ht with h | ⟨h1, ⟨-, -, -, h⟩ | h⟩
    · exact .inl h
    · simp at h
    · exact .inr ⟨h1, .inr h⟩
  mem := hm.mem
  wf := hm.wf

theorem Effect.startRaised {i : Instr} {s : State} {r : Raise} (h : startCheck i s = some r) :
    Effect i s (s.raiseErr r) :=
  Effect.raised (MemStep.same i s) (fun _ => ⟨rfl, rfl⟩) (TreeStep.same i s _) (startCheck_raisable h)

/-- The bytes stored in DST by a command that completed. -/
theorem stored_dst {i : Instr} {s : State} {n : Nat} {ol : Word} {bc : Dword} {l : List Byte}
    (hw : writeRegions i = [.dst]) (hl : l.length = n) (hcap : l.length ≤ s.dstCap.toNat)
    (hol : ol = BitVec.ofNat 32 n) (a : Nat) (ha : storedAt i { s with outLen := ol, bitcnt := bc } a = false) :
    (s.mem.writeBytes s.dstBase.toNat l).read a = s.mem.read a := by
  have := s.dstCap.isLt
  subst hol
  simp only [storedAt, hw, List.any_cons, List.any_nil, Bool.or_false, Bool.and_eq_false_iff,
    decide_eq_false_iff_not, BitVec.toNat_ofNat] at ha
  rw [Nat.mod_eq_of_lt (by omega)] at ha
  exact Memory.read_writeBytes_other _ _ (by omega)

/-! ### Command by command -/

/-- A procedure that writes only DST and raises only errors of the command. -/
theorem dst_raised {i : Instr} {s : State} {m : Memory} {r : Raise} {ks : List ErrKind}
    (hw : writeRegions i = [.dst]) (hv : s.dstBase.toNat + s.dstCap.toNat ≤ Config.addrSpace)
    (h : Raised s.dstBase.toNat s.dstCap.toNat s.mem ks m r) (hk : ∀ k ∈ ks, k ∈ raisable i)
    {tr : Option Tree} {cd : CodeTable} (ht : TreeStep i s tr cd (some r.kind)) :
    Effect i s ({ s with mem := m, tree := tr, codes := cd }.raiseErr r) :=
  Effect.raised ((MemStep.same i s).touched (r := .dst) (by simp [hw]) hv h.1) (fun _ => ⟨rfl, rfl⟩) ht (hk _ h.2)

theorem dst_completed {i : Instr} {s : State} {n : Nat} {l : List Byte} {bc : Dword} {sp : Word}
    (hw : writeRegions i = [.dst]) (hv : s.dstBase.toNat + s.dstCap.toNat ≤ Config.addrSpace)
    (hl : l.length = n) (hc : l.length ≤ s.dstCap.toNat) (hol : .outLen ∈ results i)
    (hbc : .bitcnt ∉ results i → bc = s.bitcnt) (hsp : .srcPos ∉ results i → sp = s.srcPos)
    {tr : Option Tree} {cd : CodeTable} (ht : TreeStep i s tr cd none) :
    Effect i s ({ s with mem := s.mem.writeBytes s.dstBase.toNat l, tree := tr, codes := cd, outLen := BitVec.ofNat 32 n, bitcnt := bc, srcPos := sp }.complete) :=
  Effect.completed ((MemStep.same i s).touched (r := .dst) (by simp [hw]) hv ⟨l, hc, rfl⟩) (fun _ => ⟨rfl, rfl⟩) ht
    (fun h => absurd hol h) hbc hsp (stored_dst hw hl hc rfl)

section
variable {s : State}

theorem nop_effect (_ : startResult .nop s = .run) : Effect .nop s s.complete :=
  Effect.completed (MemStep.same _ s) (fun _ => ⟨rfl, rfl⟩) (TreeStep.same _ s _) (fun _ => rfl) (fun _ => rfl)
    (fun _ => rfl) fun _ _ => rfl

theorem packBody_effect (h : startResult .pack s = .run) : Effect .pack s (packBody s) := by
  have hv := run_valid h (r := .dst) rfl
  have hr := Res.Post.bind (packLoop_ends (p := s.params) hv s.srcLen.toNat 0
      (srcOpen s.srcBase.toNat s.srcLen.toNat) (outOpen_open s.params _ _ s.mem))
    (fun m out ho => (ho.outFlush hv).mono (fun _ _ h => h) fun m r h => h.weaken (ks' := [.io, .illegal]) (by simp))
  simp only [State.regionBase, State.regionSize] at hr hv
  unfold packBody
  simp only
  split
  · next m r he => rw [he] at hr; exact dst_raised (i := .pack) rfl hv hr (by simp [raisable]) (TreeStep.same _ s _)
  · next m out he =>
    rw [he] at hr
    obtain ⟨l, hl, hc, rfl, -⟩ := hr
    exact dst_completed (i := .pack) rfl hv hl hc (by simp [results]) (by simp [results]) (fun _ => rfl)
      (TreeStep.same _ s _)

theorem unpackBody_effect (h : startResult .unpack s = .run) : Effect .unpack s (unpackBody s) := by
  have hv := run_valid h (r := .dst) rfl
  have hr := Res.Post.bind (unpackLoop_ends (p := s.params) hv s.bitcnt.toNat
      (srcOpen s.srcBase.toNat s.srcLen.toNat) (outOpen_openBytes s.params _ _ s.mem))
    (fun m out ho => (ho.outFlush hv).mono (fun _ _ h => h) fun m r h => h.weaken (ks' := [.io, .corrupt]) (by simp))
  simp only [State.regionBase, State.regionSize] at hr hv
  unfold unpackBody
  simp only
  split
  · next m r he => rw [he] at hr; exact dst_raised (i := .unpack) rfl hv hr (by simp [raisable]) (TreeStep.same _ s _)
  · next m out he =>
    rw [he] at hr
    obtain ⟨l, hl, hc, rfl⟩ := hr
    exact dst_completed (i := .unpack) rfl hv hl hc (by simp [results]) (fun _ => rfl) (fun _ => rfl)
      (TreeStep.same _ s _)

theorem ftClear_effect (_ : startResult .ftClear s = .run) :
    Effect .ftClear s { s with freq := Counters.clear.freq, total := Counters.clear.total }.complete :=
  Effect.completed (MemStep.same _ s) (fun h => absurd (by simp [results]) h) (TreeStep.same _ s _)
    (fun _ => rfl) (fun _ => rfl) (fun _ => rfl) fun _ _ => rfl

theorem ftCountBody_effect (_ : startResult .ftCount s = .run) : Effect .ftCount s (ftCountBody s) := by
  have hr := count_ends s ⟨s.freq, s.total⟩
  unfold ftCountBody
  split
  · next c r he =>
    rw [he] at hr
    exact Effect.raised (i := .ftCount) (MemStep.same _ s) (fun h => absurd (by simp [results]) h)
      (TreeStep.same _ s _) (by rcases hr with h | h <;> simp [h, raisable])
  · exact Effect.completed (i := .ftCount) (MemStep.same _ s) (fun h => absurd (by simp [results]) h)
      (TreeStep.same _ s _) (fun _ => rfl) (fun _ => rfl) (fun _ => rfl) fun _ _ => rfl

theorem treeBuildBody_effect (h : startResult .treeBuild s = .run) : Effect .treeBuild s (treeBuildBody s) := by
  unfold treeBuildBody
  split
  · next T hT =>
    exact Effect.completed (i := .treeBuild) (MemStep.same _ s) (fun _ => ⟨rfl, rfl⟩)
      (.inr ⟨by simp [results], .inr ⟨T, rfl, (buildTree_ok hT).1, rfl⟩⟩) (fun _ => rfl) (fun _ => rfl) (fun _ => rfl)
      fun _ _ => rfl
  · next hT =>
    obtain ⟨T, hT'⟩ := buildTree_isSome.2 (any_freq_iff.1 (run_precondition h))
    rw [hT] at hT'
    simp at hT'

theorem treeSerBody_effect (h : startResult .treeSer s = .run) : Effect .treeSer s (treeSerBody s) := by
  have hv := run_valid h (r := .dst) rfl
  unfold treeSerBody
  split
  · next hT => have := run_precondition h; simp [precondition, State.treeValid, hT] at this
  · next T hT =>
    have hr := Res.Post.bind ((outOpen_openBytes s.params _ _ s.mem).outBytes hv (serTree T))
      (fun m out ho => ho.outFlush hv)
    simp only [State.regionBase, State.regionSize] at hr hv
    simp only
    split
    · next m r he =>
      rw [he] at hr; exact dst_raised (i := .treeSer) rfl hv hr (by simp [raisable]) (TreeStep.same _ s _)
    · next m out he =>
      rw [he] at hr
      obtain ⟨l, hl, hc, rfl⟩ := hr
      exact dst_completed (i := .treeSer) rfl hv hl hc (by simp [results]) (fun _ => rfl) (fun _ => rfl)
        (TreeStep.same _ s _)

theorem treeDeserBody_effect (_ : startResult .treeDeser s = .run) : Effect .treeDeser s (treeDeserBody s) := by
  unfold treeDeserBody
  rcases parseTree_cases s.params s.mem (srcOpen s.srcBase.toNat s.srcLen.toNat) with ⟨r, he, hr⟩ | ⟨T, ch, he, h1, h2, h3⟩
  · rw [he]
    exact Effect.raised (i := .treeDeser) (MemStep.same _ s) (fun _ => ⟨rfl, rfl⟩)
      (.inr ⟨by simp [results], .inl ⟨rfl, rfl, by simp, hr.imp (congrArg some) (congrArg some)⟩⟩) (by rcases hr with h | h <;> simp [h, raisable])
  · rw [he]
    exact Effect.completed (i := .treeDeser) (MemStep.same _ s) (fun _ => ⟨rfl, rfl⟩)
      (.inr ⟨by simp [results], .inr ⟨T, rfl, Tree.ok_of_range h1 h2 h3, rfl⟩⟩) (fun _ => rfl) (fun _ => rfl)
      (fun h => absurd (by simp [results]) h) fun _ _ => rfl

theorem encRawBody_effect (h : startResult .encRaw s = .run) : Effect .encRaw s (encRawBody s) := by
  have hv := run_valid h (r := .dst) rfl
  have hr := Res.Post.bind (encodeSyms_ends (p := s.params) hv s.codes s.srcLen.toNat 0
      (srcOpen s.srcBase.toNat s.srcLen.toNat) (outOpen_open s.params _ _ s.mem))
    (fun m out ho => (ho.outFlush hv).mono (fun _ _ h => h) fun m r h => h.weaken (ks' := [.io, .internal]) (by simp))
  simp only [State.regionBase, State.regionSize] at hr hv
  unfold encRawBody
  simp only
  split
  · next m r he => rw [he] at hr; exact dst_raised (i := .encRaw) rfl hv hr (by simp [raisable]) (TreeStep.same _ s _)
  · next m out he =>
    rw [he] at hr
    obtain ⟨l, hl, hc, rfl, -⟩ := hr
    exact dst_completed (i := .encRaw) rfl hv hl hc (by simp [results]) (by simp [results]) (fun _ => rfl)
      (TreeStep.same _ s _)

theorem decRawBody_effect (h : startResult .decRaw s = .run) : Effect .decRaw s (decRawBody s) := by
  have hv := run_valid h (r := .dst) rfl
  unfold decRawBody
  split
  · next hT => have := run_precondition h; simp [precondition, State.treeValid, hT] at this
  · next T hT =>
    have hr := Res.Post.bind (walkLoop_ends (p := s.params) hv T s.bitcnt.toNat 0 s.bitcnt.toNat .atRoot
        (srcOpen s.srcBase.toNat s.srcLen.toNat) (outOpen_openBytes s.params _ _ s.mem))
      (fun m out ho => (ho.outFlush hv).mono (fun _ _ h => h) fun m r h => h.weaken (ks' := [.io, .corrupt]) (by simp))
    simp only [State.regionBase, State.regionSize] at hr hv
    simp only [walk]
    split
    · next m r he =>
      rw [he] at hr; exact dst_raised (i := .decRaw) rfl hv hr (by simp [raisable]) (TreeStep.same _ s _)
    · next m out he =>
      rw [he] at hr
      obtain ⟨l, hl, hc, rfl⟩ := hr
      exact dst_completed (i := .decRaw) rfl hv hl hc (by simp [results]) (fun _ => rfl) (fun _ => rfl)
        (TreeStep.same _ s _)

theorem decodeBody_effect (h : startResult .decode s = .run) : Effect .decode s (decodeBody s) := by
  have hv := run_valid h (r := .dst) rfl
  unfold decodeBody
  split
  · exact Effect.completed (i := .decode) (MemStep.same _ s) (fun _ => ⟨rfl, rfl⟩) (TreeStep.same _ s _)
      (by simp [results]) (by simp [results]) (by simp [results]) fun _ _ => rfl
  rcases parseTree_cases s.params s.mem (srcOpen s.srcBase.toNat s.srcLen.toNat) with ⟨r, he, hr⟩ | ⟨T, ch, he, h1, h2, h3⟩
  · rw [he]
    exact Effect.raised (i := .decode) (MemStep.same _ s) (fun _ => ⟨rfl, rfl⟩)
      (.inr ⟨by simp [results], .inl ⟨rfl, rfl, by simp, hr.imp (congrArg some) (congrArg some)⟩⟩) (by rcases hr with h | h <;> simp [h, raisable])
  rw [he]
  have hT : ∀ f, TreeStep .decode s (some T) (deriveCodes T) f := fun f =>
    .inr ⟨by simp [results], .inr ⟨T, rfl, Tree.ok_of_range h1 h2 h3, rfl⟩⟩
  simp only [decodeRest]
  rcases parseCount_cases (s.install T).params (s.install T).mem ch with ⟨r, he, hr⟩ | ⟨bc, ch, he⟩
  · rw [he]
    exact Effect.raised (i := .decode) (MemStep.same _ s) (fun _ => ⟨rfl, rfl⟩) (hT _)
      (by rcases hr with h | h <;> simp [h, raisable])
  rw [he]
  have hr := Res.Post.bind (walkLoop_ends (p := s.params) hv T bc ch.pos bc .atRoot ch
      (outOpen_openBytes s.params _ _ s.mem))
    (fun m out ho => (ho.outFlush hv).mono (fun _ _ h => h) fun m r h => h.weaken (ks' := [.io, .corrupt]) (by simp))
  simp only [State.regionBase, State.regionSize] at hr hv
  simp only [walk, State.install_params, State.install_mem, State.install_dstBase, State.install_dstCap]
  split
  · next m r he => rw [he] at hr; exact dst_raised (i := .decode) rfl hv hr (by simp [raisable]) (hT _)
  · next m out he =>
    rw [he] at hr
    obtain ⟨l, hl, hc, rfl⟩ := hr
    exact dst_completed (i := .decode) rfl hv hl hc (by simp [results]) (by simp [results]) (by simp [results]) (hT _)

/-- The output stage of ENCODE on the memory pass 2 leaves. -/
theorem encodeOutput_ends {T : Tree} {bc plen : Nat} {m : Memory}
    (hv : s.dstBase.toNat + s.dstCap.toNat ≤ Config.addrSpace) :
    (encodeOutput s T bc plen m).Post
      (fun m' out => ∃ l, l.length = out.n ∧ l.length ≤ s.dstCap.toNat ∧ m' = m.writeBytes s.dstBase.toNat l)
      (Raised s.dstBase.toNat s.dstCap.toNat m [.io]) :=
  Res.Post.bind ((outOpen_openBytes s.params _ _ m).outBytes hv (headerBytes T bc)) fun _ _ h1 =>
    Res.Post.bind (copyLoop_ends hv plen _ h1) fun _ _ h2 => h2.outFlush hv

/-- ENCODE after pass 1, on the state `s1` that pass 1 or the host left. -/
theorem encodeRest_effect {pre : Bool} (h : startResult (.encode pre) s = .run) {f : FreqTable} {tot : Word}
    (hc : .counters ∉ results (.encode pre) → f = s.freq ∧ tot = s.total)
    (hne : pre = false → s.srcLen ≠ 0 → ∀ q, q ∈ s.srcBytes → lookup f q ≠ 0) :
    Effect (.encode pre) s (encodeRest { s with freq := f, total := tot }) := by
  have hvd := run_valid h (r := .dst) rfl
  have hvt := run_valid h (r := .tmp) rfl
  have hap := run_apart h (r := .src) (q := .tmp) rfl rfl (by simp)
  have hdst : Region.dst ∈ writeRegions (.encode pre) := by simp [writeRegions]
  have htmp : Region.tmp ∈ writeRegions (.encode pre) := by simp [writeRegions]
  have hol : Result.outLen ∈ results (.encode pre) := by cases pre <;> simp [results]
  have hbc : Result.bitcnt ∈ results (.encode pre) := by cases pre <;> simp [results]
  have htr : Result.tree ∈ results (.encode pre) := by cases pre <;> simp [results]
  have hio : ErrKind.io ∈ raisable (.encode pre) := by cases pre <;> simp [raisable]
  unfold encodeRest
  split
  · exact Effect.completed (MemStep.same _ s) hc (TreeStep.same _ s _) (fun h => absurd hol h)
      (fun h => absurd hbc h) (fun _ => rfl) fun _ _ => rfl
  next hlen =>
  simp only at hlen
  split
  · next hT =>
    simp only at hT
    have hz := (not_congr (buildTree_isSome (freq := f))).1 (by rintro ⟨T, h⟩; rw [hT] at h; simp at h)
    cases pre with
    | false =>
      exfalso
      have hpos : 0 < s.srcLen.toNat := by
        rcases Nat.eq_zero_or_pos s.srcLen.toNat with h0 | h0
        · exact absurd (BitVec.eq_of_toNat_eq h0) hlen
        · exact h0
      refine hz ⟨_, hne rfl hlen (s.mem.read s.srcBase.toNat) ?_⟩
      obtain ⟨k, hk⟩ : ∃ k, s.srcLen.toNat = k + 1 := ⟨s.srcLen.toNat - 1, by omega⟩
      simp [State.srcBytes, hk]
    | true =>
      exact Effect.raised (i := .encode true) (MemStep.same _ s) hc (TreeStep.same _ s _) (by simp [raisable, raise])
  · next T hT =>
    simp only at hT
    obtain ⟨hok, -, hsy⟩ := buildTree_ok hT
    have hTs : ∀ b, TreeStep (.encode pre) s (some T) (deriveCodes T) b := fun b =>
      .inr ⟨htr, .inr ⟨T, rfl, hok, rfl⟩⟩
    have h1 : (encodePass2 ({ s with freq := f, total := tot }.install T) (deriveCodes T)).Post
        (fun m' ch' => ∃ l, l.length = ch'.n ∧ l.length ≤ s.tmpCap.toNat ∧ m' = s.mem.writeBytes s.tmpBase.toNat l ∧
          ch'.n = (ch'.bits + 7) / 8)
        (fun m r => Touched s.tmpBase.toNat s.tmpCap.toNat s.mem m ∧ r.kind ∈ raisable (.encode pre)) := by
      refine Res.Post.bind ((?_ : Res.Post _ (fun m' out' => out'.Open s.params s.tmpBase.toNat s.tmpCap.toNat s.mem m') _))
        fun m out ho => (ho.outFlush hvt).mono (fun _ _ h => h) fun m r h => ⟨h.1, by have := h.2; simp at this; rw [this]; exact hio⟩
      cases pre with
      | false =>
        refine (encodeSyms_ends_coded (p := s.params) hvt (deriveCodes T) _ 0 _ (outOpen_open s.params _ _ s.mem)
          (srcOpen_aligned _ _ _ _) hap fun j hj => ?_).mono (fun _ _ h => h) fun m r h => ⟨h.1, by have := h.2; simp at this; rw [this]; exact hio⟩
        rw [hasCode_deriveCodes hok.root, hsy]
        refine hne rfl hlen _ ?_
        simp only [srcOpen] at hj ⊢
        rw [State.srcBytes, List.mem_iff_getElem]
        exact ⟨j, by simpa using hj, Memory.getElem_bytes _ _ _ _ _⟩
      | true =>
        exact (encodeSyms_ends (p := s.params) hvt (deriveCodes T) _ 0 _ (outOpen_open s.params _ _ s.mem)).mono
          (fun _ _ h => h) fun m r h => ⟨h.1, by have := h.2; simp at this; rcases this with h | h <;> simp [h, raisable]⟩
    simp only
    generalize hp : (encodePass2 ({ s with freq := f, total := tot }.install T)
      ({ s with freq := f, total := tot }.install T).codes) = x
    have hp' : encodePass2 ({ s with freq := f, total := tot }.install T) (deriveCodes T) = x := hp
    rw [hp'] at h1
    cases x with
    | raised m r =>
      simp only [Res.bind_raised]
      exact Effect.raised ((MemStep.same _ s).touched htmp hvt h1.1) hc (hTs _) h1.2
    | ok m tmp =>
      obtain ⟨l1, hl1, hc1, rfl, hn1⟩ := h1
      have hm1 : MemStep (.encode pre) s (s.mem.writeBytes s.tmpBase.toNat l1) :=
        (MemStep.same _ s).touched htmp hvt ⟨l1, hc1, rfl⟩
      have h2 := encodeOutput_ends (s := { s with freq := f, total := tot }.install T) (T := T) (bc := tmp.bits)
        (plen := tmp.n) (m := s.mem.writeBytes s.tmpBase.toNat l1) (by exact hvd)
      simp only [Res.bind_ok]
      generalize encodeOutput _ _ _ _ _ = y at h2
      cases y with
      | raised m r =>
        simp only [Res.bind_raised]
        exact Effect.raised (hm1.touched hdst hvd h2.1) hc (hTs _) (by have := h2.2; simp at this; rw [this]; exact hio)
      | ok m out =>
        obtain ⟨l2, hl2, hc2, rfl⟩ := h2
        simp only [Res.bind_ok]
        refine Effect.completed (hm1.touched hdst hvd ⟨l2, hc2, rfl⟩) hc (hTs _) (fun h => absurd hol h)
          (fun h => absurd hbc h) (fun _ => rfl) fun a ha => ?_
        have hd := s.dstCap.isLt
        have ht := s.tmpCap.isLt
        simp only [State.install_dstCap] at hc2
        simp only [storedAt, writeRegions, List.any_cons, List.any_nil, Bool.or_false, Bool.or_eq_false_iff,
          Bool.and_eq_false_iff, decide_eq_false_iff_not, BitVec.toNat_ofNat] at ha
        obtain ⟨ha1, ha2⟩ := ha
        rw [Nat.mod_eq_of_lt (by omega)] at ha1 ha2
        rw [Memory.read_writeBytes_other _ _ (by simp only [State.install_dstBase]; omega),
          Memory.read_writeBytes_other _ _ (by omega)]

theorem encodeBody_effect {pre : Bool} (h : startResult (.encode pre) s = .run) :
    Effect (.encode pre) s (encodeBody pre s) := by
  unfold encodeBody
  cases pre with
  | true =>
    exact encodeRest_effect (f := s.freq) (tot := s.total) h (fun _ => ⟨rfl, rfl⟩) (by simp)
  | false =>
    have hr := count_clear_ends s
    simp only [Bool.false_eq_true, if_false]
    split
    · next c r he =>
      rw [he] at hr
      exact Effect.raised (MemStep.same _ s) (fun h => absurd (by simp [results]) h) (TreeStep.same _ s _)
        (by rw [show r.kind = .io from hr]; simp [raisable])
    · next c he =>
      rw [he] at hr
      refine encodeRest_effect h (fun h => absurd (by simp [results]) h) fun _ _ q hq => ?_
      rw [show c = _ from hr]
      exact (tallyAll_clear_ne_zero (by simpa [State.srcBytes] using s.srcLen.isLt)).2 hq

end

/-- What any command does (40_command.md R133 to R137): the one inversion of `exec`. -/
theorem exec_effect {i : Instr} {s t : State} (h : exec i s = .next t) : Effect i s t := by
  cases i <;>
    simp only [exec, execNop, execPack, execUnpack, execFtClear, execFtCount, execTreeBuild, execTreeSer,
      execTreeDeser, execEncRaw, execDecRaw, execEncode, execDecode] at h <;>
    rcases runCommand_next h with ⟨r, hr, rfl⟩ | ⟨hr, rfl⟩ <;>
    first
    | exact Effect.startRaised hr
    | exact nop_effect hr
    | exact packBody_effect hr
    | exact unpackBody_effect hr
    | exact ftClear_effect hr
    | exact ftCountBody_effect hr
    | exact treeBuildBody_effect hr
    | exact treeSerBody_effect hr
    | exact treeDeserBody_effect hr
    | exact encRawBody_effect hr
    | exact decRawBody_effect hr
    | exact encodeBody_effect hr
    | exact decodeBody_effect hr

/-- Every command is a start and a procedure (40_command.md R133, R134). -/
theorem exec_eq (i : Instr) : ∃ body : State → State, ∀ s, exec i s = runCommand i s body := by
  cases i <;> exact ⟨_, fun _ => rfl⟩

/-- A command whose start raises ends with that error. -/
theorem exec_startRaises {i : Instr} {s : State} {r : Raise} (h : startCheck i s = some r) :
    exec i s = .next (s.raiseErr r) := by
  obtain ⟨body, hb⟩ := exec_eq i
  rw [hb]
  unfold runCommand startResult
  rw [h]

/-- A command that starts ends in a next state. -/
theorem exec_run_next {i : Instr} {s : State} (h : startResult i s = .run) : ∃ t, exec i s = .next t := by
  obtain ⟨body, hb⟩ := exec_eq i
  exact ⟨body s, by rw [hb, runCommand_run h]⟩

/-- A command that a model refuses, when its start checks pass. -/
theorem exec_refused {i : Instr} {s : State} {r : Refusal} (h : startResult i s = .refuse r) :
    exec i s = .refused r := by
  obtain ⟨body, hb⟩ := exec_eq i
  rw [hb]
  unfold runCommand
  rw [h]

/-- No command ends in a fault. -/
theorem exec_no_fault (i : Instr) (s : State) (f : Fault) : exec i s ≠ .fault f := by
  obtain ⟨body, hb⟩ := exec_eq i
  rw [hb]
  unfold runCommand
  split <;> simp

/-! ### The two refusals, address by address -/

/-- Two regions a command uses share no address (20_memory.md R85). -/
theorem regionsDisjoint_iff {s : State} {i : Instr} : s.regionsDisjoint i = true ↔ ¬∃ r q a, r ≠ q ∧ usesRegion i r = true ∧ usesRegion i q = true ∧
      s.inRegion r a = true ∧ s.inRegion q a = true := by
  have key : ∀ r q : Region, s.disjoint r q = true ↔ ¬∃ a, s.inRegion r a = true ∧ s.inRegion q a = true := by
    intro r q
    simp only [State.disjoint, State.inRegion, Bool.or_eq_true, Bool.and_eq_true, decide_eq_true_iff]
    constructor
    · rintro h ⟨a, h1, h2⟩; omega
    · intro h
      by_contra hc
      apply h
      exact ⟨max (s.regionBase r) (s.regionBase q), by omega⟩
  have sym : ∀ r q : Region, s.disjoint r q = s.disjoint q r := by
    intro r q
    rw [Bool.eq_iff_iff, key, key]
    constructor <;> rintro h ⟨a, h1, h2⟩ <;> exact h ⟨a, h2, h1⟩
  unfold State.regionsDisjoint
  simp only [Bool.and_eq_true, Bool.or_eq_true, Bool.not_eq_true', Bool.and_eq_false_iff, key]
  constructor
  · rintro ⟨⟨h1, h2⟩, h3⟩ ⟨r, q, a, hne, hr, hq, h4, h5⟩
    cases r <;> cases q
    · exact hne rfl
    · rcases h1 with h | h
      · simp_all
      · exact h ⟨a, h4, h5⟩
    · rcases h2 with h | h
      · simp_all
      · exact h ⟨a, h4, h5⟩
    · rcases h1 with h | h
      · simp_all
      · exact h ⟨a, h5, h4⟩
    · exact hne rfl
    · rcases h3 with h | h
      · simp_all
      · exact h ⟨a, h4, h5⟩
    · rcases h2 with h | h
      · simp_all
      · exact h ⟨a, h5, h4⟩
    · rcases h3 with h | h
      · simp_all
      · exact h ⟨a, h5, h4⟩
    · exact hne rfl
  · intro h
    have pair : ∀ r q : Region, r ≠ q → (usesRegion i r = false ∨ usesRegion i q = false) ∨ ¬∃ a, s.inRegion r a = true ∧ s.inRegion q a = true := by
      intro r q hne
      by_cases h1 : usesRegion i r = true
      · by_cases h2 : usesRegion i q = true
        · right; rintro ⟨a, h3⟩; exact h ⟨r, q, a, hne, h1, h2, h3⟩
        · left; right; simpa using h2
      · left; left; simpa using h1
    exact ⟨⟨pair _ _ (by decide), pair _ _ (by decide)⟩, pair _ _ (by decide)⟩
/-- A region a command uses lies on memory with read side effects (20_memory.md R78). -/
theorem sideEffects_iff {s : State} {i : Instr} : (usedRegions i).any s.regionHasSideEffects = true ↔ ∃ r a, usesRegion i r = true ∧ s.inRegion r a = true ∧
      Config.covers s.params.sideEffects a = true := by
  simp only [List.any_eq_true, mem_usedRegions, State.regionHasSideEffects, State.inRegion, Config.covers, Bool.and_eq_true, decide_eq_true_iff]
  constructor
  · rintro ⟨r, hr, q, hq, h⟩
    exact ⟨r, max (s.regionBase r) q.lo, hr, by omega, q, hq, by omega⟩
  · rintro ⟨r, a, hr, h, q, hq, h2⟩
    exact ⟨r, hr, q, hq, by omega⟩

end Sys2Proof.Machine
end

