-- ==== Sys2Proof/Laws/Results.lean ====
section
/-! SUPPORT. What each procedure computes where no access fails: the result, or the error and the bytes
already drained (41_bitstream.md R165, R166; 42_tree.md R196; 43_framer.md R225, R226; 44_dispatch.md R250,
R251; 45_pipeline.md R265, R266). -/

namespace Sys2Proof.Machine

theorem unpacked_eq (bs : List Bool) : unpacked bs = bs.map bitByte := by
  refine List.map_congr_left fun b _ => ?_
  cases b <;> rfl

theorem Takes.no_fail {p : Params} {base cap : Nat} {m0 m : Memory} {l : List Byte} {r : Raise}
    (h : Takes p base cap l.length) : ¬OutFail p base cap m0 l m r := fun h' => h'.absurd h.1 h.2

/-- The failing byte of an output is the first that cannot be written. -/
theorem OutFail.eq {p : Params} {base cap : Nat} {m0 m : Memory} {l : List Byte} {r : Raise} {j : Nat}
    (h : OutFail p base cap m0 l m r) (hg : ∀ i, i < j → goodByte p base cap i) (hb : ¬goodByte p base cap j) :
    m = m0.writeBytes base (l.take j) ∧ r = raise .io (base + j) := by
  obtain ⟨k, hk, hgk, hbk, hm, hr⟩ := h
  have : k = j := by
    rcases lt_trichotomy k j with h | h | h
    · exact (hbk (hg k h)).elim
    · exact h
    · exact (hb (hgk j h)).elim
  subst this
  exact ⟨hm, hr⟩

theorem Takes.le {p : Params} {base cap n k : Nat} (h : Takes p base cap n) (hk : k ≤ n) : Takes p base cap k :=
  ⟨Nat.le_trans hk h.1, fun j hj => h.2 j (by omega)⟩

/-- Every byte a region takes is good. -/
theorem Takes.good {p : Params} {base cap j : Nat} (h : Takes p base cap j) : ∀ i, i < j → goodByte p base cap i :=
  fun i hi => ⟨by have := h.1; omega, h.2 i hi⟩

/-- The first byte a region does not take. -/
theorem Takes.not_good {p : Params} {base cap j : Nat} (h : Takes p base cap j) (h2 : ¬Takes p base cap (j + 1)) :
    ¬goodByte p base cap j := fun hg => h2 ⟨hg.1, fun i hi => by
  by_cases hij : i < j
  · exact h.2 i hij
  · obtain rfl : i = j := by omega
    exact hg.2⟩


theorem ofNat_toNat_64 (n : Dword) : BitVec.ofNat 64 n.toNat = n := by simp

theorem run_dst {i : Instr} {s : State} (h : startResult i s = .run) (hu : usesRegion i .dst = true) :
    s.dstBase.toNat + s.dstCap.toNat ≤ Config.addrSpace := run_valid h hu

theorem run_src_dst {i : Instr} {s : State} (h : startResult i s = .run) (hs : usesRegion i .src = true)
    (hd : usesRegion i .dst = true) : Apart s.srcBase.toNat s.srcLen.toNat s.dstBase.toNat s.dstCap.toNat :=
  run_apart h hs hd (by simp)

@[simp] theorem length_srcBytes (s : State) : s.srcBytes.length = s.srcLen.toNat := by simp [State.srcBytes]

theorem getElem_srcBytes (s : State) (j : Nat) (hj : j < s.srcBytes.length) :
    s.srcBytes[j] = s.mem.read (s.srcBase.toNat + j) := Memory.getElem_bytes _ _ _ _ _

section
variable {s : State}

/-! ### PACK -/

theorem pack_post (h : startResult .pack s = .run) (hr : Readable s.params s.srcBase.toNat s.srcLen.toNat) :
    ((packLoop s.params s.srcLen.toNat 0 (srcOpen s.srcBase.toNat s.srcLen.toNat) s.mem
        (outOpen s.dstBase.toNat s.dstCap.toNat)).bind fun m out => outFlush s.params m out).Post
      (fun m out => (∀ v ∈ s.srcBytes, isBit v = true) ∧
        m = s.mem.writeBytes s.dstBase.toNat (packBits (s.srcBytes.map fun v => v.getLsbD 0)) ∧
        out.n = (packBits (s.srcBytes.map fun v => v.getLsbD 0)).length ∧
        ∀ j, j < out.n → goodByte s.params s.dstBase.toNat s.dstCap.toNat j)
      (fun m r => OutFail s.params s.dstBase.toNat s.dstCap.toNat s.mem
          (packBits ((s.srcBytes.takeWhile isBit).map fun v => v.getLsbD 0)) m r ∨
        ((s.srcBytes.takeWhile isBit).length < s.srcLen.toNat ∧
          r = raise .illegal (s.srcBytes.takeWhile isBit).length ∧
          m = s.mem.writeBytes s.dstBase.toNat (drained s.params (packBits (wholeBytes
            ((s.srcBytes.takeWhile isBit).map fun v => v.getLsbD 0)))))) := by
  have hv := run_dst h rfl
  have hloop := packLoop_post hv s.srcBytes 0 (srcOpen_holds s.mem hr) (run_src_dst h rfl rfl)
    (outOpen_holdsBits _ _ _ _)
  rw [length_srcBytes] at hloop
  refine Res.Post.bind (hloop.mono (fun _ _ h => h) fun m r h => ?_) fun m out ho => ?_
  · simpa using h
  · refine (ho.2.outFlush hv).mono (fun m' o' h' => ⟨ho.1, by simpa using h'.1, by simpa using h'.2.1, by rw [h'.2.1]; exact h'.2.2.2⟩) fun m' r h' => .inl ?_
    have : s.srcBytes.takeWhile isBit = s.srcBytes := List.takeWhile_eq_self_iff.2 ho.1
    rw [this]
    simpa using h'

theorem packBody_done (h : startResult .pack s = .run) (hr : Readable s.params s.srcBase.toNat s.srcLen.toNat)
    (hb : ∀ v ∈ s.srcBytes, isBit v = true) (ht : Takes s.params s.dstBase.toNat s.dstCap.toNat ((s.srcLen.toNat + 7) / 8)) :
    packBody s = { s with
      seq := .idle
      done := true
      mem := s.mem.writeBytes s.dstBase.toNat (packBits (s.srcBytes.map fun v => v.getLsbD 0))
      bitcnt := s.srcLen.setWidth 64
      outLen := BitVec.ofNat 32 ((s.srcLen.toNat + 7) / 8) } := by
  have hp := pack_post h hr
  have hl : (packBits (s.srcBytes.map fun v => v.getLsbD 0)).length = (s.srcLen.toNat + 7) / 8 := by
    simp [length_packBits, State.srcBytes]
  have hself : s.srcBytes.takeWhile isBit = s.srcBytes := List.takeWhile_eq_self_iff.2 hb
  obtain ⟨m, out, he, -, rfl, hn, -⟩ := hp.ok_of_no_raise fun m r h' => by
    rcases h' with h' | ⟨h', -⟩
    · rw [hself] at h'; exact Takes.no_fail (hl ▸ ht) h'
    · rw [hself] at h'; simp [State.srcBytes] at h'
  simp only [packBody, he, hn, hl]
  rfl

/-- The first byte that is no bit (R165), where what is drained before it finds room. -/
theorem packBody_illegal (h : startResult .pack s = .run) (hr : Readable s.params s.srcBase.toNat s.srcLen.toNat)
    {j : Nat} (hj : j < s.srcLen.toNat) (hb : ∀ v ∈ s.srcBytes.take j, isBit v = true)
    (hbad : isBit (s.mem.read (s.srcBase.toNat + j)) = false)
    (ht : Takes s.params s.dstBase.toNat s.dstCap.toNat ((j + 7) / 8)) :
    packBody s = ({ s with mem := s.mem.writeBytes s.dstBase.toNat (drained s.params (packBits (wholeBytes ((s.srcBytes.take j).map fun v => v.getLsbD 0)))) } : State).raiseErr (raise .illegal j) := by
  have hp := pack_post h hr
  have hlen : s.srcBytes.length = s.srcLen.toNat := by simp [State.srcBytes]
  have htw : s.srcBytes.takeWhile isBit = s.srcBytes.take j := by
    have hg : s.srcBytes[j]'(by omega) = s.mem.read (s.srcBase.toNat + j) := Memory.getElem_bytes _ _ _ _ _
    have := List.takeWhile_append_of_pos (p := isBit) (l₁ := s.srcBytes.take j) (l₂ := s.srcBytes.drop j) hb
    rw [List.take_append_drop, List.drop_eq_getElem_cons (by omega), List.takeWhile_cons, hg, hbad] at this
    simpa using this
  have hjl : (s.srcBytes.takeWhile isBit).length = j := by rw [htw]; simp; omega
  unfold packBody
  simp only
  cases hx : (packLoop s.params s.srcLen.toNat 0 (srcOpen s.srcBase.toNat s.srcLen.toNat) s.mem
        (outOpen s.dstBase.toNat s.dstCap.toNat)).bind fun m out => outFlush s.params m out with
  | ok m out =>
    rw [hx] at hp
    have := hp.1 _ (List.getElem_mem (l := s.srcBytes) (n := j) (by omega))
    rw [show s.srcBytes[j]'(by omega) = s.mem.read (s.srcBase.toNat + j) from Memory.getElem_bytes _ _ _ _ _, hbad] at this
    simp at this
  | raised m r =>
    rw [hx] at hp
    rcases hp with hp | ⟨-, hr, hm⟩
    · refine absurd hp (Takes.no_fail ?_)
      rw [length_packBits, List.length_map, hjl]
      exact ht
    · rw [hjl] at hr
      rw [htw] at hm
      subst hr hm
      rfl

/-- The first byte of the output that cannot be written (R159). -/
theorem packBody_unwritable (h : startResult .pack s = .run) (hr : Readable s.params s.srcBase.toNat s.srcLen.toNat)
    (hb : ∀ v ∈ s.srcBytes, isBit v = true) {j : Nat} (hj : j < (s.srcLen.toNat + 7) / 8)
    (hg : ∀ i, i < j → goodByte s.params s.dstBase.toNat s.dstCap.toNat i)
    (hbad : ¬goodByte s.params s.dstBase.toNat s.dstCap.toNat j) :
    packBody s = ({ s with mem := s.mem.writeBytes s.dstBase.toNat ((packBits (s.srcBytes.map fun v => v.getLsbD 0)).take j) } : State).raiseErr (raise .io (s.dstBase.toNat + j)) := by
  have hp := pack_post h hr
  have hself : s.srcBytes.takeWhile isBit = s.srcBytes := List.takeWhile_eq_self_iff.2 hb
  have hl : (packBits (s.srcBytes.map fun v => v.getLsbD 0)).length = (s.srcLen.toNat + 7) / 8 := by
    simp [length_packBits, State.srcBytes]
  unfold packBody
  simp only
  cases hx : (packLoop s.params s.srcLen.toNat 0 (srcOpen s.srcBase.toNat s.srcLen.toNat) s.mem
        (outOpen s.dstBase.toNat s.dstCap.toNat)).bind fun m out => outFlush s.params m out with
  | ok m out =>
    rw [hx] at hp
    exact (hbad (hp.2.2.2 j (by rw [hp.2.2.1, hl]; exact hj))).elim
  | raised m r =>
    rw [hx, hself] at hp
    rcases hp with hp | ⟨hp, -⟩
    · obtain ⟨rfl, rfl⟩ := hp.eq hg hbad
      rfl
    · simp [State.srcBytes] at hp

/-! ### UNPACK -/

theorem unpack_post (h : startResult .unpack s = .run) (hr : Readable s.params s.srcBase.toNat s.srcLen.toNat)
    (hn : s.bitcnt.toNat ≤ 8 * s.srcLen.toNat) :
    ((unpackLoop s.params s.bitcnt.toNat (srcOpen s.srcBase.toNat s.srcLen.toNat) s.mem
        (outOpen s.dstBase.toNat s.dstCap.toNat)).bind fun m out => outFlush s.params m out).Post
      (fun m out => m = s.mem.writeBytes s.dstBase.toNat (unpacked ((bitsOfBytes s.srcBytes).take s.bitcnt.toNat)) ∧
        out.n = s.bitcnt.toNat ∧ ∀ j, j < s.bitcnt.toNat → goodByte s.params s.dstBase.toNat s.dstCap.toNat j)
      (OutFail s.params s.dstBase.toNat s.dstCap.toNat s.mem (unpacked ((bitsOfBytes s.srcBytes).take s.bitcnt.toNat))) := by
  have hv := run_dst h rfl
  have hb : (bitsOfBytes s.srcBytes).length = 8 * s.srcLen.toNat := by rw [length_bitsOfBytes, length_srcBytes]
  have hl : (unpacked ((bitsOfBytes s.srcBytes).take s.bitcnt.toNat)).length = s.bitcnt.toNat := by
    simp [unpacked]; omega
  refine Res.Post.bind ((unpackLoop_post hv s.bitcnt.toNat (srcOpen_holdsBits s.mem hr) (run_src_dst h rfl rfl)
    (outOpen_holds _ _ _ _) rfl).mono (fun _ _ h => h) fun m r h' => ?_) fun m out ho => ?_
  · rcases h' with h' | ⟨h', -⟩
    · rw [unpacked_eq]; exact h'
    · change (bitsOfBytes s.srcBytes).length < _ at h'; omega
  · have ho' := ho.2.1
    rw [List.nil_append, ← unpacked_eq] at ho'
    exact (ho'.outFlush hv ho.2.2).mono (fun m' o' h' => ⟨h'.1, h'.2.1.trans hl, fun j hj => h'.2.2 j (hj.trans_eq hl.symm)⟩)
      fun m' r h' => h'

theorem unpackBody_done (h : startResult .unpack s = .run) (hr : Readable s.params s.srcBase.toNat s.srcLen.toNat)
    (hn : s.bitcnt.toNat ≤ 8 * s.srcLen.toNat)
    (ht : Takes s.params s.dstBase.toNat s.dstCap.toNat s.bitcnt.toNat) :
    unpackBody s = { s with
      seq := .idle
      done := true
      mem := s.mem.writeBytes s.dstBase.toNat (unpacked ((bitsOfBytes s.srcBytes).take s.bitcnt.toNat))
      outLen := BitVec.ofNat 32 s.bitcnt.toNat } := by
  obtain ⟨m, out, he, rfl, hn', -⟩ := (unpack_post h hr hn).ok_of_no_raise fun m r h' =>
    Takes.no_fail (by simpa [unpacked] using ht.le (Nat.min_le_left _ _)) h'
  simp only [unpackBody, he, hn']
  rfl

/-- A DST that does not take an output byte (41_bitstream.md R159). -/
theorem unpackBody_unwritable (h : startResult .unpack s = .run)
    (hr : Readable s.params s.srcBase.toNat s.srcLen.toNat) (hn : s.bitcnt.toNat ≤ 8 * s.srcLen.toNat) {j : Nat}
    (hj : j < s.bitcnt.toNat) (hg : ∀ i, i < j → goodByte s.params s.dstBase.toNat s.dstCap.toNat i)
    (hbad : ¬goodByte s.params s.dstBase.toNat s.dstCap.toNat j) :
    unpackBody s = ({ s with mem := s.mem.writeBytes s.dstBase.toNat ((unpacked ((bitsOfBytes s.srcBytes).take s.bitcnt.toNat)).take j) } : State).raiseErr (raise .io (s.dstBase.toNat + j)) := by
  have hp := unpack_post h hr hn
  unfold unpackBody
  simp only
  split
  · next m r he =>
    rw [he] at hp
    obtain ⟨rfl, rfl⟩ := OutFail.eq hp hg hbad
    rfl
  · next m out he =>
    rw [he] at hp
    exact (hbad (hp.2.2 j hj)).elim

/-- A source shorter than the declared count (R166). -/
theorem unpackBody_short (h : startResult .unpack s = .run) (hr : Readable s.params s.srcBase.toNat s.srcLen.toNat)
    (hn : 8 * s.srcLen.toNat < s.bitcnt.toNat)
    (ht : Takes s.params s.dstBase.toNat s.dstCap.toNat (8 * s.srcLen.toNat)) :
    unpackBody s = ({ s with mem := s.mem.writeBytes s.dstBase.toNat (drained s.params (unpacked (bitsOfBytes s.srcBytes))) } : State).raiseErr (raise .corrupt s.srcLen.toNat) := by
  have hv := run_dst h rfl
  have hb : (bitsOfBytes s.srcBytes).length = 8 * s.srcLen.toNat := by rw [length_bitsOfBytes, length_srcBytes]
  have hp := unpackLoop_post hv s.bitcnt.toNat (srcOpen_holdsBits s.mem hr) (run_src_dst h rfl rfl)
    (outOpen_holds _ _ _ _) rfl
  unfold unpackBody
  simp only
  cases hx : unpackLoop s.params s.bitcnt.toNat (srcOpen s.srcBase.toNat s.srcLen.toNat) s.mem
      (outOpen s.dstBase.toNat s.dstCap.toNat) with
  | ok m out =>
    rw [hx] at hp
    have := hp.1
    change _ ≤ (bitsOfBytes s.srcBytes).length at this
    omega
  | raised m r =>
    rw [hx] at hp
    rcases hp with hp | ⟨-, rfl, rfl⟩
    · refine (Takes.no_fail ?_ hp).elim
      change Takes _ _ _ ([] ++ ((bitsOfBytes s.srcBytes).take s.bitcnt.toNat).map bitByte).length
      simp [hb]
      exact ht.le (Nat.min_le_right _ _)
    · rw [unpacked_eq]; rfl

/-! ### ENC_RAW -/

theorem encode_post {p : Params} {base cap sb sn : Nat} {m0 : Memory} {codes : CodeTable} {vs : List Byte}
    (hv : base + cap ≤ Config.addrSpace) (hr : Readable p sb sn) (ha : Apart sb sn base cap)
    (hvs : m0.bytes sb sn = vs) (hc : ∀ v ∈ vs, hasCode codes v = true) :
    ((encodeSyms p codes sn 0 (srcOpen sb sn) m0 (outOpen base cap)).bind fun m out => outFlush p m out).Post
      (fun m out => m = m0.writeBytes base (packBits (encodeBits codes vs)) ∧
        out.n = (packBits (encodeBits codes vs)).length ∧ out.bits = (encodeBits codes vs).length ∧
        ∀ j, j < (packBits (encodeBits codes vs)).length → goodByte p base cap j)
      (OutFail p base cap m0 (packBits (encodeBits codes vs))) := by
  have hl : vs.length = sn := by rw [← hvs]; simp
  have hloop := encodeSyms_post hv codes vs 0 (by rw [← hvs]; exact srcOpen_holds m0 hr) ha (outOpen_holdsBits p base cap m0)
  rw [hl] at hloop
  have hself : vs.takeWhile (hasCode codes) = vs := List.takeWhile_eq_self_iff.2 hc
  refine Res.Post.bind (hloop.mono (fun _ _ h => h) fun m r h => ?_) fun m out ho => ?_
  · rw [hself] at h
    rcases h with h | ⟨h, -⟩
    · simpa using h
    · exact absurd h (by rw [hl]; exact Nat.lt_irrefl _)
  · refine (ho.2.outFlush hv).mono (fun m' o' h' => ⟨by simpa using h'.1, by simpa using h'.2.1, by simpa using h'.2.2.1, by simpa using h'.2.2.2⟩)
      fun m' r h' => by simpa using h'

/-- EncodeSyms up to the first symbol without a code (44_dispatch.md R241, 40_command.md R137). -/
theorem encode_noCode {p : Params} {base cap sb sn j : Nat} {m0 : Memory} {codes : CodeTable} {vs : List Byte}
    (hv : base + cap ≤ Config.addrSpace) (hr : Readable p sb sn) (ha : Apart sb sn base cap)
    (hvs : m0.bytes sb sn = vs) (hj : j < vs.length) (hc : ∀ v ∈ vs.take j, hasCode codes v = true)
    (hbad : hasCode codes vs[j] = false)
    (ht : Takes p base cap (((encodeBits codes (vs.take j)).length + 7) / 8)) :
    ((encodeSyms p codes sn 0 (srcOpen sb sn) m0 (outOpen base cap)).bind fun m out => outFlush p m out) =
      .raised (m0.writeBytes base (drained p (packBits (wholeBytes (encodeBits codes (vs.take j))))))
        (raise .internal j) := by
  have hl : vs.length = sn := by rw [← hvs]; simp
  have htw : vs.takeWhile (hasCode codes) = vs.take j := by
    have := List.takeWhile_append_of_pos (p := hasCode codes) (l₁ := vs.take j) (l₂ := vs.drop j) hc
    rw [List.take_append_drop, List.drop_eq_getElem_cons hj, List.takeWhile_cons, hbad] at this
    simpa using this
  have hjl : (vs.takeWhile (hasCode codes)).length = j := by rw [htw]; simp; omega
  have hp := encodeSyms_post hv codes vs 0 (by rw [← hvs]; exact srcOpen_holds m0 hr) ha (outOpen_holdsBits p base cap m0)
  rw [hl] at hp
  cases hx : encodeSyms p codes sn 0 (srcOpen sb sn) m0 (outOpen base cap) with
  | ok m out =>
    rw [hx] at hp
    have := hp.1 _ (List.getElem_mem hj)
    rw [hbad] at this
    simp at this
  | raised m r =>
    rw [hx] at hp
    rcases hp with hp | ⟨-, hr, hm⟩
    · refine (Takes.no_fail ?_ hp).elim
      rw [htw, List.nil_append, length_packBits]
      exact ht
    · rw [hjl] at hr
      rw [htw, List.nil_append] at hm
      rw [hr, hm, Res.bind_raised, Nat.zero_add]

/-- EncodeSyms into a region that does not take the byte `j` (41_bitstream.md R159). -/
theorem encode_unwritable {p : Params} {base cap sb sn j : Nat} {m0 : Memory} {codes : CodeTable} {vs : List Byte}
    (hv : base + cap ≤ Config.addrSpace) (hr : Readable p sb sn) (ha : Apart sb sn base cap)
    (hvs : m0.bytes sb sn = vs) (hc : ∀ v ∈ vs, hasCode codes v = true)
    (hj : j < ((encodeBits codes vs).length + 7) / 8) (hg : ∀ i, i < j → goodByte p base cap i)
    (hbad : ¬goodByte p base cap j) :
    ((encodeSyms p codes sn 0 (srcOpen sb sn) m0 (outOpen base cap)).bind fun m out => outFlush p m out) =
      .raised (m0.writeBytes base ((packBits (encodeBits codes vs)).take j)) (raise .io (base + j)) := by
  have hp := encode_post hv hr ha hvs hc
  cases hx : (encodeSyms p codes sn 0 (srcOpen sb sn) m0 (outOpen base cap)).bind fun m out => outFlush p m out with
  | ok m out =>
    rw [hx] at hp
    exact absurd (hp.2.2.2 j (by rw [length_packBits]; exact hj)) hbad
  | raised m r =>
    rw [hx] at hp
    obtain ⟨rfl, rfl⟩ := OutFail.eq hp hg hbad
    rfl

theorem encRawBody_done (h : startResult .encRaw s = .run) (hr : Readable s.params s.srcBase.toNat s.srcLen.toNat)
    (hc : ∀ v ∈ s.srcBytes, hasCode s.codes v = true)
    (ht : Takes s.params s.dstBase.toNat s.dstCap.toNat (((encodeBits s.codes s.srcBytes).length + 7) / 8)) :
    encRawBody s = { s with
      seq := .idle
      done := true
      mem := s.mem.writeBytes s.dstBase.toNat (packBits (encodeBits s.codes s.srcBytes))
      bitcnt := BitVec.ofNat 64 (encodeBits s.codes s.srcBytes).length
      outLen := BitVec.ofNat 32 (((encodeBits s.codes s.srcBytes).length + 7) / 8) } := by
  have hp := encode_post (run_dst h rfl) hr (run_src_dst h rfl rfl) (m0 := s.mem) rfl hc
  obtain ⟨m, out, he, rfl, hn, hbits, -⟩ := hp.ok_of_no_raise fun m r h' =>
    Takes.no_fail (by rw [length_packBits]; exact ht) h'
  simp only [encRawBody, he, hn, hbits, length_packBits]
  rfl

/-- The first symbol without a code (R241). -/
theorem encRawBody_noCode (h : startResult .encRaw s = .run) (hr : Readable s.params s.srcBase.toNat s.srcLen.toNat)
    {j : Nat} (hj : j < s.srcLen.toNat) (hc : ∀ v ∈ s.srcBytes.take j, hasCode s.codes v = true)
    (hbad : hasCode s.codes (s.mem.read (s.srcBase.toNat + j)) = false)
    (ht : Takes s.params s.dstBase.toNat s.dstCap.toNat (((encodeBits s.codes (s.srcBytes.take j)).length + 7) / 8)) :
    encRawBody s = ({ s with mem := s.mem.writeBytes s.dstBase.toNat (drained s.params (packBits (wholeBytes (encodeBits s.codes (s.srcBytes.take j))))) } : State).raiseErr (raise .internal j) := by
  have hx := encode_noCode (run_dst h rfl) hr (run_src_dst h rfl rfl) (m0 := s.mem) rfl (by simpa using hj) hc
    (by rw [Memory.getElem_bytes]; exact hbad) ht
  simp only [encRawBody, hx]
  rfl

/-- A DST that does not take an output byte (41_bitstream.md R159). -/
theorem encRawBody_unwritable (h : startResult .encRaw s = .run)
    (hr : Readable s.params s.srcBase.toNat s.srcLen.toNat) (hc : ∀ v ∈ s.srcBytes, hasCode s.codes v = true) {j : Nat}
    (hj : j < ((encodeBits s.codes s.srcBytes).length + 7) / 8)
    (hg : ∀ i, i < j → goodByte s.params s.dstBase.toNat s.dstCap.toNat i)
    (hbad : ¬goodByte s.params s.dstBase.toNat s.dstCap.toNat j) :
    encRawBody s = ({ s with mem := s.mem.writeBytes s.dstBase.toNat ((packBits (encodeBits s.codes s.srcBytes)).take j) } : State).raiseErr (raise .io (s.dstBase.toNat + j)) := by
  have hx := encode_unwritable (run_dst h rfl) hr (run_src_dst h rfl rfl) (m0 := s.mem) rfl hc hj hg hbad
  simp only [encRawBody, hx]
  rfl

/-! ### DEC_RAW -/

/-- The walk from the root over a channel that gives the bits `bs` (R246). -/
theorem walk_post {p : Params} {base cap bc p0 : Nat} {m0 : Memory} {root : Tree} {src : SrcCh} {bs : List Bool}
    (hv : base + cap ≤ Config.addrSpace) (hsrc : src.HoldsBits p m0 bs) (ha : Apart src.base src.len base cap) :
    ((walk p root bc p0 src m0 (outOpen base cap)).bind fun m out => outFlush p m out).Post
      (fun m out => bc ≤ bs.length ∧ ∃ syms, Tree.decodeFrom root .atRoot (bs.take bc) = some syms ∧
        m = m0.writeBytes base syms ∧ out.n = syms.length ∧ ∀ j, j < syms.length → goodByte p base cap j)
      (fun m r => (∃ syms, (Tree.decodeFrom root .atRoot (bs.take bc) = some syms ∨
          syms = Tree.emitted root .atRoot (bs.take bc)) ∧ OutFail p base cap m0 syms m r) ∨
        (m = m0.writeBytes base (drained p (Tree.emitted root .atRoot (bs.take bc))) ∧
          ((bc ≤ bs.length ∧ Tree.decodeFrom root .atRoot (bs.take bc) = none ∧ r = raise .corrupt (p0 + bc / 8)) ∨
            (bs.length < bc ∧ r = raise .corrupt src.len)))) := by
  refine Res.Post.bind ((walkLoop_post hv root bc p0 bc .atRoot hsrc ha (outOpen_holds p base cap m0) rfl).mono
    (fun _ _ h => h) fun m r h => ?_) fun m out ho => ?_
  · rcases h with h | h
    · exact .inl ⟨_, .inr rfl, by simpa using h⟩
    · exact .inr (by simpa using h)
  · obtain ⟨hle, syms, hd, hh, hk⟩ := ho
    exact (hh.outFlush hv hk).mono (fun m' o' h' => ⟨hle, syms, hd, by simpa using h'.1, by simpa using h'.2.1, by simpa using h'.2.2⟩)
      fun m' r h' => .inl ⟨syms, .inl hd, by simpa using h'⟩

/-- What Walk has emitted when the bits end between symbols is all it decodes. -/
theorem emitted_of_decodeFrom {root : Tree} {w : WalkState} {bs : List Bool} {syms : List Byte}
    (h : Tree.decodeFrom root w bs = some syms) : Tree.emitted root w bs = syms := by
  induction bs generalizing w syms with
  | nil => cases w <;> simp_all [Tree.decodeFrom, Tree.emitted]
  | cons b bs ih =>
    have step : ∀ u : Tree, (match u with
          | .leaf _ s _ => (Tree.decodeFrom root .atRoot bs).map (s :: ·)
          | .node i z o v => Tree.decodeFrom root (.atNode (.node i z o v)) bs) = some syms →
        (match u with
          | .leaf _ s _ => s :: Tree.emitted root .atRoot bs
          | .node i z o v => Tree.emitted root (.atNode (.node i z o v)) bs) = syms := by
      intro u h
      cases u with
      | leaf i s x => obtain ⟨y, hy, rfl⟩ := Option.map_eq_some_iff.1 h; rw [← ih hy]
      | node i z o v => exact ih h
    cases w with
    | atRoot => exact step (root.child b) h
    | atNode t => exact step (t.child b) h

/-- The walk over bits that decode to `syms` (R246): those are the output, unless DST does not take one. -/
theorem walk_ends {p : Params} {base cap bc p0 : Nat} {m0 : Memory} {root : Tree} {src : SrcCh} {bs : List Bool}
    (hv : base + cap ≤ Config.addrSpace) (hsrc : src.HoldsBits p m0 bs) (ha : Apart src.base src.len base cap)
    (hn : bc ≤ bs.length) {syms : List Byte} (hd : Tree.decodeFrom root .atRoot (bs.take bc) = some syms) :
    ((walk p root bc p0 src m0 (outOpen base cap)).bind fun m out => outFlush p m out).Post
      (fun m out => m = m0.writeBytes base syms ∧ out.n = syms.length ∧ ∀ j, j < syms.length → goodByte p base cap j)
      (OutFail p base cap m0 syms) := by
  refine (walk_post hv hsrc ha).mono (fun m out h => ?_) fun m r h => ?_
  · obtain ⟨-, syms', hd', h'⟩ := h
    obtain rfl : syms' = syms := Option.some.inj (hd'.symm.trans hd)
    exact h'
  · rcases h with ⟨syms', h1 | h1, h2⟩ | ⟨-, ⟨-, h1, -⟩ | ⟨h1, -⟩⟩
    · obtain rfl : syms' = syms := Option.some.inj (h1.symm.trans hd)
      exact h2
    · rw [h1, emitted_of_decodeFrom hd] at h2
      exact h2
    · rw [hd] at h1; simp at h1
    · omega

theorem decRawBody_done (h : startResult .decRaw s = .run) (hr : Readable s.params s.srcBase.toNat s.srcLen.toNat)
    {t : Tree} (htree : s.tree = some t) (hn : s.bitcnt.toNat ≤ 8 * s.srcLen.toNat) {syms : List Byte}
    (hd : Tree.decodeFrom t .atRoot ((bitsOfBytes s.srcBytes).take s.bitcnt.toNat) = some syms)
    (ht : Takes s.params s.dstBase.toNat s.dstCap.toNat syms.length) :
    decRawBody s = { s with
      seq := .idle
      done := true
      mem := s.mem.writeBytes s.dstBase.toNat syms
      outLen := BitVec.ofNat 32 syms.length } := by
  obtain ⟨m, out, he, rfl, hn', -⟩ := (walk_ends (p := s.params) (bc := s.bitcnt.toNat) (p0 := 0) (run_dst h rfl)
    (srcOpen_holdsBits s.mem hr) (run_src_dst h rfl rfl)
    (by rw [length_bitsOfBytes, Memory.length_bytes]; exact hn) hd).ok_of_no_raise fun m r h' => Takes.no_fail ht h'
  simp only [decRawBody, htree, he, hn']
  rfl

/-- A DST that does not take an output byte (41_bitstream.md R159). -/
theorem decRawBody_unwritable (h : startResult .decRaw s = .run)
    (hr : Readable s.params s.srcBase.toNat s.srcLen.toNat) {t : Tree} (htree : s.tree = some t)
    (hn : s.bitcnt.toNat ≤ 8 * s.srcLen.toNat) {syms : List Byte}
    (hd : Tree.decodeFrom t .atRoot ((bitsOfBytes s.srcBytes).take s.bitcnt.toNat) = some syms) {j : Nat}
    (hj : j < syms.length) (hg : ∀ i, i < j → goodByte s.params s.dstBase.toNat s.dstCap.toNat i)
    (hbad : ¬goodByte s.params s.dstBase.toNat s.dstCap.toNat j) :
    decRawBody s = ({ s with mem := s.mem.writeBytes s.dstBase.toNat (syms.take j) } : State).raiseErr (raise .io (s.dstBase.toNat + j)) := by
  have hp := walk_ends (p := s.params) (bc := s.bitcnt.toNat) (p0 := 0) (run_dst h rfl)
    (srcOpen_holdsBits s.mem hr) (run_src_dst h rfl rfl)
    (by rw [length_bitsOfBytes, Memory.length_bytes]; exact hn) hd
  unfold decRawBody
  rw [htree]
  simp only
  split
  · next m r he =>
    rw [he] at hp
    obtain ⟨rfl, rfl⟩ := OutFail.eq hp hg hbad
    rfl
  · next m out he =>
    rw [he] at hp
    exact (hbad (hp.2.2 j hj)).elim

/-- A count that cuts a code, or a source shorter than the count (R246, R247). -/
theorem decRawBody_corrupt (h : startResult .decRaw s = .run) (hr : Readable s.params s.srcBase.toNat s.srcLen.toNat)
    {t : Tree} (htree : s.tree = some t) {info : Nat}
    (hbad : (s.bitcnt.toNat ≤ 8 * s.srcLen.toNat ∧ info = s.bitcnt.toNat / 8 ∧
        Tree.decodeFrom t .atRoot ((bitsOfBytes s.srcBytes).take s.bitcnt.toNat) = none) ∨
      (8 * s.srcLen.toNat < s.bitcnt.toNat ∧ info = s.srcLen.toNat))
    (ht : Takes s.params s.dstBase.toNat s.dstCap.toNat
      (Tree.emitted t .atRoot ((bitsOfBytes s.srcBytes).take s.bitcnt.toNat)).length) :
    decRawBody s = ({ s with mem := s.mem.writeBytes s.dstBase.toNat (drained s.params (Tree.emitted t .atRoot ((bitsOfBytes s.srcBytes).take s.bitcnt.toNat))) } : State).raiseErr (raise .corrupt info) := by
  have hb : (bitsOfBytes s.srcBytes).length = 8 * s.srcLen.toNat := by rw [length_bitsOfBytes, length_srcBytes]
  have hp := walk_post (p := s.params) (bc := s.bitcnt.toNat) (p0 := 0) (root := t) (run_dst h rfl)
    (srcOpen_holdsBits s.mem hr) (run_src_dst h rfl rfl)
  change Res.Post _ (fun m out => _ ≤ (bitsOfBytes s.srcBytes).length ∧ _) (fun m r => _ ∨ (_ ∧ ((_ ≤ (bitsOfBytes s.srcBytes).length ∧ _) ∨ ((bitsOfBytes s.srcBytes).length < _ ∧ _)))) at hp
  have hsrc : s.mem.bytes s.srcBase.toNat s.srcLen.toNat = s.srcBytes := rfl
  rw [hsrc, hb] at hp
  unfold decRawBody
  rw [htree]
  simp only
  split
  · next m r he =>
    rw [he] at hp
    rcases hp with ⟨syms, h1, h2⟩ | ⟨rfl, ⟨h3, h4, rfl⟩ | ⟨h3, rfl⟩⟩
    · have : syms = Tree.emitted t .atRoot ((bitsOfBytes s.srcBytes).take s.bitcnt.toNat) := by
        rcases h1 with h1 | h1
        · rw [emitted_of_decodeFrom h1]
        · exact h1
      subst this
      exact (Takes.no_fail ht h2).elim
    · rcases hbad with ⟨-, rfl, -⟩ | ⟨h5, -⟩
      · simp
      · omega
    · rcases hbad with ⟨h5, -⟩ | ⟨-, rfl⟩
      · omega
      · rfl
  · next m out he =>
    rw [he] at hp
    obtain ⟨h1, syms, h2, -⟩ := hp
    rcases hbad with ⟨-, -, h3⟩ | ⟨h3, -⟩
    · rw [h3] at h2; simp at h2
    · omega

end

end Sys2Proof.Machine
end

