-- ==== Sys2Proof/Laws/PipelineResults.lean ====
section
/-! SUPPORT. What the counting, framer and pipeline procedures compute where no access fails (42_tree.md
R196; 43_framer.md R225, R226; 45_pipeline.md R263 to R274). -/

namespace Sys2Proof.Machine

section
variable {s : State}

/-! ### FT_COUNT -/

/-- Every way Count ends, from any counters (R182, R183). -/
theorem count_post (s : State) (c0 : Counters) :
    (count s c0).Post
      (fun c _ => c = c0.tallyAll s.srcBytes ∧
        Readable s.params s.srcBase.toNat s.srcLen.toNat ∧ ∀ k, k < s.srcLen.toNat → (c0.tallyAll (s.srcBytes.take k)).full
          (s.mem.read (s.srcBase.toNat + k)) = false)
      (fun c r => ∃ k, k < s.srcLen.toNat ∧ c = c0.tallyAll (s.srcBytes.take k) ∧
        (∀ j, j < k → (c0.tallyAll (s.srcBytes.take j)).full
          (s.mem.read (s.srcBase.toNat + j)) = false) ∧
        (ReadFail s.params s.srcBase.toNat s.srcLen.toNat k r ∨
          (r = raise .overflow k ∧ c.full (s.mem.read (s.srcBase.toNat + k)) = true ∧
            Fetched s.params s.srcBase.toNat s.srcLen.toNat k))) := by
  have htake : ∀ k, k ≤ s.srcLen.toNat → s.mem.bytes s.srcBase.toNat k = s.srcBytes.take k := fun k hk => by
    obtain ⟨j, hj⟩ : ∃ j, s.srcLen.toNat = k + j := ⟨s.srcLen.toNat - k, by omega⟩
    rw [State.srcBytes, hj, Memory.bytes_add, List.take_left']
    simp
  refine (countLoop_ends _ 0 _ (srcOpen_aligned _ _ _ _) (by simp [srcOpen])).mono (fun c _ h => ⟨h.1, h.2.1, fun k hk => ?_⟩)
    fun c r h => ?_
  · rw [← htake k (by omega)]; exact h.2.2 k hk
  · obtain ⟨k, hk, h1, h2, h3⟩ := h
    refine ⟨k, hk, ?_, fun j hj => ?_, ?_⟩
    · rw [← htake k (by omega)]; exact h1
    · rw [← htake j (by omega)]; exact h2 j hj
    · rcases h3 with h3 | ⟨h3, h4, h5⟩
      · left; simpa [srcOpen] using h3
      · right; exact ⟨by simpa using h3, h4, by simpa [srcOpen] using h5⟩

/-- A counter is full exactly when the tally would pass its limit. -/
theorem full_eq_false {c : Counters} {b : Byte} :
    c.full b = false ↔ (lookup c.freq b).toNat < 2 ^ 32 - 1 ∧ c.total.toNat < 2 ^ 32 - 1 := by
  have h1 := (lookup c.freq b).isLt
  have h2 := c.total.isLt
  simp only [Counters.full, Bool.or_eq_false_iff, decide_eq_false_iff_not, BitVec.toNat_eq, BitVec.toNat_ofNat]
  omega

/-- Without a wrap, the counters after a sequence is tallied are the sums (42_tree.md R182, R183). -/
theorem tallyAll_toNat {c : Counters} {l : List Byte} (h : ∀ q, (lookup c.freq q).toNat + l.count q < 2 ^ 32)
    (q : Byte) : (lookup (c.tallyAll l).freq q).toNat = (lookup c.freq q).toNat + l.count q := by
  rw [lookup_tallyAll, BitVec.toNat_add, BitVec.toNat_ofNat]
  have := h q
  rw [Nat.mod_eq_of_lt (show l.count q < 2 ^ 32 by omega), Nat.mod_eq_of_lt this]

/-- While no counter is full, none wraps. -/
theorem tallyAll_le {l : List Byte} (c : Counters)
    (h : ∀ j, (hj : j < l.length) → (c.tallyAll (l.take j)).full l[j] = false) :
    c.total.toNat ≤ (c.tallyAll l).total.toNat ∧
      ∀ q, (lookup c.freq q).toNat ≤ (lookup (c.tallyAll l).freq q).toNat := by
  induction l generalizing c with
  | nil => exact ⟨Nat.le_refl _, fun _ => Nat.le_refl _⟩
  | cons v l ih =>
    obtain ⟨h1, h2⟩ := full_eq_false.1 (h 0 (by simp))
    simp only [List.take_zero, Counters.tallyAll, List.foldl_nil, List.getElem_cons_zero] at h1 h2
    obtain ⟨i1, i2⟩ := ih (c.tally v) fun j hj => by
      have := h (j + 1) (by simpa using hj)
      simpa only [List.take_succ_cons, List.getElem_cons_succ, Counters.tallyAll, List.foldl_cons] using this
    have ht : (c.tally v).total.toNat = c.total.toNat + 1 := by
      simp only [Counters.tally, BitVec.toNat_add]
      simp; omega
    refine ⟨Nat.le_trans (by omega) i1, fun q => Nat.le_trans ?_ (i2 q)⟩
    simp only [Counters.tally, lookup_update]
    split
    · next e =>
      subst e
      rw [BitVec.toNat_add]
      simp; omega
    · exact Nat.le_refl _


/-- With room in every counter, no byte finds one full. -/
theorem not_full_of_room {l : List Byte} {c : Counters} (hf : ∀ q, (lookup c.freq q).toNat + l.count q < 2 ^ 32)
    (ht : c.total.toNat + l.length < 2 ^ 32) (k : Nat) (hk : k < l.length) :
    (c.tallyAll (l.take k)).full l[k] = false := by
  rw [full_eq_false, lookup_tallyAll, total_tallyAll]
  have h1 : (l.take k).count l[k] + 1 ≤ l.count l[k] := by
    have h2 : l = l.take k ++ l[k] :: l.drop (k + 1) := by
      rw [← List.drop_eq_getElem_cons hk, List.take_append_drop]
    calc (l.take k).count l[k] + 1 ≤ (l.take k).count l[k] + (l[k] :: l.drop (k + 1)).count l[k] := by
          rw [List.count_cons_self]; omega
      _ = (l.take k ++ l[k] :: l.drop (k + 1)).count l[k] := by rw [List.count_append]
      _ = l.count l[k] := by rw [← h2]
  have h2 := hf l[k]
  simp only [BitVec.toNat_add, BitVec.toNat_ofNat, List.length_take]
  constructor <;> omega

theorem ftCountBody_done (hr : Readable s.params s.srcBase.toNat s.srcLen.toNat)
    (hf : ∀ q, (lookup s.freq q).toNat + s.srcBytes.count q < 2 ^ 32)
    (ht : s.total.toNat + s.srcLen.toNat < 2 ^ 32) :
    ftCountBody s = { s with
      seq := .idle
      done := true
      freq := (Counters.tallyAll ⟨s.freq, s.total⟩ s.srcBytes).freq
      total := (Counters.tallyAll ⟨s.freq, s.total⟩ s.srcBytes).total } := by
  have hp := count_post s ⟨s.freq, s.total⟩
  obtain ⟨c, u, he, rfl, -⟩ := hp.ok_of_no_raise fun c r h => by
    obtain ⟨k, hk, h1, -, h3⟩ := h
    rcases h3 with ⟨j, h4, h5, -, -, h6, -⟩ | ⟨-, h3, -⟩
    · have := hr j h5; rw [h6] at this; simp at this
    · have := not_full_of_room (c := ⟨s.freq, s.total⟩) hf (by simpa using ht) k (by simpa using hk)
      rw [getElem_srcBytes, ← h1, h3] at this
      simp at this
  simp only [ftCountBody, he]
  rfl

/-- The first byte that finds a counter full (R182, R183), when no fetch up to its block's meets a bus error. -/
theorem ftCountBody_overflow {k : Nat}
    (hr : Readable s.params s.srcBase.toNat (min s.srcLen.toNat ((k / s.params.brBlock + 1) * s.params.brBlock)))
    (hk : k < s.srcLen.toNat)
    (hlt : ∀ j, j < k → ((⟨s.freq, s.total⟩ : Counters).tallyAll (s.srcBytes.take j)).full
      (s.mem.read (s.srcBase.toNat + j)) = false)
    (hf : ((⟨s.freq, s.total⟩ : Counters).tallyAll (s.srcBytes.take k)).full (s.mem.read (s.srcBase.toNat + k)) = true) :
    ftCountBody s = ({ s with freq := (Counters.tallyAll ⟨s.freq, s.total⟩ (s.srcBytes.take k)).freq, total := (Counters.tallyAll ⟨s.freq, s.total⟩ (s.srcBytes.take k)).total } : State).raiseErr (raise .overflow k) := by
  have hp := count_post s ⟨s.freq, s.total⟩
  unfold ftCountBody
  cases hx : count s ⟨s.freq, s.total⟩ with
  | ok c u => rw [hx] at hp; have := hp.2.2 k hk; rw [hf] at this; simp at this
  | raised c r =>
    rw [hx] at hp
    obtain ⟨k', hk', rfl, h2, h3⟩ := hp
    have hB : 0 < s.params.brBlock := by simp [Params.brBlock]
    have hno : k' ≤ k → ∀ r, ¬ReadFail s.params s.srcBase.toNat s.srcLen.toNat k' r := by
      rintro hle r ⟨j, -, h5, h7, h8, h6, -⟩
      have h9 := Nat.div_add_mod k' s.params.brBlock
      have h10 := Nat.div_le_div_right (c := s.params.brBlock) hle
      have h11 := Nat.mul_le_mul_left s.params.brBlock h10
      have := hr j (Nat.lt_min.2 ⟨h5, by rw [Nat.add_mul, Nat.mul_comm]; omega⟩)
      rw [h6] at this; simp at this
    have hkk : k' = k := by
      rcases lt_trichotomy k' k with h | h | h
      · rcases h3 with h3 | ⟨-, h3, -⟩
        · exact absurd h3 (hno (by omega) _)
        · rw [hlt k' h] at h3; simp at h3
      · exact h
      · rw [h2 k h] at hf; simp at hf
    subst hkk
    rcases h3 with h3 | ⟨rfl, -⟩
    · exact absurd h3 (hno (Nat.le_refl _) _)
    · rfl

/-- A bus error at offset `j`, the first: the bytes of the blocks before it are counted, none of its own
(R152, R183). -/
theorem count_busError {c0 : Counters} {j : Nat} (hj : j < s.srcLen.toNat)
    (hr : Readable s.params s.srcBase.toNat j) (hb : busErrRd s.params (s.srcBase.toNat + j) = true)
    (hf : ∀ q, (lookup c0.freq q).toNat + (s.srcBytes.take (j / s.params.brBlock * s.params.brBlock)).count q < 2 ^ 32)
    (ht : c0.total.toNat + j / s.params.brBlock * s.params.brBlock < 2 ^ 32) :
    count s c0 = .raised (c0.tallyAll (s.srcBytes.take (j / s.params.brBlock * s.params.brBlock)))
      (raise .io (s.srcBase.toNat + j)) := by
  have hB : 0 < s.params.brBlock := by simp [Params.brBlock]
  have hp := count_post s c0
  cases hx : count s c0 with
  | ok c u =>
    rw [hx] at hp
    have := hp.2.1 j hj
    rw [hb] at this
    simp at this
  | raised c r =>
    rw [hx] at hp
    obtain ⟨k, hk, rfl, h2, h3⟩ := hp
    rcases h3 with ⟨i, h4, h5, h6, h7, h8, h9, rfl⟩ | ⟨-, h3, hfe⟩
    · have hij : i = j := by
        rcases lt_trichotomy i j with h | h | h
        · have := hr i h; rw [h8] at this; simp at this
        · exact h
        · have := h9 j h; rw [hb] at this; simp at this
      subst hij
      have : k = i / s.params.brBlock * s.params.brBlock := by
        have h10 := Nat.div_add_mod k s.params.brBlock
        rw [h7, Nat.add_zero] at h10
        have : i / s.params.brBlock = k / s.params.brBlock := by
          refine Nat.div_eq_of_lt_le ?_ ?_
          · rw [Nat.mul_comm, h10]; exact h4
          · rw [Nat.succ_mul, Nat.mul_comm, h10]; omega
        rw [this, Nat.mul_comm, h10]
      rw [← this]
    · have hle : j / s.params.brBlock * s.params.brBlock ≤ j := Nat.div_mul_le_self _ _
      have hlen := length_srcBytes s
      rcases Nat.lt_or_ge k (j / s.params.brBlock * s.params.brBlock) with h | h
      · have := not_full_of_room (l := s.srcBytes.take (j / s.params.brBlock * s.params.brBlock))
          (c := c0) hf (by simp [hlen]; omega) k (by simp [hlen]; omega)
        rw [List.take_take, Nat.min_eq_left (by omega), List.getElem_take, getElem_srcBytes, h3] at this
        simp at this
      · obtain ⟨e, he, hw, hrd⟩ := hfe
        have hje : j < e := by
          rcases hw with hw | hw
          · have h10 := Nat.div_add_mod e s.params.brBlock
            rw [hw, Nat.add_zero] at h10
            have h12 : j / s.params.brBlock < e / s.params.brBlock := by
              by_contra hc
              have := Nat.mul_le_mul_left s.params.brBlock (Nat.le_of_not_lt hc)
              rw [Nat.mul_comm _ (j / _)] at this
              omega
            have : s.params.brBlock * (j / s.params.brBlock + 1) ≤ s.params.brBlock * (e / s.params.brBlock) := Nat.mul_le_mul_left s.params.brBlock (Nat.succ_le_of_lt h12)
            have h13 := Nat.lt_mul_div_succ j hB
            rw [h10] at this
            omega
          · omega
        have := hrd j hje
        rw [hb] at this; simp at this

theorem ftCountBody_busError {j : Nat} (hj : j < s.srcLen.toNat)
    (hr : Readable s.params s.srcBase.toNat j) (hb : busErrRd s.params (s.srcBase.toNat + j) = true)
    (hf : ∀ q, (lookup s.freq q).toNat + (s.srcBytes.take (j / s.params.brBlock * s.params.brBlock)).count q < 2 ^ 32)
    (ht : s.total.toNat + j / s.params.brBlock * s.params.brBlock < 2 ^ 32) :
    ftCountBody s = ({ s with freq := (Counters.tallyAll ⟨s.freq, s.total⟩ (s.srcBytes.take (j / s.params.brBlock * s.params.brBlock))).freq, total := (Counters.tallyAll ⟨s.freq, s.total⟩ (s.srcBytes.take (j / s.params.brBlock * s.params.brBlock))).total } : State).raiseErr (raise .io (s.srcBase.toNat + j)) := by
  simp only [ftCountBody, count_busError (c0 := ⟨s.freq, s.total⟩) hj hr hb hf ht]

/-! ### TREE_SER -/

theorem treeSer_post {t : Tree} (h : startResult .treeSer s = .run) :
    ((outBytes s.params s.mem (outOpen s.dstBase.toNat s.dstCap.toNat) (serTree t)).bind
        fun m out => outFlush s.params m out).Post
      (fun m out => m = s.mem.writeBytes s.dstBase.toNat (serTree t) ∧ out.n = (serTree t).length ∧
        ∀ j, j < (serTree t).length → goodByte s.params s.dstBase.toNat s.dstCap.toNat j)
      (OutFail s.params s.dstBase.toNat s.dstCap.toNat s.mem (serTree t)) := by
  have hv := run_dst h rfl
  refine Res.Post.bind ((outOpen_holds s.params _ _ s.mem).outBytes hv (serTree t)) fun m out ho => ?_
  exact ho.1.outFlush hv (ho.2.2.1.trans rfl)

theorem treeSerBody_done (h : startResult .treeSer s = .run) {t : Tree} (htree : s.tree = some t)
    (ht : Takes s.params s.dstBase.toNat s.dstCap.toNat (19 * t.leaves - 9)) :
    treeSerBody s = { s with
      seq := .idle
      done := true
      mem := s.mem.writeBytes s.dstBase.toNat (serTree t)
      outLen := BitVec.ofNat 32 (19 * t.leaves - 9) } := by
  have hl : (serTree t).length = 19 * t.leaves - 9 := by have := t.length_serTree; omega
  obtain ⟨m, out, he, rfl, hn, -⟩ := (treeSer_post h (t := t)).ok_of_no_raise fun m r h' => Takes.no_fail (hl ▸ ht) h'
  simp only [treeSerBody, htree, he, hn, hl]
  rfl

theorem treeSerBody_unwritable (h : startResult .treeSer s = .run) {t : Tree} (htree : s.tree = some t) {j : Nat}
    (hj : j < 19 * t.leaves - 9) (hg : ∀ i, i < j → goodByte s.params s.dstBase.toNat s.dstCap.toNat i)
    (hbad : ¬goodByte s.params s.dstBase.toNat s.dstCap.toNat j) :
    treeSerBody s = ({ s with mem := s.mem.writeBytes s.dstBase.toNat ((serTree t).take j) } : State).raiseErr (raise .io (s.dstBase.toNat + j)) := by
  have hl : (serTree t).length = 19 * t.leaves - 9 := by have := t.length_serTree; omega
  have hp := treeSer_post h (t := t)
  unfold treeSerBody
  rw [htree]
  simp only
  split
  · next m r he =>
    rw [he] at hp
    obtain ⟨rfl, rfl⟩ := OutFail.eq hp hg hbad
    rfl
  · next m out he =>
    rw [he] at hp
    exact (hbad (hp.2.2 j (by omega))).elim

/-! ### TREE_DESER -/

theorem src_holds (hr : Readable s.params s.srcBase.toNat s.srcLen.toNat) :
    (srcOpen s.srcBase.toNat s.srcLen.toNat).Holds s.params s.mem s.srcBytes := srcOpen_holds s.mem hr

/-- TREE_DESER of a source whose first bytes are a serialized tree, whatever its channel meets after them
(R215, R222). -/
theorem treeDeserBody_parsed {H : SrcCh → List Byte → Prop} {e : Nat → Nat → Raise} (hF : Feeds s.params s.mem H e)
    {t : Tree} {rest : List Byte} (hn : t.isNode = true) (hs : t.leaves ≤ 256)
    (hh : H (srcOpen s.srcBase.toNat s.srcLen.toNat) (serTree t ++ rest)) :
    treeDeserBody s = { s with
      seq := .idle
      done := true
      tree := some (t.renumber 0)
      codes := deriveCodes t
      srcPos := BitVec.ofNat 32 (19 * t.leaves - 9) } := by
  obtain ⟨c, he, -, -, -, hp, -⟩ := hF.parseTree_ser hn (by have := t.size_eq; simp [Config.maxNodes]; omega) hh
  have hl : (serTree t).length = 19 * t.leaves - 9 := by have := t.length_serTree; omega
  rw [hl, srcOpen_pos, Nat.zero_add] at hp
  simp only [treeDeserBody, he, hp]
  simp [State.install, State.complete]

theorem treeDeserBody_done (hr : Readable s.params s.srcBase.toNat s.srcLen.toNat) {t : Tree} {rest : List Byte}
    (hn : t.isNode = true) (hs : t.leaves ≤ 256) (hsrc : s.srcBytes = serTree t ++ rest) :
    treeDeserBody s = { s with
      seq := .idle
      done := true
      tree := some (t.renumber 0)
      codes := deriveCodes t
      srcPos := BitVec.ofNat 32 (19 * t.leaves - 9) } :=
  treeDeserBody_parsed (feeds_holds _ _) hn hs (hsrc ▸ src_holds hr)

/-- A source that ends inside the tree, or just before the tag of a 512th node (R215). -/
theorem treeDeserBody_short (hr : Readable s.params s.srcBase.toNat s.srcLen.toNat) {t : Tree}
    (hn : t.isNode = true) (hc : t.CutShort Config.maxNodes s.srcBytes) :
    treeDeserBody s = s.uninstall.raiseErr (raise .corrupt s.srcLen.toNat) := by
  have := (feeds_holds _ _).parseLoop_short (st := []) t (Nat.le_refl _) (fun _ => hn) (src_holds hr) hc
  simp only [treeDeserBody, parseTree, this]
  rfl

/-- A first byte that is no tag, or the tag of a leaf (R215, R217). -/
theorem treeDeserBody_badRoot (hr : Readable s.params s.srcBase.toNat s.srcLen.toNat) {v : Byte} {rest : List Byte}
    (hv : v ≠ nodeTag) (hsrc : s.srcBytes = v :: rest) :
    treeDeserBody s = s.uninstall.raiseErr (raise .corrupt 0) := by
  have hh := src_holds hr
  rw [hsrc] at hh
  obtain ⟨c, he, -⟩ := hh.srcByte_cons
  have : parseLoop s.params s.mem Config.maxNodes [] (srcOpen s.srcBase.toNat s.srcLen.toNat) =
      .error (raise .corrupt 0) := by
    rw [Config.maxNodes, parseLoop]
    by_cases h0 : v = leafTag <;> simp [he, h0, hv]
  simp only [treeDeserBody, parseTree, this]

/-- A byte that is no tag where a record begins, or any byte where that of a 512th node does (R215, R218). -/
theorem treeDeserBody_badTag (hr : Readable s.params s.srcBase.toNat s.srcLen.toNat) {t : Tree} {k : Nat} {v : Byte}
    {rest : List Byte} (hn : t.isNode = true) (hk : k < t.size) (hk2 : k ≤ Config.maxNodes)
    (hv : k < Config.maxNodes → v ≠ leafTag ∧ v ≠ nodeTag)
    (hsrc : s.srcBytes = (serTree t).take (t.recordOffset k) ++ v :: rest) :
    treeDeserBody s = s.uninstall.raiseErr (raise .corrupt (t.recordOffset k)) := by
  have hh := src_holds hr
  rw [hsrc] at hh
  have := parseLoop_badTag (st := []) t hk hk2 (Nat.le_refl _) (fun _ => hn) hv hh
  rw [srcOpen_pos, Nat.zero_add] at this
  simp only [treeDeserBody, parseTree, this]

/-- TREE_DESER succeeds only on a serialized tree of at most 511 nodes (R215, R218). -/
theorem treeDeserBody_sound (hr : Readable s.params s.srcBase.toNat s.srcLen.toNat) :
    (∃ r, r.kind = .corrupt ∧ treeDeserBody s = s.uninstall.raiseErr r) ∨
    ∃ t rest, t.isNode = true ∧ t.leaves ≤ 256 ∧ s.srcBytes = serTree t ++ rest := by
  unfold treeDeserBody
  rcases parseTree_cases s.params s.mem (srcOpen s.srcBase.toNat s.srcLen.toNat) with ⟨r, he, hk⟩ | ⟨T, c, he, h1, h2, -⟩
  · rw [he]; exact .inl ⟨r, parseLoop_error (src_holds hr) he, rfl⟩
  · obtain ⟨l2, hl, -⟩ := parseTree_sound (src_holds hr) he
    exact .inr ⟨T, l2, h1, by have := T.size_eq; simp [Config.maxNodes] at h2; omega, hl⟩

/-! ### ENCODE -/

/-- The output stage of ENCODE (R265): the header, and then the payload read back from TMP. -/
theorem encodeOutput_post {t : Tree} {bc : Nat} {m : Memory} {payload : List Byte}
    (hv : s.dstBase.toNat + s.dstCap.toNat ≤ Config.addrSpace)
    (hr : Readable s.params s.tmpBase.toNat payload.length)
    (ha : Apart s.tmpBase.toNat payload.length s.dstBase.toNat s.dstCap.toNat)
    (hm : m.bytes s.tmpBase.toNat payload.length = payload) :
    (encodeOutput s t bc payload.length m).Post
      (fun m' out => m' = m.writeBytes s.dstBase.toNat (headerBytes t bc ++ payload) ∧
        out.n = (headerBytes t bc ++ payload).length ∧
        ∀ j, j < (headerBytes t bc ++ payload).length → goodByte s.params s.dstBase.toNat s.dstCap.toNat j)
      (OutFail s.params s.dstBase.toNat s.dstCap.toNat m (headerBytes t bc ++ payload)) := by
  refine Res.Post.bind (((outOpen_holds s.params _ _ m).outBytes hv (headerBytes t bc)).mono (fun _ _ h => h)
    fun m' r h => by simpa using h.append payload) fun m1 out1 h1 => ?_
  have hsrc := srcOpen_holds (p := s.params) m hr
  rw [hm] at hsrc
  refine Res.Post.bind ((copyLoop_post hv payload hsrc ha h1.1 (h1.2.2.1.trans rfl)).mono (fun _ _ h => h)
    fun m' r h => by simpa using h) fun m2 out2 h2 => ?_
  exact (h2.1.outFlush hv h2.2).mono (fun m' o' h' => ⟨by simpa using h'.1, by simpa using h'.2.1, by simpa using h'.2.2⟩)
    fun m' r h' => by simpa using h'

/-- ENCODE after pass 1 (R265), where no access fails and every byte of SRC has a code. -/
theorem encodeRest_done {pre : Bool} (h : startResult (.encode pre) s = .run) (hwf : s.mem.wf = true)
    (hne : s.srcLen ≠ 0) (hr : Readable s.params s.srcBase.toNat s.srcLen.toNat) {f : FreqTable} {tot : Word} {t : Tree}
    (hbuild : buildTree f = some t) (hsyms : ∀ v ∈ s.srcBytes, lookup f v ≠ 0) {bits : List Bool}
    (hbits : encodeBits (deriveCodes t) s.srcBytes = bits)
    (ht : Takes s.params s.tmpBase.toNat s.tmpCap.toNat ((bits.length + 7) / 8))
    (htr : Readable s.params s.tmpBase.toNat ((bits.length + 7) / 8))
    (hd : Takes s.params s.dstBase.toNat s.dstCap.toNat (artifact t bits).length) :
    encodeRest { s with freq := f, total := tot } = { s with
      seq := .idle
      done := true
      freq := f
      total := tot
      tree := some t
      codes := deriveCodes t
      mem := (s.mem.writeBytes s.tmpBase.toNat (packBits bits)).writeBytes s.dstBase.toNat (artifact t bits)
      bitcnt := BitVec.ofNat 64 bits.length
      outLen := BitVec.ofNat 32 (artifact t bits).length } := by
  have hvt := run_valid h (r := .tmp) rfl
  obtain ⟨hok, -, hsy⟩ := buildTree_ok hbuild
  have hst := run_apart h (r := .src) (q := .tmp) rfl rfl (by simp)
  have htd := run_apart h (r := .tmp) (q := .dst) rfl rfl (by simp)
  have hpl := length_packBits bits
  have h1 := encode_post (p := s.params) (codes := deriveCodes t) hvt hr hst (m0 := s.mem) rfl
    (fun v hv => (hasCode_deriveCodes hok.root v).2 ((hsy v).2 (hsyms v hv)))
  change Res.Post _ (fun m out => m = Memory.writeBytes _ _ (packBits (encodeBits (deriveCodes t) s.srcBytes)) ∧
    _ = (packBits (encodeBits (deriveCodes t) s.srcBytes)).length ∧ _ = (encodeBits (deriveCodes t) s.srcBytes).length ∧ _)
    (OutFail _ _ _ _ (packBits (encodeBits (deriveCodes t) s.srcBytes))) at h1
  rw [hbits] at h1
  obtain ⟨m, out, he, rfl, hn, hob, -⟩ := h1.ok_of_no_raise fun m r h' =>
    Takes.no_fail (show Takes s.params s.tmpBase.toNat s.tmpCap.toNat _ by rw [hpl]; exact ht) h'
  have hcap := ht.1
  have h2 := encodeOutput_post (s := s) (t := t) (bc := bits.length)
    (m := s.mem.writeBytes s.tmpBase.toNat (packBits bits)) (payload := packBits bits) (run_dst h rfl)
    (by rw [hpl]; exact htr) (fun j hj => htd j (by simp only [State.regionSize]; omega))
    (Memory.bytes_writeBytes_self _ hwf (by simp only [State.regionBase, State.regionSize] at hvt; omega))
  obtain ⟨m', out', he', rfl, hn', -⟩ := h2.ok_of_no_raise fun m r h' => Takes.no_fail hd h'
  have hpass : encodePass2 ({ s with freq := f, total := tot }.install t) (deriveCodes t) =
      .ok (s.mem.writeBytes s.tmpBase.toNat (packBits bits)) out := he
  have hout : encodeOutput ({ s with freq := f, total := tot }.install t) t bits.length (packBits bits).length
      (s.mem.writeBytes s.tmpBase.toNat (packBits bits)) =
      .ok ((s.mem.writeBytes s.tmpBase.toNat (packBits bits)).writeBytes s.dstBase.toNat
        (headerBytes t bits.length ++ packBits bits)) out' := he'
  unfold encodeRest
  simp only [hne, if_false, hbuild, State.install_codes, hpass, Res.bind_ok, hob, hn, hout, hn']
  rfl

/-- Pass 1 of ENCODE with a readable SRC (R261): FREQ is the byte counts of SRC, TOTAL its length. -/
theorem encodeBody_eq (hr : Readable s.params s.srcBase.toNat s.srcLen.toNat) :
    encodeBody false s =
      encodeRest { s with freq := (Counters.clear.tallyAll s.srcBytes).freq, total := s.srcLen } := by
  have hlen : s.srcBytes.length < 2 ^ 32 := by rw [length_srcBytes]; exact s.srcLen.isLt
  have htot : (Counters.clear.tallyAll s.srcBytes).total = s.srcLen := by
    rw [total_tallyAll, length_srcBytes]; simp [Counters.clear]
  have hc : count s Counters.clear = .ok (Counters.clear.tallyAll s.srcBytes) () := by
    have hp : (count s Counters.clear).Post (fun c _ => c = Counters.clear.tallyAll s.srcBytes) (fun _ _ => False) := by
      have h1 := count_clear_ends s
      cases hx : count s Counters.clear with
      | ok c u => rw [hx] at h1; exact h1
      | raised c r =>
        rw [hx] at h1
        exfalso
        have hk : r.kind = .io := h1
        have h2 := countLoop_ends (p := s.params) s.srcLen.toNat 0 Counters.clear
          (srcOpen_aligned s.params s.mem s.srcBase.toNat s.srcLen.toNat) (by simp)
        rw [show countLoop s.params s.mem s.srcLen.toNat 0 (srcOpen s.srcBase.toNat s.srcLen.toNat) Counters.clear =
          .raised c r from hx] at h2
        obtain ⟨k, -, -, -, h3 | ⟨h3, -⟩⟩ := h2
        · obtain ⟨j, -, h5, -, -, h6, -⟩ := h3
          have := hr j h5
          rw [srcOpen_base] at h6
          rw [h6] at this; simp at this
        · rw [h3] at hk; simp [raise] at hk
    obtain ⟨c, u, he, rfl⟩ := hp.ok_of_no_raise fun _ _ h => h
    exact he
  unfold encodeBody
  simp only [Bool.false_eq_true, if_false, hc, htot]

/-- ENCODE without PRE (R261, R265). -/
theorem encodeBody_done (h : startResult (.encode false) s = .run) (hwf : s.mem.wf = true)
    (hne : s.srcLen ≠ 0) (hr : Readable s.params s.srcBase.toNat s.srcLen.toNat) {t : Tree}
    (hbuild : buildTree (Counters.clear.tallyAll s.srcBytes).freq = some t) {bits : List Bool}
    (hbits : encodeBits (deriveCodes t) s.srcBytes = bits)
    (ht : Takes s.params s.tmpBase.toNat s.tmpCap.toNat ((bits.length + 7) / 8))
    (htr : Readable s.params s.tmpBase.toNat ((bits.length + 7) / 8))
    (hd : Takes s.params s.dstBase.toNat s.dstCap.toNat (artifact t bits).length) :
    encodeBody false s = { s with
      seq := .idle
      done := true
      freq := (Counters.clear.tallyAll s.srcBytes).freq
      total := s.srcLen
      tree := some t
      codes := deriveCodes t
      mem := (s.mem.writeBytes s.tmpBase.toNat (packBits bits)).writeBytes s.dstBase.toNat (artifact t bits)
      bitcnt := BitVec.ofNat 64 bits.length
      outLen := BitVec.ofNat 32 (artifact t bits).length } := by
  have hlen : s.srcBytes.length < 2 ^ 32 := by rw [length_srcBytes]; exact s.srcLen.isLt
  have hsyms : ∀ v ∈ s.srcBytes, lookup (Counters.clear.tallyAll s.srcBytes).freq v ≠ 0 :=
    fun v hv => (tallyAll_clear_ne_zero hlen).2 hv
  rw [encodeBody_eq hr]
  exact encodeRest_done (tot := s.srcLen) h hwf hne hr hbuild hsyms hbits ht htr hd

/-- ENCODE.PRE (R262, R265). -/
theorem encodePreBody_done (h : startResult (.encode true) s = .run) (hwf : s.mem.wf = true)
    (hne : s.srcLen ≠ 0) (hr : Readable s.params s.srcBase.toNat s.srcLen.toNat) {t : Tree}
    (hbuild : buildTree s.freq = some t) (hsyms : ∀ v ∈ s.srcBytes, lookup s.freq v ≠ 0) {bits : List Bool}
    (hbits : encodeBits (deriveCodes t) s.srcBytes = bits)
    (ht : Takes s.params s.tmpBase.toNat s.tmpCap.toNat ((bits.length + 7) / 8))
    (htr : Readable s.params s.tmpBase.toNat ((bits.length + 7) / 8))
    (hd : Takes s.params s.dstBase.toNat s.dstCap.toNat (artifact t bits).length) :
    encodeBody true s = { s with
      seq := .idle
      done := true
      tree := some t
      codes := deriveCodes t
      mem := (s.mem.writeBytes s.tmpBase.toNat (packBits bits)).writeBytes s.dstBase.toNat (artifact t bits)
      bitcnt := BitVec.ofNat 64 bits.length
      outLen := BitVec.ofNat 32 (artifact t bits).length } := by
  have := encodeRest_done (tot := s.total) h hwf hne hr hbuild hsyms hbits ht htr hd
  simpa [encodeBody] using this

/-- The output stage of ENCODE into a DST that does not take the byte `j` (R159, R265). -/
theorem encodeOutput_unwritable {t : Tree} {bc j : Nat} {m : Memory} {payload : List Byte}
    (hv : s.dstBase.toNat + s.dstCap.toNat ≤ Config.addrSpace)
    (hr : Readable s.params s.tmpBase.toNat payload.length)
    (ha : Apart s.tmpBase.toNat payload.length s.dstBase.toNat s.dstCap.toNat)
    (hm : m.bytes s.tmpBase.toNat payload.length = payload) (hj : j < (headerBytes t bc ++ payload).length)
    (hg : ∀ i, i < j → goodByte s.params s.dstBase.toNat s.dstCap.toNat i)
    (hbad : ¬goodByte s.params s.dstBase.toNat s.dstCap.toNat j) :
    encodeOutput s t bc payload.length m =
      .raised (m.writeBytes s.dstBase.toNat ((headerBytes t bc ++ payload).take j)) (raise .io (s.dstBase.toNat + j)) := by
  have hp := encodeOutput_post (s := s) (t := t) (bc := bc) hv hr ha hm
  cases hx : encodeOutput s t bc payload.length m with
  | ok m out => rw [hx] at hp; exact absurd (hp.2.2 j hj) hbad
  | raised m r =>
    rw [hx] at hp
    obtain ⟨rfl, rfl⟩ := OutFail.eq hp hg hbad
    rfl

/-- ENCODE after pass 1, with a TMP that does not take the byte `j` (R265). -/
theorem encodeRest_tmpUnwritable {pre : Bool} (h : startResult (.encode pre) s = .run) (hne : s.srcLen ≠ 0)
    (hr : Readable s.params s.srcBase.toNat s.srcLen.toNat) {f : FreqTable} {tot : Word} {t : Tree}
    (hbuild : buildTree f = some t) (hsyms : ∀ v ∈ s.srcBytes, lookup f v ≠ 0) {bits : List Bool}
    (hbits : encodeBits (deriveCodes t) s.srcBytes = bits) {j : Nat} (hj : j < (bits.length + 7) / 8)
    (hg : ∀ i, i < j → goodByte s.params s.tmpBase.toNat s.tmpCap.toNat i)
    (hbad : ¬goodByte s.params s.tmpBase.toNat s.tmpCap.toNat j) :
    encodeRest { s with freq := f, total := tot } =
      State.raiseErr (raise .io (s.tmpBase.toNat + j)) { s with freq := f, total := tot, tree := some t, codes := deriveCodes t, mem := s.mem.writeBytes s.tmpBase.toNat ((packBits bits).take j) } := by
  obtain ⟨hok, -, hsy⟩ := buildTree_ok hbuild
  subst hbits
  have hx : encodePass2 (State.install t { s with freq := f, total := tot }) (deriveCodes t) = _ :=
    encode_unwritable (run_valid h (r := .tmp) rfl) hr (run_apart h (r := .src) (q := .tmp) rfl rfl (by simp))
      (m0 := s.mem) rfl (fun v hv => (hasCode_deriveCodes hok.root v).2 ((hsy v).2 (hsyms v hv))) hj hg hbad
  unfold encodeRest
  simp only [hne, if_false, hbuild, State.install_codes, hx, Res.bind_raised]
  rfl

/-- ENCODE after pass 1, with a symbol without a code at offset `j` of SRC (R262, R265). -/
theorem encodeRest_noCode {pre : Bool} (h : startResult (.encode pre) s = .run) (hne : s.srcLen ≠ 0)
    (hr : Readable s.params s.srcBase.toNat s.srcLen.toNat) {f : FreqTable} {tot : Word} {t : Tree}
    (hbuild : buildTree f = some t) {j : Nat} (hj : j < s.srcLen.toNat)
    (hsyms : ∀ v ∈ s.srcBytes.take j, lookup f v ≠ 0) (hno : lookup f (s.mem.read (s.srcBase.toNat + j)) = 0)
    {bits : List Bool} (hbits : encodeBits (deriveCodes t) (s.srcBytes.take j) = bits)
    (ht : Takes s.params s.tmpBase.toNat s.tmpCap.toNat ((bits.length + 7) / 8)) :
    encodeRest { s with freq := f, total := tot } =
      State.raiseErr (raise .internal j) { s with freq := f, total := tot, tree := some t, codes := deriveCodes t, mem := s.mem.writeBytes s.tmpBase.toNat (drained s.params (packBits (wholeBytes bits))) } := by
  obtain ⟨hok, -, hsy⟩ := buildTree_ok hbuild
  subst hbits
  have hbad : hasCode (deriveCodes t) (s.mem.read (s.srcBase.toNat + j)) = false := by
    rw [Bool.eq_false_iff, ne_eq, hasCode_deriveCodes hok.root, hsy]
    exact fun h => h hno
  have hx : encodePass2 (State.install t { s with freq := f, total := tot }) (deriveCodes t) = _ :=
    encode_noCode (run_valid h (r := .tmp) rfl) hr (run_apart h (r := .src) (q := .tmp) rfl rfl (by simp))
      (m0 := s.mem) (vs := s.srcBytes) rfl (by simpa using hj)
      (fun v hv => (hasCode_deriveCodes hok.root v).2 ((hsy v).2 (hsyms v hv)))
      (by rw [getElem_srcBytes]; exact hbad) ht
  unfold encodeRest
  simp only [hne, if_false, hbuild, State.install_codes, hx, Res.bind_raised]
  rfl

/-- ENCODE after pass 1, with a DST that does not take the byte `j` (R265). -/
theorem encodeRest_dstUnwritable {pre : Bool} (h : startResult (.encode pre) s = .run) (hwf : s.mem.wf = true)
    (hne : s.srcLen ≠ 0) (hr : Readable s.params s.srcBase.toNat s.srcLen.toNat) {f : FreqTable} {tot : Word} {t : Tree}
    (hbuild : buildTree f = some t) (hsyms : ∀ v ∈ s.srcBytes, lookup f v ≠ 0) {bits : List Bool}
    (hbits : encodeBits (deriveCodes t) s.srcBytes = bits)
    (ht : Takes s.params s.tmpBase.toNat s.tmpCap.toNat ((bits.length + 7) / 8))
    (htr : Readable s.params s.tmpBase.toNat ((bits.length + 7) / 8)) {j : Nat} (hj : j < (artifact t bits).length)
    (hg : ∀ i, i < j → goodByte s.params s.dstBase.toNat s.dstCap.toNat i)
    (hbad : ¬goodByte s.params s.dstBase.toNat s.dstCap.toNat j) :
    encodeRest { s with freq := f, total := tot } =
      State.raiseErr (raise .io (s.dstBase.toNat + j)) { s with freq := f, total := tot, tree := some t, codes := deriveCodes t, mem := (s.mem.writeBytes s.tmpBase.toNat (packBits bits)).writeBytes s.dstBase.toNat ((artifact t bits).take j) } := by
  have hvt := run_valid h (r := .tmp) rfl
  obtain ⟨hok, -, hsy⟩ := buildTree_ok hbuild
  have htd := run_apart h (r := .tmp) (q := .dst) rfl rfl (by simp)
  have hpl := length_packBits bits
  have h1 := encode_post (p := s.params) (codes := deriveCodes t) hvt hr
    (run_apart h (r := .src) (q := .tmp) rfl rfl (by simp)) (m0 := s.mem) (vs := s.srcBytes) rfl
    (fun v hv => (hasCode_deriveCodes hok.root v).2 ((hsy v).2 (hsyms v hv)))
  rw [hbits] at h1
  obtain ⟨m, out, he, hm, hn, hob, -⟩ := h1.ok_of_no_raise fun m r h' =>
    Takes.no_fail (show Takes s.params s.tmpBase.toNat s.tmpCap.toNat _ by rw [hpl]; exact ht) h'
  have hm : m = s.mem.writeBytes s.tmpBase.toNat (packBits bits) := hm
  have hpass : encodePass2 (State.install t { s with freq := f, total := tot }) (deriveCodes t) = .ok m out := he
  have hcap := ht.1
  have hy := encodeOutput_unwritable (s := State.install t { s with freq := f, total := tot }) (t := t)
    (bc := bits.length) (m := m) (payload := packBits bits) (run_dst h rfl)
    (by rw [hpl]; exact htr) (fun i hi => htd i (by simp only [State.regionSize]; omega))
    (by rw [hm]; exact Memory.bytes_writeBytes_self _ hwf (by simp only [State.regionBase, State.regionSize] at hvt; omega))
    hj hg hbad
  unfold encodeRest
  simp only [hne, if_false, hbuild, State.install_codes, hpass, Res.bind_ok, hob, hn, hy, Res.bind_raised]
  rw [hm]
  rfl

/-! ### DECODE -/

/-- The walk does not depend on the numbers of the nodes (R222). -/
theorem decodeFrom_renumber (root : Tree) (k : Nat) (bs : List Bool) :
    Tree.decodeFrom (root.renumber k) .atRoot bs = Tree.decodeFrom root .atRoot bs := by
  have hchild : ∀ (u : Tree) (j : Nat) (b : Bool), ∃ i, (u.renumber j).child b = (u.child b).renumber i := by
    intro u j b
    cases u with
    | leaf i s w => exact ⟨j, rfl⟩
    | node i z o w => cases b <;> exact ⟨_, rfl⟩
  have key : ∀ (bs : List Bool), Tree.decodeFrom (root.renumber k) .atRoot bs = Tree.decodeFrom root .atRoot bs ∧
      ∀ (u : Tree) (j : Nat), Tree.decodeFrom (root.renumber k) (.atNode (u.renumber j)) bs =
        Tree.decodeFrom root (.atNode u) bs := by
    intro bs
    induction bs with
    | nil => exact ⟨rfl, fun u j => rfl⟩
    | cons b bs ih =>
      have step : ∀ (u : Tree) (j : Nat), (match (u.renumber j).child b with
            | .leaf _ s _ => (Tree.decodeFrom (root.renumber k) .atRoot bs).map (s :: ·)
            | .node i z o v => Tree.decodeFrom (root.renumber k) (.atNode (.node i z o v)) bs) =
          (match u.child b with
            | .leaf _ s _ => (Tree.decodeFrom root .atRoot bs).map (s :: ·)
            | .node i z o v => Tree.decodeFrom root (.atNode (.node i z o v)) bs) := by
        intro u j
        obtain ⟨i, hi⟩ := hchild u j b
        rw [hi]
        cases hc : u.child b with
        | leaf i' s w => simp only [Tree.renumber, ih.1]
        | node i' z o w =>
          have := ih.2 (.node i' z o w) i
          simpa only [Tree.renumber] using this
      exact ⟨step root k, fun u j => step u j⟩
  exact (key bs).1

theorem emitted_renumber (root : Tree) (k : Nat) (bs : List Bool) :
    Tree.emitted (root.renumber k) .atRoot bs = Tree.emitted root .atRoot bs := by
  have hchild : ∀ (u : Tree) (j : Nat) (b : Bool), ∃ i, (u.renumber j).child b = (u.child b).renumber i := by
    intro u j b
    cases u with
    | leaf i s w => exact ⟨j, rfl⟩
    | node i z o w => cases b <;> exact ⟨_, rfl⟩
  have key : ∀ (bs : List Bool), Tree.emitted (root.renumber k) .atRoot bs = Tree.emitted root .atRoot bs ∧
      ∀ (u : Tree) (j : Nat), Tree.emitted (root.renumber k) (.atNode (u.renumber j)) bs =
        Tree.emitted root (.atNode u) bs := by
    intro bs
    induction bs with
    | nil => exact ⟨rfl, fun u j => rfl⟩
    | cons b bs ih =>
      have step : ∀ (u : Tree) (j : Nat), (match (u.renumber j).child b with
            | .leaf _ s _ => s :: Tree.emitted (root.renumber k) .atRoot bs
            | .node i z o v => Tree.emitted (root.renumber k) (.atNode (.node i z o v)) bs) =
          (match u.child b with
            | .leaf _ s _ => s :: Tree.emitted root .atRoot bs
            | .node i z o v => Tree.emitted root (.atNode (.node i z o v)) bs) := by
        intro u j
        obtain ⟨i, hi⟩ := hchild u j b
        rw [hi]
        cases hc : u.child b with
        | leaf i' s w => simp only [Tree.renumber, ih.1]
        | node i' z o w =>
          have := ih.2 (.node i' z o w) i
          simpa only [Tree.renumber] using this
      exact ⟨step root k, fun u j => step u j⟩
  exact (key bs).1

/-- DECODE once the tree is read, whatever its channel meets after it (R266, R273). -/
theorem decodeBody_parsed {H : SrcCh → List Byte → Prop} {e : Nat → Nat → Raise} (hF : Feeds s.params s.mem H e)
    {t : Tree} {rest : List Byte} (hn : t.isNode = true) (hs : t.leaves ≤ 256)
    (hh : H (srcOpen s.srcBase.toNat s.srcLen.toNat) (serTree t ++ rest)) :
    ∃ c, decodeBody s = decodeRest (s.install (t.renumber 0)) (t.renumber 0) c ∧ H c rest ∧
      c.base = s.srcBase.toNat ∧ c.len = s.srcLen.toNat ∧ c.pos = (serTree t).length ∧ c.nb = 0 := by
  obtain ⟨c, he, h1, h2, h3, h4, h5⟩ := hF.parseTree_ser hn (by have := t.size_eq; simp [Config.maxNodes]; omega) hh
  have hne : ¬s.srcLen = 0 := fun h0 => by
    have h1 := hF.within hh
    have h2 := t.length_serTree
    have h3 := t.leaves_pos
    have h4 : s.srcLen.toNat = 0 := by simp [h0]
    rw [srcOpen_len, h4, List.length_append] at h1
    omega
  refine ⟨c, ?_, h1, h2, h3, by simpa using h4, h5⟩
  unfold decodeBody
  simp only [hne, if_false, he]

/-- DECODE of a SRC that meets no bus error, once the tree is read (R266, R273). -/
theorem decodeBody_tree (hr : Readable s.params s.srcBase.toNat s.srcLen.toNat) {t : Tree} {rest : List Byte}
    (hn : t.isNode = true) (hs : t.leaves ≤ 256) (hsrc : s.srcBytes = serTree t ++ rest) :
    ∃ c, decodeBody s = decodeRest (s.install (t.renumber 0)) (t.renumber 0) c ∧ c.Holds s.params s.mem rest ∧
      c.base = s.srcBase.toNat ∧ c.len = s.srcLen.toNat ∧ c.pos = (serTree t).length ∧ c.nb = 0 :=
  decodeBody_parsed (feeds_holds _ _) hn hs (by rw [← hsrc]; exact src_holds hr)

/-- DECODE once the count line is read, whatever its channel meets after it (R266). -/
theorem decodeBody_counted {H : SrcCh → List Byte → Prop} {e : Nat → Nat → Raise} (hF : Feeds s.params s.mem H e)
    {t : Tree} {ds payload : List Byte} (hn : t.isNode = true) (hs : t.leaves ≤ 256)
    (hh : H (srcOpen s.srcBase.toNat s.srcLen.toNat) (serTree t ++ newline :: (ds ++ newline :: payload)))
    (hds : ∀ v ∈ ds, isDigit v = true) (hne : ds ≠ []) (hbc : decimalValue ds ≤ 2 ^ 64 - 1) :
    ∃ c, H c payload ∧ c.base = s.srcBase.toNat ∧ c.len = s.srcLen.toNat ∧ c.nb = 0 ∧
      decodeBody s =
        match (walk s.params (t.renumber 0) (decimalValue ds) ((serTree t).length + ds.length + 2) c s.mem
            (outOpen s.dstBase.toNat s.dstCap.toNat)).bind fun m out => outFlush s.params m out with
        | .raised m r => { s.install (t.renumber 0) with mem := m }.raiseErr r
        | .ok m out =>
          { s.install (t.renumber 0) with
            mem := m
            outLen := BitVec.ofNat 32 out.n
            bitcnt := BitVec.ofNat 64 (decimalValue ds)
            srcPos := BitVec.ofNat 32 ((serTree t).length + ds.length + 2) }.complete := by
  obtain ⟨c, he, h1, h2, h3, h4, h5⟩ := decodeBody_parsed hF hn hs hh
  obtain ⟨c', he', h1', h2', h3', h4', h5'⟩ := hF.parseCount_line ds h1 hds hne hbc
  rw [h4] at h4'
  refine ⟨c', h1', h2'.trans h2, h3'.trans h3, h5'.trans h5, ?_⟩
  rw [he]
  unfold decodeRest
  simp only [State.install_params, State.install_mem, State.install_dstBase, State.install_dstCap, he', h4']
  all_goals rfl

/-- DECODE's walk over a readable payload that decodes to `syms` (R246, R266). -/
theorem decodeBody_walk (h : startResult .decode s = .run) (hr : Readable s.params s.srcBase.toNat s.srcLen.toNat)
    {t : Tree} {ds payload : List Byte} (hn : t.isNode = true) (hs : t.leaves ≤ 256)
    (hsrc : s.srcBytes = serTree t ++ newline :: (ds ++ newline :: payload)) (hds : ∀ v ∈ ds, isDigit v = true)
    (hne : ds ≠ []) (hbc : decimalValue ds ≤ 2 ^ 64 - 1) (hlen : decimalValue ds ≤ 8 * payload.length)
    {syms : List Byte} (hd : Tree.decodeFrom t .atRoot ((bitsOfBytes payload).take (decimalValue ds)) = some syms) :
    ∃ x : Res Memory OutCh, x.Post
        (fun m out => m = s.mem.writeBytes s.dstBase.toNat syms ∧ out.n = syms.length ∧
          ∀ j, j < syms.length → goodByte s.params s.dstBase.toNat s.dstCap.toNat j)
        (OutFail s.params s.dstBase.toNat s.dstCap.toNat s.mem syms) ∧
      decodeBody s =
        match x with
        | .raised m r => { s.install (t.renumber 0) with mem := m }.raiseErr r
        | .ok m out =>
          { s.install (t.renumber 0) with
            mem := m
            outLen := BitVec.ofNat 32 out.n
            bitcnt := BitVec.ofNat 64 (decimalValue ds)
            srcPos := BitVec.ofNat 32 ((serTree t).length + ds.length + 2) }.complete := by
  obtain ⟨c, h1, h2, h3, h4, he⟩ := decodeBody_counted (feeds_holds _ _) hn hs
    (by rw [← hsrc]; exact src_holds hr) hds hne hbc
  have hcur : c.curBits = [] := by simp [SrcCh.curBits, h4]
  exact ⟨_, walk_ends (m0 := s.mem) (run_dst h rfl) ⟨by omega, payload, h1, rfl⟩
    (by rw [h2, h3]; exact run_src_dst h rfl rfl) (by rw [hcur, List.nil_append, length_bitsOfBytes]; exact hlen)
    (by rw [hcur, List.nil_append, decodeFrom_renumber]; exact hd), he⟩

theorem decodeBody_done (h : startResult .decode s = .run) (hr : Readable s.params s.srcBase.toNat s.srcLen.toNat)
    {t : Tree} {ds payload : List Byte} (hn : t.isNode = true) (hs : t.leaves ≤ 256)
    (hsrc : s.srcBytes = serTree t ++ newline :: (ds ++ newline :: payload)) (hds : ∀ v ∈ ds, isDigit v = true)
    (hne : ds ≠ []) (hbc : decimalValue ds ≤ 2 ^ 64 - 1) (hlen : decimalValue ds ≤ 8 * payload.length)
    {syms : List Byte} (hd : Tree.decodeFrom t .atRoot ((bitsOfBytes payload).take (decimalValue ds)) = some syms)
    (ht : Takes s.params s.dstBase.toNat s.dstCap.toNat syms.length) :
    decodeBody s = { s with
      seq := .idle
      done := true
      tree := some (t.renumber 0)
      codes := deriveCodes t
      mem := s.mem.writeBytes s.dstBase.toNat syms
      outLen := BitVec.ofNat 32 syms.length
      bitcnt := BitVec.ofNat 64 (decimalValue ds)
      srcPos := BitVec.ofNat 32 ((serTree t).length + ds.length + 2) } := by
  obtain ⟨x, hx, he⟩ := decodeBody_walk h hr hn hs hsrc hds hne hbc hlen hd
  obtain ⟨m, out, rfl, rfl, hn', -⟩ := hx.ok_of_no_raise fun m r h' => Takes.no_fail ht h'
  rw [he]
  simp [State.install, State.complete, hn']

/-- A DST that does not take an output byte (41_bitstream.md R159, R266). -/
theorem decodeBody_unwritable (h : startResult .decode s = .run)
    (hr : Readable s.params s.srcBase.toNat s.srcLen.toNat)
    {t : Tree} {ds payload : List Byte} (hn : t.isNode = true) (hs : t.leaves ≤ 256)
    (hsrc : s.srcBytes = serTree t ++ newline :: (ds ++ newline :: payload)) (hds : ∀ v ∈ ds, isDigit v = true)
    (hne : ds ≠ []) (hbc : decimalValue ds ≤ 2 ^ 64 - 1) (hlen : decimalValue ds ≤ 8 * payload.length)
    {syms : List Byte} (hd : Tree.decodeFrom t .atRoot ((bitsOfBytes payload).take (decimalValue ds)) = some syms)
    {j : Nat} (hj : j < syms.length) (hg : ∀ i, i < j → goodByte s.params s.dstBase.toNat s.dstCap.toNat i)
    (hbad : ¬goodByte s.params s.dstBase.toNat s.dstCap.toNat j) :
    decodeBody s = ({ s.install (t.renumber 0) with mem := s.mem.writeBytes s.dstBase.toNat (syms.take j) } : State).raiseErr (raise .io (s.dstBase.toNat + j)) := by
  obtain ⟨x, hx, he⟩ := decodeBody_walk h hr hn hs hsrc hds hne hbc hlen hd
  rw [he]
  cases x with
  | ok m out => exact (hbad (hx.2.2 j hj)).elim
  | raised m r =>
    obtain ⟨rfl, rfl⟩ := OutFail.eq hx hg hbad
    rfl

/-- A count line that is not one (R230, R273): the tree stays installed. -/
theorem decodeBody_badLine (hr : Readable s.params s.srcBase.toNat s.srcLen.toNat) {t : Tree} {rest : List Byte}
    (hn : t.isNode = true) (hs : t.leaves ≤ 256) (hsrc : s.srcBytes = serTree t ++ rest) {info : Nat}
    (hbad : (rest = [] ∧ info = s.srcLen.toNat) ∨
      (∃ v l, rest = v :: l ∧ v ≠ newline ∧ info = (serTree t).length) ∨
      (∃ ds, rest = newline :: ds ∧ (∀ v ∈ ds, isDigit v = true) ∧ decimalValue ds ≤ 2 ^ 64 - 1 ∧
        info = s.srcLen.toNat) ∨
      (∃ ds v l, rest = newline :: (ds ++ v :: l) ∧ (∀ v ∈ ds, isDigit v = true) ∧ decimalValue ds ≤ 2 ^ 64 - 1 ∧
        ((isDigit v = false ∧ (v = newline → ds = [])) ∨
          (isDigit v = true ∧ 2 ^ 64 - 1 < decimalValue (ds ++ [v]))) ∧
        info = (serTree t).length + 1 + ds.length)) :
    decodeBody s = (s.install (t.renumber 0)).raiseErr (raise .corrupt info) := by
  obtain ⟨c, he, h1, h2, h3, h4, h5⟩ := decodeBody_tree hr hn hs hsrc
  have key : parseCount s.params s.mem c = .error (raise .corrupt info) := by
    have hF := feeds_holds s.params s.mem
    rcases hbad with ⟨rfl, rfl⟩ | ⟨v, l, rfl, hv, rfl⟩ | ⟨ds, rfl, hds, hval, rfl⟩ | ⟨ds, v, l, rfl, hds, hval, hb, rfl⟩
    · rw [hF.parseCount_short h1 (.inl rfl), h3]
    · obtain ⟨c', hc, -⟩ := h1.srcByte_cons
      simp [parseCount, hc, hv, h4]
    · rw [hF.parseCount_short h1 (.inr ⟨ds, rfl, hds, hval⟩), h3]
    · obtain ⟨c', hc, h6, h7, h8, h9, -, -⟩ := h1.srcByte_cons
      have hl := h6.length
      simp only [parseCount, hc, ne_eq, not_true_eq_false, if_false]
      rw [hF.countDigits_bad ds h6 hds (by simp at hl; omega) hval hb, h9, h4]
  rw [he]
  unfold decodeRest
  simp only [State.install_params, State.install_mem, key]

/-- A payload that ends inside a code or too soon (R246, R273). -/
theorem decodeBody_badPayload (h : startResult .decode s = .run)
    (hr : Readable s.params s.srcBase.toNat s.srcLen.toNat)
    {t : Tree} {ds payload : List Byte} (hn : t.isNode = true) (hs : t.leaves ≤ 256)
    (hsrc : s.srcBytes = serTree t ++ newline :: (ds ++ newline :: payload)) (hds : ∀ v ∈ ds, isDigit v = true)
    (hne : ds ≠ []) (hbc : decimalValue ds ≤ 2 ^ 64 - 1) {info : Nat}
    (hbad : (decimalValue ds ≤ 8 * payload.length ∧
        info = (serTree t).length + ds.length + 2 + decimalValue ds / 8 ∧
        Tree.decodeFrom t .atRoot ((bitsOfBytes payload).take (decimalValue ds)) = none) ∨
      (8 * payload.length < decimalValue ds ∧ info = s.srcLen.toNat))
    (ht : Takes s.params s.dstBase.toNat s.dstCap.toNat
      (Tree.emitted t .atRoot ((bitsOfBytes payload).take (decimalValue ds))).length) :
    decodeBody s = ({ s.install (t.renumber 0) with mem := s.mem.writeBytes s.dstBase.toNat (drained s.params (Tree.emitted t .atRoot ((bitsOfBytes payload).take (decimalValue ds)))) } : State).raiseErr (raise .corrupt info) := by
  obtain ⟨c, he, h1, h2, h3, h4, h5⟩ := decodeBody_tree hr hn hs hsrc
  obtain ⟨c', he', h1', h2', h3', h4', h5'⟩ := (feeds_holds _ _).parseCount_line ds h1 hds hne hbc
  have hp := walk_post (p := s.params) (bc := decimalValue ds) (p0 := c'.pos) (root := t.renumber 0) (m0 := s.mem)
    (src := c') (run_dst h rfl)
    ⟨by rw [h5', h5]; omega, payload, h1', rfl⟩ (by rw [h2', h2, h3', h3]; exact run_src_dst h rfl rfl)
  have hcur : c'.curBits = [] := by simp [SrcCh.curBits, h5', h5]
  rw [hcur, List.nil_append, decodeFrom_renumber, emitted_renumber, length_bitsOfBytes] at hp
  rw [he]
  unfold decodeRest
  simp only [State.install_params, State.install_mem, State.install_dstBase, State.install_dstCap, he']
  split
  · next m r hx =>
    rw [hx] at hp
    rcases hp with ⟨syms, h6, h7⟩ | ⟨rfl, ⟨h8, h9, rfl⟩ | ⟨h8, rfl⟩⟩
    · have : syms = Tree.emitted t .atRoot ((bitsOfBytes payload).take (decimalValue ds)) := by
        rcases h6 with h6 | h6
        · rw [emitted_of_decodeFrom h6]
        · exact h6
      subst this
      exact (Takes.no_fail ht h7).elim
    · rcases hbad with ⟨-, rfl, -⟩ | ⟨h10, -⟩
      · rw [h4', h4]
      · omega
    · rcases hbad with ⟨h10, -⟩ | ⟨-, rfl⟩
      · omega
      · rw [h3', h3]
  · next m out hx =>
    rw [hx] at hp
    obtain ⟨h6, syms, h7, -⟩ := hp
    rcases hbad with ⟨-, -, h8⟩ | ⟨h8, -⟩
    · rw [h8] at h7; simp at h7
    · omega

end

end Sys2Proof.Machine
end

