-- ==== Sys2Proof/Laws/BusErrors.lean ====
section
/-! SUPPORT. What each command leaves when a block fetch meets a bus error at offset `j`, the first of its
region: the bytes of the blocks before it are processed (41_bitstream.md R152, R155; 43_framer.md R221;
44_dispatch.md R241, R246; 45_pipeline.md R265, R266). -/

namespace Sys2Proof.Machine

section
variable {s : State} {j : Nat}

theorem bytes_eq_take (s : State) {k : Nat} (hk : k ≤ s.srcLen.toNat) :
    s.mem.bytes s.srcBase.toNat k = s.srcBytes.take k := by
  obtain ⟨i, hi⟩ : ∃ i, s.srcLen.toNat = k + i := ⟨s.srcLen.toNat - k, by omega⟩
  rw [State.srcBytes, hi, Memory.bytes_add, List.take_left']
  simp

theorem src_cut (hb : FirstBusError s.params s.srcBase.toNat s.srcLen.toNat j) :
    (srcOpen s.srcBase.toNat s.srcLen.toNat).Cut s.params s.mem j (s.srcBytes.take (blockStart s.params j)) := by
  rw [← bytes_eq_take s (by have := hb.lt; have := blockStart_le s.params j; omega)]
  exact srcOpen_cut s.mem hb

theorem length_take_block (hj : j < s.srcLen.toNat) :
    (s.srcBytes.take (blockStart s.params j)).length = blockStart s.params j := by
  have := blockStart_le s.params j
  rw [List.length_take, length_srcBytes]; omega

theorem blockStart_lt (hj : j < s.srcLen.toNat) : blockStart s.params j < s.srcLen.toNat := by
  have := blockStart_le s.params j
  omega

/-! ### PACK, UNPACK, ENC_RAW, DEC_RAW -/

theorem packBody_fetch (h : startResult .pack s = .run) (hb : FirstBusError s.params s.srcBase.toNat s.srcLen.toNat j)
    (hl : ∀ v ∈ s.srcBytes.take (blockStart s.params j), isBit v = true)
    (ht : Takes s.params s.dstBase.toNat s.dstCap.toNat ((blockStart s.params j + 7) / 8)) :
    packBody s = ({ s with mem := s.mem.writeBytes s.dstBase.toNat (drained s.params (packBits (wholeBytes ((s.srcBytes.take (blockStart s.params j)).map fun v => v.getLsbD 0)))) } : State).raiseErr (raise .io (s.srcBase.toNat + j)) := by
  have := packLoop_cut (run_dst h rfl) _ 0 (n := s.srcLen.toNat) (by rw [length_take_block hb.lt]; exact blockStart_lt hb.lt)
    (src_cut hb) (run_src_dst h rfl rfl) hl (by rw [List.nil_append, List.length_map, length_take_block hb.lt]; exact ht)
    (outOpen_holdsBits s.params _ _ s.mem)
  simp only [packBody, this, Res.bind_raised, List.nil_append]
  rfl

theorem src_cutBits (hb : FirstBusError s.params s.srcBase.toNat s.srcLen.toNat j) :
    (srcOpen s.srcBase.toNat s.srcLen.toNat).CutBits s.params s.mem j
      (bitsOfBytes (s.srcBytes.take (blockStart s.params j))) := (src_cut hb).bits rfl

theorem length_bits_block (hj : j < s.srcLen.toNat) :
    (bitsOfBytes (s.srcBytes.take (blockStart s.params j))).length = 8 * blockStart s.params j := by
  rw [length_bitsOfBytes, length_take_block hj]

theorem unpackBody_fetch (h : startResult .unpack s = .run) (hb : FirstBusError s.params s.srcBase.toNat s.srcLen.toNat j)
    (hn : 8 * blockStart s.params j < s.bitcnt.toNat)
    (ht : Takes s.params s.dstBase.toNat s.dstCap.toNat (8 * blockStart s.params j)) :
    unpackBody s = ({ s with mem := s.mem.writeBytes s.dstBase.toNat (drained s.params (unpacked (bitsOfBytes (s.srcBytes.take (blockStart s.params j))))) } : State).raiseErr (raise .io (s.srcBase.toNat + j)) := by
  have := unpackLoop_cut (run_dst h rfl) _ (n := s.bitcnt.toNat) (by rw [length_bits_block hb.lt]; exact hn)
    (src_cutBits hb) (run_src_dst h rfl rfl) (by simp only [List.length_nil, Nat.zero_add, length_bits_block hb.lt]; exact ht)
    (outOpen_holds s.params _ _ s.mem)
  simp only [unpackBody, this, Res.bind_raised, List.nil_append, unpacked_eq]
  rfl

theorem encRawBody_fetch (h : startResult .encRaw s = .run) (hb : FirstBusError s.params s.srcBase.toNat s.srcLen.toNat j)
    (hl : ∀ v ∈ s.srcBytes.take (blockStart s.params j), hasCode s.codes v = true)
    (ht : Takes s.params s.dstBase.toNat s.dstCap.toNat
      (((encodeBits s.codes (s.srcBytes.take (blockStart s.params j))).length + 7) / 8)) :
    encRawBody s = ({ s with mem := s.mem.writeBytes s.dstBase.toNat (drained s.params (packBits (wholeBytes (encodeBits s.codes (s.srcBytes.take (blockStart s.params j)))))) } : State).raiseErr (raise .io (s.srcBase.toNat + j)) := by
  have := encodeSyms_cut (run_dst h rfl) s.codes _ 0 (n := s.srcLen.toNat)
    (by rw [length_take_block hb.lt]; exact blockStart_lt hb.lt) (src_cut hb) (run_src_dst h rfl rfl) hl ht
    (outOpen_holdsBits s.params _ _ s.mem)
  simp only [encRawBody, this, Res.bind_raised, List.nil_append]
  rfl

theorem decRawBody_fetch (h : startResult .decRaw s = .run) {t : Tree} (htree : s.tree = some t)
    (hb : FirstBusError s.params s.srcBase.toNat s.srcLen.toNat j) (hn : 8 * blockStart s.params j < s.bitcnt.toNat)
    (ht : Takes s.params s.dstBase.toNat s.dstCap.toNat
      (Tree.emitted t .atRoot (bitsOfBytes (s.srcBytes.take (blockStart s.params j)))).length) :
    decRawBody s = ({ s with mem := s.mem.writeBytes s.dstBase.toNat (drained s.params (Tree.emitted t .atRoot (bitsOfBytes (s.srcBytes.take (blockStart s.params j))))) } : State).raiseErr (raise .io (s.srcBase.toNat + j)) := by
  have := walkLoop_cut (run_dst h rfl) t s.bitcnt.toNat 0 _ (left := s.bitcnt.toNat) .atRoot
    (by rw [length_bits_block hb.lt]; exact hn) (src_cutBits hb) (run_src_dst h rfl rfl) ht
    (outOpen_holds s.params _ _ s.mem)
  simp only [decRawBody, htree, walk, this, Res.bind_raised, List.nil_append]
  rfl

/-! ### TREE_DESER, DECODE -/

theorem parseTree_fetch (hb : FirstBusError s.params s.srcBase.toNat s.srcLen.toNat j) {t : Tree} (hn : t.isNode = true)
    (hc : t.CutShort Config.maxNodes (s.srcBytes.take (blockStart s.params j))) :
    parseTree s.params s.mem (srcOpen s.srcBase.toNat s.srcLen.toNat) = .error (raise .io (s.srcBase.toNat + j)) :=
  (feeds_cut s.params s.mem j).parseLoop_short t (Nat.le_refl _) (fun _ => hn) (src_cut hb) hc

/-- A parse that meets a bus error leaves no tree (R221). -/
theorem treeDeserBody_fetch (hb : FirstBusError s.params s.srcBase.toNat s.srcLen.toNat j) {t : Tree} (hn : t.isNode = true)
    (hc : t.CutShort Config.maxNodes (s.srcBytes.take (blockStart s.params j))) :
    treeDeserBody s = s.uninstall.raiseErr (raise .io (s.srcBase.toNat + j)) := by
  simp only [treeDeserBody, parseTree_fetch hb hn hc]

/-- DECODE whose tree parse meets a bus error leaves no tree (R221, R266). -/
theorem decodeBody_fetchTree (hb : FirstBusError s.params s.srcBase.toNat s.srcLen.toNat j) {t : Tree} (hn : t.isNode = true)
    (hc : t.CutShort Config.maxNodes (s.srcBytes.take (blockStart s.params j))) :
    decodeBody s = s.uninstall.raiseErr (raise .io (s.srcBase.toNat + j)) := by
  have hne : ¬s.srcLen = 0 := fun h0 => by have := hb.lt; simp [h0] at this
  simp only [decodeBody, hne, if_false, parseTree_fetch hb hn hc]

/-- DECODE whose count line meets a bus error keeps the tree it has parsed (R230, R266). -/
theorem decodeBody_fetchLine (hb : FirstBusError s.params s.srcBase.toNat s.srcLen.toNat j) {t : Tree} {rest : List Byte} (hn : t.isNode = true)
    (hs : t.leaves ≤ 256) (hsrc : s.srcBytes.take (blockStart s.params j) = serTree t ++ rest)
    (hl : rest = [] ∨ ∃ ds, rest = newline :: ds ∧ (∀ v ∈ ds, isDigit v = true) ∧ decimalValue ds ≤ 2 ^ 64 - 1) :
    decodeBody s = (s.install (t.renumber 0)).raiseErr (raise .io (s.srcBase.toNat + j)) := by
  have hF := feeds_cut s.params s.mem j
  obtain ⟨c, he, h1, h2, -⟩ := decodeBody_parsed hF hn hs (hsrc ▸ src_cut hb)
  rw [he]
  unfold decodeRest
  simp only [State.install_params, State.install_mem, hF.parseCount_short h1 hl, h2]

/-- DECODE whose payload meets a bus error keeps the tree it has parsed and has decoded the blocks before
(R246, R266). -/
theorem decodeBody_fetchPayload (h : startResult .decode s = .run) (hb : FirstBusError s.params s.srcBase.toNat s.srcLen.toNat j)
    {t : Tree} {ds payload : List Byte} (hn : t.isNode = true) (hs : t.leaves ≤ 256)
    (hsrc : s.srcBytes.take (blockStart s.params j) = serTree t ++ newline :: (ds ++ newline :: payload))
    (hds : ∀ v ∈ ds, isDigit v = true) (hne : ds ≠ []) (hbc : decimalValue ds ≤ 2 ^ 64 - 1)
    (hlen : 8 * payload.length < decimalValue ds)
    (ht : Takes s.params s.dstBase.toNat s.dstCap.toNat (Tree.emitted t .atRoot (bitsOfBytes payload)).length) :
    decodeBody s = ({ s.install (t.renumber 0) with mem := s.mem.writeBytes s.dstBase.toNat (drained s.params (Tree.emitted t .atRoot (bitsOfBytes payload))) } : State).raiseErr (raise .io (s.srcBase.toNat + j)) := by
  obtain ⟨c, h1, h2, h3, h4, he⟩ := decodeBody_counted (feeds_cut s.params s.mem j) hn hs (hsrc ▸ src_cut hb)
    hds hne hbc
  have := walkLoop_cut (run_dst h rfl) (t.renumber 0) (decimalValue ds) ((serTree t).length + ds.length + 2) _
    (left := decimalValue ds) .atRoot (by rw [length_bitsOfBytes]; exact hlen) (h1.bits h4)
    (by rw [h2, h3]; exact run_src_dst h rfl rfl) (by rw [emitted_renumber]; exact ht) (outOpen_holds s.params _ _ s.mem)
  rw [he]
  simp only [walk, this, Res.bind_raised, List.nil_append, emitted_renumber, h2]

/-! ### ENCODE -/

/-- ENCODE whose pass 1 meets a bus error: the bytes of the blocks before it are counted, from zero, and
nothing else has changed (R261, R183). -/
theorem encodeBody_fetch (hb : FirstBusError s.params s.srcBase.toNat s.srcLen.toNat j) :
    encodeBody false s = ({ s with freq := (Counters.clear.tallyAll (s.srcBytes.take (blockStart s.params j))).freq, total := BitVec.ofNat 32 (blockStart s.params j) } : State).raiseErr (raise .io (s.srcBase.toNat + j)) := by
  have hlen := s.srcLen.isLt
  have hle := blockStart_lt hb.lt
  have hzero : ∀ q, lookup Counters.clear.freq q = 0 := fun q => lookup_replicate _ _
  have hc := count_busError (c0 := Counters.clear) hb.lt hb.before hb.bus
    (fun q => by
      have h1 := List.count_le_length (a := q) (l := s.srcBytes.take (blockStart s.params j))
      rw [length_take_block hb.lt] at h1
      rw [hzero]
      change 0 + (s.srcBytes.take (blockStart s.params j)).count q < 2 ^ 32
      omega)
    (by change 0 + blockStart s.params j < 2 ^ 32; omega)
  have htot : (Counters.clear.tallyAll (s.srcBytes.take (blockStart s.params j))).total =
      BitVec.ofNat 32 (blockStart s.params j) := by
    rw [total_tallyAll, length_take_block hb.lt]; simp [Counters.clear]
  simp only [encodeBody, Bool.false_eq_true, if_false, hc, ← htot]
  rfl

/-- ENCODE after pass 1 whose pass 2 meets a bus error of SRC: the tree is built, and TMP holds what is
drained of the blocks before (R265). -/
theorem encodeRest_fetch {pre : Bool} (h : startResult (.encode pre) s = .run) (hb : FirstBusError s.params s.srcBase.toNat s.srcLen.toNat j)
    {f : FreqTable} {tot : Word} {t : Tree} (hbuild : buildTree f = some t)
    (hsyms : ∀ v ∈ s.srcBytes.take (blockStart s.params j), lookup f v ≠ 0) {bits : List Bool}
    (hbits : encodeBits (deriveCodes t) (s.srcBytes.take (blockStart s.params j)) = bits)
    (ht : Takes s.params s.tmpBase.toNat s.tmpCap.toNat ((bits.length + 7) / 8)) :
    encodeRest { s with freq := f, total := tot } =
      State.raiseErr (raise .io (s.srcBase.toNat + j)) { s with freq := f, total := tot, tree := some t, codes := deriveCodes t, mem := s.mem.writeBytes s.tmpBase.toNat (drained s.params (packBits (wholeBytes bits))) } := by
  obtain ⟨hok, -, hsy⟩ := buildTree_ok hbuild
  have hne : ¬s.srcLen = 0 := fun h0 => by have := hb.lt; simp [h0] at this
  subst hbits
  have hx := encodeSyms_cut (bs := []) (run_valid h (r := .tmp) rfl) (deriveCodes t) _ 0 (n := s.srcLen.toNat)
    (by rw [length_take_block hb.lt]; exact blockStart_lt hb.lt) (src_cut hb)
    (run_apart h (r := .src) (q := .tmp) rfl rfl (by simp))
    (fun v hv => (hasCode_deriveCodes hok.root v).2 ((hsy v).2 (hsyms v hv))) ht (outOpen_holdsBits s.params _ _ s.mem)
  have hpass : encodePass2 (State.install t { s with freq := f, total := tot }) (deriveCodes t) =
      .raised (s.mem.writeBytes s.tmpBase.toNat (drained s.params (packBits (wholeBytes (encodeBits (deriveCodes t) (s.srcBytes.take (blockStart s.params j)))))))
        (raise .io (s.srcBase.toNat + j)) := by
    change Res.bind (encodeSyms s.params (deriveCodes t) s.srcLen.toNat 0 (srcOpen s.srcBase.toNat s.srcLen.toNat) s.mem
      (outOpen s.tmpBase.toNat s.tmpCap.toNat)) _ = _
    exact congrArg (fun x => Res.bind x _) hx
  unfold encodeRest
  simp only [hne, if_false, hbuild, State.install_codes, hpass, Res.bind_raised]
  rfl

/-- ENCODE whose output stage meets a bus error of TMP: the header and the blocks of payload before it are
what DST has taken (R265). -/
theorem encodeRest_fetchTmp {pre : Bool} (h : startResult (.encode pre) s = .run) (hwf : s.mem.wf = true)
    (hne : s.srcLen ≠ 0) (hr : Readable s.params s.srcBase.toNat s.srcLen.toNat) {f : FreqTable} {tot : Word} {t : Tree}
    (hbuild : buildTree f = some t) (hsyms : ∀ v ∈ s.srcBytes, lookup f v ≠ 0) {bits : List Bool}
    (hbits : encodeBits (deriveCodes t) s.srcBytes = bits)
    (ht : Takes s.params s.tmpBase.toNat s.tmpCap.toNat ((bits.length + 7) / 8))
    (htb : FirstBusError s.params s.tmpBase.toNat ((bits.length + 7) / 8) j)
    (hd : Takes s.params s.dstBase.toNat s.dstCap.toNat
      (headerBytes t bits.length ++ (packBits bits).take (blockStart s.params j)).length) :
    encodeRest { s with freq := f, total := tot } =
      State.raiseErr (raise .io (s.tmpBase.toNat + j)) { s with freq := f, total := tot, tree := some t, codes := deriveCodes t, mem := (s.mem.writeBytes s.tmpBase.toNat (packBits bits)).writeBytes s.dstBase.toNat (drained s.params (headerBytes t bits.length ++ (packBits bits).take (blockStart s.params j))) } := by
  have hvt := run_valid h (r := .tmp) rfl
  obtain ⟨hok, -, hsy⟩ := buildTree_ok hbuild
  have htd := run_apart h (r := .tmp) (q := .dst) rfl rfl (by simp)
  have hpl := length_packBits bits
  have h1 := encode_post (p := s.params) (codes := deriveCodes t) hvt hr
    (run_apart h (r := .src) (q := .tmp) rfl rfl (by simp)) (m0 := s.mem) (vs := s.srcBytes) rfl
    (fun v hv => (hasCode_deriveCodes hok.root v).2 ((hsy v).2 (hsyms v hv)))
  rw [hbits] at h1
  obtain ⟨m, out, he, hm, hn, hob, -⟩ := h1.ok_of_no_raise fun m r h' =>
    Takes.no_fail (show Takes s.params s.tmpBase.toNat s.tmpCap.toNat _ by rw [hpl]; exact ht) h'
  have hm : m = s.mem.writeBytes s.tmpBase.toNat (packBits bits) := hm
  have hpass : encodePass2 (State.install t { s with freq := f, total := tot }) (deriveCodes t) = .ok m out := he
  have hcap := ht.1
  have hle := blockStart_le s.params j
  have hj := htb.lt
  obtain ⟨m1, o1, ho1, hh1, -⟩ := ((outOpen_holds s.params s.dstBase.toNat s.dstCap.toNat m).outBytes (run_dst h rfl)
    (headerBytes t bits.length)).ok_of_no_raise fun m r h' => Takes.no_fail (hd.le (by simp)) h'
  have hcut := srcOpen_cut (p := s.params) (len := (packBits bits).length) m (by rw [hpl]; exact htb)
  have hbytes : m.bytes s.tmpBase.toNat (blockStart s.params j) = (packBits bits).take (blockStart s.params j) := by
    have h2 : m.bytes s.tmpBase.toNat (packBits bits).length = packBits bits := by
      rw [hm]; exact Memory.bytes_writeBytes_self _ hwf (by simp only [State.regionBase, State.regionSize] at hvt; omega)
    obtain ⟨i, hi⟩ : ∃ i, (packBits bits).length = blockStart s.params j + i := ⟨(packBits bits).length - blockStart s.params j, by omega⟩
    rw [hi, Memory.bytes_add] at h2
    rw [← h2, List.take_left']
    simp
  rw [hbytes] at hcut
  have hcopy := copyLoop_cut (run_dst h rfl) _ (n := (packBits bits).length) (by simp; omega) hcut
    (fun i hi => htd i (by simp only [srcOpen_len, State.regionSize] at *; omega)) (by simpa using hd) hh1
  have hy : encodeOutput (State.install t { s with freq := f, total := tot }) t bits.length (packBits bits).length m =
      .raised (m.writeBytes s.dstBase.toNat (drained s.params (headerBytes t bits.length ++ (packBits bits).take (blockStart s.params j))))
        (raise .io (s.tmpBase.toNat + j)) := by
    simp only [List.nil_append] at hcopy
    unfold encodeOutput
    rw [show outBytes (State.install t { s with freq := f, total := tot }).params m
      (outOpen (State.install t { s with freq := f, total := tot }).dstBase.toNat (State.install t { s with freq := f, total := tot }).dstCap.toNat)
      (headerBytes t bits.length) = .ok m1 o1 from ho1, Res.bind_ok]
    exact congrArg (fun x => Res.bind x _) hcopy
  unfold encodeRest
  simp only [hne, if_false, hbuild, State.install_codes, hpass, Res.bind_ok, hob, hn, hy, Res.bind_raised]
  rw [hm]
  rfl

end

end Sys2Proof.Machine
end

