-- ==== Sys2Proof/Laws/NoBusError.lean ====
section
/-! SUPPORT. What a procedure gives when it completes, it gives also on a platform without bus errors: so what
a completed command did can be read off from the laws that assume readable sources. -/

namespace Sys2Proof.Machine

/-- The parameters with no bus error anywhere (20_memory.md R73). -/
def noBusError (p : Params) : Params := { p with busErrRd := [], busErrWr := [] }

@[simp] theorem noBusError_bwCap (p : Params) : (noBusError p).bwCap = p.bwCap := rfl

@[simp] theorem noBusError_brBlock (p : Params) : (noBusError p).brBlock = p.brBlock := rfl

/-- Every value the left side gives, the right side gives. -/
def Gives {α : Type} (x y : Except Raise α) : Prop := ∀ v, x = .ok v → y = .ok v

/-- Every result the left side gives, the right side gives. -/
def Completes {μ α : Type} (x y : Res μ α) : Prop := ∀ m a, x = .ok m a → y = .ok m a

theorem Completes.refl {μ α : Type} (x : Res μ α) : Completes x x := fun _ _ h => h

theorem Completes.bind {μ α β : Type} {x y : Res μ α} {f g : μ → α → Res μ β} (h : Completes x y)
    (hf : ∀ m a, Completes (f m a) (g m a)) : Completes (x.bind f) (y.bind g) := by
  intro m b hb
  cases x with
  | raised m' r => simp [Res.bind] at hb
  | ok m' a =>
    rw [h m' a rfl]
    exact hf m' a m b hb

/-! ### Reading -/

theorem memRead_gives (p : Params) (m : Memory) (a : Nat) : Gives (memRead p m a) (memRead (noBusError p) m a) := by
  intro v h
  unfold memRead at h ⊢
  split at h
  · simp at h
  · exact h

theorem fetchBlock_gives (p : Params) (m : Memory) (a k : Nat) :
    Gives (fetchBlock p m a k) (fetchBlock (noBusError p) m a k) := by
  induction k generalizing a with
  | zero => exact fun _ h => h
  | succ k ih =>
    intro v h
    unfold fetchBlock at h ⊢
    split at h
    · simp at h
    · next b hb =>
      rw [memRead_gives p m a b hb]
      split at h
      · simp at h
      · next vs hvs => rw [ih (a + 1) vs hvs]; exact h

theorem refill_gives (p : Params) (m : Memory) (ch : SrcCh) : Gives (refill p m ch) (refill (noBusError p) m ch) := by
  intro v h
  unfold refill at h ⊢
  rw [noBusError_brBlock]
  dsimp only at h ⊢
  split at h
  · simp at h
  · next t ht => rw [fetchBlock_gives p m _ _ t ht]; exact h

theorem srcByte_gives (p : Params) (m : Memory) (ch : SrcCh) :
    Gives (srcByte p m ch) (srcByte (noBusError p) m ch) := by
  intro v h
  unfold srcByte at h ⊢
  cases hb : ch.buf with
  | cons w ws => rw [hb] at h; exact h
  | nil =>
    rw [hb] at h
    dsimp only at h ⊢
    cases hr : refill p m ch with
    | error r => rw [hr] at h; simp at h
    | ok c => rw [refill_gives p m ch c hr]; rw [hr] at h; exact h

/-! ### Writing -/

theorem memWrite_gives (p : Params) (m : Memory) (a : Nat) (v : Byte) :
    Gives (memWrite p m a v) (memWrite (noBusError p) m a v) := by
  intro w h
  unfold memWrite at h ⊢
  split at h
  · simp at h
  · exact h

theorem drainBytes_completes (p : Params) (base cap : Nat) (m : Memory) (n : Nat) (vs : List Byte) :
    Completes (drainBytes p base cap m n vs) (drainBytes (noBusError p) base cap m n vs) := by
  induction vs generalizing m n with
  | nil => exact Completes.refl _
  | cons v vs ih =>
    intro m' a h
    unfold drainBytes at h ⊢
    dsimp only at h ⊢
    split at h
    · simp at h
    · next hc =>
      rw [if_neg hc]
      cases hw : memWrite p m ((base + n) % Config.addrSpace) v with
      | error r => rw [hw] at h; simp at h
      | ok m1 =>
        rw [memWrite_gives p m _ v m1 hw]
        rw [hw] at h
        exact ih m1 (n + 1) m' a h

theorem drain_completes (p : Params) (m : Memory) (ch : OutCh) :
    Completes (drain p m ch) (drain (noBusError p) m ch) :=
  (drainBytes_completes p _ _ _ _ _).bind fun _ _ => Completes.refl _

theorem outByte_completes (p : Params) (m : Memory) (ch : OutCh) (v : Byte) :
    Completes (outByte p m ch v) (outByte (noBusError p) m ch v) := by
  unfold outByte
  dsimp only
  rw [noBusError_bwCap]
  split
  · exact drain_completes p m _
  · exact Completes.refl _

theorem outBit_completes (p : Params) (m : Memory) (ch : OutCh) (b : Bool) :
    Completes (outBit p m ch b) (outBit (noBusError p) m ch b) := by
  unfold outBit
  dsimp only
  split
  · exact outByte_completes p m _ _
  · exact Completes.refl _

theorem outFlush_completes (p : Params) (m : Memory) (ch : OutCh) :
    Completes (outFlush p m ch) (outFlush (noBusError p) m ch) := by
  unfold outFlush
  split
  · exact (outByte_completes p m _ _).bind fun m ch => drain_completes p m ch
  · exact drain_completes p m ch

theorem outBytes_completes (p : Params) (vs : List Byte) (m : Memory) (ch : OutCh) :
    Completes (outBytes p m ch vs) (outBytes (noBusError p) m ch vs) := by
  induction vs generalizing m ch with
  | nil => exact Completes.refl _
  | cons v vs ih => exact (outByte_completes p m ch v).bind fun m ch => ih m ch

theorem outBits_completes (p : Params) (bs : List Bool) (m : Memory) (ch : OutCh) :
    Completes (outBits p m ch bs) (outBits (noBusError p) m ch bs) := by
  induction bs generalizing m ch with
  | nil => exact Completes.refl _
  | cons b bs ih => exact (outBit_completes p m ch b).bind fun m ch => ih m ch

/-! ### Procedures -/

theorem encodeSyms_completes (p : Params) (codes : CodeTable) (n i : Nat) (src : SrcCh) (m : Memory) (out : OutCh) :
    Completes (encodeSyms p codes n i src m out) (encodeSyms (noBusError p) codes n i src m out) := by
  induction n generalizing i src m out with
  | zero => exact Completes.refl _
  | succ n ih =>
    intro m' a h
    unfold encodeSyms at h ⊢
    cases hs : srcByte p m src with
    | error r => rw [hs] at h; simp at h
    | ok x =>
      rw [srcByte_gives p m src x hs]
      rw [hs] at h
      obtain ⟨o, src'⟩ := x
      cases o with
      | none => exact h
      | some b =>
        dsimp only at h ⊢
        split at h
        · simp at h
        · next hc =>
          rw [if_neg hc]
          exact ((outBits_completes p _ m out).bind fun m out => ih (i + 1) src' m out) m' a h

theorem copyLoop_completes (p : Params) (n : Nat) (src : SrcCh) (m : Memory) (out : OutCh) :
    Completes (copyLoop p n src m out) (copyLoop (noBusError p) n src m out) := by
  induction n generalizing src m out with
  | zero => exact Completes.refl _
  | succ n ih =>
    intro m' a h
    unfold copyLoop at h ⊢
    cases hs : srcByte p m src with
    | error r => rw [hs] at h; simp at h
    | ok x =>
      rw [srcByte_gives p m src x hs]
      rw [hs] at h
      obtain ⟨o, src'⟩ := x
      cases o with
      | none => exact h
      | some b => exact ((outByte_completes p m out b).bind fun m out => ih src' m out) m' a h

/-- The state on a platform without bus errors. -/
def State.quiet (s : State) : State := { s with params := noBusError s.params }

theorem encodePass2_completes (s : State) (codes : CodeTable) :
    Completes (encodePass2 s codes) (encodePass2 s.quiet codes) :=
  (encodeSyms_completes s.params codes _ _ _ _ _).bind fun m out => outFlush_completes s.params m out

theorem encodeOutput_completes (s : State) (t : Tree) (bc plen : Nat) (m : Memory) :
    Completes (encodeOutput s t bc plen m) (encodeOutput s.quiet t bc plen m) :=
  (outBytes_completes s.params _ _ _).bind fun m out =>
    (copyLoop_completes s.params _ _ m out).bind fun m out => outFlush_completes s.params m out

end Sys2Proof.Machine
end

