-- ==== Sys2Proof/Laws/Completed.lean ====
section
/-! SUPPORT. What a command that has completed has done, whatever bus errors the platform has: TREE_SER,
ENC_RAW and ENCODE. -/

namespace Sys2Proof.Machine

theorem readable_quiet (p : Params) (a n : Nat) : Readable (noBusError p) a n := fun _ _ => rfl

theorem length_le_of_good {p : Params} {base cap n : Nat} (h : ∀ j, j < n → goodByte p base cap j) : n ≤ cap := by
  rcases Nat.eq_zero_or_pos n with h0 | h0
  · omega
  · have := (h (n - 1) (by omega)).1
    omega

/-- EncodeSyms and OutFlush that complete (44_dispatch.md R241, 41_bitstream.md R160). -/
theorem encode_ok {p : Params} {base cap sb sn : Nat} {m0 m : Memory} {codes : CodeTable} {vs : List Byte} {out : OutCh}
    (hv : base + cap ≤ Config.addrSpace) (ha : Apart sb sn base cap) (hvs : m0.bytes sb sn = vs)
    (he : (encodeSyms p codes sn 0 (srcOpen sb sn) m0 (outOpen base cap)).bind (fun m out => outFlush p m out) = .ok m out) :
    (∀ v ∈ vs, hasCode codes v = true) ∧ m = m0.writeBytes base (packBits (encodeBits codes vs)) ∧
      out.n = (packBits (encodeBits codes vs)).length ∧ out.bits = (encodeBits codes vs).length ∧
      (packBits (encodeBits codes vs)).length ≤ cap := by
  have he' := ((encodeSyms_completes p codes sn 0 (srcOpen sb sn) m0 (outOpen base cap)).bind
    fun m out => outFlush_completes p m out) m out he
  have hl : vs.length = sn := by rw [← hvs]; simp
  have hloop := encodeSyms_post (p := noBusError p) hv codes vs 0
    (by rw [← hvs]; exact srcOpen_holds m0 (readable_quiet p sb sn)) ha (outOpen_holdsBits _ base cap m0)
  rw [hl] at hloop
  have hp : ((encodeSyms (noBusError p) codes sn 0 (srcOpen sb sn) m0 (outOpen base cap)).bind
      fun m out => outFlush (noBusError p) m out).Post
      (fun m out => (∀ v ∈ vs, hasCode codes v = true) ∧ m = m0.writeBytes base (packBits (encodeBits codes vs)) ∧
        out.n = (packBits (encodeBits codes vs)).length ∧ out.bits = (encodeBits codes vs).length ∧
        (packBits (encodeBits codes vs)).length ≤ cap) (fun _ _ => True) := by
    refine Res.Post.bind (hloop.mono (fun _ _ h => h) fun _ _ _ => trivial) fun m out ho => ?_
    refine (ho.2.outFlush hv).mono (fun m' o' h' => ?_) fun _ _ _ => trivial
    simp only [List.nil_append] at h'
    exact ⟨ho.1, h'.1, h'.2.1, h'.2.2.1, length_le_of_good h'.2.2.2⟩
  rw [he'] at hp
  exact hp

/-- The output stage of ENCODE that completes (45_pipeline.md R265). -/
theorem encodeOutput_ok {s : State} {t : Tree} {bc : Nat} {m m' : Memory} {payload : List Byte} {out : OutCh}
    (hv : s.dstBase.toNat + s.dstCap.toNat ≤ Config.addrSpace)
    (ha : Apart s.tmpBase.toNat payload.length s.dstBase.toNat s.dstCap.toNat)
    (hm : m.bytes s.tmpBase.toNat payload.length = payload)
    (he : encodeOutput s t bc payload.length m = .ok m' out) :
    m' = m.writeBytes s.dstBase.toNat (headerBytes t bc ++ payload) ∧ out.n = (headerBytes t bc ++ payload).length ∧
      (headerBytes t bc ++ payload).length ≤ s.dstCap.toNat := by
  have he' := encodeOutput_completes s t bc payload.length m m' out he
  have hp := encodeOutput_post (s := s.quiet) (t := t) (bc := bc) hv (readable_quiet _ _ _) ha hm
  rw [he'] at hp
  exact ⟨hp.1, hp.2.1, length_le_of_good hp.2.2⟩

variable {s : State}

/-- ENC_RAW that completes (44_dispatch.md R250). -/
theorem encRawBody_completed (h : startResult .encRaw s = .run) (hok : (encRawBody s).err = false) :
    (∀ v ∈ s.srcBytes, hasCode s.codes v = true) ∧
    ((encodeBits s.codes s.srcBytes).length + 7) / 8 ≤ s.dstCap.toNat ∧
    encRawBody s = { s with
      seq := .idle
      done := true
      mem := s.mem.writeBytes s.dstBase.toNat (packBits (encodeBits s.codes s.srcBytes))
      bitcnt := BitVec.ofNat 64 (encodeBits s.codes s.srcBytes).length
      outLen := BitVec.ofNat 32 (((encodeBits s.codes s.srcBytes).length + 7) / 8) } := by
  unfold encRawBody at hok ⊢
  dsimp only at hok ⊢
  cases hx : (encodeSyms s.params s.codes s.srcLen.toNat 0 (srcOpen s.srcBase.toNat s.srcLen.toNat) s.mem
      (outOpen s.dstBase.toNat s.dstCap.toNat)).bind fun m out => outFlush s.params m out with
  | raised m r => rw [hx] at hok; simp at hok
  | ok m out =>
    obtain ⟨h1, rfl, h3, h4, h5⟩ := encode_ok (run_dst h rfl) (run_src_dst h rfl rfl) rfl hx
    rw [length_packBits] at h3 h5
    refine ⟨h1, h5, ?_⟩
    dsimp only
    rw [h3, h4]
    rfl

/-- TREE_SER that completes (43_framer.md R225). -/
theorem treeSerBody_completed (h : startResult .treeSer s = .run) {t : Tree} (htree : s.tree = some t)
    (hok : (treeSerBody s).err = false) :
    (serTree t).length ≤ s.dstCap.toNat ∧
    treeSerBody s = { s with
      seq := .idle
      done := true
      mem := s.mem.writeBytes s.dstBase.toNat (serTree t)
      outLen := BitVec.ofNat 32 (serTree t).length } := by
  have hp := treeSer_post h (t := t)
  unfold treeSerBody at hok ⊢
  rw [htree] at hok ⊢
  dsimp only at hok ⊢
  cases hx : (outBytes s.params s.mem (outOpen s.dstBase.toNat s.dstCap.toNat) (serTree t)).bind
      fun m out => outFlush s.params m out with
  | raised m r => rw [hx] at hok; simp at hok
  | ok m out =>
    rw [hx] at hp
    obtain ⟨rfl, h2, h3⟩ := hp
    refine ⟨length_le_of_good h3, ?_⟩
    dsimp only
    rw [h2]
    simp only [State.complete]

/-- ENCODE after pass 1 that completes (45_pipeline.md R265). -/
theorem encodeRest_completed {pre : Bool} (h : startResult (.encode pre) s = .run) (hwf : s.mem.wf = true)
    (hne : s.srcLen ≠ 0) {f : FreqTable} {tot : Word}
    (hok : (encodeRest { s with freq := f, total := tot }).err = false) :
    ∃ t bits, buildTree f = some t ∧ bits = encodeBits (deriveCodes t) s.srcBytes ∧
      (∀ v ∈ s.srcBytes, hasCode (deriveCodes t) v = true) ∧ (bits.length + 7) / 8 ≤ s.tmpCap.toNat ∧
      (artifact t bits).length ≤ s.dstCap.toNat ∧
      encodeRest { s with freq := f, total := tot } = { s with
        seq := .idle
        done := true
        freq := f
        total := tot
        tree := some t
        codes := deriveCodes t
        mem := (s.mem.writeBytes s.tmpBase.toNat (packBits bits)).writeBytes s.dstBase.toNat (artifact t bits)
        bitcnt := BitVec.ofNat 64 bits.length
        outLen := BitVec.ofNat 32 (artifact t bits).length } := by
  have hvt := run_valid h (r := .tmp) rfl
  have hst := run_apart h (r := .src) (q := .tmp) rfl rfl (by simp)
  have htd := run_apart h (r := .tmp) (q := .dst) rfl rfl (by simp)
  unfold encodeRest at hok ⊢
  simp only [hne, if_false] at hok ⊢
  cases hb : buildTree f with
  | none => rw [hb] at hok; simp at hok
  | some t =>
    rw [hb] at hok
    dsimp only at hok
    cases hx : encodePass2 (State.install t { s with freq := f, total := tot }) (deriveCodes t) with
    | raised m r =>
      rw [State.install_codes, hx, Res.bind_raised] at hok
      simp at hok
    | ok m tmp =>
      rw [State.install_codes, hx, Res.bind_ok] at hok
      obtain ⟨h1, hm, h3, h4, h5⟩ := encode_ok (vs := s.srcBytes) hvt hst rfl hx
      cases hy : encodeOutput (State.install t { s with freq := f, total := tot }) t tmp.bits tmp.n m with
      | raised m' r => rw [hy, Res.bind_raised] at hok; simp at hok
      | ok m' out =>
        have hpl : (packBits (encodeBits (deriveCodes t) s.srcBytes)).length ≤ s.tmpCap.toNat := h5
        have hfit : s.tmpBase.toNat + (packBits (encodeBits (deriveCodes t) s.srcBytes)).length ≤ Config.addrSpace :=
          Nat.le_trans (Nat.add_le_add_left hpl _) hvt
        have htd' : Apart s.tmpBase.toNat (packBits (encodeBits (deriveCodes t) s.srcBytes)).length s.dstBase.toNat
          s.dstCap.toNat := fun j hj => htd j (Nat.lt_of_lt_of_le hj hpl)
        rw [h3] at hy
        obtain ⟨hm', h6, h7⟩ := encodeOutput_ok (s := { s with freq := f, total := tot }.install t) (run_dst h rfl)
          htd' (by rw [hm]; exact Memory.bytes_writeBytes_self _ hwf hfit) hy
        refine ⟨t, _, rfl, rfl, h1, by rw [← length_packBits]; exact hpl, ?_, ?_⟩
        · rw [h4] at h7; exact h7
        · dsimp only
          rw [State.install_codes, hx, Res.bind_ok,
            h3, hy, Res.bind_ok]
          dsimp only
          rw [hm', hm, h6, h4]
          rfl

/-- Pass 1 of ENCODE that completes: FREQ holds the byte counts of SRC, TOTAL their sum (45_pipeline.md R261). -/
theorem count_clear_completed {c : Counters} {u : Unit} (hx : count s Counters.clear = .ok c u) :
    c = Counters.clear.tallyAll s.srcBytes ∧ c.total = s.srcLen := by
  have h1 := count_clear_ends s
  rw [hx] at h1
  have : c = Counters.clear.tallyAll s.srcBytes := h1
  refine ⟨this, ?_⟩
  rw [this, total_tallyAll, length_srcBytes]
  simp [Counters.clear]

/-- ENCODE or ENCODE.PRE of a non-empty SRC that completes (45_pipeline.md R261, R265). -/
theorem encodeBody_completed {pre : Bool} (h : startResult (.encode pre) s = .run) (hwf : s.mem.wf = true)
    (hne : s.srcLen ≠ 0) (hok : (encodeBody pre s).err = false) :
    ∃ f tot t bits, (pre = false → f = (Counters.clear.tallyAll s.srcBytes).freq ∧ tot = s.srcLen) ∧
      (pre = true → f = s.freq ∧ tot = s.total) ∧ buildTree f = some t ∧
      bits = encodeBits (deriveCodes t) s.srcBytes ∧ (∀ v ∈ s.srcBytes, hasCode (deriveCodes t) v = true) ∧
      (bits.length + 7) / 8 ≤ s.tmpCap.toNat ∧ (artifact t bits).length ≤ s.dstCap.toNat ∧
      encodeBody pre s = { s with
        seq := .idle
        done := true
        freq := f
        total := tot
        tree := some t
        codes := deriveCodes t
        mem := (s.mem.writeBytes s.tmpBase.toNat (packBits bits)).writeBytes s.dstBase.toNat (artifact t bits)
        bitcnt := BitVec.ofNat 64 bits.length
        outLen := BitVec.ofNat 32 (artifact t bits).length } := by
  cases pre with
  | true =>
    have e : encodeBody true s = encodeRest { s with freq := s.freq, total := s.total } := rfl
    rw [e] at hok ⊢
    obtain ⟨t, bits, h1, h2, h3, h4, h5, h6⟩ := encodeRest_completed h hwf hne hok
    exact ⟨s.freq, s.total, t, bits, by simp, fun _ => ⟨rfl, rfl⟩, h1, h2, h3, h4, h5, h6⟩
  | false =>
    unfold encodeBody at hok ⊢
    simp only [Bool.false_eq_true, if_false] at hok ⊢
    cases hx : count s Counters.clear with
    | raised c r => rw [hx] at hok; simp at hok
    | ok c u =>
      rw [hx] at hok
      dsimp only at hok ⊢
      obtain ⟨t, bits, h1, h2, h3, h4, h5, h6⟩ := encodeRest_completed h hwf hne hok
      obtain ⟨h7, h8⟩ := count_clear_completed hx
      exact ⟨c.freq, c.total, t, bits, fun _ => ⟨by rw [h7], h8⟩, by simp, h1, h2, h3, h4, h5, h6⟩

/-! ### DECODE -/

theorem decodeBody_ne {hne : s.srcLen ≠ 0} : decodeBody s =
    match parseTree s.params s.mem (srcOpen s.srcBase.toNat s.srcLen.toNat) with
    | .error r => s.uninstall.raiseErr r
    | .ok (t, src) => decodeRest (s.install t) t src := by
  unfold decodeBody
  exact if_neg hne

/-- A DECODE whose SRC does not begin with a serialized tree (45_pipeline.md R273). -/
theorem decodeBody_sound (hr : Readable s.params s.srcBase.toNat s.srcLen.toNat) (hne : s.srcLen ≠ 0) :
    (∃ r, r.kind = .corrupt ∧ decodeBody s = s.uninstall.raiseErr r) ∨
    ∃ t rest, t.isNode = true ∧ t.leaves ≤ 256 ∧ s.srcBytes = serTree t ++ rest := by
  rw [decodeBody_ne (hne := hne)]
  rcases parseTree_cases s.params s.mem (srcOpen s.srcBase.toNat s.srcLen.toNat) with ⟨r, he, hk⟩ | ⟨T, c, he, h1, h2, -⟩
  · rw [he]; exact .inl ⟨r, parseLoop_error (src_holds hr) he, rfl⟩
  · obtain ⟨l2, hl, -⟩ := parseTree_sound (src_holds hr) he
    exact .inr ⟨T, l2, h1, by have := T.size_eq; simp [Config.maxNodes] at h2; omega, hl⟩

/-- DECODE after the tree: the tree and the code table stay as installed (45_pipeline.md R266, R273). -/
theorem decodeRest_tree (s : State) (t : Tree) (src : SrcCh) :
    (decodeRest s t src).tree = s.tree ∧ (decodeRest s t src).codes = s.codes := by
  unfold decodeRest
  split
  · exact ⟨rfl, rfl⟩
  · split <;> exact ⟨rfl, rfl⟩

/-- DECODE of a non-empty SRC that completes has read an artifact (45_pipeline.md R266, R271). -/
theorem decodeBody_completed (h : startResult .decode s = .run)
    (hr : Readable s.params s.srcBase.toNat s.srcLen.toNat) (hne : s.srcLen ≠ 0)
    (hok : (decodeBody s).err = false) :
    ∃ (T : Tree) (ds payload syms : List Byte), T.isNode = true ∧ T.leaves ≤ 256 ∧
      s.srcBytes = serTree T ++ newline :: (ds ++ newline :: payload) ∧ (∀ v ∈ ds, isDigit v = true) ∧ ds ≠ [] ∧
      decimalValue ds ≤ 2 ^ 64 - 1 ∧ decimalValue ds ≤ 8 * payload.length ∧
      Tree.decodeFrom T .atRoot ((bitsOfBytes payload).take (decimalValue ds)) = some syms ∧
      (decodeBody s).mem = s.mem.writeBytes s.dstBase.toNat syms ∧
      (decodeBody s).outLen = BitVec.ofNat 32 syms.length := by
  rcases decodeBody_sound hr hne with ⟨r, -, he⟩ | ⟨t, rest, hn, hs, hsrc⟩
  · rw [he] at hok; simp at hok
  obtain ⟨c, he, h1, h2, h3, h4, h5⟩ := decodeBody_tree hr hn hs hsrc
  rw [he] at hok ⊢
  unfold decodeRest at hok ⊢
  simp only [State.install_params, State.install_mem, State.install_dstBase, State.install_dstCap] at hok ⊢
  cases hc : parseCount s.params s.mem c with
  | error r => rw [hc] at hok; simp at hok
  | ok x =>
    obtain ⟨bc, c1⟩ := x
    obtain ⟨ds, payload, hrest, hds, hdne, rfl, hbc, -⟩ := parseCount_sound h1 hc
    subst hrest
    obtain ⟨c', he', h1', h2', h3', h4', h5'⟩ := (feeds_holds _ _).parseCount_line ds h1 hds hdne hbc
    obtain rfl : c' = c1 := by have := he'.symm.trans hc; simpa using this
    have hp := walk_post (p := s.params) (bc := decimalValue ds) (p0 := c'.pos) (root := t.renumber 0) (m0 := s.mem)
      (src := c') (run_dst h rfl)
      ⟨by rw [h5', h5]; omega, payload, h1', rfl⟩ (by rw [h2', h2, h3', h3]; exact run_src_dst h rfl rfl)
    have hcur : c'.curBits = [] := by simp [SrcCh.curBits, h5', h5]
    rw [hcur, List.nil_append, decodeFrom_renumber, emitted_renumber, length_bitsOfBytes] at hp
    rw [hc] at hok
    dsimp only at hok ⊢
    generalize hx : (walk s.params (t.renumber 0) (decimalValue ds) c'.pos c' s.mem
      (outOpen s.dstBase.toNat s.dstCap.toNat)).bind (fun m out => outFlush s.params m out) = y at hok hp ⊢
    cases y with
    | raised m r => simp at hok
    | ok m out =>
      obtain ⟨hlen, syms, hd, rfl, hn', -⟩ := hp
      exact ⟨t, ds, payload, syms, hn, hs, hsrc, hds, hdne, hbc, hlen, hd, rfl, by rw [← hn']; rfl⟩

end Sys2Proof.Machine
end

