-- ==== Sys2Proof/Laws/Decoding.lean ====
section
/-! SUPPORT. What decoding gives, in one lemma each way. -/

namespace Sys2Proof

/-- The fields of a word and the word of the fields are inverse (30_encoding.md R90). -/
theorem wordOfFields_fieldsOfWord (w : Word) : wordOfFields (fieldsOfWord w) = w := by
  unfold wordOfFields fieldsOfWord
  apply BitVec.eq_of_getLsbD_eq
  intro j hj
  simp only [BitVec.getLsbD_append, BitVec.getLsbD_extractLsb', BitVec.getLsbD_ofBool]
  by_cases h8 : j < 8
  · simp [h8, show j < 9 by omega]
  · by_cases h9 : j < 9
    · obtain rfl : j = 8 := by omega
      simp
    · simp [h9, show 9 + (j - 9) = j by omega]
      intro; omega

theorem decodeFields_ok (f : CmdFields) (i : Instr) : decodeFields f = .ok i ↔ f = i.fields := by
  obtain ⟨opc, pre, rsvd⟩ := f
  unfold decodeFields Instr.fields
  dsimp only
  by_cases hr : rsvd = 0#23
  · subst hr
    simp only [BitVec.ofNat_eq_ofNat, ne_eq, not_true_eq_false, if_false, CmdFields.mk.injEq, and_true]
    revert opc
    cases pre <;> cases i with
    | encode p => cases p <;> decide +kernel
    | _ => decide +kernel
  · simp [hr]

/-- A word selects a command exactly when it is the command's word (R91). -/
theorem decode_ok (w : Word) (i : Instr) : decode w = .ok i ↔ w = encode i := by
  unfold decode encode
  rw [decodeFields_ok]
  refine ⟨fun h => by rw [← h, wordOfFields_fieldsOfWord], ?_⟩
  rintro rfl
  cases i with
  | encode p => cases p <;> rfl
  | _ => rfl

/-- A word selects no command exactly when its fields are not well-formed (R92). -/
theorem decode_error (w : Word) : (∃ e, decode w = .error e) ↔ (fieldsOfWord w).wf = false := by
  unfold decode decodeFields
  generalize fieldsOfWord w = f
  obtain ⟨opc, pre, rsvd⟩ := f
  unfold CmdFields.wf CmdFields.rsvdZero CmdFields.opcKnown CmdFields.preLegal
  dsimp only
  by_cases hr : rsvd = 0#23
  · subst hr
    simp only [BitVec.ofNat_eq_ofNat, ne_eq, not_true_eq_false, if_false]
    have key : (rowOfOpcode opc pre).isSome = knownOpcodes.contains opc := by
      revert opc
      cases pre <;> decide +kernel
    cases h : rowOfOpcode opc pre with
    | none =>
      have : knownOpcodes.contains opc = false := by rw [← key, h]; rfl
      rw [this]
      simp
    | some i =>
      have : knownOpcodes.contains opc = true := by rw [← key, h]; rfl
      rw [this]
      dsimp only
      by_cases hp : pre = true ∧ ¬opc = 80#8
      · simp [hp.1, hp.2]
      · rw [if_neg hp]
        cases pre <;> simp_all
  · simp [hr]

end Sys2Proof
end

