-- ==== Sys2Proof/Laws/Host.lean ====
section
/-! SUPPORT. Everything a step can do: one inversion lemma for `step`, one for a host access, and what
each host operation does to the parts that `State.Inv` speaks of. -/

namespace Sys2Proof.Machine

/-! ### One step -/

theorem step_executes {s : State} (h : s.executes) : step s = runFetched s := by
  obtain ⟨h1, h2⟩ := h
  unfold step
  rcases h2 with h2 | h2 <;> rw [h1, h2]
  cases s.lag <;> rfl

/-- Every way a step goes on. -/
theorem step_next {s t : State} (h : step s = .next t) :
    (s.seq = .idle ∧ s.host = [] ∧ t = s) ∨
    (∃ op ops l, s.host = op :: ops ∧ ((s.seq = .idle ∧ l = s.lag) ∨ (s.seq = .busy ∧ s.lag = l + 1)) ∧
      hostAccess op { s with host := ops, lag := l } = .next t) ∨
    (s.executes ∧ runFetched s = .next t) := by
  unfold step at h
  split at h
  · next h1 h2 => simp only [Host.Outcome.next.injEq] at h; exact .inl ⟨h1, h2, h.symm⟩
  · next op ops h1 h2 => exact .inr (.inl ⟨op, ops, s.lag, h2, .inl ⟨h1, rfl⟩, h⟩)
  · next n op ops h1 h2 h3 => exact .inr (.inl ⟨op, ops, n, h3, .inr ⟨h1, h2⟩, h⟩)
  · next h1 h2 => exact .inr (.inr ⟨⟨h1, .inl h2⟩, h⟩)
  · next h1 h2 h3 => exact .inr (.inr ⟨⟨h1, .inr h3⟩, h⟩)

/-- The running command ends in E_ILLEGAL or as the command it selects. -/
theorem runFetched_next {s t : State} (h : runFetched s = .next t) :
    (∃ e, s.fetch = .error e ∧ t = s.illegalCommand) ∨ ∃ i, s.fetch = .ok i ∧ exec i s = .next t := by
  unfold runFetched at h
  split at h
  · next i hi => exact .inr ⟨i, hi, h⟩
  · next e he => simp only [Host.Outcome.next.injEq] at h; exact .inl ⟨e, he, h.symm⟩

/-! ### One host access -/

/-- STATUS is readable at all times (10_state.md R24, R35). -/
theorem readReg_status (s : State) : s.readReg .status = { s with rdata := s.statusWord } := by
  simp [State.readReg, readableWhileBusy, State.regWord]

theorem statusWord_busy (s : State) : s.statusWord.getLsbD 0 = s.busy := by
  unfold State.statusWord
  rw [BitVec.getLsbD_append, BitVec.getLsbD_append, BitVec.getLsbD_append, BitVec.getLsbD_append,
    BitVec.getLsbD_append, BitVec.getLsbD_append, BitVec.getLsbD_append]
  cases s.busy <;> rfl

/-- WAIT reads STATUS, and comes again while it says BUSY (30_encoding.md R121). -/
theorem hostAccess_wait (s : State) : hostAccess .wait s =
    .next { s with rdata := s.statusWord, host := if s.busy then .wait :: s.host else s.host } := by
  simp only [hostAccess, readReg_status, statusWord_busy]
  cases s.busy <;> simp

/-- Every way a host access goes on. -/
theorem hostAccess_next {op : HostOp} {s t : State} (h : hostAccess op s = .next t) :
    (∃ size off v, op = .write size off v ∧ windowAccessOk size off = true ∧ t = s.writeReg (winRegAt off) v) ∨
    (∃ size off, op = .read size off ∧ windowAccessOk size off = true ∧ t = s.readReg (winRegAt off)) ∨
    (op = .wait ∧ t = { s with rdata := s.statusWord, host := if s.busy then .wait :: s.host else s.host }) ∨
    (∃ a v, op = .memWrite a v ∧ a < Config.addrSpace ∧ t = { s with mem := s.mem.write a v }) ∨
    (∃ a, op = .memRead a ∧ a < Config.addrSpace ∧ t = { s with rdata := (s.mem.read a).setWidth 32 }) ∨
    (op = .hwReset ∧ t = s.applyReset) := by
  cases op with
  | write size off v =>
    simp only [hostAccess] at h
    split at h
    · next hok => simp only [Host.Outcome.next.injEq] at h; exact .inl ⟨size, off, v, rfl, hok, h.symm⟩
    · simp at h
  | read size off =>
    simp only [hostAccess] at h
    split at h
    · next hok => simp only [Host.Outcome.next.injEq] at h; exact .inr (.inl ⟨size, off, rfl, hok, h.symm⟩)
    · simp at h
  | wait =>
    rw [hostAccess_wait] at h
    simp only [Host.Outcome.next.injEq] at h
    exact .inr (.inr (.inl ⟨rfl, h.symm⟩))
  | memWrite a v =>
    simp only [hostAccess] at h
    split at h
    · simp at h
    · next ha =>
      split at h
      · simp at h
      · simp only [Host.Outcome.next.injEq] at h
        exact .inr (.inr (.inr (.inl ⟨a, v, rfl, by omega, h.symm⟩)))
  | memRead a =>
    simp only [hostAccess] at h
    split at h
    · simp at h
    · next ha =>
      split at h
      · simp at h
      · simp only [Host.Outcome.next.injEq] at h
        exact .inr (.inr (.inr (.inr (.inl ⟨a, rfl, by omega, h.symm⟩))))
  | hwReset =>
    simp only [hostAccess, Host.Outcome.next.injEq] at h
    exact .inr (.inr (.inr (.inr (.inr ⟨rfl, h.symm⟩))))

/-- A read changes the model's own fields only (10_state.md R48). -/
theorem readReg_frame (r : WinReg) (s : State) :
    s.readReg r = { s with rdata := (s.readReg r).rdata, freeCount := (s.readReg r).freeCount } := by
  unfold State.readReg
  split <;> rfl

/-- Every way a host write to the window goes. -/
theorem writeReg_cases (r : WinReg) (v : Word) (s : State) :
    s.writeReg r v = s.applyReset ∨ (∃ b, s.writeReg r v = { s with irqEn := b }) ∨
    s.writeReg r v = s.writeStatus v ∨ (s.seq = .idle ∧ s.writeReg r v = s.issue v) ∨
    s.writeReg r v = { s with ovr := true } ∨ s.writeReg r v = s ∨
    (s.seq = .idle ∧ s.writeReg r v = s.writeOther r v) := by
  have other : s.busy = true ∨ s.seq = .idle := by
    unfold State.busy; cases s.seq <;> simp
  cases r with
  | ctrl =>
    by_cases h : v.getLsbD 0 = true
    · exact .inl (by simp [State.writeReg, State.writeCtrl, h])
    · exact .inr (.inl ⟨v.getLsbD 1, by unfold State.writeReg State.writeCtrl; rw [if_neg h]⟩)
  | status => exact .inr (.inr (.inl rfl))
  | cmd =>
    cases h : s.seq with
    | idle => exact .inr (.inr (.inr (.inl ⟨rfl, by simp [State.writeReg, State.writeCmd, h]⟩)))
    | busy => exact .inr (.inr (.inr (.inr (.inl (by simp [State.writeReg, State.writeCmd, h])))))
  | _ =>
    rcases other with h | h
    · exact .inr (.inr (.inr (.inr (.inr (.inl (by simp [State.writeReg, h]))))))
    · exact .inr (.inr (.inr (.inr (.inr (.inr ⟨h, by simp [State.writeReg, State.busy, h]⟩)))))

/-- A host write to a register while IDLE changes nothing that `State.Inv` speaks of. -/
theorem writeOther_frame (r : WinReg) (v : Word) (s : State) :
    (s.writeOther r v).seq = s.seq ∧ (s.writeOther r v).done = s.done ∧ (s.writeOther r v).err = s.err ∧
    (s.writeOther r v).errCode = s.errCode ∧ (s.writeOther r v).errInfo = s.errInfo ∧
    (s.writeOther r v).tree = s.tree ∧ (s.writeOther r v).codes = s.codes ∧ (s.writeOther r v).mem = s.mem := by
  cases r <;> exact ⟨rfl, rfl, rfl, rfl, rfl, rfl, rfl, rfl⟩

/-! ### Reset -/

theorem writeRegions_used {i : Instr} {r : Region} (h : r ∈ writeRegions i) : usesRegion i r = true := by
  simp [usesRegion, h]

/-- The regions an abort makes unspecified lie inside the data space. -/
theorem abortedRegions_valid {s : State} {r : Region} (h : r ∈ s.abortedRegions) :
    s.regionBase r + s.regionSize r ≤ Config.addrSpace := by
  unfold State.abortedRegions at h
  split at h
  · simp at h
  · next i _ =>
    split at h
    · simp at h
    · next hs =>
      have h1 : startCheck i s = none := by
        cases hc : startCheck i s with
        | none => rfl
        | some _ => simp [hc] at hs
      have := (startCheck_none.1 h1).1 r (mem_usedRegions.2 (writeRegions_used h))
      simpa [State.regionValid] using this

theorem havocRegions_wf {s : State} {rs : List Region} (hw : s.mem.wf = true)
    (hr : ∀ r ∈ rs, s.regionBase r + s.regionSize r ≤ Config.addrSpace) : (s.havocRegions rs).wf = true := by
  unfold State.havocRegions
  suffices ∀ m : Memory, m.wf = true →
      (rs.foldl (fun m r => m.havoc s.freeCount (s.regionBase r) (s.regionSize r)) m).wf = true from this _ hw
  induction rs with
  | nil => exact fun m h => h
  | cons r rs ih =>
    intro m h
    exact ih (fun q hq => hr q (by simp [hq])) _ (Memory.wf_havoc _ _ _ h (hr r (by simp)))

/-- An abort leaves every byte outside the regions it makes unspecified alone. -/
theorem havocRegions_read {s : State} {rs : List Region} {a : Nat} (h : ∀ r ∈ rs, s.inRegion r a = false) :
    (s.havocRegions rs).read a = s.mem.read a := by
  unfold State.havocRegions
  suffices ∀ m : Memory,
      (rs.foldl (fun m r => m.havoc s.freeCount (s.regionBase r) (s.regionSize r)) m).read a = m.read a from this _
  induction rs with
  | nil => exact fun m => rfl
  | cons r rs ih =>
    intro m
    have h1 := h r (by simp)
    simp only [State.inRegion, Bool.and_eq_false_iff, decide_eq_false_iff_not] at h1
    exact (ih (fun q hq => h q (by simp [hq])) _).trans (Memory.read_havoc_other _ _ _ _ (by omega))

/-- A reset, apart from the data space and the free counter, is `engineReset`, IDLE or BUSY. -/
theorem applyReset_eq (s : State) :
    s.applyReset = { s.engineReset with mem := s.applyReset.mem, freeCount := s.applyReset.freeCount } := by
  unfold State.applyReset
  cases s.seq <;> rfl

theorem applyReset_wf {s : State} (h : s.mem.wf = true) : s.applyReset.mem.wf = true := by
  unfold State.applyReset
  cases s.seq with
  | idle => exact h
  | busy => exact havocRegions_wf h fun r hr => abortedRegions_valid hr

/-! ### The invariant, part by part -/

namespace State.Inv

variable {s t : State}

/-- The invariant reads eight fields. -/
theorem congr (h : s.Inv) (h1 : t.seq = s.seq) (h2 : t.done = s.done) (h3 : t.err = s.err)
    (h4 : t.errCode = s.errCode) (h5 : t.errInfo = s.errInfo) (h6 : t.tree = s.tree) (h7 : t.codes = s.codes)
    (h8 : t.mem.wf = true) : t.Inv where
  mem := h8
  notBoth := by rw [h2, h3]; exact h.notBoth
  whileBusy := by rw [h1, h2, h3]; exact h.whileBusy
  noRecord := by rw [h3, h4, h5]; exact h.noRecord
  record := by rw [h3, h4]; exact h.record
  tree := by rw [h6, h7]; exact h.tree
  noTree := by rw [h6, h7]; exact h.noTree

theorem writeStatus (h : s.Inv) (v : Word) : (s.writeStatus v).Inv where
  mem := h.mem
  notBoth := fun ⟨h1, h2⟩ => by
    simp only [State.writeStatus, Bool.and_eq_true] at h1 h2
    exact h.notBoth ⟨h1.1, h2.1⟩
  whileBusy := fun hb => by
    have := h.whileBusy hb
    simp [State.writeStatus, this.1, this.2]
  noRecord := fun he => by
    simp only [State.writeStatus] at he ⊢
    by_cases hv : v.getLsbD 2 = true
    · simp [hv]
    · simp only [hv, Bool.not_false, Bool.and_true, Bool.false_eq_true, if_false] at he ⊢
      exact h.noRecord he
  record := fun he => by
    simp only [State.writeStatus, Bool.and_eq_true, Bool.not_eq_true'] at he ⊢
    rw [he.2]
    exact h.record he.1
  tree := h.tree
  noTree := h.noTree

theorem issue (h : s.Inv) (v : Word) : (s.issue v).Inv where
  mem := h.mem
  notBoth := by simp [State.issue]
  whileBusy := fun _ => ⟨rfl, rfl⟩
  noRecord := fun _ => ⟨rfl, rfl⟩
  record := by simp [State.issue]
  tree := h.tree
  noTree := h.noTree

theorem applyReset (h : s.Inv) : s.applyReset.Inv := by
  have hm := applyReset_wf h.mem
  rw [applyReset_eq]
  exact
    { mem := hm
      notBoth := by simp [State.engineReset, State.reset]
      whileBusy := by simp [State.engineReset, State.reset]
      noRecord := fun _ => ⟨rfl, rfl⟩
      record := by simp [State.engineReset, State.reset]
      tree := by simp [State.engineReset, State.reset]
      noTree := fun _ => rfl }

/-- A command that ends in a next state keeps the invariant, if it starts BUSY. -/
theorem effect {i : Instr} (h : s.Inv) (hb : s.seq = .busy) (he : Effect i s t) : t.Inv := by
  obtain ⟨hd, hr⟩ := h.whileBusy hb
  have hn := h.noRecord hr
  have hi : t.seq = .idle := by rw [he.frame]
  refine ⟨he.wf h.mem, ?_, by simp [hi], ?_, ?_, ?_, ?_⟩
  · rcases he.outcome with ⟨-, h2, -⟩ | ⟨h1, -⟩
    · simp [h2, hr]
    · simp [h1, hd]
  · rcases he.outcome with ⟨-, h2, h3, h4, -⟩ | ⟨-, h2, -⟩
    · rw [h3, h4]; exact fun _ => hn
    · simp [h2]
  · rcases he.outcome with ⟨-, h2, -⟩ | ⟨-, -, ⟨k, -, h3⟩, -⟩
    · simp [h2, hr]
    · simp [h3]
  · intro T hT
    rcases he.tree with ⟨h1, h2⟩ | ⟨-, ⟨h1, -⟩ | ⟨T', h1, h2, h3⟩⟩
    · rw [h2]; exact h.tree T (by rw [← h1, hT])
    · rw [h1] at hT; simp at hT
    · rw [h1] at hT; cases hT; exact ⟨h2, h3⟩
  · intro hT
    rcases he.tree with ⟨h1, h2⟩ | ⟨-, ⟨-, h2, -⟩ | ⟨T', h1, -⟩⟩
    · rw [h2]; exact h.noTree (by rw [← h1, hT])
    · exact h2
    · rw [h1] at hT; simp at hT

end State.Inv

end Sys2Proof.Machine
end

