-- ==== Sys2Proof/Laws/Overrun.lean ====
section
/-! SUPPORT. No command reads or writes STATUS.OVR (40_command.md R132). -/

namespace Sys2Proof.Machine

/-- The state with OVR at a value. -/
def State.withOvr (b : Bool) (s : State) : State := { s with ovr := b }

theorem startResult_withOvr (i : Instr) (s : State) (b : Bool) : startResult i (s.withOvr b) = startResult i s := rfl

/-- A command whose procedure does not touch OVR does not touch it. -/
theorem runCommand_withOvr {i : Instr} {s t : State} {body : State → State} {b : Bool}
    (hb : body (s.withOvr b) = (body s).withOvr b) (h : runCommand i s body = .next t) :
    runCommand i (s.withOvr b) body = .next (t.withOvr b) := by
  unfold runCommand at h ⊢
  rw [startResult_withOvr]
  split at h
  · simp only [Host.Outcome.next.injEq] at h; subst h; rfl
  · simp at h
  · simp only [Host.Outcome.next.injEq] at h; subst h; rw [hb]

theorem encodeRest_withOvr (s : State) (b : Bool) : encodeRest (s.withOvr b) = (encodeRest s).withOvr b := by
  unfold encodeRest
  by_cases h : s.srcLen = 0
  · rw [if_pos h, if_pos (show (s.withOvr b).srcLen = 0 from h)]; rfl
  · rw [if_neg h, if_neg (show ¬(s.withOvr b).srcLen = 0 from h)]
    dsimp only [State.withOvr]
    cases buildTree s.freq with
    | none => rfl
    | some t =>
      dsimp only [encodePass2, encodeOutput, State.install]
      generalize Res.bind _ _ = x
      cases x <;> rfl

theorem decodeRest_withOvr (s : State) (t : Tree) (src : SrcCh) (b : Bool) :
    decodeRest (s.withOvr b) t src = (decodeRest s t src).withOvr b := by
  unfold decodeRest
  dsimp only [State.withOvr]
  cases parseCount s.params s.mem src with
  | error r => rfl
  | ok x =>
    dsimp only
    generalize Res.bind _ _ = y
    cases y <;> rfl

/-- What a command does is the same whatever OVR is, and it leaves OVR alone. -/
theorem exec_withOvr {i : Instr} {s t : State} {b : Bool} (h : exec i s = .next t) :
    exec i (s.withOvr b) = .next (t.withOvr b) := by
  cases i with
  | nop => exact runCommand_withOvr (i := .nop) rfl h
  | pack =>
    refine runCommand_withOvr ?_ h
    unfold packBody
    dsimp only [State.withOvr]
    generalize Res.bind _ _ = y
    cases y <;> rfl
  | unpack =>
    refine runCommand_withOvr ?_ h
    unfold unpackBody
    dsimp only [State.withOvr]
    generalize Res.bind _ _ = y
    cases y <;> rfl
  | ftClear =>
    simp only [exec, execFtClear] at h ⊢
    exact runCommand_withOvr rfl h
  | ftCount =>
    refine runCommand_withOvr ?_ h
    unfold ftCountBody
    dsimp only [State.withOvr, count]
    generalize countLoop _ _ _ _ _ _ = y
    cases y <;> rfl
  | treeBuild =>
    refine runCommand_withOvr ?_ h
    unfold treeBuildBody
    dsimp only [State.withOvr]
    cases buildTree s.freq <;> rfl
  | treeSer =>
    refine runCommand_withOvr ?_ h
    unfold treeSerBody
    rw [show (s.withOvr b).tree = s.tree from rfl]
    cases s.tree with
    | none => rfl
    | some t =>
      dsimp only [State.withOvr]
      generalize Res.bind _ _ = y
      cases y <;> rfl
  | treeDeser =>
    refine runCommand_withOvr ?_ h
    unfold treeDeserBody
    dsimp only [State.withOvr]
    generalize parseTree _ _ _ = y
    cases y <;> rfl
  | encRaw =>
    refine runCommand_withOvr ?_ h
    unfold encRawBody
    dsimp only [State.withOvr]
    generalize Res.bind _ _ = y
    cases y <;> rfl
  | decRaw =>
    refine runCommand_withOvr ?_ h
    unfold decRawBody
    rw [show (s.withOvr b).tree = s.tree from rfl]
    cases s.tree with
    | none => rfl
    | some t =>
      dsimp only [State.withOvr]
      generalize Res.bind _ _ = y
      cases y <;> rfl
  | encode pre =>
    refine runCommand_withOvr ?_ h
    unfold encodeBody
    cases pre with
    | true => exact encodeRest_withOvr s b
    | false =>
      dsimp only [State.withOvr, count, Bool.false_eq_true, if_false]
      generalize countLoop _ _ _ _ _ _ = y
      cases y with
      | raised c r => rfl
      | ok c u => exact encodeRest_withOvr { s with freq := c.freq, total := c.total } b
  | decode =>
    refine runCommand_withOvr ?_ h
    unfold decodeBody
    by_cases h0 : s.srcLen = 0
    · rw [if_pos h0, if_pos (show (s.withOvr b).srcLen = 0 from h0)]; rfl
    · rw [if_neg h0, if_neg (show ¬(s.withOvr b).srcLen = 0 from h0)]
      dsimp only [State.withOvr]
      generalize parseTree _ _ _ = y
      cases y with
      | error r => rfl
      | ok x => exact decodeRest_withOvr (s.install x.1) x.1 x.2 b

end Sys2Proof.Machine
end

