-- ==== Sys2Proof/Laws/PerInstr.lean ====
section
/-! SUPPORT. Laws of each command as syntax, one lemma a constructor. -/

namespace Sys2Proof.Laws.RoundTrip

/-- A command's word is well formed and decodes to the command (30_encoding.md R91). -/
def Statement (i : Instr) : Prop := i.wf = true ∧ Sys2Proof.decode (encode i) = .ok i

theorem nop : Statement .nop := ⟨by decide, by decide⟩
theorem pack : Statement .pack := ⟨by decide, by decide⟩
theorem unpack : Statement .unpack := ⟨by decide, by decide⟩
theorem ftClear : Statement .ftClear := ⟨by decide, by decide⟩
theorem ftCount : Statement .ftCount := ⟨by decide, by decide⟩
theorem treeBuild : Statement .treeBuild := ⟨by decide, by decide⟩
theorem treeSer : Statement .treeSer := ⟨by decide, by decide⟩
theorem treeDeser : Statement .treeDeser := ⟨by decide, by decide⟩
theorem encRaw : Statement .encRaw := ⟨by decide, by decide⟩
theorem decRaw : Statement .decRaw := ⟨by decide, by decide⟩
theorem encode (pre : Bool) : Statement (.encode pre) := by
  cases pre <;> exact ⟨by decide, by decide⟩
theorem decode : Statement .decode := ⟨by decide, by decide⟩

end Sys2Proof.Laws.RoundTrip
end

