-- ==== Sys2Proof/Laws/Window.lean ====
section
/-! SUPPORT. The register window: what an offset addresses, and a host access to it in one lemma each. -/

namespace Sys2Proof.Machine

/-! ### Offsets -/

theorem windowAccessOk_iff {size off : Nat} :
    windowAccessOk size off = true ↔ size = 4 ∧ off % 4 = 0 ∧ off ≤ 0x4FFC := by
  simp [windowAccessOk, Config.windowBytes]; omega

theorem winRegAt_freq (q : Byte) : winRegAt (0x400 + 4 * q.toNat) = .freq q := by
  have := q.isLt
  unfold winRegAt
  rw [if_neg (by omega), if_neg (by omega), if_pos (by omega), show (0x400 + 4 * q.toNat - 0x400) / 4 = q.toNat by omega]
  simp

theorem winRegAt_codeLen (q : Byte) : winRegAt (0x800 + 4 * q.toNat) = .codeLen q := by
  have := q.isLt
  unfold winRegAt
  rw [if_neg (by omega), if_neg (by omega), if_neg (by omega), if_pos (by omega),
    show (0x800 + 4 * q.toNat - 0x800) / 4 = q.toNat by omega]
  simp

theorem winRegAt_codeBits (q : Byte) (w : Nat) (hw : w < 8) :
    winRegAt (0x1000 + 32 * q.toNat + 4 * w) = .codeBits q (Fin.ofNat 8 w) := by
  have := q.isLt
  unfold winRegAt
  rw [if_neg (by omega), if_neg (by omega), if_neg (by omega), if_neg (by omega), if_neg (by omega), if_pos (by omega),
    show (0x1000 + 32 * q.toNat + 4 * w - 0x1000) / 32 = q.toNat by omega,
    show (0x1000 + 32 * q.toNat + 4 * w - 0x1000) / 4 = 8 * q.toNat + w by omega]
  congr 1
  · simp
  · apply Fin.ext; simp [Fin.ofNat]

theorem winRegAt_node (i k : Nat) (hi : i ≤ 510) (hk : k < 4) :
    winRegAt (0x3000 + 16 * i + 4 * k) = .node i (Fin.ofNat 4 k) := by
  unfold winRegAt
  rw [if_neg (by omega), if_neg (by omega), if_neg (by omega), if_neg (by omega), if_neg (by omega),
    if_neg (by omega), if_pos (by omega),
    show (0x3000 + 16 * i + 4 * k - 0x3000) / 16 = i by omega,
    show (0x3000 + 16 * i + 4 * k - 0x3000) / 4 = 4 * i + k by omega]
  congr 1
  apply Fin.ext; simp [Fin.ofNat]

theorem winRegAt_reserved {off : Nat} (h : (0x050 ≤ off ∧ off < 0x400) ∨ (0xC00 ≤ off ∧ off < 0x1000) ∨ 0x4FF0 ≤ off) :
    winRegAt off = .reserved := by
  unfold winRegAt
  rcases h with h | h | h
  · rw [if_neg (by omega), if_pos (by omega)]
  · rw [if_neg (by omega), if_neg (by omega), if_neg (by omega), if_neg (by omega), if_pos (by omega)]
  · rw [if_neg (by omega), if_neg (by omega), if_neg (by omega), if_neg (by omega), if_neg (by omega),
      if_neg (by omega), if_neg (by omega)]

/-- The windows of the code table. -/
theorem winRegAt_code {off : Nat} (h : (0x800 ≤ off ∧ off < 0xC00) ∨ (0x1000 ≤ off ∧ off < 0x3000)) :
    (∃ q, winRegAt off = .codeLen q) ∨ ∃ q w, winRegAt off = .codeBits q w := by
  unfold winRegAt
  rcases h with h | h
  · rw [if_neg (by omega), if_neg (by omega), if_neg (by omega), if_pos (by omega)]
    exact .inl ⟨_, rfl⟩
  · rw [if_neg (by omega), if_neg (by omega), if_neg (by omega), if_neg (by omega), if_neg (by omega), if_pos (by omega)]
    exact .inr ⟨_, _, rfl⟩

theorem winRegAt_nodes {off : Nat} (h : 0x3000 ≤ off) (h2 : off < 0x4FF0) :
    winRegAt off = .node ((off - 0x3000) / 16) (Fin.ofNat 4 ((off - 0x3000) / 4)) := by
  unfold winRegAt
  rw [if_neg (by omega), if_neg (by omega), if_neg (by omega), if_neg (by omega), if_neg (by omega),
    if_neg (by omega), if_pos (by omega)]

/-- The frequency table's window. -/
theorem winRegAt_freqs {off : Nat} (h : 0x400 ≤ off) (h2 : off < 0x800) :
    winRegAt off = .freq (BitVec.ofNat 8 ((off - 0x400) / 4)) := by
  unfold winRegAt
  rw [if_neg (by omega), if_neg (by omega), if_pos (by omega)]

/-! ### Accesses -/

theorem busy_of_idle {s : State} (h : s.seq = .idle) : s.busy = false := by simp [State.busy, h]

theorem busy_of_busy {s : State} (h : s.seq = .busy) : s.busy = true := by simp [State.busy, h]

/-- A read of a register that may be read now (10_state.md R35). -/
theorem reads_of {s : State} {off : Nat} {r : WinReg} (h1 : off % 4 = 0) (h2 : off ≤ 0x4FFC)
    (hr : winRegAt off = r) (hb : s.seq = .idle ∨ readableWhileBusy r = true) : Reads s off (s.regWord r) := by
  unfold Reads
  simp only [hostAccess, windowAccessOk_iff.2 ⟨rfl, h1, h2⟩, if_true, hr, State.readReg]
  rcases hb with hb | hb
  · simp [busy_of_idle hb]
  · simp [hb]

/-- A write, to whatever register stands there. -/
theorem writes_of {s : State} {off : Nat} {v : Word} {r : WinReg} (h1 : off % 4 = 0) (h2 : off ≤ 0x4FFC)
    (hr : winRegAt off = r) : Writes s off v (s.writeReg r v) := by
  unfold Writes
  simp only [hostAccess, windowAccessOk_iff.2 ⟨rfl, h1, h2⟩, if_true, hr]

/-- A write goes on to one state only. -/
theorem writes_eq {s t : State} {off : Nat} {v : Word} (h : Writes s off v t) :
    t = s.writeReg (winRegAt off) v := by
  unfold Writes at h
  simp only [hostAccess] at h
  split at h
  · simpa using h.symm
  · simp at h

theorem writeReg_other {s : State} {r : WinReg} {v : Word} (hs : s.seq = .idle) (h1 : r ≠ .ctrl) (h2 : r ≠ .status)
    (h3 : r ≠ .cmd) : s.writeReg r v = s.writeOther r v := by
  cases r <;> simp_all [State.writeReg, State.busy]

theorem writeReg_busy {s : State} {r : WinReg} {v : Word} (hs : s.seq = .busy) (h1 : r ≠ .ctrl) (h2 : r ≠ .status)
    (h3 : r ≠ .cmd) : s.writeReg r v = s := by
  cases r <;> simp_all [State.writeReg, State.busy]

/-- A write, while IDLE, to a register other than CTRL, STATUS and CMD. -/
theorem writes_other {s : State} {off : Nat} {v : Word} {r : WinReg} (hs : s.seq = .idle) (h1 : off % 4 = 0)
    (h2 : off ≤ 0x4FFC) (hr : winRegAt off = r) (h3 : r ≠ .ctrl) (h4 : r ≠ .status) (h5 : r ≠ .cmd) :
    Writes s off v (s.writeOther r v) := by
  rw [← writeReg_other hs h3 h4 h5]
  exact writes_of h1 h2 hr

/-- A write to a register that no write changes (10_state.md R48), IDLE or BUSY. -/
theorem writes_readOnly {s : State} {off : Nat} {v : Word} {r : WinReg} (h1 : off % 4 = 0) (h2 : off ≤ 0x4FFC)
    (hr : winRegAt off = r) (h3 : r ≠ .ctrl) (h4 : r ≠ .status) (h5 : r ≠ .cmd) (ho : s.writeOther r v = s) :
    Writes s off v s := by
  have := writes_of (s := s) (v := v) h1 h2 hr
  cases hs : s.seq with
  | idle => rwa [writeReg_other hs h3 h4 h5, ho] at this
  | busy => rwa [writeReg_busy hs h3 h4 h5] at this

/-! ### The values of single registers -/

/-- PARAM: BR_BLOCK in its upper half, BW_CAP in its lower (10_state.md R33). -/
theorem regWord_param (s : State) :
    s.regWord .param = BitVec.ofNat 32 (s.params.brBlock * 2 ^ 16 + s.params.bwCap) := by
  have h1 : s.params.brBlock < 2 ^ 16 := by have := s.params.brBlockPred.isLt; simp [Params.brBlock]; omega
  have h2 : s.params.bwCap < 2 ^ 16 := by have := s.params.bwCapPred.isLt; simp [Params.bwCap]; omega
  apply BitVec.eq_of_toNat_eq
  simp only [State.regWord, BitVec.toNat_append, BitVec.toNat_ofNat]
  rw [← Nat.shiftLeft_add_eq_or_of_lt (by omega), Nat.shiftLeft_eq, Nat.mod_eq_of_lt h1, Nat.mod_eq_of_lt h2]
  omega

/-- Only its own offset gives a register: the table of 10_state.md section 2 read backwards. -/
theorem winRegAt_inv {off : Nat} (h4 : off % 4 = 0) {r : WinReg} (h : winRegAt off = r) :
    (∀ q, r = .freq q → off = 0x400 + 4 * q.toNat) ∧
    (r ∈ [WinReg.id, .ctrl, .status, .cmd, .srcBase, .srcLen, .dstBase, .dstCap, .tmpBase, .tmpCap, .outLen, .srcPos, .bitcntLo, .bitcntHi, .total, .errInfo] → off = offsetOf r) := by
  subst h
  unfold winRegAt
  split_ifs with h1 h2 h3 h5 h6 h7 h8
  · refine ⟨?_, ?_⟩
    · intro q hq
      split at hq <;> simp at hq
    · intro hm
      have : off / 4 < 20 := by omega
      generalize hk : off / 4 = k at *
      have : off = 4 * k := by omega
      subst this
      clear hk h4 h1
      interval_cases k <;> rfl
  · exact ⟨by simp, by simp⟩
  · refine ⟨?_, by simp⟩
    intro q hq
    simp only [WinReg.freq.injEq] at hq
    subst hq
    simp; omega
  all_goals exact ⟨by simp, by simp⟩

/-- The halves of BITCNT (10_state.md R29). -/
theorem bitcntOf_lo (hi lo : Word) : (bitcntOf hi lo).extractLsb' 0 32 = lo := by
  unfold bitcntOf
  apply BitVec.eq_of_getLsbD_eq
  intro j hj
  rw [BitVec.getLsbD_extractLsb', BitVec.getLsbD_append]
  simp [hj]

theorem bitcntOf_hi (hi lo : Word) : (bitcntOf hi lo).extractLsb' 32 32 = hi := by
  unfold bitcntOf
  apply BitVec.eq_of_getLsbD_eq
  intro j hj
  rw [BitVec.getLsbD_extractLsb', BitVec.getLsbD_append]
  simp [hj]

/-- A code of a tree in order has at most 255 bits (10_state.md R38). -/
theorem length_code_le {t : Tree} (ht : t.Ok) (q : Byte) : (lookup (deriveCodes t) q).length ≤ 255 := by
  rw [lookup_deriveCodes]
  cases h : t.firstPath q with
  | none => simp
  | some p =>
    have h1 := Tree.firstPath_length t h
    have h2 := Tree.height_lt_leaves t
    have h3 := ht.leaves_le
    simp only [Option.getD_some]
    omega

/-- The bits of a code in its CODE_BITS words (10_state.md R39); past its end they are 0. -/
theorem codeWord_bit (c : List Bool) (w j : Nat) (hj : j / 32 = w) :
    (codeWord c w).getLsbD (31 - j % 32) = c.getD j false := by
  unfold codeWord
  have := testBit_msbFirst 32 (c.drop (32 * w)) (j % 32) (by omega)
  rw [show 32 - 1 - j % 32 = 31 - j % 32 by omega] at this
  rw [BitVec.getLsbD_ofNat, this]
  simp only [List.getD_eq_getElem?_getD, List.getElem?_drop, show 32 * w + j % 32 = j by omega]
  simp
  intro h
  omega

/-- The fields of CODE_LEN (10_state.md R38). -/
theorem codeLen_fields (x : BitVec 8) :
    (x.setWidth 32).extractLsb' 0 8 = x ∧ (x.setWidth 32).extractLsb' 8 24 = 0#24 := by
  revert x
  decide +kernel

/-- The fields of word 0 of a leaf's NODE entry (10_state.md R41). -/
theorem leafWord_fields (x : Byte) :
    (1#1 ++ (0#23 ++ x)).getLsbD 31 = true ∧ (1#1 ++ (0#23 ++ x)).extractLsb' 8 23 = 0#23 ∧
      (1#1 ++ (0#23 ++ x)).extractLsb' 0 8 = x := by
  revert x
  decide +kernel

/-- The fields of word 1 of an internal node's NODE entry (10_state.md R41). -/
theorem childWord_fields (z o : BitVec 9) :
    let w : Word := 0#7 ++ (o ++ (0#7 ++ z))
    w.extractLsb' 0 9 = z ∧ w.extractLsb' 9 7 = 0#7 ∧ w.extractLsb' 16 9 = o ∧ w.extractLsb' 25 7 = 0#7 := by
  intro w
  refine ⟨?_, ?_, ?_, ?_⟩ <;>
    · apply BitVec.eq_of_getLsbD_eq
      intro j hj
      rw [BitVec.getLsbD_extractLsb']
      simp only [w, BitVec.getLsbD_append]
      interval_cases j <;> simp

/-- The fields of STATUS (10_state.md R24). -/
theorem statusWord_fields (s : State) :
    s.statusWord.getLsbD 0 = s.busy ∧ s.statusWord.getLsbD 1 = s.done ∧ s.statusWord.getLsbD 2 = s.err ∧
    s.statusWord.getLsbD 3 = s.ovr ∧ s.statusWord.getLsbD 4 = s.treeValid ∧ s.statusWord.extractLsb' 5 3 = 0#3 ∧
    s.statusWord.extractLsb' 8 4 = errCodeBits s.errCode ∧ s.statusWord.extractLsb' 12 20 = 0#20 := by
  have key : ∀ (b0 b1 b2 b3 b4 : Bool) (c : BitVec 4),
      let w : Word := 0#20 ++ (c ++ (0#3 ++ (BitVec.ofBool b4 ++ (BitVec.ofBool b3 ++ (BitVec.ofBool b2 ++
        (BitVec.ofBool b1 ++ BitVec.ofBool b0))))))
      w.getLsbD 0 = b0 ∧ w.getLsbD 1 = b1 ∧ w.getLsbD 2 = b2 ∧ w.getLsbD 3 = b3 ∧ w.getLsbD 4 = b4 ∧
        w.extractLsb' 5 3 = 0#3 ∧ w.extractLsb' 8 4 = c ∧ w.extractLsb' 12 20 = 0#20 := by
    decide +kernel
  exact key _ _ _ _ _ _

/-! ### Steps, by what they do to the status registers -/

theorem serves_unique {s : State} {a b : HostOp} (h : s.serves a) (h2 : s.serves b) : a = b := by
  obtain ⟨-, o, h⟩ := h
  obtain ⟨-, o2, h2⟩ := h2
  rw [h] at h2
  cases h2
  rfl

theorem not_executes_of_idle {s : State} (h : s.seq = .idle) : ¬s.executes := fun e => by simp [State.executes, h] at e


/-- The parts of the state that STATUS, CTRL and CMD show, and the tables of the tree, are equal. -/
structure SameStatus (s t : State) : Prop where
  seq : t.seq = s.seq
  done : t.done = s.done
  err : t.err = s.err
  ovr : t.ovr = s.ovr
  errCode : t.errCode = s.errCode
  errInfo : t.errInfo = s.errInfo
  cmd : t.cmd = s.cmd
  irqEn : t.irqEn = s.irqEn
  tree : t.tree = s.tree
  codes : t.codes = s.codes

/-- The state whose host access a step serves: the access is out of the list. -/
def State.afterAccess (s : State) (ops : List HostOp) (l : Nat) : State := { s with host := ops, lag := l }

/-- A step that serves an access of the host is that access. -/
theorem step_serves {s : State} {op : HostOp} (h : s.serves op) :
    ∃ ops l, s.host = op :: ops ∧ step s = hostAccess op (s.afterAccess ops l) := by
  obtain ⟨hne, ops, hh⟩ := h
  unfold step
  cases hs : s.seq with
  | idle => exact ⟨ops, s.lag, hh, by rw [hh]; simp [State.afterAccess, hs]⟩
  | busy =>
    cases hl : s.lag with
    | zero => exact absurd ⟨hs, .inl hl⟩ hne
    | succ n => exact ⟨ops, n, hh, by rw [hh]; simp [State.afterAccess, hs]⟩

/-- Every kind of step, by what it does to STATUS, CTRL and CMD. -/
theorem step_kinds {s t : State} (h : step s = .next t) :
    (SameStatus s t ∧ (s.executes → False)) ∨
    (∃ ops l, s.resets ∧ t = (s.afterAccess ops l).applyReset) ∨
    (∃ v, s.serves (.write 4 0x004 v) ∧ v.getLsbD 0 = false ∧ ∃ ops l, t = { s.afterAccess ops l with irqEn := v.getLsbD 1 }) ∨
    (∃ v, s.serves (.write 4 0x008 v) ∧ ∃ ops l, t = (s.afterAccess ops l).writeStatus v) ∨
    (∃ w, s.issues w ∧ ∃ ops l, t = (s.afterAccess ops l).issue w) ∨
    (s.seq = .busy ∧ (∃ w, s.serves (.write 4 0x00C w)) ∧ ∃ ops l, t = { s.afterAccess ops l with ovr := true }) ∨
    (s.executes ∧ (∃ e, decode s.cmd = .error e) ∧ t = s.illegalCommand) ∨
    (s.executes ∧ ∃ i, decode s.cmd = .ok i ∧ exec i s = .next t) := by
  rcases step_next h with ⟨h1, h2, rfl⟩ | ⟨op, ops, l, hh, hl, h⟩ | ⟨he, h⟩
  · exact .inl ⟨⟨rfl, rfl, rfl, rfl, rfl, rfl, rfl, rfl, rfl, rfl⟩, fun he => by simp [State.executes, h1] at he⟩
  · have hne : ¬s.executes := by
      rintro ⟨e1, e2⟩
      rcases hl with ⟨h1, -⟩ | ⟨-, h2⟩
      · simp [h1] at e1
      · simp [h2, hh] at e2
    have hserves : s.serves op := ⟨hne, ops, hh⟩
    rcases hostAccess_next h with ⟨size, off, v, rfl, hok, ht⟩ | ⟨size, off, rfl, -, rfl⟩ | ⟨rfl, rfl⟩ |
        ⟨a, v, rfl, -, rfl⟩ | ⟨a, rfl, -, rfl⟩ | ⟨rfl, rfl⟩
    · obtain ⟨rfl, hoff, hle⟩ := windowAccessOk_iff.1 hok
      have hw : winRegAt off = .ctrl ∧ off = 0x004 ∨ winRegAt off = .status ∧ off = 0x008 ∨
          winRegAt off = .cmd ∧ off = 0x00C ∨ (winRegAt off ≠ .ctrl ∧ winRegAt off ≠ .status ∧ winRegAt off ≠ .cmd) := by
        by_cases h4 : off < 0x10
        · obtain rfl | rfl | rfl | rfl : off = 0 ∨ off = 4 ∨ off = 8 ∨ off = 12 := by omega
          all_goals decide
        · refine .inr (.inr (.inr ?_))
          by_cases h50 : off < 0x50
          · obtain ⟨k, rfl⟩ : ∃ k, off = 4 * k := ⟨off / 4, by omega⟩
            have hk : k < 20 := by omega
            have hk4 : 4 ≤ k := by omega
            clear hoff hle h hok ht h4 hserves h50 hne
            interval_cases k <;> decide
          · by_cases hf : off < 0x400
            · rw [winRegAt_reserved (.inl ⟨by omega, hf⟩)]; simp
            · by_cases h8 : off < 0x800
              · rw [winRegAt_freqs (by omega) h8]; simp
              · by_cases hc : off < 0xC00
                · obtain ⟨q, hq⟩ | ⟨q, w, hq⟩ := winRegAt_code (off := off) (.inl ⟨by omega, hc⟩) <;> rw [hq] <;> simp
                · by_cases h1 : off < 0x1000
                  · rw [winRegAt_reserved (.inr (.inl ⟨by omega, h1⟩))]; simp
                  · by_cases h3 : off < 0x3000
                    · obtain ⟨q, hq⟩ | ⟨q, w, hq⟩ := winRegAt_code (off := off) (.inr ⟨by omega, h3⟩) <;> rw [hq] <;> simp
                    · by_cases h5 : off < 0x4FF0
                      · rw [winRegAt_nodes (by omega) h5]; simp
                      · rw [winRegAt_reserved (.inr (.inr (by omega)))]; simp
      rcases hw with ⟨hr, rfl⟩ | ⟨hr, rfl⟩ | ⟨hr, rfl⟩ | ⟨h1, h2, h3⟩
      · rw [hr] at ht
        by_cases hv : v.getLsbD 0 = true
        · refine .inr (.inl ⟨ops, l, .inr ⟨v, hserves, hv⟩, ?_⟩)
          rw [ht]; unfold State.writeReg State.writeCtrl; rw [if_pos hv]; rfl
        · refine .inr (.inr (.inl ⟨v, hserves, by simpa using hv, ops, l, ?_⟩))
          rw [ht]; unfold State.writeReg State.writeCtrl; rw [if_neg hv]; rfl
      · rw [hr] at ht
        exact .inr (.inr (.inr (.inl ⟨v, hserves, ops, l, ht⟩)))
      · rw [hr] at ht
        cases hs : s.seq with
        | idle =>
          refine .inr (.inr (.inr (.inr (.inl ⟨v, ⟨hs, hserves⟩, ops, l, ?_⟩))))
          rw [ht]; unfold State.writeReg State.writeCmd; simp only [hs]; rfl
        | busy =>
          refine .inr (.inr (.inr (.inr (.inr (.inl ⟨rfl, ⟨v, hserves⟩, ops, l, ?_⟩)))))
          rw [ht]; unfold State.writeReg State.writeCmd; simp [State.afterAccess, hs]
      · refine .inl ⟨?_, hne⟩
        cases hs : s.seq with
        | idle =>
          rw [writeReg_other (by exact hs) h1 h2 h3] at ht
          generalize winRegAt off = r at ht
          subst ht
          cases r <;> exact ⟨rfl, rfl, rfl, rfl, rfl, rfl, rfl, rfl, rfl, rfl⟩
        | busy =>
          rw [writeReg_busy (by exact hs) h1 h2 h3] at ht
          subst ht
          exact ⟨rfl, rfl, rfl, rfl, rfl, rfl, rfl, rfl, rfl, rfl⟩
    · refine .inl ⟨?_, hne⟩
      rw [readReg_frame]
      exact ⟨rfl, rfl, rfl, rfl, rfl, rfl, rfl, rfl, rfl, rfl⟩
    · exact .inl ⟨⟨rfl, rfl, rfl, rfl, rfl, rfl, rfl, rfl, rfl, rfl⟩, hne⟩
    · exact .inl ⟨⟨rfl, rfl, rfl, rfl, rfl, rfl, rfl, rfl, rfl, rfl⟩, hne⟩
    · exact .inl ⟨⟨rfl, rfl, rfl, rfl, rfl, rfl, rfl, rfl, rfl, rfl⟩, hne⟩
    · exact .inr (.inl ⟨ops, l, .inl hserves, rfl⟩)
  · rcases runFetched_next h with ⟨e, h1, h2⟩ | ⟨i, h1, h2⟩
    · exact .inr (.inr (.inr (.inr (.inr (.inr (.inl ⟨he, ⟨e, h1⟩, h2⟩))))))
    · exact .inr (.inr (.inr (.inr (.inr (.inr (.inr ⟨he, i, h1, h2⟩))))))

end Sys2Proof.Machine
end

