-- ==== Sys2Proof/Tests/Slice0.lean ====
section
/-! SUPPORT. The model's own tests: ill-formed terms, command words written out from 30_encoding.md,
small vectors of 95_test_vectors.md (each names its vector), and for every obligation with hypotheses a
witness that meets them. -/

namespace Sys2Proof.Tests

open Sys2Proof.Machine

-- One theorem after another: the evaluations below need much stack each.
set_option Elab.async false

/-! ### WellFormed refuses each ill-formed term (30_encoding.md R92, 10_state.md R47, 20_memory.md R70) -/

theorem test_wf_rsvd : (CmdFields.wf ⟨0x50#8, false, 1#23⟩) = false := by decide
theorem test_wf_rsvd_top : (CmdFields.wf ⟨0x50#8, false, 0x400000#23⟩) = false := by decide
theorem test_wf_opcode : (CmdFields.wf ⟨0x52#8, false, 0#23⟩) = false := by decide
theorem test_wf_pre : (CmdFields.wf ⟨0x51#8, true, 0#23⟩) = false := by decide
theorem test_wf_pre_encode : (CmdFields.wf ⟨0x50#8, true, 0#23⟩) = true := by decide
theorem test_wf_width : (HostOp.read 2 0x008).wf = false := by decide
theorem test_wf_aligned : (HostOp.write 4 0x00E 0).wf = false := by decide
theorem test_wf_offset : (HostOp.read 4 0x5000).wf = false ∧ (HostOp.read 4 0x4FFC).wf = true := by decide
theorem test_wf_address : (HostOp.memWrite 0x100000000 1).wf = false ∧ (HostOp.memRead 0xFFFFFFFF).wf = true := by
  decide

/-! ### Decoding: OPC is bits 7:0, PRE bit 8, RSVD bits 31:9 (30_encoding.md R90, R91) -/

theorem test_decode_nop : decode 0b00000000000000000000000000000000#32 = .ok .nop := by decide
theorem test_decode_pack : decode 0b00000000000000000000000000010000#32 = .ok .pack := by decide
theorem test_decode_unpack : decode 0b00000000000000000000000000010001#32 = .ok .unpack := by decide
theorem test_decode_ftClear : decode 0b00000000000000000000000000100000#32 = .ok .ftClear := by decide
theorem test_decode_ftCount : decode 0b00000000000000000000000000100001#32 = .ok .ftCount := by decide
theorem test_decode_treeBuild : decode 0b00000000000000000000000000100010#32 = .ok .treeBuild := by decide
theorem test_decode_treeSer : decode 0b00000000000000000000000000110000#32 = .ok .treeSer := by decide
theorem test_decode_treeDeser : decode 0b00000000000000000000000000110001#32 = .ok .treeDeser := by decide
theorem test_decode_encRaw : decode 0b00000000000000000000000001000000#32 = .ok .encRaw := by decide
theorem test_decode_decRaw : decode 0b00000000000000000000000001000001#32 = .ok .decRaw := by decide
theorem test_decode_encode : decode 0b00000000000000000000000001010000#32 = .ok (.encode false) := by decide
theorem test_decode_encode_pre : decode 0b00000000000000000000000101010000#32 = .ok (.encode true) := by decide
theorem test_decode_decode : decode 0b00000000000000000000000001010001#32 = .ok .decode := by decide

/-- R92: PRE on another OPC, an OPC outside the table, a RSVD bit (T-40-3 to T-40-7). -/
theorem test_decode_illegal :
    decode 0x00000110#32 = .error .preNotLegal ∧ decode 0x00000100#32 = .error .preNotLegal ∧
    decode 0x00000052#32 = .error .unknownOpcode ∧ decode 0x00000001#32 = .error .unknownOpcode ∧
    decode 0x80000050#32 = .error .reservedBits ∧ decode 0x00000200#32 = .error .reservedBits := by decide

/-- The encoder gives the same words. -/
theorem test_encode : encode (.encode true) = 0x00000150#32 ∧ encode .decRaw = 0x00000041#32 := by decide

theorem test_decodeTableWord : decodeTableWord 32 0x150 = some (.encode true) ∧ decodeTableWord 32 0x52 = none := by
  decide

/-- R5, 10_state.md section 2: with the window at host address 0x40000000, a store to 0x4000000C is one to CMD,
and an address past the window is none of the engine's. -/
theorem test_hostStore :
    let s := { State.reset with params := { Params.reference with huffBase := 0x40000000 } }
    s.hostStore 4 0x4000000C 0x51 = some (.write 4 0x00C 0x51) ∧ s.hostLoad 4 0x40005000 = none := by decide

/-! ### Start states -/

/-- The start state of 95_test_vectors.md section 0. -/
def start (src : List Byte) : State :=
  { State.reset with
    srcBase := 0x1000
    srcLen := BitVec.ofNat 32 src.length
    dstBase := 0x2000
    dstCap := 0x1000
    tmpBase := 0x8000
    tmpCap := 0x1000
    mem := Memory.writeBytes [] 0x1000 src }

/-- A state in which the command has just been issued. -/
def issued (i : Instr) (s : State) : State := { s with cmd := encode i, seq := .busy }

/-- A state with a tree installed. -/
def withTree (t : Machine.Tree) (s : State) : State := { s with tree := some t, codes := deriveCodes t }

/-- A state with some counters written by the host. -/
def withFreq (l : List (Byte × Word)) (s : State) : State :=
  { s with freq := l.foldl (fun f e => update f e.1 e.2) s.freq }

/-- The tree of T-45-3: a = 0, b = 1. -/
def abTree : Machine.Tree := .node 2 (.leaf 0 0x61 1) (.leaf 1 0x62 1) 2

/-- The next state, where there is one. -/
def after (i : Instr) (s : State) : State := match exec i s with | .next t => t | .fault _ => s | .refused _ => s

/-- The command answers a next state. -/
def completes (i : Instr) (s : State) : Bool := match exec i s with | .next _ => true | .fault _ => false | .refused _ => false

theorem exec_after {i : Instr} {s : State} (h : completes i s = true) : exec i s = .next (after i s) := by
  unfold completes at h
  unfold after
  cases he : exec i s <;> simp_all

/-- The end of a command as 95_test_vectors.md gives it: STATUS, ERR_INFO, OUT_LEN, BITCNT, SRC_POS and the
first bytes of DST. -/
def ends (i : Instr) (s : State) (status errInfo outLen bitcnt srcPos : Nat) (dst : List Byte) : Bool :=
  let t := after i s
  completes i s && t.statusWord == BitVec.ofNat 32 status && t.errInfo == BitVec.ofNat 32 errInfo &&
    t.outLen == BitVec.ofNat 32 outLen && t.bitcnt == BitVec.ofNat 64 bitcnt && t.srcPos == BitVec.ofNat 32 srcPos &&
    t.mem.bytes t.dstBase.toNat dst.length == dst && t.mem.wf

/-! ### Vectors of 95_test_vectors.md -/

/-- T-40-1. -/
theorem test_nop : ends .nop (start []) 0x2 0 0 0 0 [] = true := by decide +kernel

/-- T-41-2. -/
theorem test_pack : ends .pack (start [1, 0, 1, 1, 0, 0, 0, 0, 1]) 0x2 0 2 9 0 [0xB0, 0x80, 0] = true := by
  decide +kernel

/-- T-41-4. -/
theorem test_pack_illegal : ends .pack (start [0, 1, 2, 1]) 0x404 2 0 0 0 [] = true := by decide +kernel

/-- T-41-9. -/
theorem test_unpack : ends .unpack { start [0x29, 5, 0xFB] with bitcnt := 20 } 0x2 0 20 20 0
    [0, 0, 1, 0, 1, 0, 0, 1, 0, 0, 0, 0, 0, 1, 0, 1, 1, 1, 1, 1, 0] = true := by decide +kernel

/-- T-41-12. -/
theorem test_unpack_short : ends .unpack { start [0xFF] with bitcnt := 0x100000000 } 0x204 1 0 0x100000000 0 [] =
    true := by decide +kernel

/-- T-42-3. -/
theorem test_ftClear : ends .ftClear (withTree abTree (withFreq [(0x61, 4)] (start []))) 0x12 0 0 0 0 [] = true ∧
    lookup (after .ftClear (withFreq [(0x61, 4)] (start []))).freq 0x61 = 0 := by decide +kernel

/-- T-42-12. -/
theorem test_ftCount_overflow :
    let s := { start [0x61, 0x62, 0x63] with total := 0xFFFFFFFE }
    ends .ftCount s 0x604 1 0 0 0 [] = true ∧ (after .ftCount s).total = 0xFFFFFFFF ∧
      lookup (after .ftCount s).freq 0x61 = 1 ∧ lookup (after .ftCount s).freq 0x62 = 0 := by decide +kernel

/-- T-42-1. -/
theorem test_ftCount :
    let t := after .ftCount (start [0x61, 0x62, 0x63, 0x61])
    lookup t.freq 0x61 = 2 ∧ lookup t.freq 0x63 = 1 ∧ lookup t.freq 0x64 = 0 ∧ t.total = 4 := by decide +kernel

/-- T-42-4. -/
theorem test_treeBuild :
    let t := after .treeBuild (withFreq [(0x61, 1), (0x62, 1), (0x63, 2)] (start []))
    t.tree = some (.node 4 (.leaf 2 0x63 2) (.node 3 (.leaf 0 0x61 1) (.leaf 1 0x62 1) 2) 4) ∧
      lookup t.codes 0x61 = [true, false] ∧ lookup t.codes 0x63 = [false] ∧ t.statusWord = 0x12 := by decide +kernel

/-- T-42-6. -/
theorem test_treeBuild_single :
    let t := after .treeBuild (withFreq [(0x78, 7)] (start []))
    t.tree = some (.node 2 (.leaf 0 0x78 7) (.leaf 1 0x78 7) 14) ∧ lookup t.codes 0x78 = [false] := by decide +kernel

/-- The 29 bytes of the "x" tree of E2. -/
def tx : List Byte :=
  [0x4E, 0, 0, 0, 0, 0, 0, 0, 2] ++ [0x4C, 0x78, 0, 0, 0, 0, 0, 0, 0, 1] ++ [0x4C, 0x78, 0, 0, 0, 0, 0, 0, 0, 1]

/-- The "x" tree as a parse stores it (T-43-2). -/
def xTree : Machine.Tree := .node 0 (.leaf 1 0x78 1) (.leaf 2 0x78 1) 2

/-- T-43-1. -/
theorem test_treeSer : ends .treeSer (withTree (.node 2 (.leaf 0 0x78 1) (.leaf 1 0x78 1) 2) (start [])) 0x12 0 29 0 0
    (tx ++ [0]) = true := by decide +kernel

/-- T-40-17. -/
theorem test_treeSer_seq : ends .treeSer (start []) 0x504 0 0 0 0 [] = true := by decide +kernel

/-- T-43-2. -/
theorem test_treeDeser : ends .treeDeser (start (tx ++ [0x0A])) 0x12 0 0 0 29 [] = true ∧
    (after .treeDeser (start (tx ++ [0x0A]))).tree = some xTree := by decide +kernel

/-- T-43-4. -/
theorem test_treeDeser_tag : ends .treeDeser (start [0x4E, 0, 0, 0, 0, 0, 0, 0, 2, 0x41]) 0x204 9 0 0 0 [] = true := by
  decide +kernel

/-- The tree of T-45-4: a = 0, b = 110, c = 100, d = 101, r = 111. -/
def abracadabraTree : Machine.Tree :=
  .node 8 (.leaf 0 0x61 5) (.node 7 (.node 5 (.leaf 2 0x63 1) (.leaf 3 0x64 1) 2) (.node 6 (.leaf 1 0x62 2) (.leaf 4 0x72 2) 4) 6) 11

/-- "abracadabra". -/
def abracadabra : List Byte := [0x61, 0x62, 0x72, 0x61, 0x63, 0x61, 0x64, 0x61, 0x62, 0x72, 0x61]

/-- T-44-1. -/
theorem test_encRaw : ends .encRaw (withTree abracadabraTree (start abracadabra)) 0x12 0 3 23 0 [0x6E, 0x8A, 0xDC, 0] =
    true := by decide +kernel

/-- T-44-9. -/
theorem test_encRaw_noCode : ends .encRaw (withTree abracadabraTree (start [0x61, 0x62, 0x7A])) 0x314 2 0 0 0 [] =
    true := by decide +kernel

/-- T-44-2. -/
theorem test_decRaw : ends .decRaw { withTree abracadabraTree (start [0x6E, 0x8A, 0xDC]) with bitcnt := 23 } 0x12 0 11 23 0
    (abracadabra ++ [0]) = true := by decide +kernel

/-- T-44-8. -/
theorem test_decRaw_cut : ends .decRaw { withTree abracadabraTree (start [0x6E, 0x8A, 0xDC]) with bitcnt := 3 } 0x214 0 0 3 0
    [] = true := by decide +kernel

/-- E2. -/
theorem test_encode_x : ends (.encode false) (start [0x78]) 0x12 0 33 1 0 (tx ++ [0x0A, 0x31, 0x0A, 0]) = true := by
  decide +kernel

/-- T-45-9. -/
theorem test_encode_pre : ends (.encode true) (withFreq [(0x61, 1), (0x62, 1)] (start [0x61, 0x62, 0x7A])) 0x314 2 0 0 0
    [] = true := by decide +kernel

/-- T-43-13. -/
theorem test_decode_zeros : ends .decode (start (tx ++ [0x0A, 0x30, 0x30, 0x31, 0x0A, 0])) 0x12 0 1 1 34 [0x78, 0] =
    true := by decide +kernel

/-- T-43-17. -/
theorem test_decode_crlf : ends .decode (start (tx ++ [0x0A, 0x31, 0x0D, 0x0A, 0])) 0x214 31 0 0 0 [0] = true := by
  decide +kernel


/-! ### Witnesses: for each obligation with hypotheses, states and operands that meet them

A clause of an obligation that has hypotheses of its own has its own part, at a boundary value. -/

/-- A state with host accesses waiting. -/
def withHost (ops : List HostOp) (s : State) : State := { s with host := ops }

/-- A state in which that many host accesses come before the running command. -/
def withLag (n : Nat) (s : State) : State := { s with lag := n }

/-- A state in which the host has just written that word to CMD. -/
def issuedWord (w : Word) (s : State) : State := { s with cmd := w, seq := .busy }

/-- The state after one step, where there is one. -/
def nextOf (s : State) : State := match step s with | .next t => t | .fault _ => s | .refused _ => s

/-- The step answers a next state. -/
def steps (s : State) : Bool := match step s with | .next _ => true | .fault _ => false | .refused _ => false

theorem step_nextOf {s : State} (h : steps s = true) : step s = .next (nextOf s) := by
  unfold steps at h
  unfold nextOf
  cases he : step s <;> simp_all

theorem serves_idle {op : HostOp} {ops : List HostOp} {s : State} (h : s.seq = .idle) :
    (withHost (op :: ops) s).serves op :=
  ⟨fun e => by simpa [withHost, h] using e.1, ops, rfl⟩

theorem serves_lag {n : Nat} {op : HostOp} {ops : List HostOp} {s : State} :
    (withLag (n + 1) (withHost (op :: ops) s)).serves op :=
  ⟨fun e => by simpa [withLag, withHost] using e.2, ops, rfl⟩

theorem executes_issuedWord (w : Word) (src : List Byte) : (issuedWord w (start src)).executes := ⟨rfl, .inl rfl⟩

theorem readable_ref (a n : Nat) : Readable Params.reference a n := fun _ _ => rfl

theorem takes_of {p : Params} {a cap n : Nat} (hp : p.busErrWr = []) (h : n ≤ cap) : Takes p a cap n :=
  ⟨h, fun _ _ => by simp [busErrWr, hp, Config.covers]⟩

theorem takes_ref {a cap n : Nat} (h : n ≤ cap) : Takes Params.reference a cap n := ⟨h, fun _ _ => rfl⟩

theorem not_takes {p : Params} {a cap n : Nat} (h : cap < n) : ¬Takes p a cap n := fun e => absurd e.1 (by omega)

theorem srcBytes_start {src : List Byte} (h : src.length ≤ 0x10000) : (start src).srcBytes = src := by
  have hl : (BitVec.ofNat 32 src.length).toNat = src.length := by simp; omega
  have : (start src).srcBytes = (Memory.writeBytes [] 0x1000 src).bytes 0x1000 src.length := by
    rw [← hl]; unfold start State.srcBytes; rfl
  rw [this]
  exact Memory.bytes_writeBytes_self (m := []) src rfl (by simp [Config.addrSpace]; omega)

/-- A state in which a read of that byte of the address space meets a bus error. -/
def busAt (a : Nat) (s : State) : State := { s with params := { s.params with busErrRd := [⟨a, a⟩] } }

/-- A state of a build in which BR_BLOCK is `n + 1`. -/
def blocksOf (n : Fin 65535) (s : State) : State := { s with params := { s.params with brBlockPred := n } }

theorem firstBusError_of {p : Params} {base len j : Nat} (h : j < len) (hp : p.busErrRd = [⟨base + j, base + j⟩]) :
    FirstBusError p base len j where
  lt := h
  before := fun i hi => by simp [busErrRd, hp, Config.covers]; omega
  bus := by simp [busErrRd, hp, Config.covers]

theorem inv_start {src : List Byte} (h : src.length ≤ 0x10000) : (start src).Inv where
  mem := Memory.wf_writeBytes src rfl (by simp [Config.addrSpace]; omega)
  notBoth := fun h => by simp [start, State.reset] at h
  whileBusy := fun h => by simp [start, State.reset] at h
  noRecord := fun _ => ⟨rfl, rfl⟩
  record := fun h => by simp [start, State.reset] at h
  tree := fun t h => by simp [start, State.reset] at h
  noTree := fun _ => rfl

theorem inv_withTree {t : Machine.Tree} {s : State} (h : s.Inv) (ht : t.Ok) : (withTree t s).Inv where
  mem := h.mem
  notBoth := h.notBoth
  whileBusy := h.whileBusy
  noRecord := h.noRecord
  record := h.record
  tree := fun u hu => by
    have : t = u := Option.some.inj hu
    subst this
    exact ⟨ht, rfl⟩
  noTree := fun h => by simp [withTree] at h

theorem inv_withFreq {l : List (Byte × Word)} {s : State} (h : s.Inv) : (withFreq l s).Inv :=
  ⟨h.mem, h.notBoth, h.whileBusy, h.noRecord, h.record, h.tree, h.noTree⟩

theorem inv_withHost {ops : List HostOp} {s : State} (h : s.Inv) : (withHost ops s).Inv :=
  ⟨h.mem, h.notBoth, h.whileBusy, h.noRecord, h.record, h.tree, h.noTree⟩

theorem inv_issued {i : Instr} {s : State} (h : s.Inv) (hd : s.done = false) (he : s.err = false) : (issued i s).Inv :=
  ⟨h.mem, h.notBoth, fun _ => ⟨hd, he⟩, h.noRecord, h.record, h.tree, h.noTree⟩

theorem abTree_ok : abTree.Ok := ⟨rfl, by decide, by decide, by decide⟩

/-- A state with DONE = 1 or ERR = 1 at the end of a command. -/
def ended (s : State) : State := { s with done := true }

theorem inv_ended {s : State} (h : s.Inv) (hs : s.seq = .idle) (he : s.err = false) : (ended s).Inv :=
  ⟨h.mem, fun e => by simp [ended, he] at e, fun e => by simp [ended, hs] at e, h.noRecord, h.record, h.tree, h.noTree⟩

/-! #### Command words and steps -/

theorem witness_DecodeInvertsEncode : Instr.wf (.encode true) = true ∧ Instr.wf .decode = true := by decide

theorem witness_IllegalWordCompletesWithError :
    ∀ w ∈ [0x00000001#32, 0x00000110#32, 0x00000200#32, 0x80000050#32],
      (issuedWord w (start [])).executes ∧ ∃ e, decode (issuedWord w (start [])).cmd = .error e := by
  intro w hw
  refine ⟨executes_issuedWord w [], ?_⟩
  simp only [List.mem_cons, List.not_mem_nil, or_false] at hw
  rcases hw with rfl | rfl | rfl | rfl
  · exact ⟨.unknownOpcode, by decide⟩
  · exact ⟨.preNotLegal, by decide⟩
  · exact ⟨.reservedBits, by decide⟩
  · exact ⟨.reservedBits, by decide⟩

theorem witness_StepRunsSelectedCommand :
    ((issued .pack (start [1])).executes ∧ decode (issued .pack (start [1])).cmd = .ok .pack) ∧
    ((withHost [.wait] (start [])).seq = .idle ∧ (withHost [.wait] (start [])).host = .wait :: []) ∧
    (let s := withLag 1 (withHost [.wait] (issued .nop (start [])))
     s.seq = .busy ∧ s.lag = 0 + 1 ∧ s.host = .wait :: []) :=
  ⟨⟨⟨rfl, .inl rfl⟩, by decide⟩, ⟨rfl, rfl⟩, rfl, rfl, rfl⟩

theorem witness_IdleEngineChangesNothing :
    ((start []).seq = .idle ∧ (start []).host = []) ∧
    ∀ op ∈ [HostOp.memWrite 0xFFFFFFFF 1, .hwReset, .write 4 0x004 1, .write 4 0x000 1, .write 4 0x7FC 1, .write 4 0x4FFC 1],
      (withHost [op] (start [])).seq = .idle ∧ ∃ t, step (withHost [op] (start [])) = .next t := by
  refine ⟨⟨rfl, rfl⟩, fun op hop => ⟨rfl, _, step_nextOf ?_⟩⟩
  revert op
  decide +kernel

theorem not_resets_read : ¬(withLag 1 (withHost [.read 4 0x008] (issued .nop (start [])))).resets := by
  rintro (⟨-, ops, h⟩ | ⟨v, ⟨-, ops, h⟩, -⟩) <;> simp [withLag, withHost] at h

theorem witness_CmdWriteIssues :
    (start []).seq = .idle ∧ (issued .nop (start [])).seq = .busy ∧
    (let s := withLag 1 (withHost [.read 4 0x008] (issued .nop (start [])))
     s.seq = .busy ∧ s.serves (.read 4 0x008) ∧ ¬s.resets ∧ s.done = false ∧ s.err = false ∧ ∃ t, step s = .next t) ∧
    ((issuedWord 0x52 (start [])).executes ∧ decode (issuedWord 0x52 (start [])).cmd = .error .unknownOpcode) ∧
    ((issuedWord 0x51 (start [])).executes ∧ decode (issuedWord 0x51 (start [])).cmd = .ok .decode) :=
  ⟨rfl, rfl, ⟨rfl, serves_lag, not_resets_read, rfl, rfl, _, step_nextOf (by decide +kernel)⟩,
    ⟨executes_issuedWord _ _, by decide⟩, executes_issuedWord _ _, by decide⟩

theorem witness_RunningCommandEndsOnlyByCompletionOrReset :
    (∃ t, step (withHost [.write 4 0x00C 0] (start [])) = .next t ∧ (start []).seq = .idle ∧ t.seq = .busy) ∧
    (∃ t, step (withLag 1 (withHost [.wait] (issued .nop (start [])))) = .next t ∧ t.seq = .busy) ∧
    (∃ t, step (issued .nop (start [])) = .next t ∧ t.seq = .idle ∧ t.done = true) ∧
    ∃ t, step (withLag 1 (withHost [.hwReset] (issued .nop (start [])))) = .next t ∧ t.seq = .idle :=
  ⟨⟨_, step_nextOf (by decide +kernel), rfl, by decide +kernel⟩, ⟨_, step_nextOf (by decide +kernel), by decide +kernel⟩,
    ⟨_, step_nextOf (by decide +kernel), by decide +kernel, by decide +kernel⟩, _, step_nextOf (by decide +kernel),
    by decide +kernel⟩

/-- A state with OVR set. -/
def overrun (s : State) : State := { s with ovr := true }

theorem witness_CmdWriteWhileBusyIsDropped :
    (issued .nop (start [])).seq = .busy ∧ (∃ t, exec .pack (start [1]) = .next t) ∧
    (∃ t, step (overrun (issued .nop (start []))) = .next t ∧ (overrun (issued .nop (start []))).ovr = true) ∧
    ∃ t, step (withHost [.write 4 0x008 8] (overrun (start []))) = .next t ∧ t.ovr = false :=
  ⟨rfl, ⟨_, exec_after (by decide +kernel)⟩, ⟨_, step_nextOf (by decide +kernel), rfl⟩, _, step_nextOf (by decide +kernel),
    by decide +kernel⟩

/-- SRC one byte past the top of the address space (T-40-10). -/
def srcPastTop : State := { start [] with srcBase := 0xFFFFFFFF, srcLen := 2 }

/-- DST one byte past the top (T-40-12). -/
def dstPastTop : State := { start [] with dstBase := 0xFFFFFFFF, dstCap := 2 }

/-- TMP one byte past the top (T-40-13). -/
def tmpPastTop : State := { start [] with tmpBase := 0xFFFFFFFF, tmpCap := 2 }

theorem witness_StartChecksInOrder :
    ((issuedWord 0x111 (start [])).executes ∧ decode (issuedWord 0x111 (start [])).cmd = .error .preNotLegal) ∧
    (usesRegion .encRaw .src = true ∧ 2 ^ 32 < srcPastTop.srcBase.toNat + srcPastTop.srcLen.toNat) ∧
    (usesRegion .pack .dst = true ∧ 2 ^ 32 < dstPastTop.dstBase.toNat + dstPastTop.dstCap.toNat ∧
      dstPastTop.srcBase.toNat + dstPastTop.srcLen.toNat ≤ 2 ^ 32) ∧
    (usesRegion (.encode false) .tmp = true ∧ 2 ^ 32 < tmpPastTop.tmpBase.toNat + tmpPastTop.tmpCap.toNat ∧
      tmpPastTop.srcBase.toNat + tmpPastTop.srcLen.toNat ≤ 2 ^ 32 ∧
      tmpPastTop.dstBase.toNat + tmpPastTop.dstCap.toNat ≤ 2 ^ 32) ∧
    ((∀ r, usesRegion .treeSer r = true → (start []).regionBase r + (start []).regionSize r ≤ 2 ^ 32) ∧
      (start []).tree = none) ∧
    ((∀ r, usesRegion .treeBuild r = true → (start []).regionBase r + (start []).regionSize r ≤ 2 ^ 32) ∧
      ∀ q, lookup (start []).freq q = 0) := by
  refine ⟨⟨executes_issuedWord _ _, by decide⟩, by decide, by decide, by decide, ⟨fun r _ => ?_, rfl⟩, fun r _ => ?_,
    fun q => lookup_replicate _ _⟩
  · cases r <;> decide
  · cases r <;> decide

theorem witness_CommandEndsDoneOrErr :
    let s := start [0, 1]
    let u := start [2]
    (s.done = false ∧ s.err = false ∧ s.errCode = none ∧ s.errInfo = 0 ∧ ∃ t, exec .pack s = .next t ∧ t.done = true) ∧
    (u.done = false ∧ u.err = false ∧ u.errCode = none ∧ u.errInfo = 0 ∧ ∃ t, exec .pack u = .next t ∧ t.err = true) :=
  ⟨⟨rfl, rfl, rfl, rfl, _, exec_after (by decide +kernel), by decide +kernel⟩, rfl, rfl, rfl, rfl, _,
    exec_after (by decide +kernel), by decide +kernel⟩

theorem witness_CommandFrame :
    (∃ t, exec .ftCount (start [1]) = .next t) ∧ (∃ t, exec .treeDeser (start tx) = .next t) ∧
    (∃ t, exec .unpack (start [1]) = .next t) ∧
    Instr.ftCount ∉ [Instr.pack, .unpack, .treeSer, .encRaw, .decRaw, .encode false, .encode true, .decode] ∧
    Instr.unpack ∉ [Instr.pack, .encRaw, .encode false, .encode true, .decode] ∧
    Instr.ftCount ∉ [Instr.treeDeser, .decode] ∧ Instr.treeDeser ∉ [Instr.ftClear, .ftCount, .encode false] ∧
    Instr.ftCount ∉ [Instr.treeBuild, .treeDeser, .encode false, .encode true, .decode] :=
  ⟨⟨_, exec_after (by decide +kernel)⟩, ⟨_, exec_after (by decide +kernel)⟩, ⟨_, exec_after (by decide +kernel)⟩,
    by decide, by decide, by decide, by decide, by decide⟩

theorem witness_CommandMemoryFrame :
    (∃ t, exec .treeDeser (start tx) = .next t) ∧
    (let s := start [0, 1]
     ∃ t, exec .pack s = .next t ∧ s.err = false ∧ t.err = false ∧
      s.dstBase.toNat + s.dstCap.toNat ≤ 0x3000 ∧ 0x1FFF < s.dstBase.toNat ∧ s.dstBase.toNat + t.outLen.toNat ≤ 0x2001) ∧
    let s := start [0x78]
    ∃ t, exec (.encode false) s = .next t ∧ s.err = false ∧ t.err = false ∧
      s.dstBase.toNat + s.dstCap.toNat ≤ 0x7FFF ∧ 0x7FFF < s.tmpBase.toNat ∧
      s.dstBase.toNat + t.outLen.toNat ≤ 0x8001 ∧ s.tmpBase.toNat + (t.bitcnt.toNat + 7) / 8 ≤ 0x8001 :=
  ⟨⟨_, exec_after (by decide +kernel)⟩,
    ⟨_, exec_after (by decide +kernel), rfl, by decide +kernel, by decide, by decide, by decide +kernel⟩,
    _, exec_after (by decide +kernel), rfl, by decide +kernel, by decide, by decide, by decide +kernel, by decide +kernel⟩

theorem witness_EachCommandRaisesExactly :
    ∃ t, (issuedWord 0x52 (start [])).executes ∧ decode (issuedWord 0x52 (start [])).cmd = .error .unknownOpcode ∧
      step (issuedWord 0x52 (start [])) = .next t :=
  ⟨_, executes_issuedWord _ _, by decide, step_nextOf (by decide +kernel)⟩

/-- DST begins at the last byte of SRC. -/
def overlapping : State := { start [0, 0] with dstBase := 0x1001 }

/-- One address is memory with read side effects (log 9); SRC is 0x1000 and 0x1001. -/
def sensitive (a : Nat) : State := { start [0, 0] with params := { Params.reference with sideEffects := [⟨a, a⟩] } }

theorem witness_CommandRefusedOnlyForItsRegions :
    (startCheck .pack overlapping = none ∧ usesRegion .pack .src = true ∧ usesRegion .pack .dst = true ∧
      overlapping.inRegion .src 0x1001 = true ∧ overlapping.inRegion .dst 0x1001 = true) ∧
    (startCheck .pack (sensitive 0x1001) = none ∧ (sensitive 0x1001).regionsDisjoint .pack = true ∧
      (sensitive 0x1001).inRegion .src 0x1001 = true ∧
      Config.covers (sensitive 0x1001).params.sideEffects 0x1001 = true) ∧
    startCheck .pack srcPastTop ≠ none ∧
    ((sensitive 0x1002).regionsDisjoint .pack = true ∧
      (usedRegions .pack).any (sensitive 0x1002).regionHasSideEffects = false) := by decide +kernel

/-! #### The window -/

theorem witness_StatusRegister :
    (∃ t, step (withHost [.write 4 0x00C 0] (start [])) = .next t ∧ (start []).Inv ∧ t.seq = .busy) ∧
    (∃ t, step (issued .nop (start [])) = .next t ∧ (issued .nop (start [])).Inv ∧ t.seq = .idle ∧ t.done = true) ∧
    (∃ t, step (withHost [.write 4 0x008 2] (ended (start []))) = .next t ∧
      (ended (start [])).done = true ∧ t.done = false) ∧
    (∃ t, step (issued .treeSer (start [])) = .next t ∧ t.err = true ∧ t.errCode ≠ none) ∧
    (∃ t, step (withHost [.write 4 0x008 4] (after .treeSer (start []))) = .next t ∧
      (after .treeSer (start [])).err = true ∧ t.err = false) ∧
    (∃ t, step (withLag 1 (withHost [.write 4 0x00C 0] (issued .nop (start [])))) = .next t ∧ t.ovr = true) ∧
    (∃ t, step (withHost [.write 4 0x008 8] (overrun (start []))) = .next t ∧ t.ovr = false) ∧
    (∃ t, step (issued .treeDeser (start tx)) = .next t ∧ (start tx).tree = none ∧ t.tree ≠ none) ∧
    ∃ t, step (issued .treeDeser (withTree abTree (start []))) = .next t ∧
      (withTree abTree (start [])).tree ≠ none ∧ t.tree = none :=
  ⟨⟨_, step_nextOf (by decide +kernel), inv_start (by decide), by decide +kernel⟩,
    ⟨_, step_nextOf (by decide +kernel), inv_issued (inv_start (by decide)) rfl rfl, by decide +kernel, by decide +kernel⟩,
    ⟨_, step_nextOf (by decide +kernel), rfl, by decide +kernel⟩,
    ⟨_, step_nextOf (by decide +kernel), by decide +kernel, by decide +kernel⟩,
    ⟨_, step_nextOf (by decide +kernel), by decide +kernel, by decide +kernel⟩,
    ⟨_, step_nextOf (by decide +kernel), by decide +kernel⟩, ⟨_, step_nextOf (by decide +kernel), by decide +kernel⟩,
    ⟨_, step_nextOf (by decide +kernel), rfl, by decide +kernel⟩, _, step_nextOf (by decide +kernel), by decide,
    by decide +kernel⟩

/-- A state with IRQ_EN = 1. -/
def irqOn (s : State) : State := { s with irqEn := true }

theorem inv_irqOn {s : State} (h : s.Inv) : (irqOn s).Inv :=
  ⟨h.mem, h.notBoth, h.whileBusy, h.noRecord, h.record, h.tree, h.noTree⟩

theorem witness_ControlAndConstantRegisters :
    (start []).irqEn = false ∧ (irqOn (start [])).irqEn = true ∧ (0x00000002#32).getLsbD 0 = false ∧
    (0x00000003#32).getLsbD 0 = true ∧ ∃ t, step (withHost [.hwReset] (start [])) = .next t :=
  ⟨rfl, rfl, by decide, by decide, _, step_nextOf (by decide +kernel)⟩

theorem witness_RegionRegisters : (start []).seq = .idle ∧ ∃ t, exec (.encode false) (start [0x78]) = .next t :=
  ⟨rfl, _, exec_after (by decide +kernel)⟩

theorem witness_BitcntHalves :
    (start []).seq = .idle ∧
    (∃ t, exec .pack (start [2]) = .next t ∧ (start [2]).err = false ∧ t.err = true) ∧
    ∃ t, exec .unpack (start [2]) = .next t ∧ Instr.unpack ∉ [Instr.pack, .encRaw, .encode false, .encode true, .decode] :=
  ⟨rfl, ⟨_, exec_after (by decide +kernel), rfl, by decide +kernel⟩, _, exec_after (by decide +kernel), by decide⟩

theorem witness_DataRegisters : (start []).seq = .idle := rfl

theorem witness_BusyAccess :
    (issued .nop (start [])).seq = .busy ∧
    (∀ off ∈ [0x000, 0x010, 0x04C, 0x4FFC], off % 4 = 0 ∧ off ≤ 0x4FFC ∧ off ∉ [0x004, 0x008, 0x00C]) ∧
    (∀ off ∈ [0x010, 0x048, 0x050, 0x4FFC], off % 4 = 0 ∧ off ≤ 0x4FFC ∧ off ∉ [0x000, 0x004, 0x008, 0x00C, 0x04C]) ∧
    (0x00000002#32).getLsbD 0 = false ∧ (0x00000001#32).getLsbD 0 = true := by decide +kernel

theorem witness_ReservedAndReadOnly :
    (start []).seq = .idle ∧
    (∀ off ∈ [0x050, 0x3FC, 0xC00, 0xFFC, 0x4FF0, 0x4FFC], off % 4 = 0 ∧
      ((0x050 ≤ off ∧ off ≤ 0x3FC) ∨ (0xC00 ≤ off ∧ off ≤ 0xFFC) ∨ (0x4FF0 ≤ off ∧ off ≤ 0x4FFC))) ∧
    ((0xFFFFFFFE#32).extractLsb' 0 2 = (0x2#32).extractLsb' 0 2 ∧ ∃ t, Writes (start []) 0x004 0xFFFFFFFE t) ∧
    ((0xFFFFFFF3#32).extractLsb' 1 3 = (0x2#32).extractLsb' 1 3 ∧ ∃ t, Writes (start []) 0x008 0xFFFFFFF3 t) ∧
    (∃ t, hostAccess (.read 4 0x4FFC) (start []) = .next t) ∧
    ∀ off ∈ [0x000, 0x04C, 0x800, 0xBFC, 0x1000, 0x4FEC], off % 4 = 0 ∧
      (off ∈ [0x000, 0x028, 0x02C, 0x03C, 0x040, 0x044, 0x048, 0x04C] ∨ (0x800 ≤ off ∧ off ≤ 0xBFC) ∨
        (0x1000 ≤ off ∧ off ≤ 0x4FEC)) :=
  ⟨rfl, by decide, ⟨by decide, _, rfl⟩, ⟨by decide, _, rfl⟩, ⟨_, rfl⟩, by decide⟩

theorem witness_WindowAccessRefused :
    (0x4FFF < 0x5000 ∧ ∀ a ∈ [0x3FFFFFFF, 0x40005000], a < 0x40000000 ∨ 0x40000000 + 0x5000 ≤ a) ∧
    (∀ a ∈ [(4, 0x000), (4, 0x4FFC)], a.1 = 4 ∧ a.2 % 4 = 0 ∧ a.2 ≤ 0x4FFC) ∧
    ∀ a ∈ [(2, 0x008), (8, 0x030), (4, 0x4FFE), (4, 0x5000)], ¬(a.1 = 4 ∧ a.2 % 4 = 0 ∧ a.2 ≤ 0x4FFC) := by decide

theorem witness_CodeWindow :
    let s := withTree abTree (start [])
    s.Inv ∧ s.seq = .idle ∧ s.tree ≠ none ∧ (0 < (lookup s.codes 0x62).length ∧ 0 / 32 = 0) ∧
      ((lookup s.codes 0x62).length ≤ 255 ∧ 255 / 32 = 7 ∧ 7 < 8) :=
  ⟨inv_withTree (inv_start (by decide)) abTree_ok, rfl, by decide, by decide +kernel, by decide +kernel⟩

theorem witness_TreeWindows :
    (let s := withTree abTree (start [])
     s.Inv ∧ s.seq = .idle ∧ s.tree = some abTree ∧ abTree.find 1 = some (.leaf 1 0x62 1) ∧
      abTree.find 2 = some (.node 2 (.leaf 0 0x61 1) (.leaf 1 0x62 1) 2) ∧ 2 < abTree.size ∧ abTree.size ≤ 3 ∧ 3 ≤ 510) ∧
    (∃ t, buildTree (withFreq [(0x61, 1)] (start [])).freq = some t) ∧
    ((start []).seq = .idle ∧ (start []).tree = none ∧ ∀ off ∈ [0x040, 0x048, 0x800, 0xBFC, 0x1000, 0x4FEC], off % 4 = 0 ∧
      (off ∈ [0x040, 0x044, 0x048] ∨ (0x800 ≤ off ∧ off ≤ 0xBFC) ∨ (0x1000 ≤ off ∧ off ≤ 0x4FEC))) :=
  ⟨⟨inv_withTree (inv_start (by decide)) abTree_ok, rfl, rfl, by decide, by decide, by decide, by decide, by decide⟩,
    ⟨_, Option.eq_some_of_isSome (by decide +kernel)⟩, rfl, rfl, by decide⟩

/-! #### Memory, reset and interrupt -/

theorem witness_HostMemoryAccess :
    (let s := issued .pack (start [1])
     s.seq = .busy ∧ decode s.cmd = .ok .pack ∧
      (∃ r, usesRegion .pack r = true ∧ s.inRegion r 0x1000 = true) ∧
      (∀ r, usesRegion .pack r = true → s.inRegion r 0x1001 = false) ∧
      (∃ r ∈ writeRegions .pack, s.inRegion r 0x2FFF = true) ∧
      (∀ r ∈ writeRegions .pack, s.inRegion r 0x3000 = false)) ∧
    ((issuedWord 0x52 (start [])).seq = .busy ∧ decode (issuedWord 0x52 (start [])).cmd = .error .unknownOpcode) ∧
    2 ^ 32 ≤ 0x100000000 ∧ 0xFFFFFFFF < 2 ^ 32 ∧ (start []).seq = .idle ∧ (start []).mem.wf = true := by
  refine ⟨⟨rfl, by decide, ⟨.src, by decide⟩, fun r _ => ?_, ⟨.dst, by decide⟩, by decide⟩, ⟨rfl, by decide⟩, by decide,
    by decide, rfl, rfl⟩
  cases r <;> decide

theorem witness_ByteAccess :
    (let p := { Params.reference with busErrRd := [⟨5, 6⟩], busErrWr := [⟨7, 7⟩] }
     busErrRd p 6 = true ∧ busErrRd p 7 = false ∧ busErrWr p 7 = true ∧ busErrWr p 8 = false) ∧
    (start [1]).mem.wf = true ∧ 0xFFFFFFFF < 2 ^ 32 ∧ 0xFFFFFFFE + [1#8, 0#8].length ≤ 2 ^ 32 :=
  ⟨by decide, by decide, by decide, by decide⟩

theorem witness_ResetValues :
    (0x00000003#32).getLsbD 0 = true ∧ (start []).seq = .idle ∧ 0x4FFC % 4 = 0 ∧ 0x4FFC ≤ 0x4FFC := by decide

theorem witness_ResetAbortsCommand :
    (let s := issued .pack (start [1])
     s.seq = .busy ∧ decode s.cmd = .ok .pack ∧ ∀ r ∈ writeRegions .pack, s.inRegion r 0x3000 = false) ∧
    (issuedWord 0x52 (start [])).seq = .busy ∧ decode (issuedWord 0x52 (start [])).cmd = .error .unknownOpcode :=
  ⟨⟨rfl, by decide, by decide⟩, rfl, by decide⟩

theorem witness_InterruptLevel :
    (∃ t, (irqOn (start [])).irqEn = true ∧ exec .nop (irqOn (start [])) = .next t) ∧
    ∀ op ∈ [HostOp.write 4 0x008 2, .write 4 0x00C 0, .hwReset, .write 4 0x004 0],
      let s := withHost [op] (irqOn (ended (start [])))
      s.Inv ∧ s.serves op ∧ s.irq = true ∧ ∃ t, step s = .next t ∧ t.irq = false := by
  refine ⟨⟨_, rfl, exec_after (by decide +kernel)⟩, fun op hop => ⟨?_, serves_idle rfl, rfl, nextOf _, step_nextOf ?_, ?_⟩⟩
  · exact inv_withHost (inv_irqOn (inv_ended (inv_start (by decide)) rfl rfl))
  · revert op; decide +kernel
  · revert op; decide +kernel

theorem witness_WaitEnds :
    let s := withLag 2 (withHost [.wait] (issued .pack (start [1])))
    s.seq = .busy ∧ s.host = .wait :: [] ∧ ∀ i, decode s.cmd = .ok i →
      s.regionsDisjoint i = true ∧ (usedRegions i).any s.regionHasSideEffects = false := by
  refine ⟨rfl, rfl, fun i hi => ?_⟩
  have : i = .pack := by
    have h : decode (encode .pack) = .ok .pack := by decide
    exact (Except.ok.inj (h.symm.trans hi)).symm
  subst this
  decide +kernel

/-! #### The commands -/

theorem witness_NopCompletes :
    (0x00000100#32).extractLsb' 0 8 = 0#8 ∧ 0x00000100#32 ≠ 0#32 ∧ (0x80000000#32).extractLsb' 0 8 = 0#8 := by decide

theorem witness_PackedBitPositions :
    8 / 8 < (packBits (List.replicate 9 true)).length ∧ 15 / 8 < (packBits (List.replicate 9 true)).length := by decide

/-- The bits 1, 0, 1, 1, 0, 0, 0, 0, 1 of T-41-2. -/
def bits9 : List Bool := [true, false, true, true, false, false, false, false, true]

theorem witness_PackPacksBits :
    (let s := start (unpacked bits9)
     startResult .pack s = .run ∧ Readable s.params s.srcBase.toNat s.srcLen.toNat ∧ s.srcBytes = unpacked bits9 ∧
      Takes s.params s.dstBase.toNat s.dstCap.toNat ((bits9.length + 7) / 8)) ∧
    (let s := start (unpacked bits9 ++ 2 :: [1])
     startResult .pack s = .run ∧ Readable s.params s.srcBase.toNat s.srcLen.toNat ∧
      s.srcBytes = unpacked bits9 ++ 2 :: [1] ∧ 1 < (2 : Byte).toNat ∧
      Takes s.params s.dstBase.toNat s.dstCap.toNat ((bits9.length + 7) / 8)) ∧
    (let s := { start (unpacked bits9) with dstCap := 1 }
     startResult .pack s = .run ∧ Readable s.params s.srcBase.toNat s.srcLen.toNat ∧ s.srcBytes = unpacked bits9 ∧
      1 < (bits9.length + 7) / 8 ∧ Takes s.params s.dstBase.toNat s.dstCap.toNat 1 ∧
      ¬Takes s.params s.dstBase.toNat s.dstCap.toNat (1 + 1)) ∧
    let s := busAt 0x1011 (start (List.replicate 18 1))
    startResult .pack s = .run ∧ FirstBusError s.params s.srcBase.toNat s.srcLen.toNat 17 ∧
      s.srcBytes.take (blockStart s.params 17) = unpacked (List.replicate 16 true) ∧
      Takes s.params s.dstBase.toNat s.dstCap.toNat (((List.replicate 16 true).length + 7) / 8) :=
  ⟨⟨by decide +kernel, readable_ref _ _, srcBytes_start (by decide), takes_ref (by decide)⟩,
    ⟨by decide +kernel, readable_ref _ _, srcBytes_start (by decide), by decide, takes_ref (by decide)⟩,
    ⟨by decide +kernel, readable_ref _ _, by decide +kernel, by decide, takes_ref (by decide), not_takes (by decide)⟩,
    by decide +kernel, firstBusError_of (by decide) rfl, by decide +kernel, takes_of rfl (by decide)⟩

theorem witness_UnpackUnpacksBits :
    (let s := { start [0xFF] with bitcnt := 8 }
     startResult .unpack s = .run ∧ Readable s.params s.srcBase.toNat s.srcLen.toNat ∧
      s.bitcnt.toNat ≤ 8 * s.srcLen.toNat ∧ Takes s.params s.dstBase.toNat s.dstCap.toNat s.bitcnt.toNat) ∧
    (let s := { start [0xFF] with bitcnt := 9 }
     startResult .unpack s = .run ∧ Readable s.params s.srcBase.toNat s.srcLen.toNat ∧
      8 * s.srcLen.toNat < s.bitcnt.toNat ∧ Takes s.params s.dstBase.toNat s.dstCap.toNat (8 * s.srcLen.toNat)) ∧
    (let s := { start [0xFF] with bitcnt := 8, dstCap := 7 }
     startResult .unpack s = .run ∧ Readable s.params s.srcBase.toNat s.srcLen.toNat ∧
      s.bitcnt.toNat ≤ 8 * s.srcLen.toNat ∧ 7 < s.bitcnt.toNat ∧ Takes s.params s.dstBase.toNat s.dstCap.toNat 7 ∧
      ¬Takes s.params s.dstBase.toNat s.dstCap.toNat (7 + 1)) ∧
    let s := busAt 0x1011 { start (List.replicate 18 0xFF) with bitcnt := 129 }
    startResult .unpack s = .run ∧ FirstBusError s.params s.srcBase.toNat s.srcLen.toNat 17 ∧
      8 * blockStart s.params 17 < s.bitcnt.toNat ∧
      Takes s.params s.dstBase.toNat s.dstCap.toNat (8 * blockStart s.params 17) :=
  ⟨⟨by decide +kernel, readable_ref _ _, by decide, takes_ref (by decide)⟩,
    ⟨by decide +kernel, readable_ref _ _, by decide, takes_ref (by decide)⟩,
    ⟨by decide +kernel, readable_ref _ _, by decide, by decide, takes_ref (by decide), not_takes (by decide)⟩,
    by decide +kernel, firstBusError_of (by decide) rfl, by decide, takes_of rfl (by decide)⟩

/-- SRC "abc", with the second byte about to carry TOTAL past its limit (T-42-12). -/
def nearTotal : State := { start [0x61, 0x62, 0x63] with total := 0xFFFFFFFE }

/-- SRC "aa", with the second byte about to carry FREQ past its limit. -/
def nearFreq : State := withFreq [(0x61, 0xFFFFFFFE)] (start [0x61, 0x61])

/-- SRC of 18 bytes with a bus error at its last, the second byte of the second block. -/
def lateBusError : State := busAt 0x1011 (start (List.replicate 18 0x61))

theorem witness_FtCountTallies :
    (let s := start [0x61, 0x61]
     startResult .ftCount s = .run ∧ Readable s.params s.srcBase.toNat s.srcLen.toNat ∧
      (∀ q, (lookup s.freq q).toNat + s.srcBytes.count q < 2 ^ 32) ∧ s.total.toNat + s.srcLen.toNat < 2 ^ 32) ∧
    (startResult .ftCount nearTotal = .run ∧ 1 < nearTotal.srcLen.toNat ∧
      Readable nearTotal.params nearTotal.srcBase.toNat (min nearTotal.srcLen.toNat ((1 / nearTotal.params.brBlock + 1) * nearTotal.params.brBlock)) ∧
      (∀ q, (lookup nearTotal.freq q).toNat + (nearTotal.srcBytes.take 1).count q < 2 ^ 32) ∧
      nearTotal.total.toNat + 1 < 2 ^ 32 ∧ nearTotal.total.toNat + 1 = 2 ^ 32 - 1) ∧
    (startResult .ftCount nearFreq = .run ∧ 1 < nearFreq.srcLen.toNat ∧
      Readable nearFreq.params nearFreq.srcBase.toNat (min nearFreq.srcLen.toNat ((1 / nearFreq.params.brBlock + 1) * nearFreq.params.brBlock)) ∧
      (∀ q, (lookup nearFreq.freq q).toNat + (nearFreq.srcBytes.take 1).count q < 2 ^ 32) ∧
      nearFreq.total.toNat + 1 < 2 ^ 32 ∧
      (lookup nearFreq.freq (nearFreq.mem.read (nearFreq.srcBase.toNat + 1))).toNat +
        (nearFreq.srcBytes.take 1).count (nearFreq.mem.read (nearFreq.srcBase.toNat + 1)) = 2 ^ 32 - 1) ∧
    (startResult .ftCount lateBusError = .run ∧
      FirstBusError lateBusError.params lateBusError.srcBase.toNat lateBusError.srcLen.toNat 17 ∧
      blockStart lateBusError.params 17 = 16 ∧
      (∀ q, (lookup lateBusError.freq q).toNat + (lateBusError.srcBytes.take 16).count q < 2 ^ 32) ∧
      lateBusError.total.toNat + 16 < 2 ^ 32) ∧
    ∃ t, exec .ftCount nearTotal = .next t := by
  have hfin : ∀ (f : FreqTable) (l : List Byte), (∀ k : Fin 256, (lookup f (BitVec.ofFin k)).toNat + l.count (BitVec.ofFin k) < 2 ^ 32) →
      ∀ q : Byte, (lookup f q).toNat + l.count q < 2 ^ 32 := fun f l h q => h q.toFin
  refine ⟨⟨by decide +kernel, readable_ref _ _, hfin _ _ (by decide +kernel), by decide⟩,
    ⟨by decide +kernel, by decide, readable_ref _ _, hfin _ _ (by decide +kernel), by decide, by decide⟩,
    ⟨by decide +kernel, by decide, readable_ref _ _, hfin _ _ (by decide +kernel), by decide, by decide +kernel⟩,
    ⟨by decide +kernel, firstBusError_of (by decide) rfl, by decide, hfin _ _ (by decide +kernel), by decide⟩,
    _, exec_after (by decide +kernel)⟩

theorem witness_TreeBuildMergesGreedily :
    (startResult .treeBuild (withFreq [(0x78, 7)] (start [])) = .run ∧
      presentSyms (withFreq [(0x78, 7)] (start [])).freq = [(0x78, 7)]) ∧
    (startResult .treeBuild (withFreq [(0x00, 3), (0xFF, 5)] (start [])) = .run ∧
      2 ≤ (presentSyms (withFreq [(0x00, 3), (0xFF, 5)] (start [])).freq).length) := by decide +kernel

theorem witness_BuiltTreeShape :
    ((∃ t, buildTree (withFreq [(0x00, 3), (0xFF, 5)] (start [])).freq = some t) ∧
      (presentSyms (withFreq [(0x00, 3), (0xFF, 5)] (start [])).freq).length = 2) ∧
    ((∃ t, buildTree (withFreq [(0x78, 7)] (start [])).freq = some t) ∧
      presentSyms (withFreq [(0x78, 7)] (start [])).freq = [(0x78, 7)]) :=
  ⟨⟨⟨_, Option.eq_some_of_isSome (by decide +kernel)⟩, by decide +kernel⟩,
    ⟨_, Option.eq_some_of_isSome (by decide +kernel)⟩, by decide +kernel⟩

theorem witness_CodesAreFirstPaths : abTree.Ok ∧ (0x62 : Byte) ∈ abTree.syms := ⟨abTree_ok, by decide⟩

theorem witness_CodesArePrefixFree :
    (∃ t, buildTree (withFreq [(0x61, 1)] (start [])).freq = some t) ∧ abTree.Ok ∧ (0x61 : Byte) ≠ 0x62 ∧
    lookup (deriveCodes abTree) 0x61 ≠ [] ∧ lookup (deriveCodes abTree) 0x62 ≠ [] ∧ ([true], 0x62) ∈ abTree.leafPaths :=
  ⟨⟨_, Option.eq_some_of_isSome (by decide +kernel)⟩, abTree_ok, by decide, by decide +kernel, by decide +kernel, by decide⟩

theorem witness_SerializedRecords : 7 < 8 ∧ 0 < 8 := by decide

theorem witness_TreeSerWritesTree :
    (let s := withTree abTree (start [])
     startResult .treeSer s = .run ∧ s.tree = some abTree ∧
      Takes s.params s.dstBase.toNat s.dstCap.toNat (19 * abTree.leaves - 9)) ∧
    let s := { withTree abTree (start []) with dstCap := 28 }
    startResult .treeSer s = .run ∧ s.tree = some abTree ∧ 28 < 19 * abTree.leaves - 9 ∧
      Takes s.params s.dstBase.toNat s.dstCap.toNat 28 ∧ ¬Takes s.params s.dstBase.toNat s.dstCap.toNat (28 + 1) :=
  ⟨⟨by decide +kernel, rfl, takes_ref (by decide)⟩, by decide +kernel, rfl, by decide, takes_ref (by decide),
    not_takes (by decide)⟩

/-- A chain of internal nodes with `n + 1` leaves. -/
def chain : Nat → Machine.Tree
  | 0 => .leaf 0 0 0
  | n + 1 => .node 0 (.leaf 0 0 0) (chain n) 0

theorem leaves_chain (n : Nat) : (chain n).leaves = n + 1 := by
  induction n with
  | zero => rfl
  | succ n ih => simp [chain, Tree.leaves, ih]; omega

/-- A chain of internal nodes, each the `zero` child of the one before, with `n + 1` leaves. -/
def leftChain : Nat → Machine.Tree
  | 0 => .leaf 0 0 0
  | n + 1 => .node 0 (leftChain n) (.leaf 0 0 0) 0

theorem leaves_leftChain (n : Nat) : (leftChain n).leaves = n + 1 := by
  induction n with
  | zero => rfl
  | succ n ih => simp [leftChain, Tree.leaves, ih]

/-- A command whose only region is SRC starts when SRC fits. -/
theorem start_runs_treeDeser {src : List Byte} (h : src.length ≤ 0x10000) : startResult .treeDeser (start src) = .run := by
  have hl : (BitVec.ofNat 32 src.length).toNat = src.length := by simp; omega
  have hr : usedRegions .treeDeser = [.src] := by decide
  have h1 : (start src).regionSize .src = src.length := hl
  have h0 : (start src).regionBase .src = 0x1000 := rfl
  have hv : (start src).regionValid .src = true := by
    unfold State.regionValid; rw [h0, h1]; simp [Config.addrSpace]; omega
  have hc : startCheck .treeDeser (start src) = none := by
    unfold startCheck; rw [hr]; simp [hv, precondition]
  have hd : (start src).regionsDisjoint .treeDeser = true := by
    unfold State.regionsDisjoint; simp [show usesRegion .treeDeser .dst = false by decide, show usesRegion .treeDeser .tmp = false by decide]
  have hs : (start src).regionHasSideEffects .src = false := rfl
  unfold startResult
  rw [hc, hd, hr]
  simp [hs]

theorem length_tx : tx.length = 29 := rfl

theorem serTree_xTree : serTree xTree = tx := by decide

theorem witness_TreeDeserInstallsTree :
    (let s := start (tx ++ [0x0A])
     startResult .treeDeser s = .run ∧ Readable s.params s.srcBase.toNat s.srcLen.toNat ∧ xTree.isNode = true ∧
      xTree.leaves ≤ 256 ∧ s.srcBytes = serTree xTree ++ [0x0A]) ∧
    (let s := start (serTree (chain 255))
     startResult .treeDeser s = .run ∧ Readable s.params s.srcBase.toNat s.srcLen.toNat ∧ (chain 255).isNode = true ∧
      (chain 255).leaves ≤ 256 ∧ s.srcBytes = serTree (chain 255) ++ []) ∧
    (let s := start []
     startResult .treeDeser s = .run ∧ Readable s.params s.srcBase.toNat s.srcLen.toNat ∧
      ∀ (t : Machine.Tree) (rest : List Byte), t.isNode = true → t.leaves ≤ 256 → s.srcBytes ≠ serTree t ++ rest) ∧
    (let s := busAt 0x1021 (start (tx ++ List.replicate 5 0))
     startResult .treeDeser s = .run ∧ FirstBusError s.params s.srcBase.toNat s.srcLen.toNat 33 ∧ xTree.isNode = true ∧
      xTree.leaves ≤ 256 ∧ s.srcBytes.take (blockStart s.params 33) = serTree xTree ++ List.replicate 3 0) ∧
    let s := busAt 0x101C (start tx)
    startResult .treeDeser s = .run ∧ FirstBusError s.params s.srcBase.toNat s.srcLen.toNat 28 ∧ xTree.isNode = true ∧
      xTree.CutShort 511 (s.srcBytes.take (blockStart s.params 28)) := by
  have hc : (serTree (chain 255)).length ≤ 0x10000 := by have h := (chain 255).length_serTree; rw [leaves_chain] at h; omega
  refine ⟨⟨start_runs_treeDeser (by decide), readable_ref _ _, rfl, by decide, ?_⟩,
    ⟨start_runs_treeDeser hc, readable_ref _ _, rfl, by rw [leaves_chain], ?_⟩,
    ⟨start_runs_treeDeser (by decide), readable_ref _ _, fun t rest _ _ h => ?_⟩,
    ⟨by decide +kernel, firstBusError_of (by decide) rfl, rfl, by decide, by decide +kernel⟩,
    by decide +kernel, firstBusError_of (by decide) rfl, rfl, by decide +kernel, by decide +kernel, by decide⟩
  · rw [srcBytes_start (by decide), serTree_xTree]
  · rw [srcBytes_start hc, List.append_nil]
  · have := congrArg List.length h
    rw [srcBytes_start (by decide)] at this
    cases t <;> simp [serTree] at this

/-- SRC that ends just before the record of a 512th node, or goes on with these bytes (T-43-7). -/
def fullSource (rest : List Byte) : List Byte :=
  (serTree (leftChain 511)).take ((leftChain 511).recordOffset 511) ++ rest

theorem length_fullSource {rest : List Byte} (h : rest.length ≤ 1) : (fullSource rest).length ≤ 0x10000 := by
  have h1 := (leftChain 511).length_serTree
  rw [leaves_leftChain] at h1
  simp only [fullSource, List.length_append, List.length_take]
  omega

/-- A last byte short of the largest tree, of 511 nodes. -/
def almostFull : List Byte := (serTree (chain 255)).take ((serTree (chain 255)).length - 1)

theorem witness_TreeDeserLocatesError :
    (let s := start (tx.take 20)
     startResult .treeDeser s = .run ∧ Readable s.params s.srcBase.toNat s.srcLen.toNat ∧ xTree.isNode = true ∧
      xTree.CutShort 511 s.srcBytes) ∧
    (startResult .treeDeser (start almostFull) = .run ∧ (chain 255).isNode = true ∧ (chain 255).size ≤ 511 ∧
      (chain 255).CutShort 511 (start almostFull).srcBytes) ∧
    (startResult .treeDeser (start (fullSource [])) = .run ∧ (leftChain 511).isNode = true ∧ 511 < (leftChain 511).size ∧
      (leftChain 511).CutShort 511 (start (fullSource [])).srcBytes) ∧
    (let s := start (tx.take 9 ++ 0x41 :: [])
     startResult .treeDeser s = .run ∧ xTree.isNode = true ∧ 1 < xTree.size ∧ 1 ≤ 510 ∧ (0x41 : Byte) ≠ 0x4C ∧
      (0x41 : Byte) ≠ 0x4E ∧ s.srcBytes = (serTree xTree).take (xTree.recordOffset 1) ++ 0x41 :: []) ∧
    (startResult .treeDeser (start [0x4C]) = .run ∧ (start [0x4C]).srcBytes = 0x4C :: []) ∧
    ∀ v ∈ ([0x4E, 0x4C, 0x41] : List Byte), startResult .treeDeser (start (fullSource [v])) = .run ∧
      511 < (leftChain 511).size ∧ (start (fullSource [v])).srcBytes =
        (serTree (leftChain 511)).take ((leftChain 511).recordOffset 511) ++ v :: [] := by
  have hlc := (chain 255).length_serTree
  rw [leaves_chain] at hlc
  have hn : (chain 255).size = 511 := by have := (chain 255).size_eq; rw [leaves_chain] at this; omega
  have ha : almostFull.length ≤ 0x10000 := by simp only [almostFull, List.length_take]; omega
  have hs : 511 < (leftChain 511).size := by have := (leftChain 511).size_eq; rw [leaves_leftChain] at this; omega
  have hf := fun v : Byte => length_fullSource (rest := [v]) (Nat.le_refl 1)
  have h0 := length_fullSource (rest := []) (by decide)
  refine ⟨⟨start_runs_treeDeser (by decide), readable_ref _ _, rfl, ?_⟩,
    ⟨start_runs_treeDeser ha, rfl, by omega, ?_⟩, ⟨start_runs_treeDeser h0, rfl, hs, ?_⟩,
    ⟨start_runs_treeDeser (by decide), rfl, by decide, by decide, by decide, by decide, ?_⟩,
    ⟨start_runs_treeDeser (by decide), srcBytes_start (by decide)⟩,
    fun v _ => ⟨start_runs_treeDeser (hf v), hs, srcBytes_start (hf v)⟩⟩
  · rw [srcBytes_start (by decide)]
    exact ⟨by decide, by decide, by decide⟩
  · rw [srcBytes_start ha]
    exact ⟨List.take_prefix _ _, fun _ => by simp only [almostFull, List.length_take]; omega, fun h => by omega⟩
  · rw [srcBytes_start h0, fullSource, List.append_nil]
    exact ⟨List.take_prefix _ _, fun h => by omega, fun _ => by rw [List.length_take]; exact Nat.min_le_left _ _⟩
  · rw [srcBytes_start (by decide), serTree_xTree]; rfl

/-- A state whose SRC is what the command of `s` left in DST, and whose DST is elsewhere. -/
def fromDst (t : State) : State := { t with srcBase := t.dstBase, srcLen := t.outLen, dstBase := 0x4000 }

theorem witness_FramerRoundTrip :
    let s := withTree abTree (start [])
    let t := after .treeSer s
    let u := fromDst t
    s.Inv ∧ s.err = false ∧ s.tree = some abTree ∧ exec .treeSer s = .next t ∧ t.err = false ∧ u.params = s.params ∧
      u.mem = t.mem ∧ u.srcBase = s.dstBase ∧ u.srcLen = t.outLen ∧ startResult .treeDeser u = .run ∧
      Readable u.params u.srcBase.toNat u.srcLen.toNat :=
  ⟨inv_withTree (inv_start (by decide)) abTree_ok, rfl, rfl, exec_after (by decide +kernel), by decide +kernel,
    by decide +kernel, rfl, by decide +kernel, rfl, by decide +kernel,
    by rw [show (fromDst (after .treeSer (withTree abTree (start [])))).params = Params.reference by decide +kernel]; exact readable_ref _ _⟩

theorem witness_DecimalCount : 2 ^ 64 - 1 < 2 ^ 64 ∧ 0 < 2 ^ 64 - 1 ∧ 0x31 ∈ dec 10 := by decide

theorem witness_EncRawEmitsCodes :
    (let s := withTree abTree (start [0x61, 0x62])
     startResult .encRaw s = .run ∧ Readable s.params s.srcBase.toNat s.srcLen.toNat ∧
      (∀ v ∈ s.srcBytes, lookup s.codes v ≠ []) ∧
      Takes s.params s.dstBase.toNat s.dstCap.toNat (((encodeBits s.codes s.srcBytes).length + 7) / 8)) ∧
    (let s := withTree abTree (start [0x61, 0x62, 0x7A])
     startResult .encRaw s = .run ∧ Readable s.params s.srcBase.toNat s.srcLen.toNat ∧ 2 < s.srcLen.toNat ∧
      (∀ v ∈ s.srcBytes.take 2, lookup s.codes v ≠ []) ∧ lookup s.codes (s.mem.read (s.srcBase.toNat + 2)) = [] ∧
      Takes s.params s.dstBase.toNat s.dstCap.toNat (((encodeBits s.codes (s.srcBytes.take 2)).length + 7) / 8)) ∧
    (let s := { withTree abTree (start [0x61, 0x62]) with dstCap := 0 }
     startResult .encRaw s = .run ∧ Readable s.params s.srcBase.toNat s.srcLen.toNat ∧
      (∀ v ∈ s.srcBytes, lookup s.codes v ≠ []) ∧ 0 < ((encodeBits s.codes s.srcBytes).length + 7) / 8 ∧
      Takes s.params s.dstBase.toNat s.dstCap.toNat 0 ∧ ¬Takes s.params s.dstBase.toNat s.dstCap.toNat (0 + 1)) ∧
    let s := { withTree abTree lateBusError with dstCap := 2 }
    startResult .encRaw s = .run ∧ FirstBusError s.params s.srcBase.toNat s.srcLen.toNat 17 ∧
      (∀ v ∈ s.srcBytes.take (blockStart s.params 17), lookup s.codes v ≠ []) ∧
      Takes s.params s.dstBase.toNat s.dstCap.toNat
        (((encodeBits s.codes (s.srcBytes.take (blockStart s.params 17))).length + 7) / 8) :=
  ⟨⟨by decide +kernel, readable_ref _ _, by decide +kernel, takes_ref (by decide +kernel)⟩,
    ⟨by decide +kernel, readable_ref _ _, by decide, by decide +kernel, by decide +kernel, takes_ref (by decide +kernel)⟩,
    ⟨by decide +kernel, readable_ref _ _, by decide +kernel, by decide +kernel, takes_ref (by decide), not_takes (by decide)⟩,
    by decide +kernel, firstBusError_of (by decide) rfl, by decide +kernel, takes_of rfl (by decide +kernel)⟩

/-- T-44-2 with some bit count. -/
def decRawStart (n : Dword) : State := { withTree abracadabraTree (start [0x6E, 0x8A, 0xDC]) with bitcnt := n }

theorem witness_DecRawWalksTree :
    let bits := fun n => (bitsOfBytes (decRawStart n).srcBytes).take (decRawStart n).bitcnt.toNat
    (∀ n, (decRawStart n).tree = some abracadabraTree ∧
      Readable (decRawStart n).params (decRawStart n).srcBase.toNat (decRawStart n).srcLen.toNat) ∧
    (startResult .decRaw (decRawStart 24) = .run ∧ (decRawStart 24).bitcnt.toNat ≤ 8 * (decRawStart 24).srcLen.toNat ∧
      Tree.decodeFrom abracadabraTree .atRoot (bits 24) = some (abracadabra ++ [0x61]) ∧
      Takes (decRawStart 24).params (decRawStart 24).dstBase.toNat (decRawStart 24).dstCap.toNat
        (abracadabra ++ [0x61]).length) ∧
    (startResult .decRaw (decRawStart 3) = .run ∧ (decRawStart 3).bitcnt.toNat ≤ 8 * (decRawStart 3).srcLen.toNat ∧
      Tree.decodeFrom abracadabraTree .atRoot (bits 3) = none ∧
      Takes (decRawStart 3).params (decRawStart 3).dstBase.toNat (decRawStart 3).dstCap.toNat
        (Tree.emitted abracadabraTree .atRoot (bits 3)).length) ∧
    (let s := { decRawStart 24 with dstCap := 11 }
     startResult .decRaw s = .run ∧ s.bitcnt.toNat ≤ 8 * s.srcLen.toNat ∧
      Tree.decodeFrom abracadabraTree .atRoot ((bitsOfBytes s.srcBytes).take s.bitcnt.toNat) = some (abracadabra ++ [0x61]) ∧
      11 < (abracadabra ++ [0x61]).length ∧ Takes s.params s.dstBase.toNat s.dstCap.toNat 11 ∧
      ¬Takes s.params s.dstBase.toNat s.dstCap.toNat (11 + 1)) ∧
    (let s := { withTree abTree lateBusError with bitcnt := 129 }
     startResult .decRaw s = .run ∧ FirstBusError s.params s.srcBase.toNat s.srcLen.toNat 17 ∧
      8 * blockStart s.params 17 < s.bitcnt.toNat ∧
      Takes s.params s.dstBase.toNat s.dstCap.toNat
        (Tree.emitted abTree .atRoot (bitsOfBytes (s.srcBytes.take (blockStart s.params 17)))).length) ∧
    (startResult .decRaw (decRawStart 25) = .run ∧ 8 * (decRawStart 25).srcLen.toNat < (decRawStart 25).bitcnt.toNat ∧
      Takes (decRawStart 25).params (decRawStart 25).dstBase.toNat (decRawStart 25).dstCap.toNat
        (Tree.emitted abracadabraTree .atRoot (bits 25)).length) :=
  ⟨fun _ => ⟨rfl, readable_ref _ _⟩, ⟨by decide +kernel, by decide, by decide +kernel, takes_ref (by decide)⟩,
    ⟨by decide +kernel, by decide, by decide +kernel, takes_ref (by decide +kernel)⟩,
    ⟨by decide +kernel, by decide, by decide +kernel, by decide, takes_ref (by decide), not_takes (by decide)⟩,
    ⟨by decide +kernel, firstBusError_of (by decide) rfl, by decide, takes_of rfl (by decide +kernel)⟩,
    by decide +kernel, by decide, takes_ref (by decide +kernel)⟩

theorem witness_CodecInverseLaw :
    let s := withTree abTree (start [0x61, 0x62])
    let t := after .encRaw s
    let u := fromDst t
    s.Inv ∧ s.err = false ∧ exec .encRaw s = .next t ∧ t.err = false ∧ u.params = s.params ∧ u.mem = t.mem ∧
      u.tree = s.tree ∧ u.srcBase = s.dstBase ∧ u.srcLen = t.outLen ∧ u.bitcnt = t.bitcnt ∧
      startResult .decRaw u = .run ∧ Readable u.params u.srcBase.toNat u.srcLen.toNat ∧
      Takes u.params u.dstBase.toNat u.dstCap.toNat s.srcLen.toNat := by
  have hp : (fromDst (after .encRaw (withTree abTree (start [0x61, 0x62])))).params = Params.reference := by decide +kernel
  refine ⟨inv_withTree (inv_start (by decide)) abTree_ok, rfl, exec_after (by decide +kernel), by decide +kernel, hp, rfl,
    by decide +kernel, by decide +kernel, rfl, rfl, by decide +kernel, ?_, ?_⟩
  · rw [hp]; exact readable_ref _ _
  · rw [hp]; exact takes_ref (by decide +kernel)

/-- The tree TREE_BUILD makes of the counters of a state. -/
def built (f : FreqTable) : Machine.Tree := (buildTree f).getD abTree

theorem counts_of_fin {f : FreqTable} {l : List Byte}
    (h : ∀ k : Fin 256, (lookup f (BitVec.ofFin k)).toNat = l.count (BitVec.ofFin k)) (q : Byte) :
    (lookup f q).toNat = l.count q := h q.toFin

theorem witness_EncodeWritesArtifact :
    ∀ pre : Bool,
      let s := withFreq [(0x61, 1), (0x62, 1)] (start [0x61, 0x62])
      let bits := encodeBits (deriveCodes (built s.freq)) s.srcBytes
      startResult (.encode pre) s = .run ∧ s.mem.wf = true ∧ s.srcLen ≠ 0 ∧
        Readable s.params s.srcBase.toNat s.srcLen.toNat ∧
        (pre = false → ∀ q, (lookup s.freq q).toNat = s.srcBytes.count q) ∧
        (pre = true → s.freq = s.freq ∧ ∀ v ∈ s.srcBytes, lookup s.freq v ≠ 0) ∧
        buildTree s.freq = some (built s.freq) ∧
        Takes s.params s.tmpBase.toNat s.tmpCap.toNat ((bits.length + 7) / 8) ∧
        Readable s.params s.tmpBase.toNat ((bits.length + 7) / 8) ∧
        Takes s.params s.dstBase.toNat s.dstCap.toNat
          (19 * (built s.freq).leaves - 9 + 1 + (dec bits.length).length + 1 + (bits.length + 7) / 8) := by
  intro pre
  refine ⟨by cases pre <;> decide +kernel, by decide +kernel, by decide, readable_ref _ _, fun _ => counts_of_fin (by decide +kernel),
    fun _ => ⟨rfl, by decide +kernel⟩, by decide +kernel, takes_ref (by decide +kernel), readable_ref _ _,
    takes_ref (by decide +kernel)⟩

theorem witness_EncodeOfNothing :
    (∀ pre : Bool, startResult (.encode pre) (start []) = .run ∧ (start []).srcLen = 0) ∧
    startResult (.encode true) (start [1]) = .run ∧ (start [1]).srcLen ≠ 0 ∧ ∀ q, lookup (start [1]).freq q = 0 :=
  ⟨by decide +kernel, by decide +kernel, by decide, fun q => lookup_replicate _ _⟩

/-- SRC and the counters of T-45-9's tree, with DST and TMP of given sizes. -/
def encodeStart (src : List Byte) (dstCap tmpCap : Word) : State :=
  { withFreq [(0x61, 1), (0x62, 1)] (start src) with dstCap := dstCap, tmpCap := tmpCap }

/-- SRC of nine equal bytes, whose payload is two bytes, with a bus error at the second byte of TMP and blocks of
one byte. -/
def tmpBusError : State := busAt 0x8001 (blocksOf 0 { withFreq [(0x61, 9)] (start (List.replicate 9 0x61)) with dstCap := 33 })

theorem witness_EncodeStops_fetch :
    (∀ pre : Bool,
      let s := tmpBusError
      let bits := encodeBits (deriveCodes (built s.freq)) s.srcBytes
      startResult (.encode pre) s = .run ∧ s.mem.wf = true ∧ s.srcLen ≠ 0 ∧
        Readable s.params s.srcBase.toNat s.srcLen.toNat ∧
        (pre = false → ∀ q, (lookup s.freq q).toNat = s.srcBytes.count q) ∧ (pre = true → s.freq = s.freq) ∧
        buildTree s.freq = some (built s.freq) ∧ (∀ v ∈ s.srcBytes, lookup s.freq v ≠ 0) ∧
        Takes s.params s.tmpBase.toNat s.tmpCap.toNat ((bits.length + 7) / 8) ∧
        FirstBusError s.params s.tmpBase.toNat ((bits.length + 7) / 8) 1 ∧
        Takes s.params s.dstBase.toNat s.dstCap.toNat
          (headerBytes (built s.freq) bits.length ++ (packBits bits).take (blockStart s.params 1)).length) ∧
    (startResult (.encode false) lateBusError = .run ∧
      FirstBusError lateBusError.params lateBusError.srcBase.toNat lateBusError.srcLen.toNat 17) ∧
    let s := { withFreq [(0x61, 1)] lateBusError with tmpCap := 2 }
    startResult (.encode true) s = .run ∧ FirstBusError s.params s.srcBase.toNat s.srcLen.toNat 17 ∧
      buildTree s.freq = some (built s.freq) ∧
      (∀ v ∈ s.srcBytes.take (blockStart s.params 17), lookup s.freq v ≠ 0) ∧
      Takes s.params s.tmpBase.toNat s.tmpCap.toNat
        (((encodeBits (deriveCodes (built s.freq)) (s.srcBytes.take (blockStart s.params 17))).length + 7) / 8) := by
  refine ⟨fun pre => ⟨by cases pre <;> decide +kernel, by decide +kernel, by decide, ?_, fun _ => counts_of_fin (by decide +kernel),
      fun _ => rfl, by decide +kernel, by decide +kernel, takes_of rfl (by decide +kernel),
      firstBusError_of (by decide +kernel) rfl, takes_of rfl (by decide +kernel)⟩,
    ⟨by decide +kernel, firstBusError_of (by decide) rfl⟩,
    by decide +kernel, firstBusError_of (by decide) rfl, by decide +kernel, by decide +kernel,
    takes_of rfl (by decide +kernel)⟩
  unfold Readable
  decide +kernel

theorem witness_EncodeStops :
    (∀ pre : Bool,
      let s := encodeStart [0x61, 0x62] 0x1000 0
      let bits := encodeBits (deriveCodes (built s.freq)) s.srcBytes
      startResult (.encode pre) s = .run ∧ s.mem.wf = true ∧ s.srcLen ≠ 0 ∧
        Readable s.params s.srcBase.toNat s.srcLen.toNat ∧
        (pre = false → ∀ q, (lookup s.freq q).toNat = s.srcBytes.count q) ∧ (pre = true → s.freq = s.freq) ∧
        buildTree s.freq = some (built s.freq) ∧ (∀ v ∈ s.srcBytes, lookup s.freq v ≠ 0) ∧ 0 < (bits.length + 7) / 8 ∧
        Takes s.params s.tmpBase.toNat s.tmpCap.toNat 0 ∧ ¬Takes s.params s.tmpBase.toNat s.tmpCap.toNat (0 + 1)) ∧
    (∀ pre : Bool,
      let s := encodeStart [0x61, 0x62] 32 1
      let bits := encodeBits (deriveCodes (built s.freq)) s.srcBytes
      startResult (.encode pre) s = .run ∧ s.mem.wf = true ∧ s.srcLen ≠ 0 ∧
        Readable s.params s.srcBase.toNat s.srcLen.toNat ∧
        (pre = false → ∀ q, (lookup s.freq q).toNat = s.srcBytes.count q) ∧ (pre = true → s.freq = s.freq) ∧
        buildTree s.freq = some (built s.freq) ∧ (∀ v ∈ s.srcBytes, lookup s.freq v ≠ 0) ∧
        Takes s.params s.tmpBase.toNat s.tmpCap.toNat ((bits.length + 7) / 8) ∧
        Readable s.params s.tmpBase.toNat ((bits.length + 7) / 8) ∧ 32 < (artifact (built s.freq) bits).length ∧
        Takes s.params s.dstBase.toNat s.dstCap.toNat 32 ∧ ¬Takes s.params s.dstBase.toNat s.dstCap.toNat (32 + 1)) ∧
    let s := encodeStart [0x61, 0x62, 0x7A] 0x1000 0x1000
    let bits := encodeBits (deriveCodes (built s.freq)) (s.srcBytes.take 2)
    startResult (.encode true) s = .run ∧ s.mem.wf = true ∧ s.srcLen ≠ 0 ∧
      Readable s.params s.srcBase.toNat s.srcLen.toNat ∧ buildTree s.freq = some (built s.freq) ∧ 2 < s.srcLen.toNat ∧
      (∀ v ∈ s.srcBytes.take 2, lookup s.freq v ≠ 0) ∧ lookup s.freq (s.mem.read (s.srcBase.toNat + 2)) = 0 ∧
      Takes s.params s.tmpBase.toNat s.tmpCap.toNat ((bits.length + 7) / 8) :=
  ⟨fun pre => ⟨by cases pre <;> decide +kernel, by decide +kernel, by decide, readable_ref _ _,
      fun _ => counts_of_fin (by decide +kernel), fun _ => rfl, by decide +kernel, by decide +kernel, by decide +kernel,
      takes_ref (by decide), not_takes (by decide)⟩,
    fun pre => ⟨by cases pre <;> decide +kernel, by decide +kernel, by decide, readable_ref _ _,
      fun _ => counts_of_fin (by decide +kernel), fun _ => rfl, by decide +kernel, by decide +kernel,
      takes_ref (by decide +kernel), readable_ref _ _, by decide +kernel, takes_ref (by decide), not_takes (by decide)⟩,
    by decide +kernel, by decide +kernel, by decide, readable_ref _ _, by decide +kernel, by decide, by decide +kernel,
    by decide +kernel, takes_ref (by decide +kernel)⟩

theorem witness_DecodeExpandsArtifact :
    (let s := start (tx ++ [0x0A, 0x30, 0x38, 0x0A, 0x00])
     startResult .decode s = .run ∧ Readable s.params s.srcBase.toNat s.srcLen.toNat ∧ xTree.isNode = true ∧
      xTree.leaves ≤ 256 ∧ s.srcBytes = serTree xTree ++ [0x0A#8] ++ [0x30, 0x38] ++ [0x0A#8] ++ [0x00] ∧
      (∀ v ∈ ([0x30, 0x38] : List Byte), 0x30 ≤ v.toNat ∧ v.toNat ≤ 0x39) ∧ ([0x30, 0x38] : List Byte) ≠ [] ∧
      decimalValue [0x30, 0x38] < 2 ^ 64 ∧ decimalValue [0x30, 0x38] ≤ 8 * ([0x00] : List Byte).length ∧
      Tree.decodeFrom xTree .atRoot ((bitsOfBytes [0x00]).take (decimalValue [0x30, 0x38])) = some (List.replicate 8 0x78) ∧
      Takes s.params s.dstBase.toNat s.dstCap.toNat (List.replicate 8 (0x78 : Byte)).length ∧
      7 < (List.replicate 8 (0x78 : Byte)).length) ∧
    (let s := { start (tx ++ [0x0A, 0x30, 0x38, 0x0A, 0x00]) with dstCap := 7 }
     startResult .decode s = .run ∧ s.srcBytes = serTree xTree ++ [0x0A#8] ++ [0x30, 0x38] ++ [0x0A#8] ++ [0x00] ∧
      Takes s.params s.dstBase.toNat s.dstCap.toNat 7 ∧ ¬Takes s.params s.dstBase.toNat s.dstCap.toNat (7 + 1)) ∧
    startResult .decode (start []) = .run ∧ (start []).srcLen = 0 :=
  ⟨⟨by decide +kernel, readable_ref _ _, rfl, by decide, by decide +kernel, by decide, by decide, by decide, by decide,
    by decide, takes_ref (by decide), by decide⟩,
    ⟨by decide +kernel, by decide +kernel, takes_ref (by decide), not_takes (by decide)⟩, by decide +kernel, rfl⟩

theorem witness_DecodeAcceptsOnlyArtifacts :
    let s := start (tx ++ [0x0A, 0x31, 0x0A, 0x00])
    startResult .decode s = .run ∧ Readable s.params s.srcBase.toNat s.srcLen.toNat ∧ s.srcLen ≠ 0 ∧ s.err = false ∧
      ∃ t, exec .decode s = .next t ∧ t.err = false :=
  ⟨by decide +kernel, readable_ref _ _, by decide, rfl, _, exec_after (by decide +kernel), by decide +kernel⟩

/-- T-43-14 to T-43-21: the "x" tree and what follows it. -/
def decodeStart (rest : List Byte) : State := start (tx ++ rest)

theorem witness_DecodeStops_fetch :
    (let s := busAt 0x101C (start tx)
     startResult .decode s = .run ∧ FirstBusError s.params s.srcBase.toNat s.srcLen.toNat 28 ∧ xTree.isNode = true ∧
      xTree.CutShort 511 (s.srcBytes.take (blockStart s.params 28))) ∧
    (let s := busAt 0x101D (blocksOf 28 (decodeStart [0x0A]))
     startResult .decode s = .run ∧ FirstBusError s.params s.srcBase.toNat s.srcLen.toNat 29 ∧ xTree.leaves ≤ 256 ∧
      s.srcBytes.take (blockStart s.params 29) = serTree xTree ++ []) ∧
    (let s := busAt 0x1021 (decodeStart [0x0A, 0x31, 0x32, 0x0A, 0x00])
     startResult .decode s = .run ∧ FirstBusError s.params s.srcBase.toNat s.srcLen.toNat 33 ∧
      s.srcBytes.take (blockStart s.params 33) = serTree xTree ++ 0x0A :: [0x31, 0x32] ∧
      (∀ v ∈ ([0x31, 0x32] : List Byte), isDigit v = true) ∧ decimalValue [0x31, 0x32] < 2 ^ 64) ∧
    let s := busAt 0x1021 (blocksOf 32 (decodeStart [0x0A, 0x39, 0x0A, 0x00, 0x00]))
    startResult .decode s = .run ∧ FirstBusError s.params s.srcBase.toNat s.srcLen.toNat 33 ∧
      s.srcBytes.take (blockStart s.params 33) = serTree xTree ++ ([0x0A] ++ [0x39] ++ [0x0A] ++ [0x00]) ∧
      (∀ v ∈ ([0x39] : List Byte), isDigit v = true) ∧ decimalValue [0x39] < 2 ^ 64 ∧
      8 * ([0x00] : List Byte).length < decimalValue [0x39] ∧
      Takes s.params s.dstBase.toNat s.dstCap.toNat (Tree.emitted xTree .atRoot (bitsOfBytes [0x00])).length :=
  ⟨⟨by decide +kernel, firstBusError_of (by decide) rfl, rfl, by decide +kernel, by decide +kernel, by decide⟩,
    ⟨by decide +kernel, firstBusError_of (by decide) rfl, by decide, by decide +kernel⟩,
    ⟨by decide +kernel, firstBusError_of (by decide) rfl, by decide +kernel, by decide, by decide⟩,
    by decide +kernel, firstBusError_of (by decide) rfl, by decide +kernel, by decide, by decide, by decide,
    takes_of rfl (by decide +kernel)⟩

theorem witness_DecodeStops :
    (let s := start [0x4E]
     startResult .decode s = .run ∧ Readable s.params s.srcBase.toNat s.srcLen.toNat ∧ s.srcLen ≠ 0 ∧
      ∀ (t : Machine.Tree) (rest : List Byte), t.isNode = true → t.leaves ≤ 256 → s.srcBytes ≠ serTree t ++ rest) ∧
    (∀ rest ∈ ([[], [0x31], [0x0A], [0x0A, 0x31], [0x0A, 0x0A], [0x0A, 0x31, 0x61],
          [0x0A, 0x31, 0x38, 0x34, 0x34, 0x36, 0x37, 0x34, 0x34, 0x30, 0x37, 0x33, 0x37, 0x30, 0x39, 0x35, 0x35, 0x31, 0x36, 0x31, 0x36],
          [0x0A, 0x39, 0x0A, 0x00]] : List (List Byte)),
      startResult .decode (decodeStart rest) = .run ∧
        Readable (decodeStart rest).params (decodeStart rest).srcBase.toNat (decodeStart rest).srcLen.toNat ∧
        (decodeStart rest).srcLen ≠ 0 ∧ xTree.isNode = true ∧ xTree.leaves ≤ 256 ∧
        (decodeStart rest).srcBytes = serTree xTree ++ rest) ∧
    (decimalValue [0x31, 0x38, 0x34, 0x34, 0x36, 0x37, 0x34, 0x34, 0x30, 0x37, 0x33, 0x37, 0x30, 0x39, 0x35, 0x35, 0x31, 0x36, 0x31] < 2 ^ 64 ∧
      isDigit 0x36 = true ∧
      2 ^ 64 ≤ decimalValue ([0x31, 0x38, 0x34, 0x34, 0x36, 0x37, 0x34, 0x34, 0x30, 0x37, 0x33, 0x37, 0x30, 0x39, 0x35, 0x35, 0x31, 0x36, 0x31] ++ [0x36])) ∧
    ((∀ v ∈ ([0x39] : List Byte), isDigit v = true) ∧ isDigit 0x0A = false ∧ isDigit 0x61 = false ∧
      decimalValue [0x39] < 2 ^ 64 ∧ 8 * ([0x00] : List Byte).length < decimalValue [0x39] ∧
      Takes (decodeStart [0x0A, 0x39, 0x0A, 0x00]).params (decodeStart [0x0A, 0x39, 0x0A, 0x00]).dstBase.toNat
        (decodeStart [0x0A, 0x39, 0x0A, 0x00]).dstCap.toNat
        (Tree.emitted xTree .atRoot ((bitsOfBytes [0x00]).take (decimalValue [0x39]))).length) ∧
    let s := start (serTree abracadabraTree ++ [0x0A, 0x32, 0x0A, 0xFF])
    startResult .decode s = .run ∧ s.srcBytes = serTree abracadabraTree ++ [0x0A, 0x32, 0x0A, 0xFF] ∧
      decimalValue [0x32] ≤ 8 * ([0xFF] : List Byte).length ∧
      Tree.decodeFrom abracadabraTree .atRoot ((bitsOfBytes [0xFF]).take (decimalValue [0x32])) = none := by
  refine ⟨⟨by decide +kernel, readable_ref _ _, by decide, fun t rest hn hl h => ?_⟩, fun rest hr => ⟨?_, readable_ref _ _, ?_, rfl, by decide, ?_⟩,
    by decide, ⟨by decide, by decide, by decide, by decide, by decide, takes_ref (by decide)⟩,
    by decide +kernel, srcBytes_start (by decide), by decide, by decide⟩
  · have h1 := congrArg List.length h
    rw [srcBytes_start (by decide), List.length_append] at h1
    have h2 := t.length_serTree
    have : 1 ≤ t.leaves := t.leaves_pos
    simp at h1
    omega
  · revert rest; decide +kernel
  · revert rest; decide +kernel
  · rw [serTree_xTree]
    have : (tx ++ rest).length ≤ 0x10000 := by revert rest; decide
    exact srcBytes_start this

theorem witness_PipelineRoundTrip :
    let s := start [0x78]
    let t := after (.encode false) s
    let u := fromDst t
    s.Inv ∧ s.err = false ∧ exec (.encode false) s = .next t ∧ t.err = false ∧ u.params = s.params ∧ u.mem = t.mem ∧
      u.srcBase = s.dstBase ∧ u.srcLen = t.outLen ∧ startResult .decode u = .run ∧
      Readable u.params u.srcBase.toNat u.srcLen.toNat ∧ Takes u.params u.dstBase.toNat u.dstCap.toNat s.srcLen.toNat := by
  have hp : (fromDst (after (.encode false) (start [0x78]))).params = Params.reference := by decide +kernel
  refine ⟨inv_start (by decide), rfl, exec_after (by decide +kernel), by decide +kernel, hp, rfl, by decide +kernel, rfl,
    by decide +kernel, ?_, ?_⟩
  · rw [hp]; exact readable_ref _ _
  · rw [hp]; exact takes_ref (by decide +kernel)

/-- SRC at another place, and other buffer sizes. -/
def elsewhere (src : List Byte) : State :=
  { start src with params := { Params.reference with bwCapPred := 0, brBlockPred := 65534 }, srcBase := 0x6000, mem := Memory.writeBytes [] 0x6000 src }

theorem witness_EncodeDeterminism :
    ∀ pre : Bool,
      let s := withFreq [(0x78, 1)] (start [0x78])
      let s' := withFreq [(0x78, 1)] (elsewhere [0x78])
      s.Inv ∧ s'.Inv ∧ s.err = false ∧ s'.err = false ∧ s.srcBytes = s'.srcBytes ∧ (pre = true → s.freq = s'.freq) ∧
        ∃ t t', exec (.encode pre) s = .next t ∧ exec (.encode pre) s' = .next t' ∧ t.err = false ∧ t'.err = false := by
  intro pre
  have h := inv_start (src := [0x78]) (by decide)
  refine ⟨inv_withFreq h, inv_withFreq ⟨by decide, h.notBoth, h.whileBusy, h.noRecord, h.record, h.tree, h.noTree⟩, rfl, rfl,
    by decide +kernel, fun _ => rfl, _, _, exec_after ?_, exec_after ?_, ?_, ?_⟩ <;> cases pre <;> decide +kernel

theorem witness_StepKeepsInvariant :
    (∃ t, (issued (.encode false) (start [0x78])).Inv ∧ step (issued (.encode false) (start [0x78])) = .next t) ∧
    ∃ t, (withHost [.write 4 0x00C 0] (start [])).Inv ∧ step (withHost [.write 4 0x00C 0] (start [])) = .next t :=
  ⟨⟨_, inv_issued (inv_start (by decide)) rfl rfl, step_nextOf (by decide +kernel)⟩, _, inv_withHost (inv_start (by decide)),
    step_nextOf (by decide +kernel)⟩

end Sys2Proof.Tests
end

section
/-! PROOFS. The state a host sees through the register window (10_state.md): STATUS, the region registers,
BITCNT, the plain 32-bit registers, and the windows of the code table and of the node store. -/

namespace Sys2Proof.Machine

/-! ### Fields after a reset -/

@[simp] theorem State.applyReset_seq (s : State) : s.applyReset.seq = .idle := by rw [applyReset_eq]; rfl
@[simp] theorem State.applyReset_done (s : State) : s.applyReset.done = false := by rw [applyReset_eq]; rfl
@[simp] theorem State.applyReset_err (s : State) : s.applyReset.err = false := by rw [applyReset_eq]; rfl
@[simp] theorem State.applyReset_ovr (s : State) : s.applyReset.ovr = false := by rw [applyReset_eq]; rfl
@[simp] theorem State.applyReset_tree (s : State) : s.applyReset.tree = none := by rw [applyReset_eq]; rfl

/-! ### What a step does to each field of STATUS (10_state.md R24) -/

theorem busy_eq_decide (s : State) : s.busy = decide (s.seq = .busy) := by
  unfold State.busy
  cases s.seq <;> rfl

/-- What a step may do to the fields of STATUS: it keeps a field, or an event of R24's table has changed it. -/
structure StatusChanges (s t : State) : Prop where
  seq : t.seq = s.seq ∨ (t.seq = .busy ∧ ∃ w, s.issues w) ∨ (t.seq = .idle ∧ (s.executes ∨ s.resets))
  done : t.done = s.done ∨ (t.done = true ∧ s.executes ∧ t.seq = .idle ∧ t.err = s.err) ∨
    (t.done = false ∧ (s.clears 1 ∨ (∃ w, s.issues w) ∨ s.resets))
  err : t.err = s.err ∨ (t.err = true ∧ s.executes ∧ t.seq = .idle ∧ t.done = s.done) ∨
    (t.err = false ∧ (s.clears 2 ∨ (∃ w, s.issues w) ∨ s.resets))
  ovr : t.ovr = s.ovr ∨ (t.ovr = true ∧ s.seq = .busy ∧ ∃ w, s.serves (.write 4 0x00C w)) ∨
    (t.ovr = false ∧ (s.clears 3 ∨ s.resets))
  errCode : t.errCode = s.errCode ∨ (s.executes ∧ t.err = true) ∨ s.clears 2 ∨ (∃ w, s.issues w) ∨ s.resets
  /-- TREE_VALID: a command of R94 that gives a tree, a parse that fails (43_framer.md R221), a reset. -/
  tree : t.tree = s.tree ∨
    (t.tree ≠ none ∧ s.executes ∧ ∃ i, .tree ∈ results i ∧ decode s.cmd = .ok i) ∨
    (t.tree = none ∧ s.executes ∧ t.err = true ∧ ∃ i, decode s.cmd = .ok i ∧ ParseFailed i t.errCode) ∨
    (t.tree = none ∧ s.resets)

/-- A flag that a write of 1 clears (R24): it is kept, or the bit written was 1. -/
theorem w1c_cases (flag bit : Bool) : (flag && !bit) = flag ∨ ((flag && !bit) = false ∧ bit = true) := by
  cases bit <;> simp

/-- A host write of STATUS. -/
theorem StatusChanges.write {s : State} {v : Word} (hv : s.serves (.write 4 0x008 v)) :
    StatusChanges s (s.writeStatus v) where
  seq := .inl rfl
  done := (w1c_cases s.done (v.getLsbD 1)).imp_right fun ⟨h, hb⟩ => .inr ⟨h, .inl ⟨v, hv, hb⟩⟩
  err := (w1c_cases s.err (v.getLsbD 2)).imp_right fun ⟨h, hb⟩ => .inr ⟨h, .inl ⟨v, hv, hb⟩⟩
  ovr := (w1c_cases s.ovr (v.getLsbD 3)).imp_right fun ⟨h, hb⟩ => .inr ⟨h, .inl ⟨v, hv, hb⟩⟩
  errCode := by
    cases hb : v.getLsbD 2
    · exact .inl (by rw [State.writeStatus_errCode, hb]; rfl)
    · exact .inr (.inr (.inl ⟨v, hv, hb⟩))
  tree := .inl rfl

/-- The running command's end: with DONE, or with ERR and an error code (40_command.md R135, R136). -/
theorem StatusChanges.effect {i : Instr} {s t : State} (he : s.executes) (hi : decode s.cmd = .ok i)
    (eff : Effect i s t) : StatusChanges s t := by
  have hseq : t.seq = .idle := by rw [eff.frame]
  have hovr : t.ovr = s.ovr := by rw [eff.frame]
  have htree : t.tree = s.tree ∨ (t.tree ≠ none ∧ .tree ∈ results i) ∨
      (t.tree = none ∧ t.err = true ∧ ParseFailed i t.errCode) := by
    rcases eff.tree with ⟨ht, -⟩ | ⟨hm, ⟨ht, -, hr, hf⟩ | ⟨T, ht, -⟩⟩
    · exact .inl ht
    · exact .inr (.inr ⟨ht, hr, hf⟩)
    · exact .inr (.inl ⟨by simp [ht], hm⟩)
  refine ⟨.inr (.inr ⟨hseq, .inl he⟩), ?_, ?_, .inl hovr, ?_,
    htree.imp_right (.imp (fun ⟨ht, hm⟩ => ⟨ht, he, i, hm, hi⟩) fun ⟨ht, hr, hf⟩ => .inl ⟨ht, he, hr, i, hi, hf⟩)⟩
  all_goals rcases eff.outcome with ⟨hd, hr, hc, -⟩ | ⟨hd, hr, -⟩
  · exact .inr (.inl ⟨hd, he, hseq, hr⟩)
  · exact .inl hd
  · exact .inl hr
  · exact .inr (.inl ⟨hr, he, hseq, hd⟩)
  · exact .inl hc
  · exact .inr (.inl ⟨he, hr⟩)

/-- Every kind of step of `step_kinds` changes STATUS by those events only. -/
theorem step_statusChanges {s t : State} (h : step s = .next t) : StatusChanges s t := by
  rcases step_kinds h with ⟨hs, -⟩ | ⟨_, _, hr, rfl⟩ | ⟨_, -, -, _, _, rfl⟩ | ⟨v, hv, _, _, rfl⟩ | ⟨w, hw, _, _, rfl⟩ |
    ⟨hb, hw, _, _, rfl⟩ | ⟨he, -, rfl⟩ | ⟨he, i, hi, hx⟩
  · exact ⟨.inl hs.seq, .inl hs.done, .inl hs.err, .inl hs.ovr, .inl hs.errCode, .inl hs.tree⟩
  · exact ⟨.inr (.inr ⟨State.applyReset_seq _, .inr hr⟩), .inr (.inr ⟨State.applyReset_done _, .inr (.inr hr)⟩),
      .inr (.inr ⟨State.applyReset_err _, .inr (.inr hr)⟩), .inr (.inr ⟨State.applyReset_ovr _, .inr hr⟩),
      .inr (.inr (.inr (.inr hr))), .inr (.inr (.inr ⟨State.applyReset_tree _, hr⟩))⟩
  · exact ⟨.inl rfl, .inl rfl, .inl rfl, .inl rfl, .inl rfl, .inl rfl⟩
  · obtain ⟨h1, h2, h3, h4, h5, h6⟩ := StatusChanges.write hv
    exact ⟨h1, h2, h3, h4, h5, h6⟩
  · exact ⟨.inr (.inl ⟨rfl, w, hw⟩), .inr (.inr ⟨rfl, .inr (.inl ⟨w, hw⟩)⟩), .inr (.inr ⟨rfl, .inr (.inl ⟨w, hw⟩)⟩),
      .inl rfl, .inr (.inr (.inr (.inl ⟨w, hw⟩))), .inl rfl⟩
  · exact ⟨.inl rfl, .inl rfl, .inl rfl, .inr (.inl ⟨rfl, hb, hw⟩), .inl rfl, .inl rfl⟩
  · exact ⟨.inr (.inr ⟨rfl, .inl he⟩), .inl rfl, .inr (.inl ⟨rfl, he, rfl, rfl⟩), .inl rfl, .inr (.inl ⟨he, rfl⟩), .inl rfl⟩
  · exact .effect he hi (exec_effect hx)

/-- DONE and ERR are never both 1, and neither is 1 while BUSY (R24): a command starts with both 0. -/
theorem step_done_err_exclusive {s t : State} (hinv : s.Inv) (h : step s = .next t) :
    ¬(t.done = true ∧ t.err = true) ∧ (t.seq = .busy → t.done = false ∧ t.err = false) := by
  have hn := hinv.notBoth
  have hb := hinv.whileBusy
  rcases step_kinds h with ⟨hs, -⟩ | ⟨_, _, -, rfl⟩ | ⟨_, -, -, _, _, rfl⟩ | ⟨v, -, _, _, rfl⟩ | ⟨_, -, _, _, rfl⟩ |
    ⟨-, -, _, _, rfl⟩ | ⟨he, -, rfl⟩ | ⟨he, i, -, hx⟩
  · rw [hs.done, hs.err, hs.seq]; exact ⟨hn, hb⟩
  · simp
  · exact ⟨hn, hb⟩
  · exact ⟨(hinv.writeStatus v).notBoth, (hinv.writeStatus v).whileBusy⟩
  · simp
  · exact ⟨hn, hb⟩
  · simp [State.illegalCommand, (hb he.1).1]
  · exact ⟨(hinv.effect he.1 (exec_effect hx)).notBoth, (hinv.effect he.1 (exec_effect hx)).whileBusy⟩

/-- The commands whose results include the tree: the out column of 30_encoding.md R94. -/
theorem tree_mem_results {i : Instr} (h : .tree ∈ results i) :
    i ∈ [.treeBuild, .treeDeser, .encode false, .encode true, .decode] := by
  cases i with
  | encode pre => cases pre <;> simp [results] at h ⊢
  | _ => simp [results] at h ⊢

/-- The commands whose results include BITCNT: the out column of 30_encoding.md R94. -/
theorem bitcnt_mem_results {i : Instr} (h : .bitcnt ∈ results i) :
    i ∈ [.pack, .encRaw, .encode false, .encode true, .decode] := by
  cases i with
  | encode pre => cases pre <;> simp [results] at h ⊢
  | _ => simp [results] at h ⊢

/-- Settles O16: the fields of the word, its write, and `step_statusChanges` for what each step does to them. -/
theorem statusRegister : Obligations.StatusRegister := by
  unfold Obligations.StatusRegister
  refine ⟨fun s => ?_, rfl, fun s v => writes_of (by decide) (by decide) rfl, fun s t h => ?_,
    fun s t => step_done_err_exclusive⟩
  · obtain ⟨h0, h1, h2, h3, h4, h5, h8, h12⟩ := statusWord_fields s
    refine ⟨reads_of (by decide) (by decide) rfl (.inr rfl), h0.trans (busy_eq_decide s), h1, h2, h3, h4, h5,
      h8.trans ?_, h12⟩
    cases s.errCode with
    | none => rfl
    | some k => cases k <;> rfl
  · obtain ⟨hseq, hdone, herr, hovr, hcode, htree⟩ := step_statusChanges h
    refine ⟨fun a b => ?_, fun a b => ?_, fun a b => ?_, fun a b => ?_, fun a b => ?_, fun a b => ?_, fun a b => ?_,
      fun a b => ?_, fun a b => ?_, fun a b => ?_, hcode.resolve_left⟩
    · simpa [a, b] using hseq
    · simpa [a, b] using hseq
    · simpa [a, b] using hdone
    · simpa [a, b] using hdone
    · simpa [a, b] using herr
    · simpa [a, b] using herr
    · simpa [a, b] using hovr
    · simpa [a, b] using hovr
    · rcases htree with e | ⟨-, he, i, hm, hi⟩ | ⟨e, -⟩ | ⟨e, -⟩
      · exact absurd (e.trans a) b
      · exact ⟨he, i, tree_mem_results hm, hi⟩
      · exact absurd e b
      · exact absurd e b
    · rcases htree with e | ⟨e, -⟩ | ⟨-, he, hr, i, hi, hf, hk⟩ | ⟨-, hr⟩
      · exact absurd (e.symm.trans b) a
      · exact absurd b e
      · exact .inl ⟨he, by rcases hf with rfl | rfl <;> simp [hi], hr, hk⟩
      · exact .inr hr

/-! ### Registers that hold a plain word -/

/-- A host's read and write, while IDLE, of a register other than CTRL, STATUS and CMD. -/
theorem reads_writes_idle {s : State} {off : Nat} {r : WinReg} {v : Word} (hs : s.seq = .idle)
    (hoff : off % 4 = 0 ∧ off ≤ 0x4FFC ∧ winRegAt off = r ∧ r ∉ [.ctrl, .status, .cmd]) :
    Reads s off (s.regWord r) ∧ Writes s off v (s.writeOther r v) := by
  obtain ⟨h4, hle, hr, hne⟩ := hoff
  simp only [List.mem_cons, List.not_mem_nil, or_false, not_or] at hne
  exact ⟨reads_of h4 hle hr (.inl hs), writes_other hs h4 hle hr hne.1 hne.2.1 hne.2.2⟩

/-- Settles O18: each register stands at its offset, and no command has one among its results. -/
theorem regionRegisters : Obligations.RegionRegisters := by
  unfold Obligations.RegionRegisters
  refine ⟨fun s v hs => ?_, fun s => ⟨rfl, rfl, rfl, rfl, rfl, rfl⟩, ⟨rfl, rfl, rfl, rfl, rfl, rfl⟩, fun i s t h => ?_⟩
  · exact ⟨reads_writes_idle (r := .srcBase) hs (by decide), reads_writes_idle (r := .srcLen) hs (by decide),
      reads_writes_idle (r := .dstBase) hs (by decide), reads_writes_idle (r := .dstCap) hs (by decide),
      reads_writes_idle (r := .tmpBase) hs (by decide), reads_writes_idle (r := .tmpCap) hs (by decide)⟩
  · rw [(exec_effect h).frame]
    exact ⟨rfl, rfl, rfl, rfl, rfl, rfl⟩

/-- Settles O19: the halves are stored apart, and a command that raises keeps every result register (R136). -/
theorem bitcntHalves : Obligations.BitcntHalves := by
  unfold Obligations.BitcntHalves
  refine ⟨fun s v hs => ?_, rfl, fun i s t h h0 h1 => ?_, fun i s t hi h => ?_⟩
  · obtain ⟨readLo, writeLo⟩ := reads_writes_idle (r := .bitcntLo) (v := v) hs (off := 0x030) (by decide)
    obtain ⟨readHi, writeHi⟩ := reads_writes_idle (r := .bitcntHi) (v := v) hs (off := 0x034) (by decide)
    exact ⟨readLo, readHi, ⟨_, writeLo, bitcntOf_lo _ _, bitcntOf_hi _ _⟩, ⟨_, writeHi, bitcntOf_hi _ _, bitcntOf_lo _ _⟩⟩
  · rcases (exec_effect h).outcome with ⟨-, he, -⟩ | ⟨-, -, -, -, -, hb⟩
    · exact absurd (h0.symm.trans (he.symm.trans h1)) Bool.false_ne_true
    · exact hb
  · exact (exec_effect h).bitcnt fun hm => hi (bitcnt_mem_results hm)

/-- Settles O20: each register stands at its offset, and a FREQ entry is written by itself. -/
theorem dataRegisters : Obligations.DataRegisters := by
  unfold Obligations.DataRegisters
  intro s v hs
  have read {off : Nat} {r : WinReg} (h : off % 4 = 0 ∧ off ≤ 0x4FFC ∧ winRegAt off = r) : Reads s off (s.regWord r) :=
    reads_of h.1 h.2.1 h.2.2 (.inl hs)
  obtain ⟨readTotal, writeTotal⟩ := reads_writes_idle (r := .total) (v := v) hs (off := 0x038) (by decide)
  refine ⟨fun q => ?_, read (r := .cmd) (by decide), read (r := .outLen) (by decide), read (r := .srcPos) (by decide),
    readTotal, writeTotal, read (r := .errInfo) (by decide)⟩
  have hq := q.isLt
  obtain ⟨readFreq, writeFreq⟩ := reads_writes_idle (v := v) hs ⟨by omega, by omega, winRegAt_freq q, by simp⟩
  exact ⟨readFreq, update s.freq q v, writeFreq, fun q' => lookup_update _ _ _ _⟩

/-! ### The windows of the code table and the node store -/

/-- Settles O24: `codeWord_bit` for a position inside the code and past it, and a tree in order has codes of at
most 255 bits. -/
theorem codeWindow : Obligations.CodeWindow := by
  unfold Obligations.CodeWindow
  refine ⟨lookup_empty, fun s q hinv hs htree => ?_⟩
  obtain ⟨t, ht⟩ := Option.ne_none_iff_exists'.1 htree
  obtain ⟨hok, hcodes⟩ := hinv.tree t ht
  have hvalid : s.treeValid = true := by simp [State.treeValid, ht]
  have hlen : (lookup s.codes q).length ≤ 255 := hcodes ▸ length_code_le hok q
  have hq := q.isLt
  constructor
  · have hr := reads_of (s := s) (by omega) (by omega) (winRegAt_codeLen q) (.inl hs)
    simp only [State.regWord, hvalid, if_true] at hr
    obtain ⟨hlow, hhigh⟩ := codeLen_fields (BitVec.ofNat 8 (lookup s.codes q).length)
    refine ⟨_, hr, ?_, hlen, hhigh⟩
    rw [hlow, BitVec.toNat_ofNat, Nat.mod_eq_of_lt (by omega)]
  · intro w hw
    have hr := reads_of (s := s) (by omega) (by omega) (winRegAt_codeBits q w hw) (.inl hs)
    simp only [State.regWord, hvalid, if_true, Fin.val_ofNat, Nat.mod_eq_of_lt hw] at hr
    refine ⟨_, hr, fun j _ hj => codeWord_bit _ w j hj, fun j hge hj => ?_⟩
    rw [codeWord_bit _ w j hj, List.getD_eq_default _ _ hge]

/-- A word of the node window is the word of the node with that index, while there is one (10_state.md R41). -/
theorem reads_node {s : State} {t u : Tree} {i k : Nat} (hs : s.seq = .idle) (ht : s.tree = some t) (hi : i ≤ 510)
    (hk : k < 4) (hu : t.find i = some u) : Reads s (0x3000 + 16 * i + 4 * k) (u.word k) := by
  have hr := reads_of (s := s) (by omega) (by omega) (winRegAt_node i k hi hk) (.inl hs)
  simpa only [State.regWord, ht, Option.bind_some, hu, Fin.val_ofNat, Nat.mod_eq_of_lt hk] using hr

/-- Past TREE_NODES the node window reads 0 (10_state.md R41). -/
theorem reads_no_node {s : State} {t : Tree} {i k : Nat} (hs : s.seq = .idle) (ht : s.tree = some t) (hok : t.Ok)
    (hi : i ≤ 510) (hk : k < 4) (hge : t.size ≤ i) : Reads s (0x3000 + 16 * i + 4 * k) 0 := by
  have hr := reads_of (s := s) (by omega) (by omega) (winRegAt_node i k hi hk) (.inl hs)
  have hnone : t.find i = none := Tree.find_none fun hm => absurd (hok.below i hm) (by omega)
  simpa only [State.regWord, ht, Option.bind_some, hnone] using hr

/-- The index of a node of a tree in order fits the 9 bits of a child field (10_state.md R40, R41). -/
theorem Tree.Ok.idx_lt {t : Tree} (h : t.Ok) {i : Nat} (hi : i ∈ t.indices) : i < 2 ^ 9 := by
  have := h.below i hi
  have := h.leaves_le
  have := t.size_eq
  omega

/-- Without a tree the TREE registers and the windows of the code table and the node store read 0 (R32, R43). -/
theorem reads_without_tree {s : State} {off : Nat} (hs : s.seq = .idle) (ht : s.tree = none) (h4 : off % 4 = 0)
    (hoff : off ∈ [0x040, 0x044, 0x048] ∨ (0x800 ≤ off ∧ off ≤ 0xBFC) ∨ (0x1000 ≤ off ∧ off ≤ 0x4FEC)) :
    Reads s off 0 := by
  have hle : off ≤ 0x4FFC := by simp only [List.mem_cons, List.not_mem_nil, or_false] at hoff; omega
  suffices h0 : s.regWord (winRegAt off) = 0 from h0 ▸ reads_of h4 hle rfl (.inl hs)
  have hvalid : s.treeValid = false := by simp [State.treeValid, ht]
  have code (h : (0x800 ≤ off ∧ off < 0xC00) ∨ (0x1000 ≤ off ∧ off < 0x3000)) : s.regWord (winRegAt off) = 0 := by
    obtain ⟨q, hq⟩ | ⟨q, w, hq⟩ := winRegAt_code h <;> simp [hq, State.regWord, hvalid]
  rcases hoff with hoff | hoff | hoff
  · simp only [List.mem_cons, List.not_mem_nil, or_false] at hoff
    rcases hoff with rfl | rfl | rfl <;> simp [winRegAt, State.regWord, ht]
  · exact code (.inl ⟨hoff.1, by omega⟩)
  · by_cases h3 : off < 0x3000
    · exact code (.inr ⟨hoff.1, h3⟩)
    · simp [winRegAt_nodes (by omega : 0x3000 ≤ off) (by omega), State.regWord, ht]

/-- Settles O25: each word of the node window by `reads_node` and `reads_no_node`; the shapes of built and parsed
trees are `Tree.size_eq`, `buildTree_idx` and the laws of `Tree.renumber`. -/
theorem treeWindows : Obligations.TreeWindows := by
  unfold Obligations.TreeWindows
  refine ⟨fun s t hinv hs ht => ?_, fun freq t h => ⟨t.size_eq, buildTree_idx h⟩,
    fun t => ⟨t.idx_renumber 0, t.size_renumber 0, t.leaves_renumber 0⟩, fun s off => reads_without_tree⟩
  have hok := (hinv.tree t ht).1
  have nodes : Reads s 0x040 (s.regWord .treeNodes) := reads_of (by decide) (by decide) rfl (.inl hs)
  have leaves : Reads s 0x044 (s.regWord .treeLeaves) := reads_of (by decide) (by decide) rfl (.inl hs)
  have root : Reads s 0x048 (s.regWord .treeRoot) := reads_of (by decide) (by decide) rfl (.inl hs)
  simp only [State.regWord, ht] at nodes leaves root
  refine ⟨nodes, leaves, root, fun i hi => ⟨?_, ?_, hok.find_lt, fun hge k hk => reads_no_node hs ht hok hi hk hge⟩⟩
  · intro sym wt hu
    have word {k : Nat} (hk : k < 4) := reads_node hs ht hi hk hu
    exact ⟨⟨_, word (k := 0) (by decide), leafWord_fields sym⟩, word (k := 1) (by decide), word (k := 2) (by decide),
      word (k := 3) (by decide)⟩
  · intro z o wt hu
    have word {k : Nat} (hk : k < 4) := reads_node hs ht hi hk hu
    obtain ⟨hz, ho⟩ := Tree.children_mem (Tree.mem_of_find hu).1
    obtain ⟨h0, h9, h16, h25⟩ := childWord_fields (BitVec.ofNat 9 z.idx) (BitVec.ofNat 9 o.idx)
    refine ⟨word (k := 0) (by decide), ⟨_, word (k := 1) (by decide), ?_, h9, ?_, h25⟩, word (k := 2) (by decide),
      word (k := 3) (by decide)⟩
    · rw [← Nat.mod_eq_of_lt (hok.idx_lt hz), ← BitVec.toNat_ofNat]
      exact congrArg BitVec.toNat h0
    · rw [← Nat.mod_eq_of_lt (hok.idx_lt ho), ← BitVec.toNat_ofNat]
      exact congrArg BitVec.toNat h16

end Sys2Proof.Machine
end

section
/-! PROOFS. The engine's accesses to the data space (20_memory.md). -/

namespace Sys2Proof.Machine

/-! ### One byte read or written (R73) -/

theorem memRead_of_busErr {p : Params} {a : Nat} (m : Memory) (h : busErrRd p a = true) :
    memRead p m a = .error (raise .io a) := if_pos h

theorem memRead_of_not_busErr {p : Params} {a : Nat} (m : Memory) (h : busErrRd p a = false) :
    memRead p m a = .ok (m.read a) := if_neg (by simp [h])

theorem memWrite_of_busErr {p : Params} {a : Nat} (m : Memory) (v : Byte) (h : busErrWr p a = true) :
    memWrite p m a v = .error (raise .io a) := if_pos h

theorem memWrite_of_not_busErr {p : Params} {a : Nat} (m : Memory) (v : Byte) (h : busErrWr p a = false) :
    memWrite p m a v = .ok (m.write a v) := if_neg (by simp [h])

/-- Settles O27: an access by whether its address has a bus error, and the laws of the data space for one byte
stored and for a sequence. -/
theorem byteAccess : Obligations.ByteAccess := by
  unfold Obligations.ByteAccess
  refine ⟨fun p m a v => ?access, fun m a v hwf ha => ?byte, fun m a vs hwf ha => ?sequence⟩
  case access =>
    exact ⟨memRead_of_busErr m, memRead_of_not_busErr m, memWrite_of_busErr m v, memWrite_of_not_busErr m v⟩
  case byte =>
    exact ⟨Memory.wf_write v hwf ha, Memory.read_write_self a v hwf, fun b => Memory.read_write_other m v⟩
  case sequence =>
    exact ⟨Memory.wf_writeBytes vs hwf ha, Memory.bytes_writeBytes_self vs hwf ha,
      fun b => Memory.read_writeBytes_other m vs⟩

end Sys2Proof.Machine
end

section
/-! PROOFS. Encodings (30_encoding.md): the match and mask of each command word, illegal words, packed bit
sequences, the records of a serialized tree and the decimal count. -/

namespace Sys2Proof

/-! ### The match and mask of a command (R91) -/

/-- A mask of 32 ones leaves the whole word to match. -/
theorem decode_ok_iff_match {i : Instr} {m : Word} (h : encode i = m) (w : Word) :
    decode w = .ok i ↔ w &&& 0xFFFFFFFF#32 = m := by
  rw [decode_ok, h, show (0xFFFFFFFF#32 : Word) = BitVec.allOnes 32 from rfl, BitVec.and_allOnes]

/-- A word is its bits under ENCODE's mask and its PRE bit. -/
theorem word_eq_masked_or_pre (w : Word) :
    w = (w &&& 0xFFFFFEFF#32) ||| (if w.getLsbD 8 then 0x100#32 else 0#32) := by
  calc w = w &&& (0xFFFFFEFF#32 ||| BitVec.twoPow 32 8) :=
        (BitVec.and_allOnes (x := w)).symm
    _ = (w &&& 0xFFFFFEFF#32) ||| (w &&& BitVec.twoPow 32 8) := BitVec.and_or_distrib_left
    _ = (w &&& 0xFFFFFEFF#32) ||| (if w.getLsbD 8 then 0x100#32 else 0#32) := by
        rw [BitVec.and_twoPow]; rfl

/-- ENCODE's mask leaves bit 8 free, and bit 8 is PRE (R90). -/
theorem decode_encode_iff_match (w : Word) (pre : Bool) :
    decode w = .ok (.encode pre) ↔ w &&& 0xFFFFFEFF#32 = 0x00000050#32 ∧ w.getLsbD 8 = pre := by
  rw [decode_ok]
  constructor
  · rintro rfl
    cases pre <;> decide
  · rintro ⟨hmatch, hpre⟩
    rw [word_eq_masked_or_pre w, hmatch, hpre]
    cases pre <;> rfl

/-- Settles O2: the full mask for the commands without a modifier, and ENCODE's with its PRE bit. -/
theorem wordSelectsCommandIff : Obligations.WordSelectsCommandIff := by
  unfold Obligations.WordSelectsCommandIff
  intro w
  have full {i : Instr} {m : Word} (h : encode i = m) : decode w = .ok i ↔ w &&& 0xFFFFFFFF#32 = m :=
    decode_ok_iff_match h w
  exact ⟨full rfl, full rfl, full rfl, full rfl, full rfl, full rfl, full rfl, full rfl, full rfl, full rfl,
    decode_encode_iff_match w, full rfl⟩

/-! ### Illegal words (R92) -/

/-- The three ways the fields of a word select no command (R92). -/
theorem CmdFields.wf_eq_false_iff (f : CmdFields) :
    f.wf = false ↔ f.opc ∉ knownOpcodes ∨ f.rsvd ≠ 0#23 ∨ (f.pre = true ∧ f.opc ≠ 0x50#8) := by
  have hopc : f.opcKnown = false ↔ f.opc ∉ knownOpcodes := by simp [opcKnown]
  have hrsvd : f.rsvdZero = false ↔ f.rsvd ≠ 0#23 := by simp [rsvdZero]
  have hpre : f.preLegal = false ↔ f.pre = true ∧ f.opc ≠ 0x50#8 := by simp [preLegal]
  rw [wf, Bool.and_eq_false_iff, Bool.and_eq_false_iff, hopc, hrsvd, hpre, or_assoc, or_left_comm]

namespace Machine

/-- An illegal word in CMD ends in E_ILLEGAL with the word as its info. -/
theorem runFetched_of_error {s : State} {e : Reject} (h : decode s.cmd = .error e) :
    runFetched s = .next s.illegalCommand := by
  rw [runFetched, show s.fetch = .error e from h]

/-- Settles O3: the decoder's rejections by field, word 0 alone for NOP, and the step over a rejected word. -/
theorem illegalWordCompletesWithError : Obligations.IllegalWordCompletesWithError := by
  unfold Obligations.IllegalWordCompletesWithError
  refine ⟨fun w => ?rejected, fun w => ?nop, fun s e hs he => ?step⟩
  case rejected => exact (decode_error w).trans (CmdFields.wf_eq_false_iff (fieldsOfWord w))
  case nop => exact decode_ok w .nop
  case step => exact (step_executes hs).trans (runFetched_of_error he)

/-! ### Packed sequences (R95) -/

/-- Settles O33: the length, the position of each bit with the padding, and the bits read back. -/
theorem packedBitPositions : Obligations.PackedBitPositions := by
  unfold Obligations.PackedBitPositions
  exact fun bs => ⟨length_packBits bs, getLsbD_packBits bs, bitsOfBytes_packBits_take bs⟩

/-! ### The records of a serialized tree (R100 to R106) -/

theorem serTree_leaf (i : Nat) (sym : Byte) (w : Dword) :
    serTree (.leaf i sym w) = 0x4C#8 :: sym :: weightBytes w := rfl

theorem serTree_node (i : Nat) (z o : Tree) (w : Dword) :
    serTree (.node i z o w) = 0x4E#8 :: (weightBytes w ++ serTree z ++ serTree o) := by
  rw [serTree, List.append_assoc]; rfl

/-- R106: byte `k` of a weight, the most significant byte first. -/
theorem weightBytes_getD (w : Dword) {k : Nat} (hk : k < 8) :
    (weightBytes w).getD k 0 = w.extractLsb' (8 * (7 - k)) 8 := by
  have hmap : weightBytes w = (List.range 8).map fun k => w.extractLsb' (8 * (7 - k)) 8 := rfl
  rw [hmap]
  simp [hk]

/-- Settles O42: the two records, the bytes of a weight, and `Tree.length_serTree` for the length. -/
theorem serializedRecords : Obligations.SerializedRecords := by
  unfold Obligations.SerializedRecords
  refine ⟨serTree_leaf, serTree_node, fun w => ⟨length_weightBytes w, fun k => weightBytes_getD w⟩, fun t => ?_⟩
  have hlen := t.length_serTree
  have hpos := t.leaves_pos
  constructor <;> omega

/-! ### The decimal count (R112) -/

/-- Settles O47: the laws of Dec, where 20 digits are enough for every number below 2^64. -/
theorem decimalCount : Obligations.DecimalCount := by
  unfold Obligations.DecimalCount
  intro n hn
  have hfit : n < 10 ^ 20 := by omega
  have hdigits : ∀ v ∈ dec n, 0x30 ≤ v.toNat ∧ v.toNat ≤ 0x39 := fun v hv => by
    have := (isDigit_iff v).1 (dec_digits n v hv)
    omega
  exact ⟨hdigits, dec_ne_nil n, decimalValue_dec hfit,
    decDigits_head 20 n hfit, rfl, length_decDigits_le 20 n⟩

end Machine

end Sys2Proof
end

section
/-! PROOFS. The life cycle of a command (40_command.md section 1): what a step does to the running command,
and OVR. -/

namespace Sys2Proof.Machine

/-! ### One command at a time (R131) -/

/-- A command that goes on to a next state has ended, with DONE or with ERR (R135, R136). -/
theorem exec_ends {i : Instr} {s t : State} (h : exec i s = .next t) :
    t.seq = .idle ∧ (t.done = true ∨ t.err = true) := by
  have eff := exec_effect h
  refine ⟨by rw [eff.frame], ?_⟩
  rcases eff.outcome with ⟨hdone, -⟩ | ⟨-, herr, -⟩
  · exact .inl hdone
  · exact .inr herr

/-- A step keeps BUSY and CMD, or issues a command, or ends one with DONE or ERR, or is a reset. -/
theorem step_lifeCycle {s t : State} (h : step s = .next t) :
    (t.seq = s.seq ∧ t.cmd = s.cmd) ∨
    (∃ w, s.issues w ∧ t.cmd = w ∧ t.seq = .busy) ∨
    (s.executes ∧ t.seq = .idle ∧ (t.done = true ∨ t.err = true)) ∨
    (s.resets ∧ t.seq = .idle ∧ t.done = false ∧ t.err = false) := by
  rcases step_kinds h with ⟨same, -⟩ | ⟨_, _, hreset, rfl⟩ | ⟨_, -, -, _, _, rfl⟩ | ⟨_, -, _, _, rfl⟩ |
    ⟨w, hissue, _, _, rfl⟩ | ⟨-, -, _, _, rfl⟩ | ⟨hexec, -, rfl⟩ | ⟨hexec, i, -, hnext⟩
  · exact .inl ⟨same.seq, same.cmd⟩
  · exact .inr (.inr (.inr ⟨hreset, by simp⟩))
  · exact .inl ⟨rfl, rfl⟩
  · exact .inl ⟨rfl, rfl⟩
  · exact .inr (.inl ⟨w, hissue, rfl, rfl⟩)
  · exact .inl ⟨rfl, rfl⟩
  · exact .inr (.inr (.inl ⟨hexec, rfl, .inr rfl⟩))
  · exact .inr (.inr (.inl ⟨hexec, exec_ends hnext⟩))

/-- Settles O8: of the four ways of `step_lifeCycle`, those that BUSY before and after the step allows. -/
theorem runningCommandEndsOnlyByCompletionOrReset : Obligations.RunningCommandEndsOnlyByCompletionOrReset := by
  unfold Obligations.RunningCommandEndsOnlyByCompletionOrReset
  intro s t h
  rcases step_lifeCycle h with ⟨hseq, hcmd⟩ | ⟨w, hissue, hcmd, hbusy⟩ | ⟨hexec, hidle, hend⟩ | ⟨hreset, hidle, hclear⟩
  · exact ⟨fun hi hb => by simp [hseq, hi] at hb, fun _ _ => hcmd, fun hb hi => by simp [hseq, hb] at hi⟩
  · exact ⟨fun _ _ => ⟨w, hissue, hcmd⟩, by simp [hissue.1], by simp [hbusy]⟩
  · exact ⟨by simp [hidle], by simp [hidle], fun _ _ => .inl ⟨hexec, hend⟩⟩
  · exact ⟨by simp [hidle], by simp [hidle], fun _ _ => .inr ⟨hreset, hclear⟩⟩

/-! ### A write of CMD while BUSY (R132) -/

/-- While BUSY a write of CMD sets OVR and nothing else. -/
theorem writeCmd_of_busy {s : State} (hs : s.seq = .busy) (w : Word) : s.writeCmd w = { s with ovr := true } := by
  unfold State.writeCmd
  rw [hs]

/-- OVR stays set until a write of 1 to its bit or a reset (10_state.md R24). -/
theorem ovr_sticky {s t : State} (h : step s = .next t) (hovr : s.ovr = true) :
    t.ovr = true ∨ s.clears 3 ∨ s.resets := by
  rcases (step_statusChanges h).ovr with hkept | ⟨hset, -⟩ | ⟨-, hevent⟩
  · exact .inl (hkept.trans hovr)
  · exact .inl hset
  · exact .inr hevent

/-- Settles O9: the write by `writeCmd_of_busy`, a command with OVR at any value by `exec_withOvr`, `ovr_sticky`, and
the interrupt output, which reads IRQ_EN, DONE and ERR only. -/
theorem cmdWriteWhileBusyIsDropped : Obligations.CmdWriteWhileBusyIsDropped := by
  unfold Obligations.CmdWriteWhileBusyIsDropped
  refine ⟨fun s w hs => ?write, fun i s t b => exec_withOvr, fun s t => ovr_sticky, fun s b => rfl⟩
  case write =>
    rw [← writeCmd_of_busy hs w]
    exact writes_of (r := .cmd) (by decide) (by decide) rfl

end Sys2Proof.Machine
end

section
/-! PROOFS. The frequency counters, the tree builder and the code table (42_tree.md). -/

namespace Sys2Proof.Machine

/-! ### Commands that start (R195 to R197) -/

/-- FT_CLEAR uses no region and has no precondition (20_memory.md R74, 40_command.md R133): it always starts. -/
theorem startResult_ftClear (s : State) : startResult .ftClear s = .run :=
  startResult_run.2 ⟨startCheck_none.2 ⟨fun _ hr => absurd hr List.not_mem_nil, rfl⟩, rfl, rfl⟩

theorem exec_ftClear (s : State) : exec .ftClear s =
    .next { s with seq := .idle, done := true, freq := Counters.clear.freq, total := 0 } := by
  have hexec : exec .ftClear s = runCommand .ftClear s
      fun s => { s with freq := Counters.clear.freq, total := Counters.clear.total }.complete := rfl
  exact hexec.trans (runCommand_run (startResult_ftClear s))

theorem exec_ftCount {s : State} (h : startResult .ftCount s = .run) : exec .ftCount s = .next (ftCountBody s) :=
  runCommand_run h

/-- TREE_BUILD's precondition is that some count is non-zero, so Build gives a tree, which is installed. -/
theorem exec_treeBuild {s : State} (h : startResult .treeBuild s = .run) :
    ∃ t, buildTree s.freq = some t ∧ exec .treeBuild s = .next (s.install t).complete := by
  obtain ⟨t, ht⟩ := buildTree_isSome.2 (any_freq_iff.1 (run_precondition h))
  have hexec : exec .treeBuild s = .next (treeBuildBody s) := runCommand_run h
  exact ⟨t, ht, by rw [hexec, treeBuildBody, ht]⟩

/-! ### Clear (R181) -/

@[simp] theorem lookup_clear (q : Byte) : lookup Counters.clear.freq q = 0 := lookup_replicate 0 q

/-- Settles O36: the state `exec_ftClear` gives, with a counter table of zeros. -/
theorem ftClearZeroes : Obligations.FtClearZeroes := by
  unfold Obligations.FtClearZeroes
  exact fun s => ⟨Counters.clear.freq, lookup_clear, exec_ftClear s⟩

/-! ### Count (R182, R183) -/

/-- `full_eq_false` from its other side: a counter is full when it has reached its limit. -/
theorem full_eq_true {c : Counters} {b : Byte} :
    c.full b = true ↔ (lookup c.freq b).toNat = 2 ^ 32 - 1 ∨ c.total.toNat = 2 ^ 32 - 1 := by
  have hfreq := (lookup c.freq b).isLt
  have htotal := c.total.isLt
  rw [← Bool.not_eq_false, full_eq_false]
  omega

/-- Without a wrap, TOTAL after a sequence is tallied is the sum. -/
theorem total_tallyAll_toNat {c : Counters} {l : List Byte} (h : c.total.toNat + l.length < 2 ^ 32) :
    (c.tallyAll l).total.toNat = c.total.toNat + l.length := by
  rw [total_tallyAll, BitVec.toNat_add, BitVec.toNat_ofNat, Nat.mod_eq_of_lt (a := l.length) (by omega),
    Nat.mod_eq_of_lt h]

/-- With room for the first `k` bytes of SRC, none of them finds a counter full. -/
theorem not_full_before {s : State} {c : Counters} {k : Nat} (hk : k ≤ s.srcLen.toNat)
    (hfreq : ∀ q, (lookup c.freq q).toNat + (s.srcBytes.take k).count q < 2 ^ 32)
    (htotal : c.total.toNat + k < 2 ^ 32) {j : Nat} (hj : j < k) :
    (c.tallyAll (s.srcBytes.take j)).full (s.mem.read (s.srcBase.toNat + j)) = false := by
  have hlen : (s.srcBytes.take k).length = k := by simp [hk]
  have hroom := not_full_of_room hfreq (by rwa [hlen]) j (by rwa [hlen])
  rwa [List.take_take, Nat.min_eq_left hj.le, List.getElem_take, getElem_srcBytes] at hroom

/-- No counter and not TOTAL is less than before. -/
def Counters.Le (c c' : Counters) : Prop :=
  c.total.toNat ≤ c'.total.toNat ∧ ∀ q, (lookup c.freq q).toNat ≤ (lookup c'.freq q).toNat

/-- R183: however Count ends, no counter has wrapped. -/
theorem count_le (s : State) (c0 : Counters) : (count s c0).Post (fun c _ => c0.Le c) (fun c _ => c0.Le c) := by
  refine (count_post s c0).mono ?done ?raised
  case done =>
    rintro c - ⟨rfl, -, hroom⟩
    refine tallyAll_le c0 fun j hj => ?_
    rw [getElem_srcBytes]
    exact hroom j (by simpa using hj)
  case raised =>
    rintro c r ⟨k, -, rfl, hroom, -⟩
    refine tallyAll_le c0 fun j hj => ?_
    have hjk : j < k := hj.trans_le (List.length_take_le k _)
    rw [List.take_take, Nat.min_eq_left hjk.le, List.getElem_take, getElem_srcBytes]
    exact hroom j hjk

theorem ftCountBody_le (s : State) : Counters.Le ⟨s.freq, s.total⟩ ⟨(ftCountBody s).freq, (ftCountBody s).total⟩ := by
  have hle := count_le s ⟨s.freq, s.total⟩
  unfold ftCountBody
  cases hcount : count s ⟨s.freq, s.total⟩ with
  | ok c u => simpa [hcount] using hle
  | raised c r => simpa [hcount] using hle

/-- FT_COUNT takes no count away, whatever way it ends. -/
theorem exec_ftCount_le {s t : State} (h : exec .ftCount s = .next t) :
    Counters.Le ⟨s.freq, s.total⟩ ⟨t.freq, t.total⟩ := by
  rcases runCommand_next h with ⟨r, -, rfl⟩ | ⟨-, rfl⟩
  · exact ⟨le_rfl, fun _ => le_rfl⟩
  · exact ftCountBody_le s

/-- Settles O37: the three ways Count ends by the laws of `ftCountBody`, with the counters as sums by
`tallyAll_toNat`, and `exec_ftCount_le`. -/
theorem ftCountTallies : Obligations.FtCountTallies := by
  unfold Obligations.FtCountTallies
  refine ⟨fun s h hread hfreq htotal => ?done, fun s k h hk hread hfreq htotal hlimit => ?overflow,
    fun s j h hbus hfreq htotal => ?fetch, fun s t h => exec_ftCount_le h⟩
  case done =>
    refine ⟨_, tallyAll_toNat (c := ⟨s.freq, s.total⟩) hfreq, ?_⟩
    rw [exec_ftCount h, ftCountBody_done hread hfreq htotal, total_tallyAll]
    simp
  case overflow =>
    have hlen : (s.srcBytes.take k).length = k := by simp [hk.le]
    refine ⟨_, tallyAll_toNat (c := ⟨s.freq, s.total⟩) hfreq, ?_⟩
    have hfull := full_eq_true (c := (⟨s.freq, s.total⟩ : Counters).tallyAll (s.srcBytes.take k))
      (b := s.mem.read (s.srcBase.toNat + k))
    rw [tallyAll_toNat hfreq, total_tallyAll_toNat (by rwa [hlen]), hlen] at hfull
    rw [exec_ftCount h, ftCountBody_overflow hread hk
      (fun j hj => not_full_before hk.le hfreq htotal hj) (hfull.2 hlimit), total_tallyAll, hlen]
  case fetch =>
    refine ⟨_, tallyAll_toNat (c := ⟨s.freq, s.total⟩) hfreq, ?_⟩
    have hlen := length_take_block hbus.lt
    rw [exec_ftCount h, ftCountBody_busError hbus.lt hbus.before hbus.bus hfreq htotal, ← blockStart, total_tallyAll, hlen]

/-! ### Build (R185 to R187) -/

/-- The root's weight in the tree of a single symbol, as a number. -/
theorem soleTree_eq (q : Byte) (f : Word) : soleTree q f =
    .node 2 (.leaf 0 q (f.setWidth 64)) (.leaf 1 q (f.setWidth 64)) (BitVec.ofNat 64 (2 * f.toNat)) := by
  have hweight : f.setWidth 64 + f.setWidth 64 = BitVec.ofNat 64 (2 * f.toNat) := by
    rw [two_mul, BitVec.ofNat_add, ← BitVec.ofNat_toNat]
  rw [soleTree, hweight]

/-- R187: the tree Build gives for a single symbol. -/
theorem buildTree_sole {freq : FreqTable} {q : Byte} {f : Word} {t : Tree} (h : presentSyms freq = [(q, f)])
    (ht : buildTree freq = some t) : t = soleTree q f :=
  Option.some.inj (ht.symm.trans (buildTree_one h))

/-- R186: for two or more symbols the tree Build gives is the greedy merge of the leaves. -/
theorem buildTree_greedyMerge {freq : FreqTable} {t : Tree} (h : 2 ≤ (presentSyms freq).length)
    (ht : buildTree freq = some t) : GreedyMerge (builderLeaves freq : Multiset Tree) (presentSyms freq).length t := by
  obtain ⟨u, hu, hmerge, -⟩ := buildTree_spec h
  cases ht.symm.trans hu
  exact hmerge

/-- Settles O38: the tree of `exec_treeBuild`, by the number of symbols. -/
theorem treeBuildMergesGreedily : Obligations.TreeBuildMergesGreedily := by
  unfold Obligations.TreeBuildMergesGreedily
  intro s h
  obtain ⟨t, ht, hexec⟩ := exec_treeBuild h
  refine ⟨t, hexec, fun q f hsole => ?sole, fun hmany => ?many⟩
  case sole => rw [buildTree_sole hsole ht, soleTree_eq]
  case many =>
    obtain ⟨hsize, hleaves, hroot, -⟩ := buildTree_store hmany ht
    exact ⟨buildTree_greedyMerge hmany ht, hsize, hleaves, hroot⟩

/-- Settles O39: the builder's input by `presentSyms_sorted` and `mem_presentSyms`, the weights by `buildTree_ok`,
and the node store by `buildTree_store` or as that of the single symbol. -/
theorem builtTreeShape : Obligations.BuiltTreeShape := by
  unfold Obligations.BuiltTreeShape
  refine ⟨fun freq => ⟨List.pairwise_map.2 (presentSyms_sorted freq), fun q f => ?input⟩, fun freq t ht => ?tree⟩
  case input => rw [mem_presentSyms, eq_comm]
  case tree =>
    obtain ⟨-, hweighted, -⟩ := buildTree_ok ht
    refine ⟨hweighted, fun hmany => ?many, fun q f hsole => ?sole⟩
    case many =>
      obtain ⟨hsize, hleaves, hroot, hleaf, hnode⟩ := buildTree_store hmany ht
      exact ⟨hsize, hleaves, hroot, hleaf, hnode, buildTree_greedyMerge hmany ht⟩
    case sole =>
      obtain rfl := buildTree_sole hsole ht
      exact ⟨soleTree_eq q f, rfl, rfl⟩

/-! ### The code table (R190, R191) -/

/-- R190: the code of a leaf's symbol is the path to its first leaf. -/
theorem firstPath_of_mem_syms {t : Tree} {q : Byte} (h : q ∈ t.syms) :
    t.firstPath q = some (lookup (deriveCodes t) q) := by
  obtain ⟨p, hp⟩ := Option.isSome_iff_exists.1 ((t.firstPath_isSome q).2 h)
  rw [lookup_deriveCodes, hp, Option.getD_some]

/-- R191: under an internal root a symbol has a code exactly when a leaf holds it. -/
theorem lookup_deriveCodes_ne_nil {t : Tree} (ht : t.isNode = true) (q : Byte) :
    lookup (deriveCodes t) q ≠ [] ↔ q ∈ t.syms := by
  rw [← hasCode_deriveCodes ht, hasCode, decide_eq_true_iff, ne_eq, ne_eq, List.length_eq_zero_iff]

/-- Settles O40: the code is `Tree.firstPath`, which is the first of the paths to the symbol's leaves, is not empty
under an internal root, and is no longer than the tree is high. -/
theorem codesAreFirstPaths : Obligations.CodesAreFirstPaths := by
  unfold Obligations.CodesAreFirstPaths
  refine ⟨fun t q => ?path, fun t q hok hq => ?bounds⟩
  case path => rw [lookup_deriveCodes, t.firstPath_eq_find]
  case bounds =>
    have hpath := firstPath_of_mem_syms hq
    have hne := List.length_pos_iff.2 (Tree.firstPath_ne_nil hok.root hpath)
    have hle := t.firstPath_length hpath
    have hheight := t.height_lt_leaves
    have hleaves := hok.leaves_le
    constructor <;> omega

/-- R191: the code of a symbol is no prefix of another symbol's. -/
theorem not_prefix_deriveCodes {t : Tree} {q r : Byte} (hq : q ∈ t.syms) (hr : r ∈ t.syms) (hne : q ≠ r) :
    ¬lookup (deriveCodes t) q <+: lookup (deriveCodes t) r :=
  fun h => hne (t.firstPath_prefix (firstPath_of_mem_syms hq) (firstPath_of_mem_syms hr) h)

/-- The path of every leaf of a tree whose root is internal takes a bit. -/
theorem Tree.leafPath_ne_nil {t : Tree} (ht : t.isNode = true) {e : List Bool × Byte} (he : e ∈ t.leafPaths) :
    e.1 ≠ [] := by
  cases t with
  | leaf => simp [isNode] at ht
  | node i z o w =>
    simp only [leafPaths, List.mem_append, List.mem_map] at he
    rcases he with ⟨y, -, rfl⟩ | ⟨y, -, rfl⟩ <;> exact List.cons_ne_nil _ _

/-- The walk from AtRoot along the path to a leaf emits the leaf's symbol and ends (44_dispatch.md R245). -/
theorem Tree.decodeFrom_atRoot_leafPath {t : Tree} (ht : t.isNode = true) {e : List Bool × Byte}
    (he : e ∈ t.leafPaths) : decodeFrom t .atRoot e.1 = some [e.2] := by
  obtain ⟨b, bs, hpath⟩ := List.exists_cons_of_ne_nil (leafPath_ne_nil ht he)
  calc decodeFrom t .atRoot e.1
      = decodeFrom t (.atNode t) (e.1 ++ []) := by rw [List.append_nil, hpath, decodeFrom_atRoot]
    _ = (decodeFrom t .atRoot []).map (e.2 :: ·) := decodeFrom_leafPath t t ht he []
    _ = some [e.2] := rfl

/-- Settles O41: which symbols have a code by the leaves of the tree, `not_prefix_deriveCodes`, and the walk along
the path of a leaf. -/
theorem codesArePrefixFree : Obligations.CodesArePrefixFree := by
  unfold Obligations.CodesArePrefixFree
  refine ⟨fun freq t q ht => ?built, fun t hok => ⟨lookup_deriveCodes_ne_nil hok.root,
    fun q r hne hq hr => ?distinct, fun e => Tree.decodeFrom_atRoot_leafPath hok.root⟩⟩
  case built =>
    obtain ⟨hok, -, hsyms⟩ := buildTree_ok ht
    exact ⟨hok, (lookup_deriveCodes_ne_nil hok.root q).trans (hsyms q)⟩
  case distinct =>
    rw [lookup_deriveCodes_ne_nil hok.root] at hq hr
    have hprefix := not_prefix_deriveCodes hq hr hne
    exact ⟨fun heq => hprefix (heq ▸ List.prefix_refl _), hprefix⟩

end Sys2Proof.Machine
end

section
/-! PROOFS. The framer's round trip (43_framer.md R222): TREE_DESER reads back what TREE_SER wrote. -/

namespace Sys2Proof.Machine

/-- The two ways of saying where a serialized tree ends (R106). -/
theorem length_serTree_eq (t : Tree) : (serTree t).length = 19 * t.leaves - 9 := by
  have hlen := t.length_serTree
  omega

/-- A TREE_SER that goes on without an error has stored the whole serialized tree, and DST lies in memory. -/
theorem exec_treeSer_completed {s t : State} {T : Tree} (h : exec .treeSer s = .next t) (htree : s.tree = some T)
    (herr : t.err = false) :
    s.dstBase.toNat + (serTree T).length ≤ Config.addrSpace ∧
    t.mem = s.mem.writeBytes s.dstBase.toNat (serTree T) ∧ t.outLen = BitVec.ofNat 32 (serTree T).length := by
  rcases runCommand_next h with ⟨r, -, rfl⟩ | ⟨hrun, rfl⟩
  · exact absurd herr (by simp)
  · obtain ⟨hfits, hbody⟩ := treeSerBody_completed hrun htree herr
    exact ⟨(Nat.add_le_add_left hfits _).trans (run_dst hrun rfl), by rw [hbody], by rw [hbody]⟩

/-- The serialized tree is what a later command finds whose SRC is the DST of a TREE_SER that completed: at most
256 leaves make its length fit OUT_LEN. -/
theorem srcBytes_of_treeSer {s t u : State} {T : Tree} (hwf : s.mem.wf = true) (h : exec .treeSer s = .next t)
    (htree : s.tree = some T) (hleaves : T.leaves ≤ 256) (herr : t.err = false) (hmem : u.mem = t.mem)
    (hbase : u.srcBase = s.dstBase) (hlen : u.srcLen = t.outLen) : u.srcBytes = serTree T := by
  obtain ⟨hspace, htmem, hout⟩ := exec_treeSer_completed h htree herr
  have hsrcLen : u.srcLen.toNat = (serTree T).length := by
    have hbound := length_serTree_eq T
    rw [hlen, hout, BitVec.toNat_ofNat, Nat.mod_eq_of_lt (by omega)]
  calc u.srcBytes
      = (s.mem.writeBytes s.dstBase.toNat (serTree T)).bytes s.dstBase.toNat (serTree T).length := by
        rw [State.srcBytes, hmem, htmem, hbase, hsrcLen]
    _ = serTree T := Memory.bytes_writeBytes_self _ hwf hspace

/-- Settles O46: SRC holds the serialized tree and no more (`srcBytes_of_treeSer`), which TREE_DESER parses to the
same tree in pre-order (`treeDeserBody_done`); the installed codes are derived from the tree by `State.Inv`. -/
theorem framerRoundTrip : Obligations.FramerRoundTrip := by
  unfold Obligations.FramerRoundTrip
  intro s t u T hinv _ htree hser herr _ hmem hbase hlen hrun hread
  obtain ⟨hok, hcodes⟩ := hinv.tree T htree
  obtain ⟨-, -, hout⟩ := exec_treeSer_completed hser htree herr
  have hsrc : u.srcBytes = serTree T ++ [] := by
    rw [List.append_nil, srcBytes_of_treeSer hinv.mem hser htree hok.leaves_le herr hmem hbase hlen]
  have hbody := treeDeserBody_done hread hok.root hok.leaves_le hsrc
  refine ⟨treeDeserBody u, runCommand_run hrun, ?_⟩
  rw [hbody]
  exact ⟨rfl, rfl, rfl, hcodes.symm, by rw [hout, length_serTree_eq]⟩

end Sys2Proof.Machine
end

section
/-! PROOFS. The code dispatcher's inverse law (44_dispatch.md R249): DEC_RAW gives back the symbols ENC_RAW encoded. -/

namespace Sys2Proof.Machine

/-- ENC_RAW needs a tree to start (40_command.md R133). -/
theorem tree_of_run_encRaw {s : State} (h : startResult .encRaw s = .run) : ∃ T, s.tree = some T :=
  Option.isSome_iff_exists.1 (run_precondition h)

/-- An ENC_RAW that goes on without an error has run: every symbol has a code, and the packed codes fit DST. Since
DST has less than 2^32 bytes, BITCNT and OUT_LEN hold the two lengths without loss. -/
theorem exec_encRaw_completed {s t : State} {bits : List Bool} (h : exec .encRaw s = .next t) (herr : t.err = false)
    (hbits : encodeBits s.codes s.srcBytes = bits) :
    startResult .encRaw s = .run ∧ (∀ v ∈ s.srcBytes, hasCode s.codes v = true) ∧
    s.dstBase.toNat + (packBits bits).length ≤ Config.addrSpace ∧
    t.mem = s.mem.writeBytes s.dstBase.toNat (packBits bits) ∧
    t.bitcnt.toNat = bits.length ∧ t.outLen.toNat = (packBits bits).length := by
  rcases runCommand_next h with ⟨r, -, rfl⟩ | ⟨hrun, rfl⟩
  · exact absurd herr (by simp)
  · obtain ⟨hcoded, hfits, hbody⟩ := encRawBody_completed hrun herr
    rw [hbits] at hfits hbody
    have hspace := run_dst hrun rfl
    have hcap := s.dstCap.isLt
    have hlen := length_packBits bits
    rw [hbody]
    refine ⟨hrun, hcoded, by omega, rfl, ?bitcnt, ?outLen⟩
    case bitcnt => exact (BitVec.toNat_ofNat ..).trans (Nat.mod_eq_of_lt (by omega))
    case outLen => rw [hlen]; exact (BitVec.toNat_ofNat ..).trans (Nat.mod_eq_of_lt (by omega))

/-- A DEC_RAW whose SRC holds packed codes of the current tree, and whose BITCNT is their number of bits, completes
with the coded symbols in DST (44_dispatch.md R249, R251). -/
theorem exec_decRaw_packed {u : State} {T : Tree} {vs : List Byte} (hrun : startResult .decRaw u = .run)
    (hread : Readable u.params u.srcBase.toNat u.srcLen.toNat) (htree : u.tree = some T) (hroot : T.isNode = true)
    (hcoded : ∀ v ∈ vs, hasCode (deriveCodes T) v = true)
    (hsrc : u.srcBytes = packBits (encodeBits (deriveCodes T) vs))
    (hbitcnt : u.bitcnt.toNat = (encodeBits (deriveCodes T) vs).length)
    (htakes : Takes u.params u.dstBase.toNat u.dstCap.toNat vs.length) :
    exec .decRaw u = .next { u with
      seq := .idle
      done := true
      mem := u.mem.writeBytes u.dstBase.toNat vs
      outLen := BitVec.ofNat 32 vs.length } := by
  have henough : u.bitcnt.toNat ≤ 8 * u.srcLen.toNat := by
    have hlen := length_packBits (encodeBits (deriveCodes T) vs)
    rw [← hsrc, length_srcBytes] at hlen
    omega
  have hwalk : Tree.decodeFrom T .atRoot ((bitsOfBytes u.srcBytes).take u.bitcnt.toNat) = some vs := by
    rw [hsrc, hbitcnt, bitsOfBytes_packBits_take, decodeFrom_encodeBits hroot vs hcoded]
  exact (runCommand_run hrun).trans (congrArg _ (decRawBody_done hrun hread htree henough hwalk htakes))

/-- Settles O50: SRC of the DEC_RAW holds the packed codes and no more (`exec_encRaw_completed`), the codes are those
of the current tree by `State.Inv`, and the walk over them emits the symbols (`exec_decRaw_packed`). -/
theorem codecInverseLaw : Obligations.CodecInverseLaw := by
  unfold Obligations.CodecInverseLaw
  intro s t u hinv _ henc herr _ hmem htree hbase hlen hcnt hrun hread htakes
  obtain ⟨hencRun, hcoded, hspace, htmem, hbits, hout⟩ := exec_encRaw_completed henc herr rfl
  obtain ⟨T, hT⟩ := tree_of_run_encRaw hencRun
  obtain ⟨hok, hcodes⟩ := hinv.tree T hT
  have hsrc : u.srcBytes = packBits (encodeBits s.codes s.srcBytes) := by
    rw [State.srcBytes, hmem, htmem, hbase, hlen, hout]
    exact Memory.bytes_writeBytes_self _ hinv.mem hspace
  rw [hcodes] at hcoded hsrc hbits
  rw [← length_srcBytes] at htakes
  refine ⟨_, exec_decRaw_packed hrun hread (htree.trans hT) hok.root hcoded hsrc (hcnt ▸ hbits) htakes,
    rfl, rfl, ?len, ?bytes⟩
  case len => simp
  case bytes =>
    have hwf : u.mem.wf = true := by rw [hmem, htmem]; exact Memory.wf_writeBytes _ hinv.mem hspace
    rw [← length_srcBytes]
    exact Memory.bytes_writeBytes_self _ hwf ((Nat.add_le_add_left htakes.1 _).trans (run_dst hrun rfl))

end Sys2Proof.Machine
end

section
/-! PROOFS. ENCODE that completes (45_pipeline.md section 1): the empty artifact of an empty SRC, and what DST holds
after one of a non-empty SRC, which depends on the bytes of SRC and FREQ only. -/

namespace Sys2Proof.Machine

/-! ### An empty SRC (R263) -/

theorem count_of_srcLen_zero {s : State} (h0 : s.srcLen = 0) (c : Counters) : count s c = .ok c () := by
  simp [count, h0, countLoop]

theorem encodeRest_of_srcLen_zero {s : State} (h0 : s.srcLen = 0) :
    encodeRest s = { s with bitcnt := 0, outLen := 0 }.complete := if_pos h0

/-- ENCODE of an empty SRC: pass 1 clears the counters, and nothing is read or written. -/
theorem exec_encode_nothing {s : State} (hrun : startResult (.encode false) s = .run) (h0 : s.srcLen = 0) :
    exec (.encode false) s = .next { s with
      seq := .idle
      done := true
      freq := Counters.clear.freq
      total := 0
      bitcnt := 0
      outLen := 0 } := by
  have hbody : encodeBody false s =
      encodeRest { s with freq := Counters.clear.freq, total := Counters.clear.total } := by
    rw [encodeBody, count_of_srcLen_zero h0]
    rfl
  exact (runCommand_run hrun).trans (congrArg _ (hbody.trans (encodeRest_of_srcLen_zero h0)))

/-- ENCODE.PRE of an empty SRC: the counters stay too. -/
theorem exec_encodePre_nothing {s : State} (hrun : startResult (.encode true) s = .run) (h0 : s.srcLen = 0) :
    exec (.encode true) s = .next { s with seq := .idle, done := true, bitcnt := 0, outLen := 0 } :=
  (runCommand_run hrun).trans (congrArg _ (encodeRest_of_srcLen_zero h0))

/-- With every count 0 there is no tree to build (42_tree.md R186). -/
theorem buildTree_of_freq_zero {freq : FreqTable} (h : ∀ q, lookup freq q = 0) : buildTree freq = none :=
  buildTree_nil (presentSyms_eq_nil.2 h)

/-- ENCODE.PRE of a non-empty SRC with every count 0 (45_pipeline.md section 1). -/
theorem encodeRest_of_freq_zero {s : State} (hne : s.srcLen ≠ 0) (hfreq : ∀ q, lookup s.freq q = 0) :
    encodeRest s = s.raiseErr (raise .internal 0) := by
  rw [encodeRest, if_neg hne, buildTree_of_freq_zero hfreq]

/-- Settles O52: the two forms on an empty SRC, and the empty table, for which Build gives no tree. -/
theorem encodeOfNothing : Obligations.EncodeOfNothing := by
  unfold Obligations.EncodeOfNothing
  exact ⟨fun s hrun h0 => ⟨_, lookup_clear, exec_encode_nothing hrun h0⟩,
    fun s hrun h0 => exec_encodePre_nothing hrun h0,
    fun s hrun hne hfreq => (runCommand_run hrun).trans (congrArg _ (encodeRest_of_freq_zero hne hfreq))⟩

/-- Either form on an empty SRC leaves the empty artifact. -/
theorem exec_encode_empty {pre : Bool} {s t : State} (h : exec (.encode pre) s = .next t) (herr : t.err = false)
    (h0 : s.srcLen = 0) : t.outLen = 0 ∧ t.bitcnt = 0 := by
  rcases runCommand_next h with ⟨r, -, rfl⟩ | ⟨hrun, -⟩
  · exact absurd herr (by simp)
  · cases pre with
    | false => cases h.symm.trans (exec_encode_nothing hrun h0); exact ⟨rfl, rfl⟩
    | true => cases h.symm.trans (exec_encodePre_nothing hrun h0); exact ⟨rfl, rfl⟩

/-! ### A non-empty SRC (R265) -/

/-- FREQ after pass 1: the byte counts of SRC (R261), or with PRE what the host left (R262). -/
def encodeFreq (pre : Bool) (s : State) : FreqTable :=
  if pre then s.freq else (Counters.clear.tallyAll s.srcBytes).freq

/-- After an ENCODE from `s` that completed in `t`, DST holds the artifact of SRC under the tree `T`, and nothing is
lost in BITCNT and OUT_LEN. -/
structure HoldsArtifact (s t : State) (T : Tree) (bits : List Bool) : Prop where
  bits_eq : bits = encodeBits (deriveCodes T) s.srcBytes
  coded : ∀ v ∈ s.srcBytes, hasCode (deriveCodes T) v = true
  bits_lt : bits.length < 2 ^ 64
  bitcnt : t.bitcnt = BitVec.ofNat 64 bits.length
  outLen : t.outLen.toNat = (artifact T bits).length
  wf : t.mem.wf = true
  dst : t.mem.bytes s.dstBase.toNat t.outLen.toNat = artifact T bits

/-- An ENCODE of a non-empty SRC that goes on without an error has stored the artifact under the tree of its
counts. TMP and DST have less than 2^32 bytes, which bounds the two lengths. -/
theorem exec_encode_artifact {pre : Bool} {s t : State} (hwf : s.mem.wf = true) (h : exec (.encode pre) s = .next t)
    (herr : t.err = false) (hne : s.srcLen ≠ 0) :
    ∃ T bits, buildTree (encodeFreq pre s) = some T ∧ HoldsArtifact s t T bits := by
  have hwft := (exec_effect h).wf hwf
  rcases runCommand_next h with ⟨r, -, rfl⟩ | ⟨hrun, rfl⟩
  · exact absurd herr (by simp)
  · obtain ⟨f, tot, T, bits, hcounted, hgiven, hbuild, hbits, hcoded, htmp, hdst, hbody⟩ :=
      encodeBody_completed hrun hwf hne herr
    have hf : f = encodeFreq pre s := by
      cases pre with
      | false => exact (hcounted rfl).1
      | true => exact (hgiven rfl).1
    have htmpCap := s.tmpCap.isLt
    have hdstCap := s.dstCap.isLt
    have houtLen : (BitVec.ofNat 32 (artifact T bits).length).toNat = (artifact T bits).length :=
      (BitVec.toNat_ofNat ..).trans (Nat.mod_eq_of_lt (by omega))
    have htmpFits : s.tmpBase.toNat + (packBits bits).length ≤ Config.addrSpace := by
      rw [length_packBits]
      exact (Nat.add_le_add_left htmp _).trans (run_valid hrun (r := .tmp) rfl)
    rw [hbody] at hwft ⊢
    refine ⟨T, bits, hf ▸ hbuild, hbits, hcoded, by omega, rfl, houtLen, hwft, ?_⟩
    rw [houtLen]
    exact Memory.bytes_writeBytes_self _ (Memory.wf_writeBytes _ hwf htmpFits)
      ((Nat.add_le_add_left hdst _).trans (run_dst hrun rfl))

/-! ### Equal inputs (R269) -/

theorem srcLen_eq_of_srcBytes {s s' : State} (h : s.srcBytes = s'.srcBytes) : s.srcLen = s'.srcLen :=
  BitVec.eq_of_toNat_eq (by rw [← length_srcBytes, h, length_srcBytes])

theorem encodeFreq_congr {pre : Bool} {s s' : State} (hsrc : s.srcBytes = s'.srcBytes)
    (hfreq : pre = true → s.freq = s'.freq) : encodeFreq pre s = encodeFreq pre s' := by
  cases pre with
  | false => rw [encodeFreq, encodeFreq, hsrc]; rfl
  | true => exact hfreq rfl

/-- Settles O58: both encodings are empty, or both hold the artifact under the one tree of their counts. -/
theorem encodeDeterminism : Obligations.EncodeDeterminism := by
  unfold Obligations.EncodeDeterminism
  intro pre s t s' t' hinv hinv' _ _ hsrc hfreq henc henc' herr herr'
  have hlen := srcLen_eq_of_srcBytes hsrc
  by_cases h0 : s.srcLen = 0
  case pos =>
    obtain ⟨hout, hcnt⟩ := exec_encode_empty henc herr h0
    obtain ⟨hout', hcnt'⟩ := exec_encode_empty henc' herr' (hlen ▸ h0)
    rw [hout, hout', hcnt, hcnt']
    exact ⟨rfl, rfl, rfl⟩
  case neg =>
    obtain ⟨T, bits, hbuild, hart⟩ := exec_encode_artifact hinv.mem henc herr h0
    obtain ⟨T', bits', hbuild', hart'⟩ := exec_encode_artifact hinv'.mem henc' herr' (hlen ▸ h0)
    obtain rfl : T = T' := by
      rw [encodeFreq_congr hsrc hfreq, hbuild'] at hbuild
      exact (Option.some.inj hbuild).symm
    obtain rfl : bits = bits' := by rw [hart.bits_eq, hart'.bits_eq, hsrc]
    exact ⟨BitVec.eq_of_toNat_eq (hart.outLen.trans hart'.outLen.symm), hart.bitcnt.trans hart'.bitcnt.symm,
      hart.dst.trans hart'.dst.symm⟩

end Sys2Proof.Machine
end

section
/-! PROOFS. The pipeline's round trip (45_pipeline.md R274): DECODE gives back the bytes ENCODE compressed. -/

namespace Sys2Proof.Machine

/-- DECODE of an empty SRC (R266). -/
theorem decodeBody_of_srcLen_zero {s : State} (h0 : s.srcLen = 0) :
    decodeBody s = { s with outLen := 0, bitcnt := 0, srcPos := 0 }.complete := if_pos h0

/-- The artifact's bytes in the order DECODE reads them. -/
theorem artifact_eq (T : Tree) (bits : List Bool) :
    artifact T bits = serTree T ++ newline :: (dec bits.length ++ newline :: packBits bits) := by
  simp [artifact, headerBytes]

/-- A DECODE whose SRC is an artifact of `vs` completes with `vs` in DST. -/
theorem exec_decode_artifact {u : State} {T : Tree} {vs : List Byte} {bits : List Bool}
    (hrun : startResult .decode u = .run) (hread : Readable u.params u.srcBase.toNat u.srcLen.toNat) (hok : T.Ok)
    (hbits : bits = encodeBits (deriveCodes T) vs) (hcoded : ∀ v ∈ vs, hasCode (deriveCodes T) v = true)
    (hlen : bits.length < 2 ^ 64) (hsrc : u.srcBytes = artifact T bits)
    (htakes : Takes u.params u.dstBase.toNat u.dstCap.toNat vs.length) :
    ∃ v : State, exec .decode u = .next v ∧ v.done = true ∧ v.err = u.err ∧ v.outLen = BitVec.ofNat 32 vs.length ∧
      v.mem = u.mem.writeBytes u.dstBase.toNat vs := by
  have hvalue : decimalValue (dec bits.length) = bits.length := decimalValue_dec (by omega)
  have henough : decimalValue (dec bits.length) ≤ 8 * (packBits bits).length := by
    rw [hvalue, length_packBits]
    omega
  have hwalk : Tree.decodeFrom T .atRoot ((bitsOfBytes (packBits bits)).take (decimalValue (dec bits.length))) =
      some vs := by
    rw [hvalue, bitsOfBytes_packBits_take, hbits, decodeFrom_encodeBits hok.root vs hcoded]
  have hbody := decodeBody_done hrun hread hok.root hok.leaves_le (hsrc.trans (artifact_eq T bits)) (dec_digits _)
    (dec_ne_nil _) (by omega) henough hwalk htakes
  refine ⟨decodeBody u, runCommand_run hrun, ?_⟩
  rw [hbody]
  exact ⟨rfl, rfl, rfl, rfl⟩

/-- Settles O57: an empty SRC gives the empty artifact, which decodes to nothing; otherwise SRC of the DECODE holds
the artifact and no more (`exec_encode_artifact`), and its walk emits the bytes (`exec_decode_artifact`). -/
theorem pipelineRoundTrip : Obligations.PipelineRoundTrip := by
  unfold Obligations.PipelineRoundTrip
  intro s t u hinv _ henc herr _ hmem hbase hlen hrun hread htakes
  by_cases h0 : s.srcLen = 0
  case pos =>
    obtain ⟨hout, -⟩ := exec_encode_empty henc herr h0
    refine ⟨decodeBody u, runCommand_run hrun, ?_⟩
    rw [decodeBody_of_srcLen_zero (hlen.trans hout), State.srcBytes, h0]
    exact ⟨rfl, rfl, rfl, rfl⟩
  case neg =>
    obtain ⟨T, bits, hbuild, hart⟩ := exec_encode_artifact hinv.mem henc herr h0
    obtain ⟨hok, -⟩ := buildTree_ok hbuild
    have hsrc : u.srcBytes = artifact T bits := by rw [State.srcBytes, hmem, hbase, hlen, hart.dst]
    rw [← length_srcBytes] at htakes ⊢
    obtain ⟨v, hdec, hdone, hverr, hvlen, hvmem⟩ :=
      exec_decode_artifact hrun hread hok hart.bits_eq hart.coded hart.bits_lt hsrc htakes
    refine ⟨v, hdec, hdone, hverr, by simpa using hvlen, ?bytes⟩
    case bytes =>
      rw [hvmem]
      exact Memory.bytes_writeBytes_self _ (hmem ▸ hart.wf)
        ((Nat.add_le_add_left htakes.1 _).trans (run_dst hrun rfl))

end Sys2Proof.Machine
end

section
/-! PROOFS. How DECODE fails (45_pipeline.md R273): which tree it leaves, and where it reports a bad count line, a bad
payload or a failed fetch. -/

namespace Sys2Proof.Machine

section
variable {s : State} (hrun : startResult .decode s = .run)
include hrun

theorem exec_decode : exec .decode s = .next (decodeBody s) := runCommand_run hrun

/-! ### The tree a DECODE leaves -/

/-- R221: a parse that fails ends the DECODE without a tree; after one that succeeds the parsed tree stays. -/
theorem exec_decode_tree (hne : s.srcLen ≠ 0) :
    (∃ r : Raise, (r.kind = .io ∨ r.kind = .corrupt) ∧ exec .decode s = .next (s.uninstall.raiseErr r)) ∨
    ∃ t u, exec .decode s = .next u ∧ u.tree = some t ∧ u.codes = deriveCodes t := by
  rw [exec_decode hrun, decodeBody_ne (hne := hne)]
  rcases parseTree_cases s.params s.mem (srcOpen s.srcBase.toNat s.srcLen.toNat) with
    ⟨r, hparse, hkind⟩ | ⟨t, src, hparse, -⟩
  · rw [hparse]
    exact .inl ⟨r, hkind, rfl⟩
  · rw [hparse]
    exact .inr ⟨t, _, rfl, decodeRest_tree _ t src⟩

/-- Once the tree is read it stays, whatever its channel meets after it. -/
theorem exec_decode_parsedTree {H : SrcCh → List Byte → Prop} {e : Nat → Nat → Raise} (hF : Feeds s.params s.mem H e)
    {t : Tree} {rest : List Byte} (hroot : t.isNode = true) (hleaves : t.leaves ≤ 256)
    (hsrc : H (srcOpen s.srcBase.toNat s.srcLen.toNat) (serTree t ++ rest)) {u : State}
    (h : exec .decode s = .next u) : u.tree = some (t.renumber 0) ∧ u.codes = deriveCodes t := by
  obtain ⟨src, hbody, -⟩ := decodeBody_parsed hF hroot hleaves hsrc
  obtain rfl : decodeBody s = u := by simpa using (exec_decode hrun).symm.trans h
  rw [hbody, ← deriveCodes_renumber 0 t]
  exact decodeRest_tree _ _ src

/-- Without bus errors a parse fails only on a SRC that begins with no serialized tree, and then with E_CORRUPT. -/
theorem exec_decode_noTree (hread : Readable s.params s.srcBase.toNat s.srcLen.toNat) (hne : s.srcLen ≠ 0)
    (hno : ∀ (t : Tree) (rest : List Byte), t.isNode = true → t.leaves ≤ 256 → s.srcBytes ≠ serTree t ++ rest) :
    ∃ info : Nat, exec .decode s = .next (s.uninstall.raiseErr (raise .corrupt info)) := by
  rw [exec_decode hrun]
  rcases decodeBody_sound hread hne with ⟨⟨k, w⟩, rfl, hbody⟩ | ⟨t, rest, hroot, hleaves, hsrc⟩
  · exact ⟨w.toNat, by rw [hbody, raise, BitVec.ofNat_toNat, BitVec.setWidth_eq]⟩
  · exact absurd hsrc (hno t rest hroot hleaves)

/-- A DECODE that fails after its parse, in the form of the statement. -/
theorem exec_decode_keepsTree {t : Tree} {r : Raise} {m : Memory}
    (hbody : decodeBody s = State.raiseErr r { s.install (t.renumber 0) with mem := m }) :
    exec .decode s =
      .next (State.raiseErr r { s with tree := some (t.renumber 0), codes := deriveCodes t, mem := m }) := by
  rw [exec_decode hrun, hbody, State.install, deriveCodes_renumber]

end

/-- The count line and the payload in the order DECODE reads them. -/
theorem countLine_append (ds payload : List Byte) :
    [0x0A#8] ++ ds ++ [0x0A#8] ++ payload = newline :: (ds ++ newline :: payload) := by
  simp [newline]

theorem lt_two_pow_64_iff (n : Nat) : n < 2 ^ 64 ↔ n ≤ 2 ^ 64 - 1 := by omega

theorem two_pow_64_le_iff (n : Nat) : 2 ^ 64 ≤ n ↔ 2 ^ 64 - 1 < n := by omega

/-- Settles O56: the tree by `exec_decode_noTree`, `exec_decode_parsedTree` and `exec_decode_tree`; the place of an
error by the laws of `decodeBody`, one for each place it can be met. -/
theorem decodeStops : Obligations.DecodeStops := by
  unfold Obligations.DecodeStops
  intro s hrun
  refine ⟨fun hread hne => ⟨exec_decode_noTree hrun hread hne, fun t rest hroot hleaves hsrc =>
      ⟨fun u => exec_decode_parsedTree hrun (feeds_holds _ _) hroot hleaves (hsrc ▸ src_holds hread),
        fun info hbad => exec_decode_keepsTree hrun ?line,
        fun ds payload hrest hds hdne hvalue htakes => ⟨fun hlen hcut => exec_decode_keepsTree hrun ?cutCode,
          fun hlen => exec_decode_keepsTree hrun ?shortPayload⟩⟩⟩,
    exec_decode_tree hrun,
    fun j t hbus hroot => ⟨fun hcut => ?fetchTree, fun rest hleaves hgot =>
      ⟨fun u => exec_decode_parsedTree hrun (feeds_cut _ _ j) hroot hleaves (hgot ▸ src_cut hbus),
        fun hline => exec_decode_keepsTree hrun ?fetchLine,
        fun ds payload hrest hds hdne hvalue hlen htakes => exec_decode_keepsTree hrun ?fetchPayload⟩⟩⟩
  case line =>
    refine decodeBody_badLine hread hroot hleaves hsrc ?_
    simpa only [newline, lt_two_pow_64_iff, two_pow_64_le_iff] using hbad
  case cutCode =>
    rw [hrest, countLine_append] at hsrc
    exact decodeBody_badPayload hrun hread hroot hleaves hsrc hds hdne ((lt_two_pow_64_iff _).1 hvalue)
      (.inl ⟨hlen, rfl, hcut⟩) htakes
  case shortPayload =>
    rw [hrest, countLine_append] at hsrc
    exact decodeBody_badPayload hrun hread hroot hleaves hsrc hds hdne ((lt_two_pow_64_iff _).1 hvalue)
      (.inr ⟨hlen, rfl⟩) htakes
  case fetchTree => exact (exec_decode hrun).trans (congrArg _ (decodeBody_fetchTree hbus hroot hcut))
  case fetchLine =>
    refine decodeBody_fetchLine hbus hroot hleaves hgot ?_
    simpa only [newline, lt_two_pow_64_iff] using hline
  case fetchPayload =>
    rw [hrest, countLine_append] at hgot
    exact decodeBody_fetchPayload hrun hbus hroot hleaves hgot hds hdne ((lt_two_pow_64_iff _).1 hvalue) hlen htakes

end Sys2Proof.Machine
end

section
/-! PROOFS. Errors and the interrupt (60_exceptions.md): which command raises which error, and what moves the level
of IRQ. -/

namespace Sys2Proof.Machine

theorem State.Inv.reset : State.reset.Inv where
  mem := rfl
  notBoth := by simp [State.reset]
  whileBusy := by simp [State.reset]
  noRecord := fun _ => ⟨rfl, rfl⟩
  record := by simp [State.reset]
  tree := by simp [State.reset]
  noTree := fun _ => rfl

/-! ### The errors a command can raise (R293) -/

/-- The error code a command leaves, where it goes on to a next state. -/
def errorAfter (i : Instr) (s : State) : Option ErrKind :=
  match exec i s with
  | .next t => t.errCode
  | .fault _ => none
  | .refused _ => none

theorem exec_of_errorAfter {i : Instr} {s : State} {k : ErrKind} (h : errorAfter i s = some k) :
    ∃ t, exec i s = .next t ∧ t.errCode = some k := by
  unfold errorAfter at h
  split at h
  · next t ht => exact ⟨t, ht, h⟩
  · simp at h
  · simp at h

/-- Two regions of two bytes at the last address: each passes the top of the address space. -/
def pastTop : State :=
  { State.reset with srcBase := 0xFFFFFFFF, srcLen := 2, dstBase := 0xFFFFFFFF, dstCap := 2 }

/-- SRC is the byte 0x02, which is no bit, no tag of a record and a symbol without a code, since the tree and FREQ
know the symbol 0x61 only. BITCNT says one bit more than SRC has, TOTAL is at its limit, and DST has no room. -/
def badInput : State :=
  { State.reset with
    srcBase := 0x1000
    srcLen := 1
    bitcnt := 9
    total := 0xFFFFFFFF
    freq := update State.reset.freq 0x61 1
    tree := some (soleTree 0x61 1)
    codes := deriveCodes (soleTree 0x61 1)
    mem := [(0x1000, 0x02)] }

/-- `badInput` where the read of the one byte of SRC meets a bus error. -/
def badBus : State := { badInput with params := { Params.reference with busErrRd := [⟨0x1000, 0x1000⟩] } }

/-- A state in which each command that can raise the error raises it. After reset there is no tree and no count, which
the commands with a precondition need. -/
def raisingState : ErrKind → State
  | .io => badBus
  | .corrupt | .internal | .illegal | .overflow => badInput
  | .seq => State.reset
  | .region => pastTop

theorem soleTree_ok : (soleTree 0x61 1).Ok := ⟨rfl, by decide, by decide, by decide⟩

theorem badInput_inv : badInput.Inv where
  mem := by decide
  notBoth := by simp [badInput, State.reset]
  whileBusy := by simp [badInput, State.reset]
  noRecord := fun _ => ⟨rfl, rfl⟩
  record := by simp [badInput, State.reset]
  tree := fun t ht => by
    obtain rfl : soleTree 0x61 1 = t := Option.some.inj ht
    exact ⟨soleTree_ok, rfl⟩
  noTree := by simp [badInput]

theorem raisingState_inv (k : ErrKind) : (raisingState k).Inv := by
  cases k with
  | io => exact badInput_inv.congr rfl rfl rfl rfl rfl rfl rfl badInput_inv.mem
  | corrupt | internal | illegal | overflow => exact badInput_inv
  | seq => exact State.Inv.reset
  | region => exact State.Inv.reset.congr rfl rfl rfl rfl rfl rfl rfl rfl

theorem raisingState_err (k : ErrKind) : (raisingState k).err = false := by cases k <;> rfl

/-- Each mark of the table, by a run of its command: a bus error at the first byte of SRC, or for TREE_SER a DST
without room; a byte or a bit that the command does not take; a counter at its limit; a failed start check. -/
theorem errorAfter_raisingState (i : Instr) : ∀ k ∈ raisable i, errorAfter i (raisingState k) = some k := by
  cases i with
  | encode pre => cases pre <;> decide +kernel
  | _ => decide +kernel

/-- A command that starts without an error record ends with an error it can raise, if with any (40_command.md R136). -/
theorem exec_errCode_raisable {i : Instr} {s t : State} {k : ErrKind} (hs : s.errCode = none)
    (h : exec i s = .next t) (hk : t.errCode = some k) : k ∈ raisable i := by
  rcases (exec_effect h).outcome with ⟨-, -, hkept, -⟩ | ⟨-, -, ⟨e, he, hcode⟩, -⟩
  · simp [hk, hs] at hkept
  · obtain rfl : k = e := Option.some.inj (hk.symm.trans hcode)
    exact he

/-- `raisable` is the table: a command can raise these errors, each from a state in order, and no others. -/
theorem exec_raises_iff (i : Instr) (k : ErrKind) :
    (∃ s t : State, s.err = false ∧ s.errCode = none ∧ exec i s = .next t ∧ t.errCode = some k) ↔ k ∈ raisable i := by
  constructor
  · rintro ⟨s, t, -, hs, h, hk⟩
    exact exec_errCode_raisable hs h hk
  · intro hk
    obtain ⟨t, h, hcode⟩ := exec_of_errorAfter (errorAfter_raisingState i k hk)
    have herr := raisingState_err k
    exact ⟨raisingState k, t, herr, ((raisingState_inv k).noRecord herr).1, h, hcode⟩

/-- Settles O14: the table is `raisable` pair by pair, and an illegal word ends as `runFetched_of_error` says. -/
theorem eachCommandRaisesExactly : Obligations.EachCommandRaisesExactly := by
  unfold Obligations.EachCommandRaisesExactly
  refine ⟨fun i k => (exec_raises_iff i k).trans ?table, fun s t e hexec hdec h => ?illegal⟩
  case table =>
    cases i with
    | encode pre => cases pre <;> cases k <;> decide
    | _ => cases k <;> decide
  case illegal =>
    obtain rfl : s.illegalCommand = t := by
      simpa using ((step_executes hexec).trans (runFetched_of_error hdec)).symm.trans h
    rfl

/-! ### The interrupt output (R300) -/

theorem irq_eq (s : State) : s.irq = (s.irqEn && (s.done || s.err)) := rfl

theorem irq_eq_false_of_irqEn {s : State} (h : s.irqEn = false) : s.irq = false := by simp [irq_eq, h]

theorem irq_eq_false_of_done_err {s : State} (hdone : s.done = false) (herr : s.err = false) : s.irq = false := by
  simp [irq_eq, hdone, herr]

@[simp] theorem State.applyReset_irqEn (s : State) : s.applyReset.irqEn = false := by rw [applyReset_eq]; rfl

/-- A command that ends with IRQ_EN = 1 asserts IRQ. -/
theorem exec_irq {i : Instr} {s t : State} (hen : s.irqEn = true) (h : exec i s = .next t) : t.irq = true := by
  have hkept : t.irqEn = s.irqEn := by rw [(exec_effect h).frame]
  obtain ⟨-, hend⟩ := exec_ends h
  simp [irq_eq, hkept, hen, hend]

/-- IRQ_EN is changed by a write of CTRL and by a reset only (10_state.md R23). -/
theorem step_irqEn {s t : State} (h : step s = .next t) :
    t.irqEn = s.irqEn ∨ s.resets ∨ ∃ v, s.serves (.write 4 0x004 v) ∧ t.irqEn = v.getLsbD 1 := by
  rcases step_kinds h with ⟨same, -⟩ | ⟨_, _, hreset, -⟩ | ⟨v, hv, -, _, _, rfl⟩ | ⟨_, -, _, _, rfl⟩ |
    ⟨_, -, _, _, rfl⟩ | ⟨-, -, _, _, rfl⟩ | ⟨-, -, rfl⟩ | ⟨-, i, -, hnext⟩
  · exact .inl same.irqEn
  · exact .inr (.inl hreset)
  · exact .inr (.inr ⟨v, hv, rfl⟩)
  · exact .inl rfl
  · exact .inl rfl
  · exact .inl rfl
  · exact .inl rfl
  · exact .inl (by rw [(exec_effect hnext).frame])

/-- A step that takes IRQ from 1 to 0 has taken IRQ_EN, or the one of DONE and ERR that was 1, to 0. -/
theorem irq_deasserted_cases {s t : State} (hs : s.irq = true) (ht : t.irq = false) :
    (s.irqEn = true ∧ t.irqEn = false) ∨ (s.done = true ∧ t.done = false) ∨ (s.err = true ∧ t.err = false) := by
  simp only [irq_eq, Bool.and_eq_true, Bool.or_eq_true, Bool.and_eq_false_iff, Bool.or_eq_false_iff] at hs ht
  tauto

/-- What a step that deasserts IRQ may be. -/
theorem step_deasserts {s t : State} (h : step s = .next t) (hs : s.irq = true) (ht : t.irq = false) :
    s.clears 1 ∨ s.clears 2 ∨ (∃ w, s.issues w) ∨ s.resets ∨
      ∃ v, s.serves (.write 4 0x004 v) ∧ v.getLsbD 1 = false := by
  have changes := step_statusChanges h
  rcases irq_deasserted_cases hs ht with ⟨hon, hoff⟩ | ⟨hon, hoff⟩ | ⟨hon, hoff⟩
  · rcases step_irqEn h with hkept | hreset | ⟨v, hv, hset⟩
    · simp [hon, hoff] at hkept
    · exact .inr (.inr (.inr (.inl hreset)))
    · exact .inr (.inr (.inr (.inr ⟨v, hv, hset.symm.trans hoff⟩)))
  · rcases changes.done with hkept | ⟨hset, -⟩ | ⟨-, hclear | hissue | hreset⟩
    · simp [hon, hoff] at hkept
    · simp [hoff] at hset
    · exact .inl hclear
    · exact .inr (.inr (.inl hissue))
    · exact .inr (.inr (.inr (.inl hreset)))
  · rcases changes.err with hkept | ⟨hset, -⟩ | ⟨-, hclear | hissue | hreset⟩
    · simp [hon, hoff] at hkept
    · simp [hoff] at hset
    · exact .inr (.inl hclear)
    · exact .inr (.inr (.inl hissue))
    · exact .inr (.inr (.inr (.inl hreset)))

/-- A step that serves a write of the window is that write. -/
theorem step_write {s t : State} {off : Nat} {v : Word} (hv : s.serves (.write 4 off v)) (h : step s = .next t) :
    ∃ ops l, t = (s.afterAccess ops l).writeReg (winRegAt off) v := by
  obtain ⟨ops, l, -, hstep⟩ := step_serves hv
  exact ⟨ops, l, writes_eq (hstep.symm.trans h)⟩

section
variable {s t : State} (h : step s = .next t)
include h

/-- A write of 1 to DONE clears it, and ERR is 0 where DONE was 1. -/
theorem irq_of_clears_done (hinv : s.Inv) (hv : s.clears 1) (hdone : s.done = true) : t.irq = false := by
  have herr : s.err = false := by simpa [hdone] using hinv.notBoth
  obtain ⟨v, hserves, hbit⟩ := hv
  obtain ⟨ops, l, rfl⟩ := step_write hserves h
  exact irq_eq_false_of_done_err
    (show (s.done && !v.getLsbD 1) = false by simp [hbit]) (show (s.err && !v.getLsbD 2) = false by simp [herr])

/-- A write of 1 to ERR clears it, and DONE is 0 where ERR was 1. -/
theorem irq_of_clears_err (hinv : s.Inv) (hv : s.clears 2) (herr : s.err = true) : t.irq = false := by
  have hdone : s.done = false := by simpa [herr] using hinv.notBoth
  obtain ⟨v, hserves, hbit⟩ := hv
  obtain ⟨ops, l, rfl⟩ := step_write hserves h
  exact irq_eq_false_of_done_err
    (show (s.done && !v.getLsbD 1) = false by simp [hdone]) (show (s.err && !v.getLsbD 2) = false by simp [hbit])

/-- An issue clears DONE and ERR (40_command.md R130). -/
theorem irq_of_issues {w : Word} (hw : s.issues w) : t.irq = false := by
  obtain ⟨hidle, hserves⟩ := hw
  obtain ⟨ops, l, rfl⟩ := step_write hserves h
  have hissue : (s.afterAccess ops l).writeCmd w = (s.afterAccess ops l).issue w := by
    unfold State.writeCmd
    rw [show (s.afterAccess ops l).seq = .idle from hidle]
  exact (congrArg State.irq hissue).trans (irq_eq_false_of_done_err rfl rfl)

/-- A reset, of either kind, leaves IRQ_EN 0 (70_reset_and_hazards.md R320, R321). -/
theorem irq_of_resets (hreset : s.resets) : t.irq = false := by
  refine irq_eq_false_of_irqEn ?_
  rcases hreset with hserves | ⟨v, hserves, hbit⟩
  · obtain ⟨ops, l, -, hstep⟩ := step_serves hserves
    obtain rfl : (s.afterAccess ops l).applyReset = t := by simpa [hostAccess] using hstep.symm.trans h
    exact State.applyReset_irqEn _
  · obtain ⟨ops, l, rfl⟩ := step_write hserves h
    have hctrl : (s.afterAccess ops l).writeCtrl v = (s.afterAccess ops l).applyReset := if_pos hbit
    exact (congrArg State.irqEn hctrl).trans (State.applyReset_irqEn _)

/-- A write of 0 to IRQ_EN, whatever it writes to SRST. -/
theorem irq_of_irqEn_cleared {v : Word} (hserves : s.serves (.write 4 0x004 v)) (hbit : v.getLsbD 1 = false) :
    t.irq = false := by
  by_cases hsrst : v.getLsbD 0 = true
  case pos => exact irq_of_resets h (.inr ⟨v, hserves, hsrst⟩)
  case neg =>
    obtain ⟨ops, l, rfl⟩ := step_write hserves h
    have hctrl : (s.afterAccess ops l).writeCtrl v = { s.afterAccess ops l with irqEn := v.getLsbD 1 } := if_neg hsrst
    exact irq_eq_false_of_irqEn ((congrArg State.irqEn hctrl).trans hbit)

end

/-- Settles O30: the level by definition, `exec_irq` for what asserts it, `step_deasserts` for what may deassert it,
and one lemma for each event that does. -/
theorem interruptLevel : Obligations.InterruptLevel := by
  unfold Obligations.InterruptLevel
  refine ⟨irq_eq, fun s b => rfl, rfl, fun i s t => exec_irq, fun s t => step_deasserts, fun s t hinv h => ?_⟩
  exact ⟨irq_of_clears_done h hinv, irq_of_clears_err h hinv, fun ⟨_, hw⟩ => irq_of_issues h hw, irq_of_resets h,
    fun ⟨_, hserves, hbit⟩ => irq_of_irqEn_cleared h hserves hbit⟩

end Sys2Proof.Machine
end

section
/-! PROOFS. The invariant `State.Inv`: every step keeps it, and the reset state has it. -/

namespace Sys2Proof.Machine

namespace State.Inv

variable {s t : State}

/-- A command that ends with an error keeps the invariant (40_command.md R136): DONE is 0 while BUSY. -/
theorem raiseErr (h : s.Inv) (hb : s.seq = .busy) (r : Raise) : (s.raiseErr r).Inv where
  mem := h.mem
  notBoth := by simp [h.whileBusy hb]
  whileBusy := by simp
  noRecord := by simp
  record := by simp
  tree := h.tree
  noTree := h.noTree

/-- A host write of the window keeps the invariant. -/
theorem writeReg (h : s.Inv) (r : WinReg) (v : Word) : (s.writeReg r v).Inv := by
  rcases writeReg_cases r v s with hw | ⟨b, hw⟩ | hw | ⟨-, hw⟩ | hw | hw | ⟨-, hw⟩ <;> rw [hw]
  · exact h.applyReset
  · exact h.congr rfl rfl rfl rfl rfl rfl rfl h.mem
  · exact h.writeStatus v
  · exact h.issue v
  · exact h.congr rfl rfl rfl rfl rfl rfl rfl h.mem
  · exact h
  · obtain ⟨hseq, hdone, herr, hcode, hinfo, htree, hcodes, hmem⟩ := writeOther_frame r v s
    exact h.congr hseq hdone herr hcode hinfo htree hcodes (hmem ▸ h.mem)

/-- A host access keeps the invariant. -/
theorem hostAccess {op : HostOp} (h : s.Inv) (hop : hostAccess op s = .next t) : t.Inv := by
  rcases hostAccess_next hop with ⟨_, off, v, -, -, rfl⟩ | ⟨_, off, -, -, rfl⟩ | ⟨-, rfl⟩ | ⟨a, v, -, ha, rfl⟩ |
    ⟨a, -, -, rfl⟩ | ⟨-, rfl⟩
  · exact h.writeReg _ v
  · rw [readReg_frame]
    exact h.congr rfl rfl rfl rfl rfl rfl rfl h.mem
  · exact h.congr rfl rfl rfl rfl rfl rfl rfl h.mem
  · exact h.congr rfl rfl rfl rfl rfl rfl rfl (Memory.wf_write v h.mem ha)
  · exact h.congr rfl rfl rfl rfl rfl rfl rfl h.mem
  · exact h.applyReset

/-- The running command keeps the invariant, whatever word is in CMD. -/
theorem runFetched (h : s.Inv) (hb : s.seq = .busy) (hrun : runFetched s = .next t) : t.Inv := by
  rcases runFetched_next hrun with ⟨_, -, rfl⟩ | ⟨i, -, hexec⟩
  · exact h.raiseErr hb _
  · exact h.effect hb (exec_effect hexec)

theorem step (h : s.Inv) (hstep : step s = .next t) : t.Inv := by
  rcases step_next hstep with ⟨-, -, rfl⟩ | ⟨op, ops, l, -, -, hop⟩ | ⟨⟨hb, -⟩, hrun⟩
  · exact h
  · have hs : State.Inv { s with host := ops, lag := l } := h.congr rfl rfl rfl rfl rfl rfl rfl h.mem
    exact hs.hostAccess hop
  · exact h.runFetched hb hrun

end State.Inv

/-- Settles O59: a step is an idle one, a host access or the running command, and each keeps the invariant. -/
theorem stepKeepsInvariant : Obligations.StepKeepsInvariant := by
  unfold Obligations.StepKeepsInvariant
  exact fun s t h => h.step

/-- Settles O60: `State.Inv.reset`. -/
theorem resetHoldsInvariant : Obligations.ResetHoldsInvariant := by
  unfold Obligations.ResetHoldsInvariant
  exact State.Inv.reset

end Sys2Proof.Machine
end

section
/-! PROOFS. Commands as a whole (40_command.md; 30_encoding.md R94; 20_memory.md sections 1, 2 and 5): how one is
issued, how it starts, how it ends, and what it leaves alone. -/

namespace Sys2Proof.Machine

/-! ### Which step comes (70_reset_and_hazards.md R337) -/

theorem runFetched_of_ok {s : State} {i : Instr} (h : decode s.cmd = .ok i) : runFetched s = exec i s := by
  rw [runFetched, show s.fetch = .ok i from h]

theorem step_executes_ok {s : State} {i : Instr} (hs : s.executes) (h : decode s.cmd = .ok i) : step s = exec i s :=
  (step_executes hs).trans (runFetched_of_ok h)

theorem step_executes_error {s : State} {e : Reject} (hs : s.executes) (h : decode s.cmd = .error e) :
    step s = .next s.illegalCommand :=
  (step_executes hs).trans (runFetched_of_error h)

/-- IDLE, with no access of the host waiting, nothing changes (log 18). -/
theorem step_idle_nil {s : State} (hs : s.seq = .idle) (hh : s.host = []) : step s = .next s := by
  unfold step
  rw [hs, hh]

/-- IDLE, the next access of the host is served at once. -/
theorem step_idle {s : State} {op : HostOp} {ops : List HostOp} (hs : s.seq = .idle) (hh : s.host = op :: ops) :
    step s = hostAccess op { s with host := ops } := by
  unfold step
  rw [hs, hh]

/-- BUSY, an access of the host is served while `lag` says so. -/
theorem step_busy {s : State} {op : HostOp} {ops : List HostOp} {n : Nat} (hs : s.seq = .busy) (hl : s.lag = n + 1)
    (hh : s.host = op :: ops) : step s = hostAccess op { s with host := ops, lag := n } := by
  unfold step
  rw [hs, hl, hh]

/-- Settles O5: the three ways of a step, by the sequencer, `lag` and the host's list. -/
theorem stepRunsSelectedCommand : Obligations.StepRunsSelectedCommand := by
  unfold Obligations.StepRunsSelectedCommand
  exact fun s => ⟨fun i => step_executes_ok, fun op ops => step_idle, fun op ops n => step_busy⟩

/-! ### Issue (R130) -/

/-- While IDLE a write of CMD issues the word. -/
theorem writeCmd_of_idle {s : State} (hs : s.seq = .idle) (w : Word) : s.writeCmd w = s.issue w := by
  unfold State.writeCmd
  rw [hs]

theorem writes_cmd_idle {s : State} (hs : s.seq = .idle) (w : Word) : Writes s 0x00C w (s.issue w) := by
  rw [← writeCmd_of_idle hs w]
  exact writes_of (r := .cmd) (by decide) (by decide) rfl

theorem reads_status (s : State) : Reads s 0x008 s.statusWord :=
  reads_of (r := .status) (by decide) (by decide) rfl (.inr rfl)

/-- No host access but a reset ends the running command, or sets DONE or ERR. -/
theorem step_serves_busy {s t : State} {op : HostOp} (hb : s.seq = .busy) (hop : s.serves op) (hreset : ¬s.resets)
    (h : step s = .next t) : t.seq = .busy ∧ (s.done = false → t.done = false) ∧ (s.err = false → t.err = false) := by
  have hexec : ¬s.executes := hop.1
  have changes := step_statusChanges h
  refine ⟨?seq, fun hdone => ?done, fun herr => ?err⟩
  case seq =>
    rcases changes.seq with hkept | ⟨hbusy, -⟩ | ⟨-, he | hr⟩
    · exact hkept.trans hb
    · exact hbusy
    · exact absurd he hexec
    · exact absurd hr hreset
  case done =>
    rcases changes.done with hkept | ⟨-, he, -⟩ | ⟨hclear, -⟩
    · exact hkept.trans hdone
    · exact absurd he hexec
    · exact hclear
  case err =>
    rcases changes.err with hkept | ⟨-, he, -⟩ | ⟨hclear, -⟩
    · exact hkept.trans herr
    · exact absurd he hexec
    · exact hclear

/-- Settles O7: the write by `writes_cmd_idle`, the host while BUSY by the fields of STATUS and `step_serves_busy`, and
the command's step by the word in CMD. -/
theorem cmdWriteIssues : Obligations.CmdWriteIssues := by
  unfold Obligations.CmdWriteIssues
  refine ⟨fun s w hs => writes_cmd_idle hs w, fun s hb => ?status, fun s t op => step_serves_busy,
    fun s e => step_executes_error, fun s i => step_executes_ok⟩
  case status =>
    obtain ⟨hbusy, hdone, herr, -⟩ := statusWord_fields s
    exact ⟨reads_status s, hbusy.trans (busy_of_busy hb), hdone, herr⟩

/-! ### The start checks (R133) -/

/-- The region check looks at SRC, DST and TMP in that order, where the command uses them. -/
theorem startCheck_eq (i : Instr) (s : State) : startCheck i s =
    if usesRegion i .src = true ∧ s.regionValid .src = false then some ⟨.region, 0x010⟩
    else if usesRegion i .dst = true ∧ s.regionValid .dst = false then some ⟨.region, 0x018⟩
    else if usesRegion i .tmp = true ∧ s.regionValid .tmp = false then some ⟨.region, 0x020⟩
    else if precondition i s then none else some ⟨.seq, 0⟩ := by
  have hfind : (usedRegions i).find? (fun r => !s.regionValid r) =
      if usesRegion i .src = true ∧ s.regionValid .src = false then some .src
      else if usesRegion i .dst = true ∧ s.regionValid .dst = false then some .dst
      else if usesRegion i .tmp = true ∧ s.regionValid .tmp = false then some .tmp
      else none := by
    have hcons (p : Region → Bool) (r : Region) (l : List Region) :
        (r :: l).find? p = if p r = true then some r else l.find? p := by
      rw [List.find?_cons]
      cases p r <;> rfl
    simp [usedRegions, List.find?_filter, hcons]
  unfold startCheck
  rw [hfind]
  split_ifs <;> simp_all [Region.baseOffset]

theorem regionValid_eq_false {s : State} {r : Region} :
    s.regionValid r = false ↔ 2 ^ 32 < s.regionBase r + s.regionSize r := by
  simp [State.regionValid]

/-- A region that is not used, or ends inside the address space, passes its check. -/
theorem region_passes {i : Instr} {s : State} {r : Region}
    (h : usesRegion i r = true → s.regionBase r + s.regionSize r ≤ 2 ^ 32) :
    ¬(usesRegion i r = true ∧ s.regionValid r = false) := by
  rintro ⟨hu, hbad⟩
  exact absurd (regionValid_eq_false.1 hbad) (Nat.not_lt.2 (h hu))

/-- The preconditions that can fail: a tree, and a count that is not 0. -/
theorem precondition_eq_false {i : Instr} {s : State}
    (h : ((i = .treeSer ∨ i = .encRaw ∨ i = .decRaw) ∧ s.tree = none) ∨
      (i = .treeBuild ∧ ∀ q, lookup s.freq q = 0)) : precondition i s = false := by
  rcases h with ⟨rfl | rfl | rfl, htree⟩ | ⟨rfl, hfreq⟩
  · simp [precondition, State.treeValid, htree]
  · simp [precondition, State.treeValid, htree]
  · simp [precondition, State.treeValid, htree]
  · have hno : ¬precondition .treeBuild s = true := fun hp =>
      (any_freq_iff.1 hp).elim fun q hq => hq (hfreq q)
    simpa using hno

/-- Settles O10: `startCheck_eq` at the first check that fails, where those before it pass. -/
theorem startChecksInOrder : Obligations.StartChecksInOrder := by
  unfold Obligations.StartChecksInOrder
  refine ⟨fun s e => step_executes_error, fun i s => ⟨fun hu hbad => ?src, fun hu hbad hsrc => ?dst,
    fun hu hbad hsrc hdst => ?tmp, fun hvalid hpre => ?seq⟩, fun i => ?table, fun s r => rfl⟩
  case src =>
    refine exec_startRaises ?_
    rw [startCheck_eq, if_pos ⟨hu, regionValid_eq_false.2 hbad⟩]
  case dst =>
    refine exec_startRaises ?_
    rw [startCheck_eq, if_neg (region_passes hsrc), if_pos ⟨hu, regionValid_eq_false.2 hbad⟩]
  case tmp =>
    refine exec_startRaises ?_
    rw [startCheck_eq, if_neg (region_passes hsrc), if_neg (region_passes hdst),
      if_pos ⟨hu, regionValid_eq_false.2 hbad⟩]
  case seq =>
    refine exec_startRaises ?_
    rw [startCheck_eq, if_neg (region_passes (hvalid _)), if_neg (region_passes (hvalid _)),
      if_neg (region_passes (hvalid _)), if_neg (by simp [precondition_eq_false hpre])]
  case table =>
    cases i with
    | encode pre => cases pre <;> decide
    | _ => decide

/-! ### Refusals (20_memory.md R78, R85) -/

theorem startResult_raise {i : Instr} {s : State} {r : Raise} (h : startCheck i s = some r) :
    startResult i s = .raise r := by
  rw [startResult, h]

theorem startResult_overlap {i : Instr} {s : State} (h : startCheck i s = none) (hd : s.regionsDisjoint i = false) :
    startResult i s = .refuse .regionsOverlap := by
  rw [startResult, h]
  simp [hd]

theorem startResult_sideEffects {i : Instr} {s : State} (h : startCheck i s = none) (hd : s.regionsDisjoint i = true)
    (hse : (usedRegions i).any s.regionHasSideEffects = true) : startResult i s = .refuse .regionSideEffects := by
  rw [startResult, h]
  simp [hd, hse]

/-- A command whose regions are apart and ordinary memory goes on to a next state, whatever its start checks say. -/
theorem exec_next_of_regions {i : Instr} {s : State} (hd : s.regionsDisjoint i = true)
    (hse : (usedRegions i).any s.regionHasSideEffects = false) : ∃ t, exec i s = .next t := by
  cases hc : startCheck i s with
  | some r => exact ⟨_, exec_startRaises hc⟩
  | none => exact exec_run_next (startResult_run.2 ⟨hc, hd, hse⟩)

/-- Settles O15: the refusals of `startResult`, with the two conditions on regions said address by address
(`regionsDisjoint_iff`, `sideEffects_iff`). -/
theorem commandRefusedOnlyForItsRegions : Obligations.CommandRefusedOnlyForItsRegions := by
  unfold Obligations.CommandRefusedOnlyForItsRegions
  intro i s shared sensitive
  have hshared : s.regionsDisjoint i = true ↔ ¬shared := regionsDisjoint_iff
  have hsensitive : (usedRegions i).any s.regionHasSideEffects = true ↔ sensitive := sideEffects_iff
  refine ⟨fun hc hsh => ?overlap, fun hc hsh hse => ?sideEffects, fun h => ?next⟩
  case overlap =>
    refine exec_refused (startResult_overlap hc ?_)
    rw [← Bool.not_eq_true, hshared]
    exact not_not_intro hsh
  case sideEffects => exact exec_refused (startResult_sideEffects hc (hshared.2 hsh) (hsensitive.2 hse))
  case next =>
    rcases h with hc | ⟨hsh, hse⟩
    · obtain ⟨r, hr⟩ := Option.ne_none_iff_exists'.1 hc
      exact ⟨_, exec_startRaises hr⟩
    · exact exec_next_of_regions (hshared.2 hsh) (by rwa [← Bool.not_eq_true, hsensitive])

/-! ### How a command ends, and what it leaves alone (R135 to R137; 30_encoding.md R94) -/

/-- Settles O11: the two outcomes of `Effect`, from a state with DONE, ERR and the record clear. -/
theorem commandEndsDoneOrErr : Obligations.CommandEndsDoneOrErr := by
  unfold Obligations.CommandEndsDoneOrErr
  intro i s t hdone herr hcode hinfo h
  refine ⟨(exec_ends h).1, ?_⟩
  rcases (exec_effect h).outcome with ⟨hd, he, hc, hi, -⟩ | ⟨hd, he, hk, hout, hpos, hbit⟩
  · exact .inl ⟨hd, he.trans herr, hc.trans hcode, hi.trans hinfo⟩
  · exact .inr ⟨hd.trans hdone, he, hk, hout, hbit, hpos⟩

/-- The commands whose results include OUT_LEN: the out column of 30_encoding.md R94. -/
theorem outLen_mem_results {i : Instr} (h : .outLen ∈ results i) :
    i ∈ [.pack, .unpack, .treeSer, .encRaw, .decRaw, .encode false, .encode true, .decode] := by
  cases i with
  | encode pre => cases pre <;> simp
  | _ => simp [results] at h ⊢

/-- The commands whose results include SRC_POS. -/
theorem srcPos_mem_results {i : Instr} (h : .srcPos ∈ results i) : i ∈ [.treeDeser, .decode] := by
  cases i with
  | encode pre => cases pre <;> simp [results] at h
  | _ => simp [results] at h ⊢

/-- The commands whose results include FREQ and TOTAL. -/
theorem counters_mem_results {i : Instr} (h : .counters ∈ results i) : i ∈ [.ftClear, .ftCount, .encode false] := by
  cases i with
  | encode pre => cases pre <;> simp [results] at h ⊢
  | _ => simp [results] at h ⊢

/-- Settles O12: `Effect.frame`, and its clause for each result. -/
theorem commandFrame : Obligations.CommandFrame := by
  unfold Obligations.CommandFrame
  intro i s t h
  have eff := exec_effect h
  refine ⟨?frame, fun hi => eff.outLen fun hm => hi (outLen_mem_results hm),
    fun hi => eff.bitcnt fun hm => hi (bitcnt_mem_results hm), fun hi => eff.srcPos fun hm => hi (srcPos_mem_results hm),
    fun hi => eff.counters fun hm => hi (counters_mem_results hm), fun hi => ?tree⟩
  case frame =>
    have hframe := eff.frame
    rwa [← (exec_ends h).1] at hframe
  case tree => exact eff.tree.resolve_right fun ⟨hm, _⟩ => hi (tree_mem_results hm)

/-! ### The bytes a command leaves alone (20_memory.md R74; 45_pipeline.md R276) -/

/-- The regions a command writes, by the tables of R74. -/
theorem mem_writeRegions {i : Instr} {r : Region} : r ∈ writeRegions i ↔
    (r = .dst ∧ i ∈ [.pack, .unpack, .encRaw, .decRaw, .treeSer, .decode, .encode false, .encode true]) ∨
      (r = .tmp ∧ i ∈ [.encode false, .encode true]) := by
  cases i with
  | encode pre => cases pre <;> cases r <;> decide
  | _ => cases r <;> decide

theorem inRegion_eq_false {s : State} {r : Region} {a : Nat} :
    s.inRegion r a = false ↔ a < s.regionBase r ∨ s.regionBase r + s.regionSize r ≤ a := by
  simp only [State.inRegion, Bool.and_eq_false_iff, decide_eq_false_iff_not]
  omega

/-- A command that writes DST is one of those with DST alone, or an ENCODE. -/
theorem dst_written {i : Instr} (h : .dst ∈ writeRegions i) :
    i ∈ [.pack, .unpack, .encRaw, .decRaw, .treeSer, .decode] ∨ i = .encode false ∨ i = .encode true := by
  rcases mem_writeRegions.1 h with ⟨-, hi⟩ | ⟨hr, -⟩
  · simpa [or_assoc] using hi
  · simp at hr

/-- Only an ENCODE writes TMP. -/
theorem tmp_written {i : Instr} (h : .tmp ∈ writeRegions i) : i = .encode false ∨ i = .encode true := by
  rcases mem_writeRegions.1 h with ⟨hr, -⟩ | ⟨-, hi⟩
  · simp at hr
  · simpa using hi

theorem src_not_written (i : Instr) : .src ∉ writeRegions i := by
  simp [mem_writeRegions]

/-- An address outside DST and TMP, as far as the command writes them, is in no region it writes. -/
theorem outside_written {i : Instr} {s : State} {a : Nat}
    (hdst : .dst ∈ writeRegions i → a < s.dstBase.toNat ∨ s.dstBase.toNat + s.dstCap.toNat ≤ a)
    (htmp : .tmp ∈ writeRegions i → a < s.tmpBase.toNat ∨ s.tmpBase.toNat + s.tmpCap.toNat ≤ a) :
    ∀ r ∈ writeRegions i, s.inRegion r a = false := fun r hr => by
  rw [inRegion_eq_false]
  cases r with
  | src => exact absurd hr (src_not_written i)
  | dst => exact hdst hr
  | tmp => exact htmp hr

/-- An address past what the command has stored in DST and TMP. -/
theorem storedAt_eq_false {i : Instr} {t : State} {a : Nat}
    (hdst : .dst ∈ writeRegions i → a < t.dstBase.toNat ∨ t.dstBase.toNat + t.outLen.toNat ≤ a)
    (htmp : .tmp ∈ writeRegions i → a < t.tmpBase.toNat ∨ t.tmpBase.toNat + (t.bitcnt.toNat + 7) / 8 ≤ a) :
    storedAt i t a = false := by
  rw [storedAt, List.any_eq_false]
  intro r hr
  cases r with
  | src => simp
  | dst =>
    have := hdst hr
    simp only [Bool.and_eq_true, decide_eq_true_eq]
    omega
  | tmp =>
    have := htmp hr
    simp only [Bool.and_eq_true, decide_eq_true_eq]
    omega

/-- Settles O13: `Effect.mem` for every end of a command, and what one that completes has stored for the rest. -/
theorem commandMemoryFrame : Obligations.CommandMemoryFrame := by
  unfold Obligations.CommandMemoryFrame
  intro i s t h
  have eff := exec_effect h
  refine ⟨fun hi a => ?none, fun a hone hboth => ?regions, fun hs ht a hone hboth => ?stored⟩
  case none =>
    have hnone : writeRegions i = [] := by
      simp only [List.mem_cons, List.not_mem_nil, or_false] at hi
      rcases hi with rfl | rfl | rfl | rfl | rfl <;> rfl
    exact eff.mem a (by simp [hnone])
  case regions =>
    exact eff.mem a (outside_written (fun hw => (dst_written hw).elim hone fun he => (hboth he).1)
      fun hw => (hboth (tmp_written hw)).2)
  case stored =>
    have hdst : t.dstBase = s.dstBase := by rw [eff.frame]
    have htmp : t.tmpBase = s.tmpBase := by rw [eff.frame]
    rcases eff.outcome with ⟨-, -, -, -, hkept⟩ | ⟨-, herr, -⟩
    · refine hkept a (storedAt_eq_false ?_ ?_)
      · rw [hdst]
        exact fun hw => (dst_written hw).elim hone fun he => (hboth he).1
      · rw [htmp]
        exact fun hw => (hboth (tmp_written hw)).2
    · simp [ht] at herr

/-! ### WAIT and NOP (70_reset_and_hazards.md section 4, 40_command.md R140) -/

/-- A host in a WAIT loop: while `lag` says so, the read of STATUS comes again. -/
theorem step_wait {s : State} {ops : List HostOp} {n : Nat} (hb : s.seq = .busy) (hl : s.lag = n + 1)
    (hh : s.host = .wait :: ops) :
    step s = .next { s with host := .wait :: ops, lag := n, rdata := s.statusWord } := by
  have hbusy : State.busy { s with host := ops, lag := n } = true := busy_of_busy hb
  rw [step_busy hb hl hh, hostAccess_wait, if_pos hbusy]
  rfl

/-- A command that executes and is not refused for its regions ends in one step, and keeps the host's list. -/
theorem step_executes_ends {s : State} (hs : s.executes)
    (hregions : ∀ i, decode s.cmd = .ok i →
      s.regionsDisjoint i = true ∧ (usedRegions i).any s.regionHasSideEffects = false) :
    ∃ t, step s = .next t ∧ t.seq = .idle ∧ t.host = s.host := by
  cases hdec : decode s.cmd with
  | error e => exact ⟨_, step_executes_error hs hdec, rfl, rfl⟩
  | ok i =>
    obtain ⟨hd, hse⟩ := hregions i hdec
    obtain ⟨t, ht⟩ := exec_next_of_regions hd hse
    exact ⟨t, (step_executes_ok hs hdec).trans ht, (exec_ends ht).1, by rw [(exec_effect ht).frame]⟩

/-- A run takes a step that goes on first. -/
theorem run_succ (M : Host.Core) {s t : M.State} {k : Nat} (h : M.step s = .next t) : M.run (k + 1) s = M.run k t := by
  rw [Host.Core.run, h]

theorem core_run_succ {s t : State} {k : Nat} (h : step s = .next t) :
    Sys2Proof.core.run (k + 1) s = Sys2Proof.core.run k t :=
  run_succ Sys2Proof.core h

/-- A host in a WAIT loop, BUSY: the command ends after `lag` more reads of STATUS, and the WAIT comes once more. -/
theorem run_wait {s : State} {ops : List HostOp} (n : Nat) (hl : s.lag = n) (hb : s.seq = .busy)
    (hh : s.host = .wait :: ops)
    (hregions : ∀ i, decode s.cmd = .ok i →
      s.regionsDisjoint i = true ∧ (usedRegions i).any s.regionHasSideEffects = false) :
    ∃ t : State, Sys2Proof.core.run (n + 1) s = .next t ∧ t.seq = .idle ∧ t.host = .wait :: ops := by
  induction n generalizing s with
  | zero =>
    obtain ⟨t, hstep, hidle, hhost⟩ := step_executes_ends ⟨hb, .inl hl⟩ hregions
    exact ⟨t, core_run_succ hstep, hidle, hhost.trans hh⟩
  | succ n ih =>
    obtain ⟨t, hrun, ht⟩ := ih (s := { s with host := .wait :: ops, lag := n, rdata := s.statusWord }) rfl hb rfl hregions
    exact ⟨t, (core_run_succ (step_wait hb hl hh)).trans hrun, ht⟩

/-- Settles O31, by induction on `lag`. -/
theorem waitEnds : Obligations.WaitEnds := by
  unfold Obligations.WaitEnds
  exact fun s ops hb hh hregions => run_wait s.lag rfl hb hh hregions

/-- NOP uses no region and has no precondition: it always starts. -/
theorem startResult_nop (s : State) : startResult .nop s = .run :=
  startResult_run.2 ⟨startCheck_none.2 ⟨fun _ hr => absurd hr List.not_mem_nil, rfl⟩, rfl, rfl⟩

theorem exec_nop (s : State) : exec .nop s = .next { s with seq := .idle, done := true } :=
  runCommand_run (startResult_nop s)

/-- The OPC of a command's word. -/
theorem encode_opc (i : Instr) : (encode i).extractLsb' 0 8 = i.opc := by
  cases i with
  | encode pre => cases pre <;> decide
  | _ => decide

/-- Only NOP has OPC 0 (30_encoding.md R91). -/
theorem eq_nop_of_opc {i : Instr} (h : i.opc = 0#8) : i = .nop := by
  cases i with
  | nop => rfl
  | _ => simp [Instr.opc] at h

/-- A word with OPC 0 that is not 0 selects no command. -/
theorem decode_error_of_opc_zero {w : Word} (hopc : w.extractLsb' 0 8 = 0#8) (hne : w ≠ 0#32) :
    ∃ e, decode w = .error e := by
  cases h : decode w with
  | error e => exact ⟨e, rfl⟩
  | ok i =>
    obtain rfl := (decode_ok w i).1 h
    obtain rfl := eq_nop_of_opc ((encode_opc i).symm.trans hopc)
    exact absurd rfl hne

/-- Settles O32: NOP starts in every state; the run issues it, executes it and reads STATUS. -/
theorem nopCompletes : Obligations.NopCompletes := by
  unfold Obligations.NopCompletes
  refine ⟨exec_nop, by decide, fun w => decode_error_of_opc_zero, ?run⟩
  case run =>
    have issue : step { State.reset with host := [.write 4 0x00C 0#32, .wait] } =
        .next (State.issue 0 { State.reset with host := [.wait] }) := (step_idle rfl rfl).trans (writes_cmd_idle rfl 0)
    have execute : step (State.issue 0 { State.reset with host := [.wait] }) = _ :=
      (step_executes_ok ⟨rfl, .inl rfl⟩ (by decide)).trans (exec_nop _)
    exact ⟨_, (core_run_succ issue).trans ((core_run_succ execute).trans
      (core_run_succ ((step_idle rfl rfl).trans (hostAccess_wait _)))), rfl, by decide⟩

end Sys2Proof.Machine
end

section
/-! PROOFS. The host's accesses to the register window (10_state.md): CTRL and the constant registers, reserved offsets
and read-only registers, accesses while BUSY, and what an IDLE engine keeps. -/

namespace Sys2Proof.Machine

/-! ### What stands at an offset (10_state.md section 2) -/

/-- A register that stands at one offset only is reached from there only. -/
theorem off_eq_of_winRegAt {off : Nat} (h4 : off % 4 = 0) {r : WinReg} (h : winRegAt off = r)
    (hr : r ∈ [WinReg.id, .ctrl, .status, .cmd, .srcBase, .srcLen, .dstBase, .dstCap, .tmpBase, .tmpCap, .outLen, .srcPos, .bitcntLo, .bitcntHi, .total, .errInfo]) :
    off = offsetOf r :=
  (winRegAt_inv h4 h).2 hr

theorem off_eq_of_freq {off : Nat} (h4 : off % 4 = 0) {q : Byte} (h : winRegAt off = .freq q) :
    off = 0x400 + 4 * q.toNat :=
  (winRegAt_inv h4 h).1 q rfl

/-- PARAM stands at 0x04C only. -/
theorem off_eq_of_param {off : Nat} (h4 : off % 4 = 0) (h : winRegAt off = .param) : off = 0x04C := by
  unfold winRegAt at h
  split_ifs at h with hlow
  obtain ⟨k, rfl⟩ : ∃ k, off = 4 * k := ⟨off / 4, by omega⟩
  have hk : k < 20 := by omega
  rw [Nat.mul_div_cancel_left k (by decide)] at h
  clear h4 hlow
  interval_cases k <;> simp at h ⊢

/-- The offsets of the registers that may be read while BUSY (R35). -/
theorem readableWhileBusy_eq_false {off : Nat} (h4 : off % 4 = 0) (hoff : off ∉ [0x000, 0x004, 0x008, 0x00C, 0x04C]) :
    readableWhileBusy (winRegAt off) = false := by
  simp only [List.mem_cons, List.not_mem_nil, or_false, not_or] at hoff
  obtain ⟨h0, h1, h2, h3, h5⟩ := hoff
  cases hr : winRegAt off with
  | id => exact absurd (off_eq_of_winRegAt h4 hr (by simp)) h0
  | ctrl => exact absurd (off_eq_of_winRegAt h4 hr (by simp)) h1
  | status => exact absurd (off_eq_of_winRegAt h4 hr (by simp)) h2
  | cmd => exact absurd (off_eq_of_winRegAt h4 hr (by simp)) h3
  | param => exact absurd (off_eq_of_param h4 hr) h5
  | _ => rfl

/-! ### CTRL (R23) -/

theorem writeCtrl_reset {s : State} {v : Word} (hv : v.getLsbD 0 = true) : s.writeCtrl v = s.applyReset := if_pos hv

theorem writeCtrl_irqEn {s : State} {v : Word} (hv : v.getLsbD 0 = false) :
    s.writeCtrl v = { s with irqEn := v.getLsbD 1 } := if_neg (Bool.eq_false_iff.1 hv)

theorem writes_ctrl (s : State) (v : Word) : Writes s 0x004 v (s.writeCtrl v) :=
  writes_of (r := .ctrl) (by decide) (by decide) rfl

theorem writes_status (s : State) (v : Word) : Writes s 0x008 v (s.writeStatus v) :=
  writes_of (r := .status) (by decide) (by decide) rfl

theorem reads_ctrl (s : State) : Reads s 0x004 s.ctrlWord :=
  reads_of (r := .ctrl) (by decide) (by decide) rfl (.inr rfl)

theorem reads_id (s : State) : Reads s 0x000 0x48554631#32 :=
  reads_of (r := .id) (by decide) (by decide) rfl (.inr rfl)

theorem reads_param (s : State) : Reads s 0x04C (s.regWord .param) :=
  reads_of (r := .param) (by decide) (by decide) rfl (.inr rfl)

theorem ctrlWord_eq (s : State) : s.ctrlWord = if s.irqEn then 0x00000002#32 else 0x00000000#32 := by
  unfold State.ctrlWord
  cases s.irqEn <;> rfl

/-! ### No step changes the parameters (log 3) -/

@[simp] theorem applyReset_params (s : State) : s.applyReset.params = s.params := by rw [applyReset_eq]; rfl

@[simp] theorem writeOther_params (r : WinReg) (v : Word) (s : State) : (s.writeOther r v).params = s.params := by
  cases r <;> rfl

@[simp] theorem writeReg_params (r : WinReg) (v : Word) (s : State) : (s.writeReg r v).params = s.params := by
  rcases writeReg_cases r v s with hw | ⟨b, hw⟩ | hw | ⟨-, hw⟩ | hw | hw | ⟨-, hw⟩
  · rw [hw, applyReset_params]
  · rw [hw]
  · rw [hw, State.writeStatus_params]
  · rw [hw, State.issue_params]
  · rw [hw]
  · rw [hw]
  · rw [hw, writeOther_params]

theorem hostAccess_params {op : HostOp} {s t : State} (h : hostAccess op s = .next t) : t.params = s.params := by
  rcases hostAccess_next h with ⟨_, off, v, -, -, rfl⟩ | ⟨_, off, -, -, rfl⟩ | ⟨-, rfl⟩ | ⟨a, v, -, -, rfl⟩ |
    ⟨a, -, -, rfl⟩ | ⟨-, rfl⟩
  · exact writeReg_params _ v s
  · rw [readReg_frame]
  · rfl
  · rfl
  · rfl
  · exact applyReset_params s

theorem step_params {s t : State} (h : step s = .next t) : t.params = s.params := by
  rcases step_next h with ⟨-, -, rfl⟩ | ⟨op, ops, l, -, -, hop⟩ | ⟨-, hrun⟩
  · rfl
  · have hkept := hostAccess_params hop
    exact hkept
  · rcases runFetched_next hrun with ⟨_, -, rfl⟩ | ⟨i, -, hexec⟩
    · rfl
    · rw [(exec_effect hexec).frame]

theorem brBlock_lt (p : Params) : p.brBlock < 2 ^ 16 := by
  have := p.brBlockPred.isLt
  unfold Params.brBlock
  omega

theorem bwCap_lt (p : Params) : p.bwCap < 2 ^ 16 := by
  have := p.bwCapPred.isLt
  unfold Params.bwCap
  omega

/-- Settles O17: the three registers by their reads and writes, and `step_params`. -/
theorem controlAndConstantRegisters : Obligations.ControlAndConstantRegisters := by
  unfold Obligations.ControlAndConstantRegisters
  refine ⟨fun s v => ⟨reads_id s, ?writeId, regWord_param s ▸ reads_param s, ?writeParam, brBlock_lt _, bwCap_lt _,
    ctrlWord_eq s ▸ reads_ctrl s, irq_eq_false_of_irqEn, fun hen => by simp [irq_eq, hen], fun hv => ?irqEn,
    fun hv => ⟨?srst, State.applyReset_irqEn s⟩⟩, rfl, fun s t => step_params⟩
  case writeId => exact writes_readOnly (r := .id) (by decide) (by decide) rfl (by simp) (by simp) (by simp) rfl
  case writeParam => exact writes_readOnly (r := .param) (by decide) (by decide) rfl (by simp) (by simp) (by simp) rfl
  case irqEn => exact writeCtrl_irqEn hv ▸ writes_ctrl s v
  case srst => exact writeCtrl_reset hv ▸ writes_ctrl s v

/-! ### Accesses while BUSY (R35) -/

/-- Only CTRL, STATUS and CMD take a write while BUSY. -/
theorem writes_busy {s : State} {off : Nat} {v : Word} (hb : s.seq = .busy) (h4 : off % 4 = 0) (hle : off ≤ 0x4FFC)
    (hoff : off ∉ [0x004, 0x008, 0x00C]) : Writes s off v s := by
  simp only [List.mem_cons, List.not_mem_nil, or_false, not_or] at hoff
  obtain ⟨h1, h2, h3⟩ := hoff
  have hkept : s.writeReg (winRegAt off) v = s := writeReg_busy hb
    (fun hr => h1 (off_eq_of_winRegAt h4 hr (by simp))) (fun hr => h2 (off_eq_of_winRegAt h4 hr (by simp)))
    (fun hr => h3 (off_eq_of_winRegAt h4 hr (by simp)))
  have hw : Writes s off v (s.writeReg (winRegAt off) v) := writes_of h4 hle rfl
  rwa [hkept] at hw

/-- A read while BUSY of a register R35 does not list gives a free value. -/
theorem reads_busy_free {s : State} {off : Nat} (hb : s.seq = .busy) (h4 : off % 4 = 0) (hle : off ≤ 0x4FFC)
    (hoff : off ∉ [0x000, 0x004, 0x008, 0x00C, 0x04C]) :
    hostAccess (.read 4 off) s =
      .next { s with rdata := Config.freeWord s.freeCount, freeCount := s.freeCount + 1 } := by
  simp [hostAccess, windowAccessOk_iff.2 ⟨rfl, h4, hle⟩, State.readReg, busy_of_busy hb,
    readableWhileBusy_eq_false h4 hoff]

/-- Settles O21: `writes_busy` and `reads_busy_free` for the offsets R35 does not list, and each that it lists. -/
theorem busyAccess : Obligations.BusyAccess := by
  unfold Obligations.BusyAccess
  intro s hb
  refine ⟨fun off v => writes_busy hb, fun off => reads_busy_free hb,
    ⟨reads_id s, reads_ctrl s, reads_status s, ?readCmd, reads_param s⟩,
    fun v => ⟨writes_status s v, ?writeCmd, fun hv => ?irqEn, fun hv => ?srst⟩⟩
  case readCmd => exact reads_of (r := .cmd) (by decide) (by decide) rfl (.inr rfl)
  case writeCmd => exact writeCmd_of_busy hb v ▸ writes_of (r := .cmd) (by decide) (by decide) rfl
  case irqEn => exact writeCtrl_irqEn hv ▸ writes_ctrl s v
  case srst => exact writeCtrl_reset hv ▸ writes_ctrl s v

/-! ### Reserved offsets and bits, and read-only registers (R34, R48) -/

theorem ctrlWord_fields (s : State) : s.ctrlWord.getLsbD 0 = false ∧ s.ctrlWord.extractLsb' 2 30 = 0#30 := by
  rw [ctrlWord_eq]
  cases s.irqEn <;> decide

/-- Two words that agree on a field agree on each bit of it. -/
theorem getLsbD_eq_of_extractLsb' {v v' : Word} {lo n k : Nat} (h : v.extractLsb' lo n = v'.extractLsb' lo n)
    (hk : k < n) : v.getLsbD (lo + k) = v'.getLsbD (lo + k) := by
  have hbit := congrArg (·.getLsbD k) h
  simpa [hk] using hbit

/-- A write of CTRL depends on its two bits only. -/
theorem writeCtrl_congr {s : State} {v v' : Word} (h : v.extractLsb' 0 2 = v'.extractLsb' 0 2) :
    s.writeCtrl v = s.writeCtrl v' := by
  have h0 := getLsbD_eq_of_extractLsb' (k := 0) h (by decide)
  have h1 := getLsbD_eq_of_extractLsb' (k := 1) h (by decide)
  unfold State.writeCtrl
  rw [h0, h1]

/-- A write of STATUS depends on its three write-1-to-clear bits only. -/
theorem writeStatus_congr {s : State} {v v' : Word} (h : v.extractLsb' 1 3 = v'.extractLsb' 1 3) :
    s.writeStatus v = s.writeStatus v' := by
  have h1 := getLsbD_eq_of_extractLsb' (k := 0) h (by decide)
  have h2 := getLsbD_eq_of_extractLsb' (k := 1) h (by decide)
  have h3 := getLsbD_eq_of_extractLsb' (k := 2) h (by decide)
  unfold State.writeStatus
  rw [h1, h2, h3]

/-- The registers at these offsets take no write, IDLE or BUSY. -/
theorem writes_readOnly_offset {s : State} {off : Nat} {v : Word} (h4 : off % 4 = 0)
    (hoff : off ∈ [0x000, 0x028, 0x02C, 0x03C, 0x040, 0x044, 0x048, 0x04C] ∨ (0x800 ≤ off ∧ off ≤ 0xBFC) ∨
      (0x1000 ≤ off ∧ off ≤ 0x4FEC)) : Writes s off v s := by
  have code (h : (0x800 ≤ off ∧ off < 0xC00) ∨ (0x1000 ≤ off ∧ off < 0x3000)) : Writes s off v s := by
    obtain ⟨q, hr⟩ | ⟨q, w, hr⟩ := winRegAt_code h <;>
      exact writes_readOnly h4 (by omega) hr (by simp) (by simp) (by simp) rfl
  rcases hoff with hoff | hoff | hoff
  · simp only [List.mem_cons, List.not_mem_nil, or_false] at hoff
    rcases hoff with rfl | rfl | rfl | rfl | rfl | rfl | rfl | rfl <;>
      exact writes_readOnly (by decide) (by decide) rfl (by decide) (by decide) (by decide) rfl
  · exact code (.inl ⟨hoff.1, by omega⟩)
  · by_cases h3 : off < 0x3000
    · exact code (.inr ⟨hoff.1, h3⟩)
    · exact writes_readOnly h4 (by omega) (winRegAt_nodes (by omega) (by omega)) (by simp) (by simp) (by simp) rfl

/-- A host read of the window changes the model's own fields only (R48). -/
theorem hostAccess_read_frame {s t : State} {size off : Nat} (h : hostAccess (.read size off) s = .next t) :
    t = { s with rdata := t.rdata, freeCount := t.freeCount } := by
  have hread : t = s.readReg (winRegAt off) := by
    simp only [hostAccess] at h
    split at h
    · simpa using h.symm
    · simp at h
  rw [hread]
  exact readReg_frame _ s

/-- Settles O22: reserved offsets by `winRegAt_reserved`, the fields of the two words, the bits a write depends on, and
the registers that take none. -/
theorem reservedAndReadOnly : Obligations.ReservedAndReadOnly := by
  unfold Obligations.ReservedAndReadOnly
  refine ⟨fun s off v hs h4 hoff => ?reserved, fun s => ?bits, fun s t v v' hbits hw => ?ctrl,
    fun s t v v' hbits hw => ?status, fun s t size off => hostAccess_read_frame, fun s off v => writes_readOnly_offset⟩
  case reserved =>
    have hr : winRegAt off = .reserved := winRegAt_reserved (by omega)
    exact reads_writes_idle (r := .reserved) hs ⟨h4, by omega, hr, by simp⟩
  case bits =>
    obtain ⟨hsrst, hctrl⟩ := ctrlWord_fields s
    obtain ⟨-, -, -, -, -, hmid, -, htop⟩ := statusWord_fields s
    exact ⟨hsrst, hctrl, hmid, htop⟩
  case ctrl =>
    obtain rfl : t = s.writeCtrl v := writes_eq hw
    exact writeCtrl_congr hbits ▸ writes_ctrl s v'
  case status =>
    obtain rfl : t = s.writeStatus v := writes_eq hw
    exact writeStatus_congr hbits ▸ writes_status s v'

/-! ### The accesses the interface has (R47) -/

theorem windowOffset_of_lt {s : State} {off : Nat} (h : off < 0x5000) :
    s.windowOffset (s.params.huffBase + off) = some off := by
  rw [State.windowOffset, if_pos ⟨Nat.le_add_right _ _, Nat.add_lt_add_left h _⟩, Nat.add_sub_cancel_left]

theorem windowOffset_outside {s : State} {a : Nat} (h : a < s.params.huffBase ∨ s.params.huffBase + 0x5000 ≤ a) :
    s.windowOffset a = none :=
  if_neg fun ⟨hlow, hhigh⟩ => h.elim (Nat.not_lt.2 hlow) (Nat.not_le.2 hhigh)

theorem hostAccess_window_ok {size off : Nat} (h : windowAccessOk size off = true) (s : State) (v : Word) :
    hostAccess (.read size off) s = .next (s.readReg (winRegAt off)) ∧
      hostAccess (.write size off v) s = .next (s.writeReg (winRegAt off) v) :=
  ⟨if_pos h, if_pos h⟩

theorem hostAccess_window_refused {size off : Nat} (h : windowAccessOk size off = false) (s : State) (v : Word) :
    hostAccess (.read size off) s = .refused .windowAccess ∧
      hostAccess (.write size off v) s = .refused .windowAccess :=
  ⟨if_neg (by simp [h]), if_neg (by simp [h])⟩

/-- Settles O23: host addresses by `windowOffset`, and an access by `windowAccessOk`. -/
theorem windowAccessRefused : Obligations.WindowAccessRefused := by
  unfold Obligations.WindowAccessRefused
  refine fun s size off v => ⟨fun hoff => ?inside, fun a ha => ?outside, fun hok => ?served, fun hbad => ?refused⟩
  case inside => simp [State.hostLoad, State.hostStore, windowOffset_of_lt hoff]
  case outside => simp [State.hostLoad, State.hostStore, windowOffset_outside ha]
  case served =>
    obtain ⟨hread, hwrite⟩ := hostAccess_window_ok (windowAccessOk_iff.2 hok) s v
    exact ⟨⟨_, hread⟩, _, hwrite⟩
  case refused =>
    refine hostAccess_window_refused ?_ s v
    rwa [← Bool.not_eq_true, windowAccessOk_iff]

/-! ### What an IDLE engine keeps (60_exceptions.md R311) -/

/-- What a host write of the register `r` that is no reset keeps: every register and table but that one, and with a
write of CMD, which issues a command, the record of the last one goes too. -/
structure WriteKeeps (r : WinReg) (s t : State) : Prop where
  frame : t = { s with irqEn := t.irqEn, done := t.done, err := t.err, errCode := t.errCode, errInfo := t.errInfo, ovr := t.ovr, seq := t.seq, cmd := t.cmd, lag := t.lag, lags := t.lags, srcBase := t.srcBase, srcLen := t.srcLen, dstBase := t.dstBase, dstCap := t.dstCap, tmpBase := t.tmpBase, tmpCap := t.tmpCap, bitcnt := t.bitcnt, total := t.total, freq := t.freq }
  ctrl : r ≠ .ctrl → t.irqEn = s.irqEn
  status : r ≠ .status → r ≠ .cmd →
    t.done = s.done ∧ t.err = s.err ∧ t.errCode = s.errCode ∧ t.errInfo = s.errInfo ∧ t.ovr = s.ovr
  cmd : r ≠ .cmd → t.seq = s.seq ∧ t.cmd = s.cmd ∧ t.lag = s.lag ∧ t.lags = s.lags
  srcBase : r ≠ .srcBase → t.srcBase = s.srcBase
  srcLen : r ≠ .srcLen → t.srcLen = s.srcLen
  dstBase : r ≠ .dstBase → t.dstBase = s.dstBase
  dstCap : r ≠ .dstCap → t.dstCap = s.dstCap
  tmpBase : r ≠ .tmpBase → t.tmpBase = s.tmpBase
  tmpCap : r ≠ .tmpCap → t.tmpCap = s.tmpCap
  bitcntLo : r ≠ .bitcntLo → t.bitcnt.extractLsb' 0 32 = s.bitcnt.extractLsb' 0 32
  bitcntHi : r ≠ .bitcntHi → t.bitcnt.extractLsb' 32 32 = s.bitcnt.extractLsb' 32 32
  total : r ≠ .total → t.total = s.total
  freq : ∀ q, r ≠ .freq q → lookup t.freq q = lookup s.freq q

theorem writeOther_keeps (r : WinReg) (v : Word) (s : State) : WriteKeeps r s (s.writeOther r v) := by
  cases r with
  | freq q =>
    constructor
    case freq => exact fun q' hne => lookup_update_other _ _ fun h => hne (by rw [h])
    all_goals simp [State.writeOther]
  | _ => constructor <;> simp [State.writeOther, bitcntOf_lo, bitcntOf_hi]

/-- A host write while IDLE that is no reset. -/
theorem writeReg_keeps {r : WinReg} {v : Word} {s : State} (hs : s.seq = .idle)
    (hreset : r = .ctrl → v.getLsbD 0 = false) : WriteKeeps r s (s.writeReg r v) := by
  cases r with
  | ctrl =>
    have hw : s.writeReg .ctrl v = { s with irqEn := v.getLsbD 1 } := writeCtrl_irqEn (hreset rfl)
    rw [hw]
    constructor <;> simp
  | status =>
    have hw : s.writeReg .status v = s.writeStatus v := rfl
    rw [hw]
    constructor <;> simp [State.writeStatus]
  | cmd =>
    have hw : s.writeReg .cmd v = s.issue v := writeCmd_of_idle hs v
    rw [hw]
    constructor <;> simp [State.issue]
  | _ =>
    rw [writeReg_other hs (by simp) (by simp) (by simp)]
    exact writeOther_keeps _ v s

/-- What an access the host makes while IDLE may be: one that changes memory and the model's own fields only, a reset,
or a write of the window that keeps all but the register it writes. -/
theorem hostAccess_idle {op : HostOp} {s t : State} (hs : s.seq = .idle) (h : hostAccess op s = .next t) :
    (t = { s with mem := t.mem, host := t.host, rdata := t.rdata, freeCount := t.freeCount } ∧
      ((∀ a v, op ≠ .memWrite a v) → t.mem = s.mem)) ∨
    op = .hwReset ∨ (∃ v, op = .write 4 0x004 v ∧ v.getLsbD 0 = true) ∨
    ∃ off v, op = .write 4 off v ∧ off % 4 = 0 ∧ WriteKeeps (winRegAt off) s t := by
  rcases hostAccess_next h with ⟨size, off, v, rfl, hok, rfl⟩ | ⟨_, off, -, -, rfl⟩ | ⟨-, rfl⟩ | ⟨a, v, rfl, -, rfl⟩ |
    ⟨a, -, -, rfl⟩ | ⟨rfl, -⟩
  · obtain ⟨rfl, h4, -⟩ := windowAccessOk_iff.1 hok
    by_cases hreset : winRegAt off = .ctrl ∧ v.getLsbD 0 = true
    · obtain rfl := off_eq_of_winRegAt h4 hreset.1 (by simp)
      exact .inr (.inr (.inl ⟨v, rfl, hreset.2⟩))
    · exact .inr (.inr (.inr ⟨off, v, rfl, h4,
        writeReg_keeps hs fun hr => Bool.eq_false_iff.2 fun hv => hreset ⟨hr, hv⟩⟩))
  · rw [readReg_frame]
    exact .inl ⟨rfl, fun _ => rfl⟩
  · exact .inl ⟨rfl, fun _ => rfl⟩
  · exact .inl ⟨rfl, fun hno => absurd rfl (hno a v)⟩
  · exact .inl ⟨rfl, fun _ => rfl⟩
  · exact .inr (.inl rfl)

/-- Settles O6: a step while IDLE is an access of `hostAccess_idle`, and a register other than the one written is one
at another offset (`off_eq_of_winRegAt`). -/
theorem idleEngineChangesNothing : Obligations.IdleEngineChangesNothing := by
  unfold Obligations.IdleEngineChangesNothing
  intro s hs
  refine ⟨fun hh => step_idle_nil hs hh, fun t h => ?_⟩
  rcases step_next h with ⟨-, -, rfl⟩ | ⟨op, ops, l, hh, hl, hop⟩ | ⟨hexec, -⟩
  · exact .inl ⟨rfl, fun _ => rfl⟩
  · obtain rfl : l = s.lag := by simpa [hs] using hl
    have hserves : s.serves op := ⟨not_executes_of_idle hs, ops, hh⟩
    rcases hostAccess_idle (s := { s with host := ops }) hs hop with ⟨hframe, hmem⟩ | rfl | ⟨v, rfl, hv⟩ | ⟨off, v, rfl, h4, hkeeps⟩
    · exact .inl ⟨hframe, fun hno => hmem fun a v he => hno a v (he ▸ hserves)⟩
    · exact .inr (.inl (.inl hserves))
    · exact .inr (.inl (.inr ⟨v, hserves, hv⟩))
    · obtain ⟨hframe, hctrl, hstatus, hcmd, hsb, hsl, hdb, hdc, htb, htc, hlo, hhi, htot, hfreq⟩ := hkeeps
      have other {r : WinReg} (hne : off ≠ offsetOf r)
          (hr : r ∈ [WinReg.id, .ctrl, .status, .cmd, .srcBase, .srcLen, .dstBase, .dstCap, .tmpBase, .tmpCap, .outLen, .srcPos, .bitcntLo, .bitcntHi, .total, .errInfo]) :
          winRegAt off ≠ r := fun h => hne (off_eq_of_winRegAt h4 h hr)
      have hhost : t.host = ops := congrArg State.host hframe
      exact .inr (.inr ⟨off, v, hserves, by rw [hhost]; exact hframe, fun hne => hctrl (other hne (by simp)),
        fun h8 hc => hstatus (other h8 (by simp)) (other hc (by simp)),
        fun hne => (hcmd (other hne (by simp))).imp_left (·.trans hs), fun hne => hsb (other hne (by simp)),
        fun hne => hsl (other hne (by simp)), fun hne => hdb (other hne (by simp)),
        fun hne => hdc (other hne (by simp)), fun hne => htb (other hne (by simp)),
        fun hne => htc (other hne (by simp)), fun hne => hlo (other hne (by simp)),
        fun hne => hhi (other hne (by simp)), fun hne => htot (other hne (by simp)),
        fun q hne => hfreq q fun h => hne (off_eq_of_freq h4 h)⟩)
  · exact absurd hexec (not_executes_of_idle hs)

end Sys2Proof.Machine
end

section
/-! PROOFS. The host's accesses to the data space (20_memory.md sections 1 and 5) and resets (70_reset_and_hazards.md
section 1). -/

namespace Sys2Proof.Machine

/-! ### Memory in use (R84) -/

theorem hostAccess_noSuchAddress {a : Nat} (ha : 2 ^ 32 ≤ a) (s : State) (v : Byte) :
    hostAccess (.memWrite a v) s = .fault .noSuchAddress ∧ hostAccess (.memRead a) s = .fault .noSuchAddress :=
  ⟨if_pos ha, if_pos ha⟩

section
variable {s : State} {a : Nat} (ha : a < 2 ^ 32)
include ha

theorem hostAccess_memWrite (v : Byte) : hostAccess (.memWrite a v) s =
    if s.memoryBusy s.regionsInUse a then .refused .memoryInUse else .next { s with mem := s.mem.write a v } :=
  if_neg (Nat.not_le.2 ha)

theorem hostAccess_memRead : hostAccess (.memRead a) s =
    if s.memoryBusy s.regionsWritten a then .refused .memoryInUse
    else .next { s with rdata := (s.mem.read a).setWidth 32 } :=
  if_neg (Nat.not_le.2 ha)

end

theorem memoryBusy_of_idle {s : State} (hs : s.seq = .idle) (rs : List Region) (a : Nat) :
    s.memoryBusy rs a = false := by
  simp [State.memoryBusy, busy_of_idle hs]

theorem memoryBusy_of_busy {s : State} (hb : s.seq = .busy) (rs : List Region) (a : Nat) :
    s.memoryBusy rs a = true ↔ ∃ r ∈ rs, s.inRegion r a = true := by
  simp [State.memoryBusy, busy_of_busy hb]

theorem not_memoryBusy {s : State} {rs : List Region} {a : Nat} (h : ∀ r ∈ rs, s.inRegion r a = false) :
    s.memoryBusy rs a = false := by
  rw [State.memoryBusy, Bool.and_eq_false_iff, List.any_eq_false]
  exact .inr fun r hr => Bool.eq_false_iff.1 (h r hr)

theorem regionsInUse_of_ok {s : State} {i : Instr} (h : decode s.cmd = .ok i) : s.regionsInUse = usedRegions i := by
  rw [State.regionsInUse, show s.fetch = .ok i from h]

theorem regionsInUse_of_error {s : State} {e : Reject} (h : decode s.cmd = .error e) : s.regionsInUse = [] := by
  rw [State.regionsInUse, show s.fetch = .error e from h]

theorem regionsWritten_of_ok {s : State} {i : Instr} (h : decode s.cmd = .ok i) :
    s.regionsWritten = writeRegions i := by
  rw [State.regionsWritten, show s.fetch = .ok i from h]

theorem regionsWritten_of_error {s : State} {e : Reject} (h : decode s.cmd = .error e) : s.regionsWritten = [] := by
  rw [State.regionsWritten, show s.fetch = .error e from h]

/-- While a command runs, the host's write is refused in the regions it uses and stored elsewhere. -/
theorem memWrite_busy {s : State} {i : Instr} {a : Nat} (hb : s.seq = .busy) (hdec : decode s.cmd = .ok i)
    (ha : a < 2 ^ 32) (v : Byte) :
    ((∃ r, usesRegion i r = true ∧ s.inRegion r a = true) →
      hostAccess (.memWrite a v) s = .refused .memoryInUse) ∧
    ((∀ r, usesRegion i r = true → s.inRegion r a = false) →
      hostAccess (.memWrite a v) s = .next { s with mem := s.mem.write a v }) := by
  rw [hostAccess_memWrite ha, regionsInUse_of_ok hdec]
  refine ⟨fun ⟨r, hu, hr⟩ => if_pos ((memoryBusy_of_busy hb _ a).2 ⟨r, mem_usedRegions.2 hu, hr⟩), fun h => if_neg ?_⟩
  rw [not_memoryBusy fun r hr => h r (mem_usedRegions.1 hr)]
  exact Bool.false_ne_true

/-- While a command runs, the host's read is refused in the regions it writes and served elsewhere. -/
theorem memRead_busy {s : State} {i : Instr} {a : Nat} (hb : s.seq = .busy) (hdec : decode s.cmd = .ok i)
    (ha : a < 2 ^ 32) :
    ((∃ r ∈ writeRegions i, s.inRegion r a = true) → hostAccess (.memRead a) s = .refused .memoryInUse) ∧
    ((∀ r ∈ writeRegions i, s.inRegion r a = false) →
      hostAccess (.memRead a) s = .next { s with rdata := (s.mem.read a).setWidth 32 }) := by
  rw [hostAccess_memRead ha, regionsWritten_of_ok hdec]
  refine ⟨fun h => if_pos ((memoryBusy_of_busy hb _ a).2 h), fun h => if_neg ?_⟩
  rw [not_memoryBusy h]
  exact Bool.false_ne_true

/-- An illegal word uses no region. -/
theorem memAccess_busy_illegal {s : State} {e : Reject} {a : Nat} (hdec : decode s.cmd = .error e) (ha : a < 2 ^ 32)
    (v : Byte) :
    hostAccess (.memWrite a v) s = .next { s with mem := s.mem.write a v } ∧
      hostAccess (.memRead a) s = .next { s with rdata := (s.mem.read a).setWidth 32 } := by
  rw [hostAccess_memWrite ha, hostAccess_memRead ha, regionsInUse_of_error hdec, regionsWritten_of_error hdec,
    not_memoryBusy (by simp)]
  exact ⟨rfl, rfl⟩

/-- While IDLE memory is plain memory to the host. -/
theorem memAccess_idle {s : State} {a : Nat} (hs : s.seq = .idle) (ha : a < 2 ^ 32) (v : Byte) :
    hostAccess (.memWrite a v) s = .next { s with mem := s.mem.write a v } ∧
      hostAccess (.memRead a) s = .next { s with rdata := (s.mem.read a).setWidth 32 } := by
  rw [hostAccess_memWrite ha, hostAccess_memRead ha, memoryBusy_of_idle hs, memoryBusy_of_idle hs]
  exact ⟨rfl, rfl⟩

/-- Settles O26: the access by the sequencer and the word in CMD, and read after write (`Memory.read_write_self`). -/
theorem hostMemoryAccess : Obligations.HostMemoryAccess := by
  unfold Obligations.HostMemoryAccess
  refine ⟨fun i r => mem_writeRegions, fun s i a v hb hdec ha => ?busy, fun s e a v _ hdec ha =>
    memAccess_busy_illegal hdec ha v, fun s a v => ⟨fun ha => hostAccess_noSuchAddress ha s v, fun ha hs hwf => ?idle⟩⟩
  case busy =>
    obtain ⟨hwUsed, hwFree⟩ := memWrite_busy hb hdec ha v
    obtain ⟨hrWritten, hrFree⟩ := memRead_busy hb hdec ha
    exact ⟨hwUsed, hwFree, hrWritten, hrFree⟩
  case idle =>
    have hread := (memAccess_idle (s := { s with mem := s.mem.write a v }) hs ha v).2
    refine ⟨s.mem.write a v, (memAccess_idle hs ha v).1, ?_, Memory.wf_write v hwf ha,
      fun b => Memory.read_write_other s.mem v⟩
    rwa [Memory.read_write_self a v hwf] at hread

/-! ### Resets (R320 to R322) -/

theorem applyReset_idle_mem {s : State} (hs : s.seq = .idle) : s.applyReset.mem = s.mem := by
  unfold State.applyReset
  rw [hs]
  rfl

theorem applyReset_busy_mem {s : State} (hb : s.seq = .busy) : s.applyReset.mem = s.havocRegions s.abortedRegions := by
  unfold State.applyReset
  rw [hb]

/-- What a register holds after a reset: ID and PARAM their constants, every other 0. -/
theorem regWord_applyReset (s : State) (r : WinReg) : s.applyReset.regWord r =
    if r = .id then 0x48554631#32 else if r = .param then s.regWord .param else 0#32 := by
  cases r with
  | id => rfl
  | ctrl => simp [State.regWord, ctrlWord_eq]
  | status =>
    rw [applyReset_eq]
    exact (rfl : State.reset.statusWord = 0#32)
  | _ =>
    rw [applyReset_eq]
    simp [State.regWord, State.treeValid]

/-- A read of any offset of the window after a reset. -/
theorem reads_applyReset (s : State) {off : Nat} (h4 : off % 4 = 0) (hle : off ≤ 0x4FFC) : Reads s.applyReset off
    (if off = 0 then 0x48554631#32
      else if off = 0x04C then BitVec.ofNat 32 (s.params.brBlock * 2 ^ 16 + s.params.bwCap) else 0#32) := by
  have hid : winRegAt off = .id ↔ off = 0 :=
    ⟨fun h => off_eq_of_winRegAt h4 h (by simp), fun h => by rw [h]; rfl⟩
  have hparam : winRegAt off = .param ↔ off = 0x04C := ⟨off_eq_of_param h4, fun h => by rw [h]; rfl⟩
  have hread := reads_of h4 hle rfl (.inl (State.applyReset_seq s))
  rw [regWord_applyReset, regWord_param] at hread
  simpa only [hid, hparam] using hread

/-- Settles O28: both resets are `State.applyReset`, which is `State.engineReset` apart from memory. -/
theorem resetValues : Obligations.ResetValues := by
  unfold Obligations.ResetValues
  intro s
  refine ⟨s.applyReset, rfl, fun v hv => writeCtrl_reset hv ▸ writes_ctrl s v, applyReset_eq s, ?registers,
    applyReset_idle_mem, fun off => reads_applyReset s⟩
  case registers =>
    rw [applyReset_eq]
    exact ⟨rfl, rfl, rfl, rfl, rfl, rfl, rfl, rfl, rfl, rfl, rfl, rfl, rfl, rfl, rfl, rfl, rfl, rfl,
      fun q => lookup_replicate 0 q, rfl, lookup_empty, rfl⟩

theorem abortedRegions_of_ok {s : State} {i : Instr} (h : decode s.cmd = .ok i) {r : Region}
    (hr : r ∈ s.abortedRegions) : r ∈ writeRegions i := by
  rw [State.abortedRegions, show s.fetch = .ok i from h] at hr
  dsimp only at hr
  split_ifs at hr with hstart
  · exact absurd hr List.not_mem_nil
  · exact hr

theorem abortedRegions_of_error {s : State} {e : Reject} (h : decode s.cmd = .error e) : s.abortedRegions = [] := by
  rw [State.abortedRegions, show s.fetch = .error e from h]

/-- Settles O29: the registers by `applyReset_eq`, and memory by the regions an abort frees. -/
theorem resetAbortsCommand : Obligations.ResetAbortsCommand := by
  unfold Obligations.ResetAbortsCommand
  intro s hb
  have hreset := applyReset_eq s
  refine ⟨s.applyReset, rfl, by rw [hreset]; rfl, by rw [hreset]; rfl, by rw [hreset]; rfl, by rw [hreset]; rfl,
    by rw [hreset]; rfl, by rw [hreset]; rfl, by rw [hreset]; rfl, by rw [hreset]; rfl, by rw [hreset]; rfl,
    by rw [hreset]; rfl, fun i hdec a ha => ?outside, fun e hdec => ?illegal⟩
  case outside =>
    rw [applyReset_busy_mem hb]
    exact havocRegions_read fun r hr => ha r (abortedRegions_of_ok hdec hr)
  case illegal => rw [applyReset_busy_mem hb, abortedRegions_of_error hdec]; rfl

end Sys2Proof.Machine
end


section
/-! PROOFS. The results and errors of PACK, UNPACK, TREE_SER, TREE_DESER, ENC_RAW and DEC_RAW (41_bitstream.md,
43_framer.md, 44_dispatch.md). -/

namespace Sys2Proof.Machine

/-- A command whose start checks pass runs its body: `exec i s` is what the body answers. -/
theorem runCommand_eq {i : Instr} {s t : State} {body : State → State} (hrun : startResult i s = .run)
    (hbody : body s = t) : runCommand i s body = .next t :=
  hbody ▸ runCommand_run hrun

/-! ### PACK and UNPACK -/

theorem isBit_of_mem_unpacked {bs : List Bool} {v : Byte} (hv : v ∈ unpacked bs) : isBit v = true := by
  obtain ⟨b, -, rfl⟩ := List.mem_map.1 hv
  cases b <;> rfl

@[simp] theorem length_unpacked (bs : List Bool) : (unpacked bs).length = bs.length := List.length_map ..

theorem unpacked_map_bit (bs : List Bool) : ((unpacked bs).map fun v => v.getLsbD 0) = bs := by
  rw [unpacked, List.map_map]
  conv_rhs => rw [← List.map_id bs]
  refine List.map_congr_left fun b _ => ?_
  cases b <;> rfl

/-- SRC cut at offset `l.length`: the bytes before it, its length, and the byte read there. -/
theorem srcBytes_eq_append_cons {s : State} {l rest : List Byte} {v : Byte} (h : s.srcBytes = l ++ v :: rest) :
    s.srcBytes.take l.length = l ∧ l.length < s.srcLen.toNat ∧ s.mem.read (s.srcBase.toNat + l.length) = v := by
  have hlt : l.length < s.srcBytes.length := by rw [h]; simp
  refine ⟨by rw [h, List.take_left], by rwa [length_srcBytes] at hlt, ?_⟩
  rw [← getElem_srcBytes s l.length hlt]
  simp [h]

/-- Settles O34: each clause is the law of PACK for that ending, its bytes the bits `bs`. -/
theorem packPacksBits : Obligations.PackPacksBits := by
  unfold Obligations.PackPacksBits
  refine ⟨fun s bs hrun hread hsrc ht => ?done, fun s bs v rest hrun hread hsrc hv ht => ?illegal,
    fun s bs j hrun hread hsrc hj ht hnt => ?unwritable, fun s bs j hrun hbus hsrc ht => ?fetch⟩
  case done =>
    have hlen : s.srcLen.toNat = bs.length := by rw [← length_srcBytes, hsrc, length_unpacked]
    have hbody := packBody_done hrun hread (fun v hv => isBit_of_mem_unpacked (hsrc ▸ hv)) (hlen ▸ ht)
    rw [hsrc, unpacked_map_bit, hlen] at hbody
    exact runCommand_eq hrun hbody
  case illegal =>
    obtain ⟨htake, hlt, hbyte⟩ := srcBytes_eq_append_cons hsrc
    rw [length_unpacked] at htake hlt hbyte
    have hbody := packBody_illegal hrun hread hlt (fun u hu => isBit_of_mem_unpacked (htake ▸ hu))
      (by rw [hbyte]; simpa [isBit] using hv) ht
    rw [htake, unpacked_map_bit] at hbody
    exact runCommand_eq hrun hbody
  case unwritable =>
    have hlen : s.srcLen.toNat = bs.length := by rw [← length_srcBytes, hsrc, length_unpacked]
    have hbody := packBody_unwritable hrun hread (fun v hv => isBit_of_mem_unpacked (hsrc ▸ hv)) (hlen ▸ hj) ht.good
      (ht.not_good hnt)
    rw [hsrc, unpacked_map_bit] at hbody
    exact runCommand_eq hrun hbody
  case fetch =>
    have hlen : blockStart s.params j = bs.length := by
      rw [← length_take_block hbus.lt, hsrc, length_unpacked]
    have hbody := packBody_fetch hrun hbus (fun v hv => isBit_of_mem_unpacked (hsrc ▸ hv)) (hlen ▸ ht)
    rw [hsrc, unpacked_map_bit] at hbody
    exact runCommand_eq hrun hbody

/-- Settles O35: each clause is the law of UNPACK for that ending. -/
theorem unpackUnpacksBits : Obligations.UnpackUnpacksBits := by
  unfold Obligations.UnpackUnpacksBits
  intro s hrun
  refine ⟨fun hread => ⟨fun hn ht => ?done, fun hn ht => ?short, fun j hn hj ht hnt => ?unwritable⟩,
    fun j hbus hn ht => ?fetch⟩
  case done => exact runCommand_eq hrun (unpackBody_done hrun hread hn ht)
  case short => exact runCommand_eq hrun (unpackBody_short hrun hread hn ht)
  case unwritable => exact runCommand_eq hrun (unpackBody_unwritable hrun hread hn hj ht.good (ht.not_good hnt))
  case fetch => exact runCommand_eq hrun (unpackBody_fetch hrun hbus hn ht)

/-! ### TREE_SER -/

/-- Settles O43: both clauses are the laws of TREE_SER. -/
theorem treeSerWritesTree : Obligations.TreeSerWritesTree := by
  unfold Obligations.TreeSerWritesTree
  intro s t hrun htree
  refine ⟨fun ht => ?done, fun j hj ht hnt => ?unwritable⟩
  case done => exact runCommand_eq hrun (treeSerBody_done hrun htree ht)
  case unwritable => exact runCommand_eq hrun (treeSerBody_unwritable hrun htree hj ht.good (ht.not_good hnt))

/-! ### ENC_RAW and DEC_RAW -/

theorem hasCode_iff (codes : CodeTable) (v : Byte) : hasCode codes v = true ↔ lookup codes v ≠ [] := by
  rw [hasCode, decide_eq_true_iff, ne_eq, List.length_eq_zero_iff]

theorem hasCode_eq_false_iff (codes : CodeTable) (v : Byte) : hasCode codes v = false ↔ lookup codes v = [] := by
  rw [← Bool.not_eq_true, hasCode_iff, ne_eq, not_not]

/-- Settles O48: each clause is the law of ENC_RAW for that ending. -/
theorem encRawEmitsCodes : Obligations.EncRawEmitsCodes := by
  unfold Obligations.EncRawEmitsCodes
  intro s hrun
  refine ⟨fun hread => ⟨fun hc ht => ?done, fun j hj hc hno ht => ?noCode, fun j hc hj ht hnt => ?unwritable⟩,
    fun j hbus hc ht => ?fetch⟩
  case done => exact runCommand_eq hrun (encRawBody_done hrun hread (fun v hv => (hasCode_iff _ v).2 (hc v hv)) ht)
  case noCode =>
    exact runCommand_eq hrun (encRawBody_noCode hrun hread hj (fun v hv => (hasCode_iff _ v).2 (hc v hv))
      ((hasCode_eq_false_iff _ _).2 hno) ht)
  case unwritable =>
    exact runCommand_eq hrun (encRawBody_unwritable hrun hread (fun v hv => (hasCode_iff _ v).2 (hc v hv)) hj ht.good
      (ht.not_good hnt))
  case fetch =>
    exact runCommand_eq hrun (encRawBody_fetch hrun hbus (fun v hv => (hasCode_iff _ v).2 (hc v hv)) ht)

/-- Settles O49: each clause is the law of DEC_RAW for that ending. -/
theorem decRawWalksTree : Obligations.DecRawWalksTree := by
  unfold Obligations.DecRawWalksTree
  intro s t hrun htree
  refine ⟨fun hread => ⟨fun syms hn hd => ⟨fun ht => ?done, fun j hj ht hnt => ?unwritable⟩,
    fun ht => ⟨fun hn hd => ?cut, fun hn => ?short⟩⟩, fun j hbus hn ht => ?fetch⟩
  case done => exact runCommand_eq hrun (decRawBody_done hrun hread htree hn hd ht)
  case unwritable =>
    exact runCommand_eq hrun (decRawBody_unwritable hrun hread htree hn hd hj ht.good (ht.not_good hnt))
  case cut => exact runCommand_eq hrun (decRawBody_corrupt hrun hread htree (.inl ⟨hn, rfl, hd⟩) ht)
  case short => exact runCommand_eq hrun (decRawBody_corrupt hrun hread htree (.inr ⟨hn, rfl⟩) ht)
  case fetch => exact runCommand_eq hrun (decRawBody_fetch hrun htree hbus hn ht)

/-! ### TREE_DESER -/

theorem Tree.isNode_of_one_lt_size {t : Tree} (h : 1 < t.size) : t.isNode = true := by
  cases t with
  | leaf i q w => exact absurd h (by simp [Tree.size])
  | node i z o w => rfl

/-- Settles O45: each clause is the law of TREE_DESER for that error. -/
theorem treeDeserLocatesError : Obligations.TreeDeserLocatesError := by
  unfold Obligations.TreeDeserLocatesError
  intro s hrun hread fails
  refine ⟨fun t hn hcut => ?short, fun t k v rest hn hk hk2 hleaf hnode hsrc => ?badTag, fun rest hsrc => ?badRoot,
    fun t v rest hsize hsrc => ?tooMany⟩
  case short => exact runCommand_eq hrun (treeDeserBody_short hread hn hcut)
  case badTag =>
    exact runCommand_eq hrun (treeDeserBody_badTag hread hn hk (by simp only [Config.maxNodes]; omega)
      (fun _ => ⟨hleaf, hnode⟩) hsrc)
  case badRoot => exact runCommand_eq hrun (treeDeserBody_badRoot hread (by decide) hsrc)
  case tooMany =>
    exact runCommand_eq hrun (treeDeserBody_badTag hread (Tree.isNode_of_one_lt_size (by omega)) hsize (Nat.le_refl _)
      (fun h => absurd h (Nat.lt_irrefl _)) hsrc)

/-- Every way TREE_DESER ends: a tree installed with its codes, or none left and an error. -/
theorem treeDeserBody_ends (s : State) :
    (∃ t n, treeDeserBody s = { s with seq := .idle, done := true, tree := some t, codes := deriveCodes t, srcPos := n }) ∨
      ∃ r : Raise, (r.kind = .io ∨ r.kind = .corrupt) ∧ treeDeserBody s = s.uninstall.raiseErr r := by
  unfold treeDeserBody
  rcases parseTree_cases s.params s.mem (srcOpen s.srcBase.toNat s.srcLen.toNat) with ⟨r, he, hkind⟩ | ⟨t, c, he, -⟩
  · rw [he]
    exact .inr ⟨r, hkind, rfl⟩
  · rw [he]
    exact .inl ⟨t, _, rfl⟩

/-- Settles O44: a serialized tree is parsed whatever follows it, any other SRC is rejected by the soundness of the
parser, and a cut SRC by the law of a block fetch. -/
theorem treeDeserInstallsTree : Obligations.TreeDeserInstallsTree := by
  unfold Obligations.TreeDeserInstallsTree
  intro s hrun installs
  refine ⟨fun hread => ⟨fun t rest hn hs hsrc => ?done, fun hno => ?rejected⟩,
    fun j t hbus hn => ⟨fun rest hs hsrc => ?doneBefore, fun hcut => ?fetch⟩, ?ends⟩
  case done => exact runCommand_eq hrun (treeDeserBody_done hread hn hs hsrc)
  case rejected =>
    rcases treeDeserBody_sound hread with ⟨⟨kind, info⟩, rfl, hbody⟩ | ⟨t, rest, hn, hs, hsrc⟩
    · exact ⟨info.toNat, runCommand_eq hrun (hbody.trans (by
        rw [raise, BitVec.ofNat_toNat, BitVec.setWidth_eq]; rfl))⟩
    · exact absurd hsrc (hno t rest hn hs)
  case doneBefore =>
    exact runCommand_eq hrun (treeDeserBody_parsed (feeds_cut s.params s.mem j) hn hs (hsrc ▸ src_cut hbus))
  case fetch => exact runCommand_eq hrun (treeDeserBody_fetch hbus hn hcut)
  case ends =>
    rcases treeDeserBody_ends s with ⟨t, n, hbody⟩ | ⟨r, hkind, hbody⟩
    · exact .inl ⟨t, n, runCommand_eq hrun hbody⟩
    · exact .inr ⟨r, hkind, runCommand_eq hrun hbody⟩

end Sys2Proof.Machine
end


section
/-! PROOFS. The results of ENCODE and DECODE (45_pipeline.md sections 1 and 2), and the round trip of the command
words (30_encoding.md section 2). -/

namespace Sys2Proof.Machine

/-! ### ENCODE -/

/-- The counts of a byte sequence, from cleared counters: none wraps, as a region has less than 2^32 bytes. -/
theorem lookup_tallyAll_clear {l : List Byte} (h : l.length < 2 ^ 32) (q : Byte) :
    (lookup (Counters.clear.tallyAll l).freq q).toNat = l.count q := by
  have hzero : ∀ q, (lookup Counters.clear.freq q).toNat + l.count q = l.count q := fun q => by simp
  rw [tallyAll_toNat fun q => (hzero q).trans_lt (List.count_le_length.trans_lt h), hzero]

theorem length_srcBytes_lt (s : State) : s.srcBytes.length < 2 ^ 32 := by
  rw [length_srcBytes]
  exact s.srcLen.isLt

/-- The table the statements describe by its counts is the one ENCODE builds its tree from. -/
theorem eq_encodeFreq {pre : Bool} {s : State} {f : FreqTable}
    (hcounted : pre = false → ∀ q, (lookup f q).toNat = s.srcBytes.count q) (hgiven : pre = true → f = s.freq) :
    f = encodeFreq pre s := by
  cases pre with
  | false =>
    refine table_ext fun q => BitVec.eq_of_toNat_eq ?_
    rw [hcounted rfl q]
    exact (lookup_tallyAll_clear (length_srcBytes_lt s) q).symm
  | true => exact hgiven rfl

/-- ENCODE of a readable SRC is what follows pass 1, over the counts of SRC or, with PRE, over the host's. -/
theorem exec_encode_rest {pre : Bool} {s : State} {f : FreqTable} (hrun : startResult (.encode pre) s = .run)
    (hread : Readable s.params s.srcBase.toNat s.srcLen.toNat) (hf : f = encodeFreq pre s) :
    exec (.encode pre) s =
      .next (encodeRest { s with freq := f, total := if pre then s.total else s.srcLen }) := by
  subst hf
  cases pre with
  | false => exact runCommand_eq hrun (encodeBody_eq hread)
  | true => exact runCommand_eq hrun rfl

/-- Without PRE every byte of SRC is counted, so that only ENCODE.PRE can meet one without a code. -/
theorem encodeFreq_ne_zero {s : State} {v : Byte} (hv : v ∈ s.srcBytes) : lookup (encodeFreq false s) v ≠ 0 :=
  (tallyAll_clear_ne_zero (length_srcBytes_lt s)).2 hv

theorem length_artifact (t : Tree) (bits : List Bool) :
    (artifact t bits).length = 19 * t.leaves - 9 + 1 + (dec bits.length).length + 1 + (bits.length + 7) / 8 := by
  simp only [artifact, headerBytes, List.length_append, List.length_cons, List.length_nil, length_packBits,
    length_serTree_eq]
  omega

theorem artifact_fields (t : Tree) (bits : List Bool) :
    artifact t bits = serTree t ++ [0x0A#8] ++ dec bits.length ++ [0x0A#8] ++ packBits bits := by
  simp [artifact, headerBytes, newline]

/-- Settles O51: `exec_encode_rest` and the law of what follows pass 1. -/
theorem encodeWritesArtifact : Obligations.EncodeWritesArtifact := by
  unfold Obligations.EncodeWritesArtifact
  intro pre s f t bits hrun hwf hne hread hcounted hgiven hbuild hbits htmp htmpRead hdst
  rw [← length_artifact] at hdst ⊢
  have hf : f = encodeFreq pre s := eq_encodeFreq hcounted fun h => (hgiven h).1
  have hcoded : ∀ v ∈ s.srcBytes, lookup f v ≠ 0 := by
    cases pre with
    | false => exact fun v hv => hf ▸ encodeFreq_ne_zero hv
    | true => exact (hgiven rfl).2
  exact ⟨artifact_fields t bits, (exec_encode_rest hrun hread hf).trans
    (congrArg _ (encodeRest_done hrun hwf hne hread hbuild hcoded hbits.symm htmp htmpRead hdst))⟩

/-- Settles O53: after pass 1 (`exec_encode_rest`) each clause is the law of what follows for that error; a bus error
of SRC ends pass 1 itself without PRE, and pass 2 with PRE. -/
theorem encodeStops : Obligations.EncodeStops := by
  unfold Obligations.EncodeStops
  refine ⟨fun pre s f t bits hrun hwf hne hread hcounted hgiven hbuild => ?stages, fun s j hrun hbus => ?pass1,
    fun s j t hrun hbus hbuild hcoded htmp => ?pass2⟩
  case stages =>
    intro tot
    have hexec := exec_encode_rest hrun hread (eq_encodeFreq hcounted hgiven)
    refine ⟨fun j hcoded hbits hj ht hnt => hexec.trans (congrArg _ ?tmp),
      fun j hcoded hbits htmp htmpRead hj ht hnt => hexec.trans (congrArg _ ?dst),
      fun j hcoded hbits htmp hbus hdst => hexec.trans (congrArg _ ?readBack),
      fun j _ hj hcoded hno hbits htmp => hexec.trans (congrArg _ ?noCode)⟩
    case tmp => exact encodeRest_tmpUnwritable hrun hne hread hbuild hcoded hbits.symm hj ht.good (ht.not_good hnt)
    case dst =>
      exact encodeRest_dstUnwritable hrun hwf hne hread hbuild hcoded hbits.symm htmp htmpRead hj ht.good
        (ht.not_good hnt)
    case readBack => exact encodeRest_fetchTmp hrun hwf hne hread hbuild hcoded hbits.symm htmp hbus hdst
    case noCode => exact encodeRest_noCode hrun hne hread hbuild hj hcoded hno hbits.symm htmp
  case pass1 =>
    have hlen : (s.srcBytes.take (blockStart s.params j)).length < 2 ^ 32 :=
      (List.length_take_le' _ _).trans_lt (length_srcBytes_lt s)
    exact ⟨_, lookup_tallyAll_clear hlen, runCommand_eq hrun (encodeBody_fetch hbus)⟩
  case pass2 =>
    exact runCommand_eq hrun (encodeRest_fetch (f := s.freq) (tot := s.total) hrun hbus hbuild hcoded rfl htmp)

/-! ### DECODE -/

theorem isDigit_iff_range (v : Byte) : isDigit v = true ↔ 0x30 ≤ v.toNat ∧ v.toNat ≤ 0x39 := by
  simp [isDigit]

/-- The artifact a statement writes field by field, in the order DECODE reads it. -/
theorem artifactFields_eq (t : Tree) (ds payload : List Byte) :
    serTree t ++ [0x0A#8] ++ ds ++ [0x0A#8] ++ payload = serTree t ++ newline :: (ds ++ newline :: payload) := by
  simp [newline]

/-- Where the payload begins: after the tree, the digits and two newlines. -/
theorem payload_offset (t : Tree) (n : Nat) : (serTree t).length + n + 2 = 19 * t.leaves - 7 + n := by
  have := t.leaves_pos
  rw [length_serTree_eq]
  omega

/-- Settles O54: the laws of DECODE for a whole artifact, for a DST that stops it, and for an empty SRC. -/
theorem decodeExpandsArtifact : Obligations.DecodeExpandsArtifact := by
  unfold Obligations.DecodeExpandsArtifact
  refine ⟨fun s t ds payload syms hrun hread hroot hleaves hsrc hds hdne hvalue hlen hwalk => ?artifact,
    fun s hrun h0 => ?empty⟩
  case artifact =>
    rw [artifactFields_eq] at hsrc
    have hdigits : ∀ v ∈ ds, isDigit v = true := fun v hv => (isDigit_iff_range v).2 (hds v hv)
    have hmax := (lt_two_pow_64_iff _).1 hvalue
    refine ⟨fun ht => ?done, fun j hj ht hnt => ?unwritable⟩
    case done =>
      rw [← payload_offset]
      exact runCommand_eq hrun (decodeBody_done hrun hread hroot hleaves hsrc hdigits hdne hmax hlen hwalk ht)
    case unwritable =>
      exact exec_decode_keepsTree hrun
        (decodeBody_unwritable hrun hread hroot hleaves hsrc hdigits hdne hmax hlen hwalk hj ht.good (ht.not_good hnt))
  case empty => exact runCommand_eq hrun (decodeBody_of_srcLen_zero h0)

/-- Settles O55: a DECODE that completes has read an artifact (`decodeBody_completed`). -/
theorem decodeAcceptsOnlyArtifacts : Obligations.DecodeAcceptsOnlyArtifacts := by
  unfold Obligations.DecodeAcceptsOnlyArtifacts
  intro s t hrun hread hne _ hexec herr
  obtain rfl : decodeBody s = t := by simpa using (exec_decode hrun).symm.trans hexec
  obtain ⟨T, ds, payload, syms, hroot, hleaves, hsrc, hds, hdne, hmax, hlen, hwalk, hmem, hout⟩ :=
    decodeBody_completed hrun hread hne herr
  exact ⟨T, ds, payload, syms, hroot, hleaves, by rw [artifactFields_eq, hsrc],
    fun v hv => (isDigit_iff_range v).1 (hds v hv), hdne, (lt_two_pow_64_iff _).2 hmax, hlen, hwalk, hmem, hout⟩

/-! ### Command words -/

/-- Settles O1: `decode_ok` says which word decodes to `i`. -/
theorem decodeInvertsEncode : Obligations.DecodeInvertsEncode := by
  unfold Obligations.DecodeInvertsEncode
  exact fun i _ => (decode_ok _ i).2 rfl

/-- Settles O4: each word is the encoding of its command. -/
theorem sampleWordsDecode : Obligations.SampleWordsDecode := by
  unfold Obligations.SampleWordsDecode
  simp only [decode_ok]
  decide

end Sys2Proof.Machine
end
